-- ==== Sys2Proof/Word.lean ====
section
/-! DEFINITION. The word types of the machine: bytes, parcels (R55) and 64-bit words (R9). -/
namespace Sys2Proof

/-- A byte of memory. -/
abbrev Byte := BitVec 8
/-- A 32-bit parcel of the instruction stream (R55). -/
abbrev Parcel := BitVec 32
/-- A 64-bit scalar register, CSR or address (R9). -/
abbrev Word := BitVec 64

/-- Number of a scalar register s0 to s31. -/
abbrev SReg := Fin 32
/-- Number of a vector register v0 to v63. -/
abbrev VIdx := Fin 64
/-- Number of a fibre register f0 to f15. -/
abbrev FIdx := Fin 16
/-- Number of a tile t0 to t7. -/
abbrev TIdx := Fin 8
/-- Number of a keep mask k0 to k7. -/
abbrev KIdx := Fin 8
/-- Number of a completion counter w0 to w15. -/
abbrev WIdx := Fin 16

end Sys2Proof
end

