-- ==== Sys2Proof/Machine/Bits.lean ====
section
/-! DEFINITION. Bit-field, sign-extension and integer helpers over natural numbers and words. -/
namespace Sys2Proof.Machine
open Sys2Proof

/-- The field of `n` bits of `w` from bit `lo` upwards (R6). -/
def fld (w lo n : Nat) : Nat := w / 2 ^ lo % 2 ^ n

/-- Bit `i` of `w`. -/
def bitOf (w i : Nat) : Bool := w / 2 ^ i % 2 = 1

/-- The value of the low `w` bits of `v`, read as a two's complement number. -/
def toSigned (w v : Nat) : Int :=
  let u := v % 2 ^ w
  if 2 * u < 2 ^ w then (u : Int) else (u : Int) - (2 ^ w : Nat)

/-- An integer reduced modulo 2^w. -/
def ofInt (w : Nat) (x : Int) : Nat := (x % ((2 ^ w : Nat) : Int)).toNat

/-- Number of one bits among the low `n` bits. -/
def popCount (v : Nat) : Nat → Nat
  | 0 => 0
  | n + 1 => popCount v n + (if bitOf v n then 1 else 0)

/-- Number of zero bits above the highest one bit of the low `n` bits; `n` when there is none (R79). -/
def leadingZeros (v : Nat) : Nat → Nat
  | 0 => 0
  | n + 1 => if bitOf v n then 0 else 1 + leadingZeros v n

/-- Number of zero bits from bit `lo` up to the lowest one bit, at most `n` (R79). -/
def trailingZeros (v lo : Nat) : Nat → Nat
  | 0 => 0
  | n + 1 => if bitOf v lo then 0 else 1 + trailingZeros v (lo + 1) n

/-- The lowest index below `n`, counted from `lo`, whose bit is 1. -/
def lowestSet (v lo : Nat) : Nat → Option Nat
  | 0 => none
  | n + 1 => if bitOf v lo then some lo else lowestSet v (lo + 1) n

/-- Sign extension of a `BitVec` field to 64 bits. -/
def sext {n : Nat} (v : BitVec n) : Word := v.signExtend 64

/-- `ceil(log2 n)` for n ≥ 1: the least number of doublings of 1 that reach `n`. -/
def clog2 (n : Nat) : Nat := if n ≤ 1 then 0 else Nat.log2 (n - 1) + 1

/-- The least multiple of `a` not below `n`. -/
def roundUp (n a : Nat) : Nat := (n + a - 1) / a * a

/-- The integer square root, by trying the bits from `n` downwards. -/
def isqrtBits (v : Nat) (acc : Nat) : Nat → Nat
  | 0 => acc
  | n + 1 => let c := acc + 2 ^ n; isqrtBits v (if c * c ≤ v then c else acc) n

/-- The integer square root of `v`. -/
def isqrt (v : Nat) : Nat := isqrtBits v 0 (Nat.log2 v / 2 + 1)

/-- The list lo, lo + 1, … of `n` numbers. -/
def rangeFrom (lo : Nat) : Nat → List Nat
  | 0 => []
  | n + 1 => lo :: rangeFrom (lo + 1) n

/-- Insertion into a rising list without repeats. -/
def insertNat (x : Nat) : List Nat → List Nat
  | [] => [x]
  | y :: t => if x < y then x :: y :: t else if x = y then y :: t else y :: insertNat x t

/-- The bytes of a number, `n` of them, the lowest first. -/
def bytesOf (v : Nat) : Nat → List Byte
  | 0 => []
  | n + 1 => BitVec.ofNat 8 v :: bytesOf (v / 256) n

/-- The number whose bytes, the lowest first, are the list. -/
def ofBytes : List Byte → Nat
  | [] => 0
  | b :: t => b.toNat + 256 * ofBytes t

/-- Words packed, the first lowest, each `w` bits wide. -/
def packWords (w : Nat) : List Nat → Nat
  | [] => 0
  | v :: t => v % 2 ^ w + 2 ^ w * packWords w t

end Sys2Proof.Machine
end

