-- ==== Sys2Proof/Syntax.lean ====
section
/-! DEFINITION. The instructions of VA2 and the other steps of spec/opcode_table.json, one constructor of `Instr` a row.
A row without a word (an event of another agent) carries, as plain data, what that agent brings to the step. -/
namespace Sys2Proof

/-- Element tags (R12). -/
inductive Tag where
  | n64 | n32 | n16 | n8 | i64 | i32 | i16 | i8 | i4 | i2
  | f64 | f32 | bf16 | f16 | e5m2 | e4m3 | e3m2 | e2m3 | e2m1 | e8m0
deriving DecidableEq, Repr

/-- Scopes (R60). -/
inductive Scope where
  | hart | core | cluster | quad | package | system
deriving DecidableEq, Repr

/-- Access sizes of scalar loads and stores (R57). -/
inductive Size where
  | b | h | w | d
deriving DecidableEq, Repr

/-- Operand sizes of a scalar AMO (R61). -/
inductive AmoSize where
  | w | d | q
deriving DecidableEq, Repr

/-- The operations of an AMO, VAMO or VAMOO (R61). -/
inductive AmoOp where
  | add | and | or | xor | min | max | minn | maxn | swap | cas | fadd
deriving DecidableEq, Repr

/-- The CSRs (R62). -/
inductive Csr where
  | vl | vstart | vprog | vcfg | vgate | fflags | srseed | sroff | kthr
  | flen (n : Fin 16) | vtag (n : Fin 64)
  | vatp | hartid | coreid | quadid | ncores | nquads | ckcount
  | swin (n : Fin 4) | evec | ecause | epc | eval | estat
  | pclass | ltmask | ctrloc | ctrrem | ixlive
deriving DecidableEq, Repr

/-- Neighbour modifiers (R18, R63). -/
inductive Nbr where
  | none | l | r
deriving DecidableEq, Repr

/-- The second source of a vector instruction, which is also its form (R63, R64). -/
inductive VSrc where
  | vv (vb : VIdx) (nb : Nbr)
  | vx (s : SReg)
  | vi (imm : BitVec 24)
deriving DecidableEq, Repr

/-- The operands of a vector instruction with two sources. -/
structure VOps where
  vd : VIdx
  va : VIdx
  na : Nbr
  src : VSrc
  m : Bool
deriving DecidableEq, Repr

/-- The operands of a vector instruction with one source. -/
structure VUn where
  vd : VIdx
  va : VIdx
  na : Nbr
  m : Bool
deriving DecidableEq, Repr

/-- The operands of a vector memory instruction (R65): data register, base register, byte offset, mask. -/
structure VMem where
  vd : VIdx
  base : SReg
  off : BitVec 14
  m : Bool
deriving DecidableEq, Repr

/-- The operands of VAMO and VAMOO (R291); `va` = v0 stands for no return. -/
structure VAmoOps where
  vd : VIdx
  va : VIdx
  vb : VIdx
  base : SReg
  scope : Scope
  m : Bool
deriving DecidableEq, Repr

/-- The unit codes of a convoy header (R68). -/
inductive UnitCode where
  | ala | alb | ldp | stp | prm | mtx | sct | fbr
deriving DecidableEq, Repr

/-- The engines of a quad (R304). -/
inductive Engine where
  | cpe | ste | coe
deriving DecidableEq, Repr

/-- The registers of a context that CONTEXT_REGISTER_WRITE writes (R341). -/
inductive CtxReg where
  | evec
  | swin (n : Fin 4)
deriving DecidableEq, Repr

/-- Kinds of access that a trap records (R342). -/
inductive AccessKind where
  | load | store | fetch | none
deriving DecidableEq, Repr

/-- The causes of a trap (R343). -/
inductive Cause where
  | illegal | operand | misaligned | access | pageLoad | pageStore | pageFetch | unsupportedLeaf
  | gated | poison | breakpoint | systemCall | engineError | fabricError
deriving DecidableEq, Repr

/-- A retraining of a link: its port, and whether it came up (R379). -/
structure Retraining where
  port : Nat
  ok : Bool
deriving DecidableEq, Repr

/-- A hart slot of the device: physical core and slot (R406). -/
structure Slot where
  core : Fin 192
  slot : Fin 8
deriving DecidableEq, Repr

/-- A unicast or multicast request or response of the fabric (R379), in the fields this device acts on. `tainted`, `merges`, `rm`, `fz`,
`tag` and the bits of a mask below a whole byte are not in the header map of R379: what a sub-byte element, an engine's poison, a
float atomic or a reduction needs of its sender (log entry 21). -/
structure Packet where
  src : Nat              -- source device id
  dst : Nat              -- destination device id
  mc : Bool              -- carried by a multicast burst
  dt : Bool              -- on the detour channel
  string : BitVec 1024   -- the destination string of a multicast
  ocls : Fin 4           -- ordering class (R381)
  seq : Nat              -- stream sequence number, or burst number when mc
  bidx : Nat             -- index within a burst
  off : Nat              -- physical offset at the destination
  txn : Nat              -- transaction tag
  data : List Byte       -- payload
  mask : List Byte       -- the bits of each payload byte that a write changes
  marks : List Bool      -- data response: which of its sectors are poisoned
  tainted : Bool         -- write of an engine: the payload derives from a poisoned source
  wt : Bool              -- read: set the requesting hart's watch
  slot : Slot            -- the requesting hart of a watch, or the target hart
  op : AmoOp             -- atomic operation
  size : AmoSize         -- its size
  len : Nat              -- bytes a read or an atomic asks for
  rm : Nat               -- the sender's rounding mode, as its code
  fz : Bool              -- the sender's flush of wide floats
  merges : Bool          -- a reduction: it is performed on a poisoned sector too
  tag : Tag              -- the tag of its element
  lockset : List Nat     -- the offsets of all the places that its instruction accesses on this device
  closing : Bool         -- the last packet of its instruction there
deriving DecidableEq, Repr

/-- What a port notice says: a port that has failed, by its device and number, or a device that is lost (R383). -/
structure PortNews where
  failed : Option (Nat × Nat)
  lost : Option Nat
deriving DecidableEq, Repr

/-- A message of FSEND (R179): who sent it, its target by coreid and hart index, keys and 64-bit values in ascending key
order, the operation, the kind of the values, and its receipt word. -/
structure FMsg where
  id : Nat               -- its number at the sender
  born : Nat             -- the sending hart
  ctx : Fin 64
  core : Nat
  slot : Fin 8
  ascending : List (BitVec 32 × Word)
  op : Fin 4
  float : Bool
  signed : Bool
  rdev : Nat             -- home device of the receipt word
  receipt : Nat          -- where the receipt word lies there
deriving DecidableEq, Repr

/-- What makes two commands of one collective match (R391). -/
structure CollKey where
  gtag : Word
  op : Nat
  np : Nat
  rop : Nat
  stag : Nat
  dtag : Nat
  trips : List Nat
  plist : List Word
  conv : Bool
  rm : Nat
  sat : Bool
  fz : Bool
deriving DecidableEq, Repr

/-- One element that a participant contributes to a collective, and whether it derives from a poisoned sector (R319). -/
structure CollElem where
  bits : Nat
  poisoned : Bool
deriving DecidableEq, Repr

/-- The unit a retirement takes out of service (R371, R374). -/
inductive Retired where
  | core (n : Fin 192)
  | wayPair (n : Nat)
  | laneLink (n : Nat)
  | seqLink (n : Nat)
  | port (n : Nat)
deriving DecidableEq, Repr

/-- The header of a firmware image (R407). -/
structure FwHeader where
  magic : Nat
  kind : Nat
  svn : Nat
  length : Nat           -- of the body
  digest : BitVec 384    -- SHA-384 of the body
  ed : BitVec 512        -- Ed25519 signature
  ml : BitVec 26472      -- ML-DSA-65 signature
deriving DecidableEq, Repr

/-- The public keys that an image comes with (R407). -/
structure FwKeys where
  ed : List Byte
  ml : List Byte
deriving DecidableEq, Repr

/-- A firmware image with its keys (R407). -/
structure FwImage where
  head : FwHeader
  body : List Byte
  keys : FwKeys
deriving DecidableEq, Repr

/-- How a step of bring-up goes: whether it succeeds of itself; the image that step 2 or 6 verifies; the identity word that step 7 reads from
the cabling (R413). -/
structure BringStep where
  ok : Bool
  image : FwImage
  identity : Word
deriving DecidableEq, Repr

/-- Who writes a word of the management space (R404). -/
inductive MgmtWriter where
  | hart | host | firmware | monitor
deriving DecidableEq, Repr

/-- One constructor a row of spec/opcode_table.json. -/
inductive Instr where
  -- integer register-register (R79)
  | add (d a b : SReg) | sub (d a b : SReg) | and (d a b : SReg) | or (d a b : SReg) | xor (d a b : SReg)
  | sll (d a b : SReg) | srl (d a b : SReg) | sra (d a b : SReg) | slt (d a b : SReg) | sltu (d a b : SReg)
  | min (d a b : SReg) | max (d a b : SReg) | mul (d a b : SReg) | mulh (d a b : SReg) | mulhu (d a b : SReg)
  | div (d a b : SReg) | divu (d a b : SReg) | rem (d a b : SReg) | remu (d a b : SReg)
  | clz (d a : SReg) | ctz (d a : SReg) | popc (d a : SReg)
  -- immediates (R81, R82)
  | addi (d a : SReg) (imm : BitVec 15) | andi (d a : SReg) (imm : BitVec 15) | ori (d a : SReg) (imm : BitVec 15)
  | xori (d a : SReg) (imm : BitVec 15) | slti (d a : SReg) (imm : BitVec 15)
  | slli (d a : SReg) (sh : Fin 64) | srli (d a : SReg) (sh : Fin 64) | srai (d a : SReg) (sh : Fin 64)
  | lih (d : SReg) (imm : BitVec 20) | addpc (d : SReg) (imm : BitVec 20)
  -- loads and stores (R83)
  | ld (sz : Size) (d a : SReg) (off : BitVec 12) | ldz (sz : Size) (d a : SReg) (off : BitVec 12)
  | st (sz : Size) (b a : SReg) (off : BitVec 12)
  -- branches and jumps (R86, R87)
  | beq (a b : SReg) (off : BitVec 12) | bne (a b : SReg) (off : BitVec 12) | blt (a b : SReg) (off : BitVec 12)
  | bge (a b : SReg) (off : BitVec 12) | bltu (a b : SReg) (off : BitVec 12) | bgeu (a b : SReg) (off : BitVec 12)
  | jal (d : SReg) (off : BitVec 20) | jalr (d a : SReg) (imm : BitVec 15)
  -- scalar atomics (R287)
  | amoAdd (sc : Scope) (sz : AmoSize) (d a b : SReg) | amoAnd (sc : Scope) (sz : AmoSize) (d a b : SReg)
  | amoOr (sc : Scope) (sz : AmoSize) (d a b : SReg) | amoXor (sc : Scope) (sz : AmoSize) (d a b : SReg)
  | amoMin (sc : Scope) (sz : AmoSize) (d a b : SReg) | amoMax (sc : Scope) (sz : AmoSize) (d a b : SReg)
  | amoMinn (sc : Scope) (sz : AmoSize) (d a b : SReg) | amoMaxn (sc : Scope) (sz : AmoSize) (d a b : SReg)
  | amoSwap (sc : Scope) (sz : AmoSize) (d a b : SReg) | amoCas (sc : Scope) (sz : AmoSize) (d a b : SReg)
  | amoFadd (sc : Scope) (sz : AmoSize) (d a b : SReg)
  -- CSRs (R92)
  | csrr (d : SReg) (c : Csr) | csrw (c : Csr) (a : SReg) | csrs (c : Csr) (a : SReg) | csrc (c : Csr) (a : SReg)
  | vatpWrite (v : Word) | vgateWrite (v : Word) | contextRegisterWrite (r : CtxReg) (v : Word)
  -- control (R90, R95, R96, R348, R349, R228)
  | loopn (a : SReg) (len : Fin 64) | qrd (d : SReg) | drain (dispatch ret store engine : Bool)
  | trap (code : BitVec 8) | eret | ebreak (code : BitVec 8) | part (a : SReg)
  -- harts (R222 to R233, R354)
  | launch (a : SReg) | hyield | hwait (a : SReg) | hexit | fenceArrive (sc : Scope) (b : Fin 16) | bwait (b : Fin 16)
  | ppt (mask : BitVec 8)
  -- fences and caches (R263, R278)
  | fence (sc : Scope) (er ew lr lw : Bool)
  | clean (a : SReg) | flush (a : SReg) | inval (a : SReg) | iinv (a : SReg) | fetchb
  -- engines (R320 to R322)
  | ewait (n : WIdx) (a : SReg) | epoll (d : SReg) (n : WIdx) | ecancel (d : SReg) (n : WIdx)
  -- convoys (R68)
  | convoyHeader (units : List UnitCode)
  -- vector configuration (R102 to R104)
  | vsetvl (d a : SReg) (tag : Tag) | vcfg (a : SReg) | vcfgTag (a : SReg) (lo hi : VIdx) (tag : Tag) | vtag (vd : VIdx) (tag : Tag)
  -- vector arithmetic (R106 to R113)
  | vadd (sat : Bool) (o : VOps) | vsub (sat : Bool) (o : VOps) | vrsub (sat : Bool) (o : VOps)
  | vmul (o : VOps) | vmulh (o : VOps) | vdiv (o : VOps) | vrem (o : VOps) | vmin (o : VOps) | vmax (o : VOps)
  | vand (o : VOps) | vor (o : VOps) | vxor (o : VOps) | vsll (o : VOps) | vsrl (o : VOps) | vsra (o : VOps)
  | vfma (o : VOps) | vfms (o : VOps) | vfnma (o : VOps)
  | vabs (o : VUn) | vneg (o : VUn) | vsqrt (o : VUn) | vrsqrte (o : VUn) | vrcpe (o : VUn) | vexp2 (o : VUn)
  | vmv (o : VOps) | vid (vd : VIdx) (m : Bool)
  -- compare, mask, merge, conversion (R113 to R117)
  | vcmpEq (o : VOps) | vcmpNe (o : VOps) | vcmpLt (o : VOps) | vcmpLe (o : VOps) | vcmpGt (o : VOps) | vcmpGe (o : VOps)
  | vcmpUo (o : VOps) | mand (o : VOps) | mor (o : VOps) | mxor (o : VOps) | mnot (o : VUn) | vmerge (o : VOps)
  | vcvt (sat adv : Bool) (tag : Tag) (o : VUn) | vcvts (sat adv : Bool) (tag : Tag) (o : VUn)
  -- permutes, reductions, selection, transform (R120 to R135)
  | vslideup (o : VOps) | vslidedn (o : VOps) | vrgather (o : VOps) | vcompress (o : VUn)
  | vzip (hi : Bool) (o : VOps) | vunzip (hi : Bool) (o : VOps) | vtrn (hi : Bool) (o : VOps)
  | vredsum (o : VUn) | vredmax (o : VUn) | vredmin (o : VUn) | vredand (o : VUn) | vredor (o : VUn) | vredxor (o : VUn)
  | vscanAdd (o : VUn) | vscanMax (o : VUn) | vscanMin (o : VUn)
  | vmvxs (va : VIdx) (src : VSrc) (m : Bool) | vmvsx (vd : VIdx) (s : SReg) (m : Bool)
  | mpop (va : VIdx) (m : Bool) | mfirst (va : VIdx) (m : Bool)
  | vtopk (o : VOps) | vbkt (o : VOps) | vselge (o : VOps)
  | vdec (n : Fin 8) (vd va vb : VIdx) | vlut (n : Fin 8) (vd va : VIdx) (m : Bool)
  | ctblW (n : Fin 8) (va : VIdx) | ctblSwap (n : Fin 8)
  -- vector memory (R137 to R154, R389, R291)
  | vld (o : VMem) | vst (o : VMem) | vldq (o : VMem) (s : SReg) | vstq (o : VMem) (s : SReg)
  | vlds (o : VMem) (s : SReg) | vsts (o : VMem) (s : SReg)
  | vldx (o : VMem) (vb : VIdx) | vldxo (o : VMem) (vb : VIdx) | vstx (o : VMem) (vb : VIdx) | vstxo (o : VMem) (vb : VIdx)
  | vldff (o : VMem)
  | vsredAdd (o : VMem) (vb : VIdx) | vsredMax (o : VMem) (vb : VIdx) | vsredMin (o : VMem) (vb : VIdx) | vsredOr (o : VMem) (vb : VIdx)
  | vpref (base : SReg) (off : BitVec 14) (vb : VIdx) (m : Bool) | vmstore (o : VMem) (vb : VIdx)
  | vamoAdd (o : VAmoOps) | vamoAnd (o : VAmoOps) | vamoOr (o : VAmoOps) | vamoXor (o : VAmoOps) | vamoMin (o : VAmoOps)
  | vamoMax (o : VAmoOps) | vamoMinn (o : VAmoOps) | vamoMaxn (o : VAmoOps) | vamoSwap (o : VAmoOps) | vamoFadd (o : VAmoOps)
  | vamooAdd (o : VAmoOps) | vamooAnd (o : VAmoOps) | vamooOr (o : VAmoOps) | vamooXor (o : VAmoOps) | vamooMin (o : VAmoOps)
  | vamooMax (o : VAmoOps) | vamooMinn (o : VAmoOps) | vamooMaxn (o : VAmoOps) | vamooSwap (o : VAmoOps) | vamooFadd (o : VAmoOps)
  -- fibres and pigeonhole (R156, R157)
  | fld (f : FIdx) (base : SReg) (off : BitVec 14) | fst (f : FIdx) (base : SReg) (off : BitVec 14)
  | fldlvl (f : FIdx) (base : SReg) (off : BitVec 14) (va : VIdx) | flen (f : FIdx) (s : SReg)
  | finterMul (fd fa fb : FIdx) | finterAdd (fd fa fb : FIdx)
  | funionAdd (fd fa fb : FIdx) | funionMax (fd fa fb : FIdx) | funionOr (fd fa fb : FIdx) | fmerge (fd fa fb : FIdx)
  | fsort (fd fa : FIdx) | fcompact (fd fa : FIdx) | fexpand (vd : VIdx) (fa : FIdx) | fpos (fd fa fb : FIdx)
  | fsend (f : FIdx) (base : SReg) (off : BitVec 14) (tgt : SReg)
  | ixclr | ixins (va vb : VIdx) | ixlook (vd va vb : VIdx)
  | ixaccAdd (va vb : VIdx) | ixaccMax (va vb : VIdx) | ixaccMin (va vb : VIdx) | ixaccOr (va vb : VIdx)
  | ixdrain (f : FIdx) | ixcnt
  -- matrix and scout (R184)
  | tzero (t : TIdx) | tld (t : TIdx) (base stride : SReg) | tst (t : TIdx) (base stride : SReg)
  | tmvTileToVector (vd : VIdx) (t : TIdx) (row : SReg) | tmvVectorToTile (t : TIdx) (vd : VIdx) (row : SReg)
  | tfill (t : TIdx) (k : KIdx) | tredmax (vd : VIdx) (t : TIdx)
  | opa (sat : Bool) (t : TIdx) (va vb : VIdx) (k : Option KIdx) | opas (t : TIdx) (va vb : VIdx) (k : Option KIdx)
  | opag (sat : Bool) (t : TIdx) (va vb vx : VIdx) (k : Option KIdx) | tmma (sat : Bool) (t : TIdx) (base : SReg) (k : Option KIdx)
  | scoutA (vd : VIdx) (t : TIdx) (va vb : VIdx) | scoutT (k : KIdx) (vd va : VIdx)
  | kand (k a b : KIdx) | kor (k a b : KIdx) | kpop (k : KIdx)
  -- engine commands, context images (R313, R360)
  | ecmdCpe (vd va : VIdx) (m : Bool) | ecmdSte (vd va : VIdx) (m : Bool) | ecmdCoe (vd va : VIdx) (m : Bool)
  | savev (s : SReg) | restv (s : SReg)
  -- steps of the engines (R304 to R318, R392, R393): `id` numbers an accepted command
  | commandAccept (e : Engine) (dwords : List Word)
  | copy (id : Nat) | levelWalk (id : Nat) | allReduce (id : Nat) | reduceScatter (id : Nat) | allGather (id : Nat)
  | broadcast (id : Nat) | xa2a (id : Nat) | commandComplete (id : Nat) | commandFail (id : Nat) (code : BitVec 8)
  -- traps (R346)
  | trapEntry (c : Cause) (eval : Word) (kind : AccessKind) | asynchronousFabricError (h : Slot) (addr : Word)
  -- scheduler (R224, R225, R239, R243, R353, R355, R356)
  | issueOpportunity (core : Fin 192) | admitLaunch | createHart | preEmption (h : Slot) | escalation (h : Slot) | resumption
  | completionWordWrite (id : Nat) | arrivalRegister (h : Slot) (b : Fin 16) | mergedHartEmit (quad : Fin 6) (pool : Nat)
  | hwaitWake (h : Slot)
  -- memory errors (R261)
  | uncorrectableError (sector : Nat) (inHbm : Bool)
  -- fabric (R379 to R393)
  | read (p : Packet) | write (p : Packet) | atomic (p : Packet) | fsendMessage (p : Packet) (m : FMsg)
  | collectiveData (p : Packet) (key : CollKey) (elems : List CollElem)
  | arrivalIncrement (p : Packet) (ctx : Fin 64) (core : Nat) (slot : Fin 8) (w : WIdx) | announce (p : Packet) (key : CollKey)
  | dataResponse (p : Packet) | completionResponse (p : Packet) | errorResponse (p : Packet)
  | portNotice (p : Packet) (news : PortNews) | watchNotice (p : Packet) (sector : Nat)
  | linkRetrain (r : Retraining) | linkFailure (port : Nat)
  -- mailbox commands (R405, R406); `seq` is the doorbell's
  | createContext (seq : BitVec 24) (ctx : Word) (vatp evec sw0 sw1 sw2 sw3 base : Word)
  | startRootHart (seq : BitVec 24) (ctx core flags entry arg cword : Word)
  | endHart (seq : BitVec 24) (core slot : Word)
  | freezeContext (seq : BitVec 24) (ctx : Word) | thawContext (seq : BitVec 24) (ctx : Word)
  | debugHalt (seq : BitVec 24) (quad : Word) | endHalt (seq : BitVec 24) (quad : Word)
  | attestationReport (seq : BitVec 24) (nonce report : Word)
  | destroyContext (seq : BitVec 24) (ctx : Word) | modulePowerLimit (seq : BitVec 24) (watts : Word)
  -- host, firmware and package (R284, R371, R403, R404, R407, R411, R413)
  | managementWordWrite (who : MgmtWriter) (off : Nat) (v : Word)
  | hostWrite (addr : Nat) (data : List Byte) | hostRead (addr : Nat) (len : Nat) | atomicop (addr : Nat)
  | retirementPropose (u : Retired) (errs : Nat) | retirementApply | thermalThrottle (die : Fin 24) | thermalReset
  | bringUp (r : BringStep) | receiptAddPacket (p : Packet)
  | firmwareUpdate (seq : BitVec 24) (head : FwHeader) (body : List Byte) (keys : FwKeys) | quadReset (quad : Fin 6)
deriving DecidableEq, Repr

end Sys2Proof
end

