-- ==== Sys2Proof/WellFormed.lean ====
section
/-! DEFINITION. Which terms of `Instr` the encoding tables admit: the limits of R59 to R68, R156 and R184 that the types
of `Syntax` do not already state. -/
namespace Sys2Proof

/-- The second source is vector-vector. -/
def VSrc.isVV : VSrc → Bool
  | .vv _ _ => true
  | _ => false
/-- The second source is an immediate. -/
def VSrc.isVI : VSrc → Bool
  | .vi _ => true
  | _ => false
/-- The neighbour modifier of vb, if there is a vb. -/
def VSrc.nb : VSrc → Nbr
  | .vv _ n => n
  | _ => .none

/-- A non-zero modifier may stand on the sources of class ALU only (R64). -/
def VOps.plain (o : VOps) : Bool := o.na == .none && o.src.nb == .none
def VUn.plain (o : VUn) : Bool := o.na == .none

/-- Only SWAP and CAS have the 16-byte size, with even registers (R61). -/
def amoFits (quad : Bool) (sz : AmoSize) (d b : SReg) : Bool :=
  sz != .q || (quad && d.val % 2 == 0 && b.val % 2 == 0)

/-- The limits that the encoding tables set on each instruction. A step of another agent has no word and no limit. -/
def Instr.wf : Instr → Bool
  | .amoAdd _ sz d _ b | .amoAnd _ sz d _ b | .amoOr _ sz d _ b | .amoXor _ sz d _ b | .amoMin _ sz d _ b
  | .amoMax _ sz d _ b | .amoMinn _ sz d _ b | .amoMaxn _ sz d _ b | .amoFadd _ sz d _ b => amoFits false sz d b
  | .amoSwap _ sz d _ b | .amoCas _ sz d _ b => amoFits true sz d b
  | .drain a b c d => a || b || c || d
  | .fence _ er ew lr lw => (er || ew) && (lr || lw)
  | .convoyHeader us => decide (2 ≤ us.length) && decide (us.length ≤ 6)
  | .vrsub _ o => !o.src.isVV
  | .vmulh o | .vdiv o | .vrem o | .vfma o | .vfms o | .vfnma o => !o.src.isVI
  | .vmv o => match o.src with
    | .vv vb nb => vb == 0 && nb == .none
    | _ => o.va == 0 && o.na == .none
  | .vmerge o => o.m
  | .mand o | .mor o | .mxor o => o.src.isVV
  | .vslideup o | .vslidedn o | .vtopk o | .vselge o => o.plain && !o.src.isVV
  | .vrgather o => o.plain
  | .vcompress o => o.plain && o.m
  | .vzip _ o | .vunzip _ o | .vtrn _ o | .vbkt o => o.plain && o.src.isVV
  | .vredsum o | .vredmax o | .vredmin o | .vredand o | .vredor o | .vredxor o
  | .vscanAdd o | .vscanMax o | .vscanMin o => o.plain
  | .vmvxs _ src _ => !src.isVV
  | _ => true

/-- A row of the opcode table without a word: a step of another agent, or the effect of a CSR write that waited (R93). -/
def Instr.isEvent : Instr → Bool
  | .vatpWrite _ | .vgateWrite _ | .contextRegisterWrite _ _
  | .commandAccept _ _ | .copy _ | .levelWalk _ | .allReduce _ | .reduceScatter _ | .allGather _ | .broadcast _ | .xa2a _
  | .commandComplete _ | .commandFail _ _ | .trapEntry _ _ _ | .asynchronousFabricError _ _
  | .issueOpportunity _ | .admitLaunch | .createHart | .preEmption _ | .escalation _ | .resumption
  | .completionWordWrite _ | .arrivalRegister _ _ | .mergedHartEmit _ _ | .hwaitWake _ | .uncorrectableError _ _
  | .read _ | .write _ | .atomic _ | .fsendMessage _ _ | .collectiveData _ _ _ | .arrivalIncrement _ _ _ _ _ | .announce _ _
  | .dataResponse _ | .completionResponse _ | .errorResponse _ | .portNotice _ _ | .watchNotice _ _
  | .linkRetrain _ | .linkFailure _
  | .createContext _ _ _ _ _ _ _ _ _ | .startRootHart _ _ _ _ _ _ _ | .endHart _ _ _ | .freezeContext _ _ | .thawContext _ _
  | .debugHalt _ _ | .endHalt _ _ | .attestationReport _ _ _ | .destroyContext _ _ | .modulePowerLimit _ _
  | .managementWordWrite _ _ _ | .hostWrite _ _ | .hostRead _ _ | .atomicop _
  | .retirementPropose _ _ | .retirementApply | .thermalThrottle _ | .thermalReset | .bringUp _ | .receiptAddPacket _
  | .firmwareUpdate _ _ _ _ | .quadReset _ => true
  | _ => false

/-- Class of a vector instruction (R67). -/
inductive VClass where
  | alu | xfu | ldp | stp | prm | mtx | sct | fbr | cfg | sys
deriving DecidableEq, Repr

/-- The class R67 gives each vector instruction; none for the others. -/
def Instr.vclass : Instr → Option VClass
  | .vsetvl _ _ _ | .vcfg _ | .vcfgTag _ _ _ _ | .vtag _ _ => some .cfg
  | .vadd _ _ | .vsub _ _ | .vrsub _ _ | .vmul _ | .vmulh _ | .vdiv _ | .vrem _ | .vmin _ | .vmax _
  | .vand _ | .vor _ | .vxor _ | .vsll _ | .vsrl _ | .vsra _ | .vfma _ | .vfms _ | .vfnma _
  | .vabs _ | .vneg _ | .vsqrt _ | .vrsqrte _ | .vrcpe _ | .vexp2 _ | .vmv _ | .vid _ _
  | .vcmpEq _ | .vcmpNe _ | .vcmpLt _ | .vcmpLe _ | .vcmpGt _ | .vcmpGe _ | .vcmpUo _
  | .mand _ | .mor _ | .mxor _ | .mnot _ | .vmerge _ | .vcvt _ _ _ _ | .vcvts _ _ _ _ => some .alu
  | .vslideup _ | .vslidedn _ | .vrgather _ | .vcompress _ | .vzip _ _ | .vunzip _ _ | .vtrn _ _
  | .vredsum _ | .vredmax _ | .vredmin _ | .vredand _ | .vredor _ | .vredxor _
  | .vscanAdd _ | .vscanMax _ | .vscanMin _ | .vmvxs _ _ _ | .vmvsx _ _ _ | .mpop _ _ | .mfirst _ _
  | .vtopk _ | .vbkt _ | .vselge _ => some .prm
  | .vdec _ _ _ _ | .vlut _ _ _ _ | .ctblW _ _ | .ctblSwap _ => some .xfu
  | .vld _ | .vldq _ _ | .vlds _ _ | .vldx _ _ | .vldxo _ _ | .vldff _ | .vpref _ _ _ _ => some .ldp
  | .vst _ | .vstq _ _ | .vsts _ _ | .vstx _ _ | .vstxo _ _
  | .vsredAdd _ _ | .vsredMax _ _ | .vsredMin _ _ | .vsredOr _ _ | .vmstore _ _
  | .vamoAdd _ | .vamoAnd _ | .vamoOr _ | .vamoXor _ | .vamoMin _ | .vamoMax _ | .vamoMinn _ | .vamoMaxn _
  | .vamoSwap _ | .vamoFadd _ | .vamooAdd _ | .vamooAnd _ | .vamooOr _ | .vamooXor _ | .vamooMin _ | .vamooMax _
  | .vamooMinn _ | .vamooMaxn _ | .vamooSwap _ | .vamooFadd _ => some .stp
  | .fld _ _ _ | .fst _ _ _ | .fldlvl _ _ _ _ | .flen _ _ | .finterMul _ _ _ | .finterAdd _ _ _
  | .funionAdd _ _ _ | .funionMax _ _ _ | .funionOr _ _ _ | .fmerge _ _ _ | .fsort _ _ | .fcompact _ _
  | .fexpand _ _ | .fpos _ _ _ | .fsend _ _ _ _ | .ixclr | .ixins _ _ | .ixlook _ _ _
  | .ixaccAdd _ _ | .ixaccMax _ _ | .ixaccMin _ _ | .ixaccOr _ _ | .ixdrain _ | .ixcnt => some .fbr
  | .tzero _ | .tld _ _ _ | .tst _ _ _ | .tmvTileToVector _ _ _ | .tmvVectorToTile _ _ _ | .tfill _ _ | .tredmax _ _
  | .opa _ _ _ _ _ | .opas _ _ _ _ | .opag _ _ _ _ _ _ | .tmma _ _ _ _ => some .mtx
  | .scoutA _ _ _ _ | .scoutT _ _ _ | .kand _ _ _ | .kor _ _ _ | .kpop _ => some .sct
  | .ecmdCpe _ _ _ | .ecmdSte _ _ _ | .ecmdCoe _ _ _ | .savev _ | .restv _ => some .sys
  | _ => none

/-- Bytes of an instruction: one parcel, or two for a vector instruction (R55). -/
def Instr.len (i : Instr) : Nat := if i.vclass.isSome then 8 else 4

/-- The instructions that push one value on the return queue (R26). -/
def Instr.producesReturn : Instr → Bool
  | .vselge _ | .vmvxs _ _ _ | .mpop _ _ | .mfirst _ _ | .vdec _ _ _ _ | .ixins _ _
  | .ixaccAdd _ _ | .ixaccMax _ _ | .ixaccMin _ _ | .ixaccOr _ _ | .ixcnt | .kpop _ => true
  | _ => false

/-- The unit codes a class accepts in a convoy header (R68). -/
def VClass.accepts : VClass → UnitCode → Bool
  | .alu, .ala | .alu, .alb | .xfu, .alb | .ldp, .ldp | .stp, .stp | .prm, .prm | .mtx, .mtx | .sct, .sct | .fbr, .fbr => true
  | _, _ => false

end Sys2Proof
end

