-- ==== Sys2Proof/Decode.lean ====
section
/-! DEFINITION. The decoder of R55 to R73, total on any two parcels and rejecting by name, and after it the encoder,
written from the same tables. -/
namespace Sys2Proof
open Sys2Proof.Machine

/-- Why a parcel is no instruction (R72). -/
inductive Reject where
  | major | function | form | nonZero | csr | scope | size | condition | neighbour | tag | fibre | mask | engine | pair
  | count
deriving DecidableEq, Repr

/-- The codes of R12. -/
def tagOf : Nat → Option Tag
  | 0 => some .n64 | 1 => some .n32 | 2 => some .n16 | 3 => some .n8 | 4 => some .i64 | 5 => some .i32
  | 6 => some .i16 | 7 => some .i8 | 8 => some .i4 | 9 => some .i2 | 10 => some .f64 | 11 => some .f32
  | 12 => some .bf16 | 13 => some .f16 | 14 => some .e5m2 | 15 => some .e4m3 | 16 => some .e3m2 | 17 => some .e2m3
  | 18 => some .e2m1 | 19 => some .e8m0 | _ => none

/-- The codes of R12. -/
def tagCode : Tag → Nat
  | .n64 => 0 | .n32 => 1 | .n16 => 2 | .n8 => 3 | .i64 => 4 | .i32 => 5 | .i16 => 6 | .i8 => 7 | .i4 => 8 | .i2 => 9
  | .f64 => 10 | .f32 => 11 | .bf16 => 12 | .f16 => 13 | .e5m2 => 14 | .e4m3 => 15 | .e3m2 => 16 | .e2m3 => 17
  | .e2m1 => 18 | .e8m0 => 19

/-- The scope codes of R60. -/
def scopeOf : Nat → Option Scope
  | 0 => some .hart | 1 => some .core | 2 => some .cluster | 3 => some .quad | 4 => some .package | 5 => some .system
  | _ => none
/-- The scope codes of R60. -/
def scopeCode : Scope → Nat
  | .hart => 0 | .core => 1 | .cluster => 2 | .quad => 3 | .package => 4 | .system => 5

/-- The size codes of R57. -/
def sizeOf : Nat → Size
  | 0 => .b | 1 => .h | 2 => .w | _ => .d
/-- The size codes of R57. -/
def sizeCode : Size → Nat
  | .b => 0 | .h => 1 | .w => 2 | .d => 3

/-- The size codes of R61. -/
def amoSizeOf : Nat → Option AmoSize
  | 0 => some .w | 1 => some .d | 2 => some .q | _ => none
/-- The size codes of R61. -/
def amoSizeCode : AmoSize → Nat
  | .w => 0 | .d => 1 | .q => 2

/-- The CSR numbers of R62. -/
def csrOf (n : Nat) : Option Csr :=
  if 0x20 ≤ n ∧ n < 0x30 then some (.flen (Fin.ofNat 16 (n - 0x20)))
  else if 0x40 ≤ n ∧ n < 0x80 then some (.vtag (Fin.ofNat 64 (n - 0x40)))
  else if 0x120 ≤ n ∧ n < 0x124 then some (.swin (Fin.ofNat 4 (n - 0x120)))
  else match n with
    | 0 => some .vl | 1 => some .vstart | 2 => some .vprog | 3 => some .vcfg | 4 => some .vgate | 8 => some .fflags
    | 9 => some .srseed | 10 => some .sroff | 0x10 => some .kthr | 0x100 => some .vatp | 0x110 => some .hartid
    | 0x111 => some .coreid | 0x112 => some .quadid | 0x113 => some .ncores | 0x114 => some .nquads
    | 0x115 => some .ckcount | 0x130 => some .evec | 0x131 => some .ecause | 0x132 => some .epc | 0x133 => some .eval
    | 0x134 => some .estat | 0x140 => some .pclass | 0x141 => some .ltmask | 0x150 => some .ctrloc
    | 0x151 => some .ctrrem | 0x160 => some .ixlive | _ => none
/-- The CSR numbers of R62. -/
def csrNumber : Csr → Nat
  | .vl => 0 | .vstart => 1 | .vprog => 2 | .vcfg => 3 | .vgate => 4 | .fflags => 8 | .srseed => 9 | .sroff => 10
  | .kthr => 0x10 | .flen n => 0x20 + n.val | .vtag n => 0x40 + n.val | .vatp => 0x100 | .hartid => 0x110
  | .coreid => 0x111 | .quadid => 0x112 | .ncores => 0x113 | .nquads => 0x114 | .ckcount => 0x115
  | .swin n => 0x120 + n.val | .evec => 0x130 | .ecause => 0x131 | .epc => 0x132 | .eval => 0x133 | .estat => 0x134
  | .pclass => 0x140 | .ltmask => 0x141 | .ctrloc => 0x150 | .ctrrem => 0x151 | .ixlive => 0x160

/-- The unit codes of R68. -/
def unitOf : Nat → UnitCode
  | 0 => .ala | 1 => .alb | 2 => .ldp | 3 => .stp | 4 => .prm | 5 => .mtx | 6 => .sct | _ => .fbr
/-- The unit codes of R68. -/
def unitCode : UnitCode → Nat
  | .ala => 0 | .alb => 1 | .ldp => 2 | .stp => 3 | .prm => 4 | .mtx => 5 | .sct => 6 | .fbr => 7

/-- A register number of a field. -/
def sregAt (w lo : Nat) : SReg := Fin.ofNat 32 (w / 2 ^ lo)
/-- A field as a `BitVec`. -/
def bitsAt (w lo n : Nat) : BitVec n := BitVec.ofNat n (w / 2 ^ lo)

/-! ### Scalar parcels (R57 to R62) -/

/-- Format A, major 0x00 (R59). -/
def decodeRegReg (w : Nat) : Except Reject Instr :=
  let d := sregAt w 7; let a := sregAt w 12; let b := sregAt w 17
  match fld w 22 10 with
  | 1 => .ok (.add d a b)
  | 2 => .ok (.sub d a b)
  | 3 => .ok (.and d a b)
  | 4 => .ok (.or d a b)
  | 5 => .ok (.xor d a b)
  | 6 => .ok (.sll d a b)
  | 7 => .ok (.srl d a b)
  | 8 => .ok (.sra d a b)
  | 9 => .ok (.slt d a b)
  | 10 => .ok (.sltu d a b)
  | 11 => .ok (.min d a b)
  | 12 => .ok (.max d a b)
  | 13 => .ok (.mul d a b)
  | 14 => .ok (.mulh d a b)
  | 15 => .ok (.mulhu d a b)
  | 16 => .ok (.div d a b)
  | 17 => .ok (.divu d a b)
  | 18 => .ok (.rem d a b)
  | 19 => .ok (.remu d a b)
  | 20 => if fld w 17 5 = 0 then .ok (.clz d a) else .error .nonZero
  | 21 => if fld w 17 5 = 0 then .ok (.ctz d a) else .error .nonZero
  | 22 => if fld w 17 5 = 0 then .ok (.popc d a) else .error .nonZero
  | _ => .error .function

/-- The operation of an AMO by its code (R61). -/
def amoOf (op : Nat) (sc : Scope) (sz : AmoSize) (d a b : SReg) : Except Reject Instr :=
  match op with
  | 0 => .ok (.amoAdd sc sz d a b)
  | 1 => .ok (.amoAnd sc sz d a b)
  | 2 => .ok (.amoOr sc sz d a b)
  | 3 => .ok (.amoXor sc sz d a b)
  | 4 => .ok (.amoMin sc sz d a b)
  | 5 => .ok (.amoMax sc sz d a b)
  | 6 => .ok (.amoMinn sc sz d a b)
  | 7 => .ok (.amoMaxn sc sz d a b)
  | 8 => .ok (.amoSwap sc sz d a b)
  | 9 => .ok (.amoCas sc sz d a b)
  | 10 => .ok (.amoFadd sc sz d a b)
  | _ => .error .function

/-- Format A, major 0x0E (R61, R286). -/
def decodeAmo (w : Nat) : Except Reject Instr :=
  let d := sregAt w 7; let a := sregAt w 12; let b := sregAt w 17
  if fld w 31 1 ≠ 0 then .error .nonZero
  else match scopeOf (fld w 28 3) with
    | none => .error .scope
    | some sc => match amoSizeOf (fld w 26 2) with
      | none => .error .size
      | some sz =>
        if amoFits (fld w 22 4 = 8 || fld w 22 4 = 9) sz d b then amoOf (fld w 22 4) sc sz d a b else .error .pair

/-- Format I, shifts, major 0x06 (R58). -/
def decodeShift (w : Nat) : Except Reject Instr :=
  let d := sregAt w 7; let a := sregAt w 12; let sh : Fin 64 := Fin.ofNat 64 (w / 2 ^ 17)
  if fld w 25 7 ≠ 0 then .error .nonZero
  else match fld w 23 2 with
    | 0 => .ok (.slli d a sh)
    | 1 => .ok (.srli d a sh)
    | 2 => .ok (.srai d a sh)
    | _ => .error .function

/-- Format B (R86). -/
def decodeBranch (w : Nat) : Except Reject Instr :=
  let b := sregAt w 7; let a := sregAt w 12; let off := bitsAt w 20 12
  match fld w 17 3 with
  | 0 => .ok (.beq a b off) | 1 => .ok (.bne a b off) | 2 => .ok (.blt a b off) | 3 => .ok (.bge a b off)
  | 4 => .ok (.bltu a b off) | 5 => .ok (.bgeu a b off) | _ => .error .condition

/-- Format C (R60, R62). -/
def decodeCsr (w : Nat) : Except Reject Instr :=
  let d := sregAt w 7; let a := sregAt w 12
  match csrOf (fld w 20 12) with
  | none => .error .csr
  | some c => match fld w 17 3 with
    | 0 => if fld w 12 5 = 0 then .ok (.csrr d c) else .error .nonZero
    | 1 => if fld w 7 5 = 0 then .ok (.csrw c a) else .error .nonZero
    | 2 => if fld w 7 5 = 0 then .ok (.csrs c a) else .error .nonZero
    | 3 => if fld w 7 5 = 0 then .ok (.csrc c a) else .error .nonZero
    | _ => .error .function

/-- Format X with no operand but `sa`. -/
def onlySa (w : Nat) (k : SReg → Instr) : Except Reject Instr :=
  if fld w 7 5 = 0 ∧ fld w 17 8 = 0 then .ok (k (sregAt w 12)) else .error .nonZero
/-- Format X with no operand but imm8. -/
def onlyImm (w : Nat) (k : Nat → Except Reject Instr) : Except Reject Instr :=
  if fld w 7 10 = 0 then k (fld w 17 8) else .error .nonZero
/-- Format X with no operand. -/
def bare (w : Nat) (i : Instr) : Except Reject Instr :=
  if fld w 7 18 = 0 then .ok i else .error .nonZero

/-- Format X of space 0, major 0x11 (R58). -/
def decodeQueue (w : Nat) : Except Reject Instr :=
  match fld w 25 7 with
  | 0 => if fld w 12 13 = 0 then .ok (.qrd (sregAt w 7)) else .error .nonZero
  | 1 => onlyImm w fun m =>
    if m = 0 ∨ 16 ≤ m then .error .nonZero else .ok (.drain (bitOf m 0) (bitOf m 1) (bitOf m 2) (bitOf m 3))
  | _ => .error .function

/-- Format X of space 1, major 0x00 (R58). -/
def decodeSystem (w : Nat) : Except Reject Instr :=
  match fld w 25 7 with
  | 0 => onlyImm w fun m => .ok (.trap (BitVec.ofNat 8 m))
  | 1 => bare w .eret
  | 2 => onlyImm w fun m => .ok (.ebreak (BitVec.ofNat 8 m))
  | 3 => onlySa w .part
  | _ => .error .function

/-- Format X of space 1, major 0x01 (R58). -/
def decodeHart (w : Nat) : Except Reject Instr :=
  match fld w 25 7 with
  | 0 => onlySa w .launch
  | 1 => bare w .hyield
  | 2 => onlySa w .hwait
  | 3 => bare w .hexit
  | 4 => onlyImm w fun m => if 128 ≤ m then .error .nonZero else match scopeOf (fld m 4 3) with
    | none => .error .scope
    | some sc => .ok (.fenceArrive sc (Fin.ofNat 16 m))
  | 5 => onlyImm w fun m => if 16 ≤ m then .error .nonZero else .ok (.bwait (Fin.ofNat 16 m))
  | 6 => onlyImm w fun m => .ok (.ppt (BitVec.ofNat 8 m))
  | _ => .error .function

/-- Format X of space 1, major 0x02 (R58, R60). -/
def decodeFence (w : Nat) : Except Reject Instr :=
  match fld w 25 7 with
  | 0 => onlyImm w fun m => if 128 ≤ m then .error .nonZero else match scopeOf (fld m 0 3) with
    | none => .error .scope
    | some sc =>
      if fld m 3 2 = 0 ∨ fld m 5 2 = 0 then .error .nonZero
      else .ok (.fence sc (bitOf m 3) (bitOf m 4) (bitOf m 5) (bitOf m 6))
  | 1 => onlySa w .clean
  | 2 => onlySa w .flush
  | 3 => onlySa w .inval
  | 4 => onlySa w .iinv
  | 5 => bare w .fetchb
  | _ => .error .function

/-- Format X of space 1, major 0x03 (R58, R60). -/
def decodeEngine (w : Nat) : Except Reject Instr :=
  if fld w 21 4 ≠ 0 then .error .nonZero
  else
    let n : WIdx := Fin.ofNat 16 (w / 2 ^ 17)
    match fld w 25 7 with
    | 0 => if fld w 7 5 = 0 then .ok (.ewait n (sregAt w 12)) else .error .nonZero
    | 1 => if fld w 12 5 = 0 then .ok (.epoll (sregAt w 7) n) else .error .nonZero
    | 2 => if fld w 12 5 = 0 then .ok (.ecancel (sregAt w 7) n) else .error .nonZero
    | _ => .error .function

/-- Space 0 (R58). -/
def decodeSpace0 (w : Nat) : Except Reject Instr :=
  let d := sregAt w 7; let a := sregAt w 12; let imm := bitsAt w 17 15
  match fld w 2 5 with
  | 0x00 => decodeRegReg w
  | 0x01 => .ok (.addi d a imm)
  | 0x02 => .ok (.andi d a imm)
  | 0x03 => .ok (.ori d a imm)
  | 0x04 => .ok (.xori d a imm)
  | 0x05 => .ok (.slti d a imm)
  | 0x06 => decodeShift w
  | 0x07 => .ok (.lih d (bitsAt w 12 20))
  | 0x08 => .ok (.addpc d (bitsAt w 12 20))
  | 0x09 =>
    if fld w 19 1 = 0 then .ok (.ld (sizeOf (fld w 17 2)) d a (bitsAt w 20 12))
    else .ok (.ldz (sizeOf (fld w 17 2)) d a (bitsAt w 20 12))
  | 0x0A => if fld w 19 1 = 0 then .ok (.st (sizeOf (fld w 17 2)) d a (bitsAt w 20 12)) else .error .nonZero
  | 0x0B => decodeBranch w
  | 0x0C => .ok (.jal d (bitsAt w 12 20))
  | 0x0D => .ok (.jalr d a imm)
  | 0x0E => decodeAmo w
  | 0x0F => decodeCsr w
  | 0x10 =>
    if fld w 7 5 = 0 ∧ fld w 23 9 = 0 then .ok (.loopn a (Fin.ofNat 64 (w / 2 ^ 17))) else .error .nonZero
  | 0x11 => decodeQueue w
  | _ => .error .major

/-- Space 1 (R58). -/
def decodeSpace1 (w : Nat) : Except Reject Instr :=
  match fld w 2 5 with
  | 0x00 => decodeSystem w
  | 0x01 => decodeHart w
  | 0x02 => decodeFence w
  | 0x03 => decodeEngine w
  | _ => .error .major

/-- The unit codes from bit 5 up, for `n` covered instructions (R68). -/
def unitsAt (w lo : Nat) : Nat → List UnitCode
  | 0 => []
  | n + 1 => unitOf (fld w lo 3) :: unitsAt w (lo + 3) n

/-- A convoy header (R68). -/
def decodeHeader (w : Nat) : Except Reject Instr :=
  let n := fld w 2 3 + 2
  if 6 < n then .error .count
  else if w / 2 ^ (3 * n + 5) ≠ 0 then .error .nonZero
  else .ok (.convoyHeader (unitsAt w 5 n))

/-! ### Vector words (R63 to R67) -/

/-- The fields of a vector word (R63). -/
structure VFields where
  op : Nat
  form : Nat
  vd : Nat
  va : Nat
  vb : Nat
  m : Bool
  na : Nat
  nb : Nat
  fn : Nat
  x : Nat
deriving DecidableEq, Repr

/-- The fields of the word in two parcels (R63, R98). -/
def vfields (p0 p1 : Nat) : VFields where
  op := fld p0 2 6
  form := fld p0 8 2
  vd := fld p0 10 6
  va := fld p0 16 6
  vb := fld p0 22 6
  m := bitOf p0 28
  na := fld p0 29 2
  nb := fld p0 31 1 + 2 * fld p1 0 1
  fn := fld p1 1 7
  x := fld p1 8 24

/-- The neighbour codes of R63; 0b11 is refused before. -/
def nbrOf : Nat → Nbr
  | 0 => .none | 1 => .l | _ => .r
/-- The neighbour codes of R63. -/
def nbrCode : Nbr → Nat
  | .none => 0 | .l => 1 | .r => 2

/-- A vector register number. -/
def vreg (n : Nat) : VIdx := Fin.ofNat 64 n

/-- The second source by the form (R63, R64). -/
def srcOf (f : VFields) : Except Reject VSrc :=
  match f.form with
  | 0 => if f.x = 0 then .ok (.vv (vreg f.vb) (nbrOf f.nb)) else .error .nonZero
  | 1 => if f.vb = 0 ∧ f.nb = 0 ∧ f.x < 32 then .ok (.vx (Fin.ofNat 32 f.x)) else .error .nonZero
  | _ => if f.vb = 0 ∧ f.nb = 0 then .ok (.vi (BitVec.ofNat 24 f.x)) else .error .nonZero

/-- An instruction with two sources, in any form. -/
def twoSrc (f : VFields) (k : VOps → Instr) : Except Reject Instr :=
  match srcOf f with
  | .error e => .error e
  | .ok src =>
    let i := k ⟨vreg f.vd, vreg f.va, nbrOf f.na, src, f.m⟩
    if i.wf then .ok i else .error .form

/-- An instruction with one vector source: form vv, vb = 0. -/
def oneSrc (f : VFields) (k : VUn → Instr) : Except Reject Instr :=
  if f.form = 0 ∧ f.vb = 0 ∧ f.nb = 0 ∧ f.x = 0 then
    let i := k ⟨vreg f.vd, vreg f.va, nbrOf f.na, f.m⟩
    if i.wf then .ok i else .error .form
  else .error .nonZero

/-- fn must be zero where the table gives none. -/
def fnZero (f : VFields) (r : Except Reject Instr) : Except Reject Instr :=
  if f.fn = 0 then r else .error .function
/-- fn is one modifier bit. -/
def fnBit (f : VFields) (k : Bool → Except Reject Instr) : Except Reject Instr :=
  if f.fn < 2 then k (bitOf f.fn 0) else .error .function
/-- No neighbour modifier, no mask. -/
def noMods (f : VFields) (r : Except Reject Instr) : Except Reject Instr :=
  if f.na = 0 ∧ f.nb = 0 then (if f.m then .error .mask else r) else .error .neighbour

/-- Form vv with x = 0, no modifier and no mask. -/
def plainVV (f : VFields) (r : Except Reject Instr) : Except Reject Instr :=
  noMods f (if f.form = 0 ∧ f.x = 0 then r else .error .form)

/-- The memory form (R65): `s` says whether bits 9:5 name a register. -/
def memForm (f : VFields) (s : Bool) (r : Except Reject Instr) : Except Reject Instr :=
  if f.form ≠ 1 then .error .form
  else if f.na ≠ 0 ∨ f.nb ≠ 0 then .error .neighbour
  else if s = false ∧ fld f.x 5 5 ≠ 0 then .error .nonZero
  else r

/-- The base, the second register and the offset of a memory form. -/
def baseOf (f : VFields) : SReg := sregAt f.x 0
def secondOf (f : VFields) : SReg := sregAt f.x 5
def offOf (f : VFields) : BitVec 14 := bitsAt f.x 10 14
/-- The operands of a vector memory instruction. -/
def vmemOf (f : VFields) : VMem := ⟨vreg f.vd, baseOf f, offOf f, f.m⟩

/-- A memory instruction without an index. -/
def memPlain (f : VFields) (s : Bool) (i : Instr) : Except Reject Instr :=
  memForm f s (if f.va = 0 ∧ f.vb = 0 then .ok i else .error .nonZero)
/-- A memory instruction with an index in vb. -/
def memIndex (f : VFields) (i : Instr) : Except Reject Instr :=
  memForm f false (if f.va = 0 then .ok i else .error .nonZero)

/-- A fibre operand: 32 + 2n (R67). -/
def fibreOf (n : Nat) : Option FIdx := if 32 ≤ n ∧ n % 2 = 0 then some (Fin.ofNat 16 ((n - 32) / 2)) else none

/-- One fibre operand. -/
def withFibre (n : Nat) (k : FIdx → Except Reject Instr) : Except Reject Instr :=
  match fibreOf n with
  | some f => k f
  | none => .error .fibre
/-- Three fibre operands in vd, va and vb. -/
def threeFibres (f : VFields) (k : FIdx → FIdx → FIdx → Instr) : Except Reject Instr :=
  plainVV f (withFibre f.vd fun d => withFibre f.va fun a => withFibre f.vb fun b => .ok (k d a b))

/-- Majors 0x00 to 0x02, class CFG (R102 to R104). -/
def decodeCfg (f : VFields) : Except Reject Instr :=
  noMods f <| match f.op with
  | 0 =>
    if f.fn = 0 ∧ f.form = 1 ∧ f.vd = 0 ∧ f.va = 0 ∧ f.vb = 0 ∧ fld f.x 15 9 = 0 then
      match tagOf (fld f.x 10 5) with
      | some t => .ok (.vsetvl (secondOf f) (baseOf f) t)
      | none => .error .tag
    else .error .nonZero
  | 1 =>
    if f.form ≠ 1 ∨ f.vb ≠ 0 then .error .nonZero
    else match f.fn with
      | 0 => if f.vd = 0 ∧ f.va = 0 ∧ fld f.x 5 19 = 0 then .ok (.vcfg (baseOf f)) else .error .nonZero
      | 1 =>
        if fld f.x 5 5 = 0 ∧ fld f.x 15 9 = 0 then
          match tagOf (fld f.x 10 5) with
          | some t => .ok (.vcfgTag (baseOf f) (vreg f.vd) (vreg f.va) t)
          | none => .error .tag
        else .error .nonZero
      | _ => .error .function
  | _ =>
    if f.fn = 0 ∧ f.form = 2 ∧ f.va = 0 ∧ f.vb = 0 ∧ fld f.x 5 19 = 0 then
      match tagOf (fld f.x 0 5) with
      | some t => .ok (.vtag (vreg f.vd) t)
      | none => .error .tag
    else .error .nonZero

/-- Major 0x16 (R67). -/
def decodeUnary (f : VFields) : Except Reject Instr :=
  match f.fn with
  | 0 => oneSrc f .vabs | 1 => oneSrc f .vneg | 2 => oneSrc f .vsqrt | 3 => oneSrc f .vrsqrte
  | 4 => oneSrc f .vrcpe | 5 => oneSrc f .vexp2 | 6 => twoSrc f .vmv
  | 7 =>
    if f.form = 0 ∧ f.va = 0 ∧ f.vb = 0 ∧ f.na = 0 ∧ f.nb = 0 ∧ f.x = 0 then .ok (.vid (vreg f.vd) f.m) else .error .nonZero
  | _ => .error .function

/-- Major 0x17 (R114). -/
def decodeCompare (f : VFields) : Except Reject Instr :=
  match f.fn with
  | 0 => twoSrc f .vcmpEq | 1 => twoSrc f .vcmpNe | 2 => twoSrc f .vcmpLt | 3 => twoSrc f .vcmpLe
  | 4 => twoSrc f .vcmpGt | 5 => twoSrc f .vcmpGe | 6 => twoSrc f .vcmpUo | _ => .error .function

/-- Major 0x18 (R115). -/
def decodeMask (f : VFields) : Except Reject Instr :=
  match f.fn with
  | 0 => twoSrc f .mand | 1 => twoSrc f .mor | 2 => twoSrc f .mxor | 3 => oneSrc f .mnot | _ => .error .function

/-- Majors 0x1A and 0x1B (R116). -/
def decodeConvert (f : VFields) (k : Bool → Bool → Tag → VUn → Instr) : Except Reject Instr :=
  match tagOf (fld f.fn 2 5) with
  | some t => oneSrc f (k (bitOf f.fn 0) (bitOf f.fn 1) t)
  | none => .error .tag

/-- Class ALU (R67). -/
def decodeAlu (f : VFields) : Except Reject Instr :=
  match f.op with
  | 0x04 => fnBit f fun s => twoSrc f (.vadd s)
  | 0x05 => fnBit f fun s => twoSrc f (.vsub s)
  | 0x06 => fnBit f fun s => twoSrc f (.vrsub s)
  | 0x07 => fnZero f (twoSrc f .vmul)
  | 0x08 => fnZero f (twoSrc f .vmulh)
  | 0x09 => fnZero f (twoSrc f .vdiv)
  | 0x0A => fnZero f (twoSrc f .vrem)
  | 0x0B => fnZero f (twoSrc f .vmin)
  | 0x0C => fnZero f (twoSrc f .vmax)
  | 0x0D => fnZero f (twoSrc f .vand)
  | 0x0E => fnZero f (twoSrc f .vor)
  | 0x0F => fnZero f (twoSrc f .vxor)
  | 0x10 => fnZero f (twoSrc f .vsll)
  | 0x11 => fnZero f (twoSrc f .vsrl)
  | 0x12 => fnZero f (twoSrc f .vsra)
  | 0x13 => fnZero f (twoSrc f .vfma)
  | 0x14 => fnZero f (twoSrc f .vfms)
  | 0x15 => fnZero f (twoSrc f .vfnma)
  | 0x16 => decodeUnary f
  | 0x17 => decodeCompare f
  | 0x18 => decodeMask f
  | 0x19 => fnZero f (twoSrc f .vmerge)
  | 0x1A => decodeConvert f .vcvt
  | _ => decodeConvert f .vcvts

/-- Major 0x1C (R156). -/
def decodeFibre (f : VFields) : Except Reject Instr :=
  match f.fn with
  | 0 => noMods f (withFibre f.vd fun d => memPlain f false (.fld d (baseOf f) (offOf f)))
  | 1 => noMods f (withFibre f.vd fun d => memPlain f false (.fst d (baseOf f) (offOf f)))
  | 2 => noMods f (withFibre f.vd fun d => memForm f false
      (if f.vb = 0 then .ok (.fldlvl d (baseOf f) (offOf f) (vreg f.va)) else .error .nonZero))
  | 3 => noMods f (withFibre f.vd fun d =>
      if f.form = 1 ∧ f.va = 0 ∧ f.vb = 0 ∧ f.x < 32 then .ok (.flen d (baseOf f)) else .error .nonZero)
  | 4 => threeFibres f .finterMul
  | 20 => threeFibres f .finterAdd
  | 5 => threeFibres f .funionAdd
  | 21 => threeFibres f .funionMax
  | 37 => threeFibres f .funionOr
  | 6 => threeFibres f .fmerge
  | 7 => plainVV f (withFibre f.vd fun d => withFibre f.va fun a =>
      if f.vb = 0 then .ok (.fsort d a) else .error .nonZero)
  | 8 => plainVV f (withFibre f.vd fun d => withFibre f.va fun a =>
      if f.vb = 0 then .ok (.fcompact d a) else .error .nonZero)
  | 9 => plainVV f (withFibre f.va fun a => if f.vb = 0 then .ok (.fexpand (vreg f.vd) a) else .error .nonZero)
  | 10 => threeFibres f .fpos
  | 11 => noMods f (withFibre f.vd fun d => memPlain f true (.fsend d (baseOf f) (offOf f) (secondOf f)))
  | _ => .error .function

/-- Major 0x1D (R157). -/
def decodePigeon (f : VFields) : Except Reject Instr :=
  let noD (r : Instr) : Except Reject Instr := if f.vd = 0 then .ok r else .error .nonZero
  let none3 (r : Instr) : Except Reject Instr := if f.vd = 0 ∧ f.va = 0 ∧ f.vb = 0 then .ok r else .error .nonZero
  plainVV f <| match f.fn with
  | 0 => none3 .ixclr
  | 1 => noD (.ixins (vreg f.va) (vreg f.vb))
  | 2 => .ok (.ixlook (vreg f.vd) (vreg f.va) (vreg f.vb))
  | 3 => noD (.ixaccAdd (vreg f.va) (vreg f.vb))
  | 19 => noD (.ixaccMax (vreg f.va) (vreg f.vb))
  | 35 => noD (.ixaccMin (vreg f.va) (vreg f.vb))
  | 51 => noD (.ixaccOr (vreg f.va) (vreg f.vb))
  | 4 => withFibre f.vd fun d => if f.va = 0 ∧ f.vb = 0 then .ok (.ixdrain d) else .error .nonZero
  | 5 => none3 .ixcnt
  | _ => .error .function

/-- The fields of the second parcel of majors 0x1E, 0x1F and 0x3D (R66, R184). -/
def mopOf (f : VFields) : Nat := fld f.fn 0 3
def tileOf (f : VFields) : TIdx := Fin.ofNat 8 (f.fn / 2 ^ 3)
def keOf (f : VFields) : Bool := bitOf f.fn 6
def knOf (f : VFields) : KIdx := Fin.ofNat 8 f.x
def satOf (f : VFields) : Bool := bitOf f.x 3
/-- The optional keep mask of the OPA family; kn is zero when ke = 0. -/
def keepOf (f : VFields) : Option KIdx := if keOf f then some (knOf f) else none

/-- The form of a matrix word, its unused register fields, and the bits of x above bit 3 that must be zero. -/
def mtxIf (f : VFields) (form : Nat) (zero : Bool) (i : Instr) : Except Reject Instr :=
  if f.m then .error .mask
  else if f.na ≠ 0 ∨ f.nb ≠ 0 then .error .neighbour
  else if f.form ≠ form then .error .form
  else if zero then .ok i
  else .error .nonZero

/-- Major 0x1E (R184). -/
def decodeTile (f : VFields) : Except Reject Instr :=
  let t := tileOf f; let base := sregAt f.x 4; let second := sregAt f.x 9
  match mopOf f with
  | 0 => mtxIf f 0 (f.vd = 0 && f.va = 0 && f.vb = 0 && !keOf f && f.x = 0) (.tzero t)
  | 1 => mtxIf f 1 (f.vd = 0 && f.va = 0 && f.vb = 0 && !keOf f && fld f.x 0 4 = 0 && fld f.x 14 10 = 0) (.tld t base second)
  | 2 => mtxIf f 1 (f.vd = 0 && f.va = 0 && f.vb = 0 && !keOf f && fld f.x 0 4 = 0 && fld f.x 14 10 = 0) (.tst t base second)
  | 3 => mtxIf f 1 (f.va = 0 && f.vb = 0 && !keOf f && fld f.x 0 9 = 0 && fld f.x 14 10 = 0)
      (.tmvTileToVector (vreg f.vd) t second)
  | 4 => mtxIf f 1 (f.va = 0 && f.vb = 0 && !keOf f && fld f.x 0 9 = 0 && fld f.x 14 10 = 0)
      (.tmvVectorToTile t (vreg f.vd) second)
  | 5 => mtxIf f 0 (f.vd = 0 && f.va = 0 && f.vb = 0 && keOf f && fld f.x 3 21 = 0) (.tfill t (knOf f))
  | 6 => mtxIf f 0 (f.va = 0 && f.vb = 0 && !keOf f && f.x = 0) (.tredmax (vreg f.vd) t)
  | _ => .error .function

/-- Major 0x1F (R184). -/
def decodeOuter (f : VFields) : Except Reject Instr :=
  let t := tileOf f; let k := keepOf f
  let kOk := keOf f || fld f.x 0 3 = 0
  match mopOf f with
  | 0 => mtxIf f 0 (f.vd = 0 && kOk && fld f.x 4 20 = 0) (.opa (satOf f) t (vreg f.va) (vreg f.vb) k)
  | 1 => mtxIf f 0 (f.vd = 0 && kOk && fld f.x 3 21 = 0) (.opas t (vreg f.va) (vreg f.vb) k)
  | 2 => mtxIf f 0 (f.vd = 0 && kOk && fld f.x 10 14 = 0)
      (.opag (satOf f) t (vreg f.va) (vreg f.vb) (vreg (f.x / 2 ^ 4)) k)
  | 3 => mtxIf f 1 (f.vd = 0 && f.va = 0 && f.vb = 0 && kOk && fld f.x 9 15 = 0) (.tmma (satOf f) t (sregAt f.x 4) k)
  | _ => .error .function

/-- Major 0x3D (R184). -/
def decodeScout (f : VFields) : Except Reject Instr :=
  let noRegs := f.vd = 0 && f.va = 0 && f.vb = 0
  match mopOf f with
  | 0 => mtxIf f 0 (!keOf f && f.x = 0) (.scoutA (vreg f.vd) (tileOf f) (vreg f.va) (vreg f.vb))
  | 1 => mtxIf f 0 (f.vb = 0 && fld f.fn 3 4 = 0 && fld f.x 3 21 = 0) (.scoutT (knOf f) (vreg f.vd) (vreg f.va))
  | 2 => mtxIf f 0 (noRegs && !keOf f && fld f.x 3 1 = 0 && fld f.x 7 17 = 0)
      (.kand (knOf f) (tileOf f) (Fin.ofNat 8 (f.x / 2 ^ 4)))
  | 3 => mtxIf f 0 (noRegs && !keOf f && fld f.x 3 1 = 0 && fld f.x 7 17 = 0)
      (.kor (knOf f) (tileOf f) (Fin.ofNat 8 (f.x / 2 ^ 4)))
  | 4 => mtxIf f 0 (noRegs && fld f.fn 3 4 = 0 && fld f.x 3 21 = 0) (.kpop (knOf f))
  | _ => .error .function

/-- Major 0x25 (R124). -/
def decodeReduce (f : VFields) : Except Reject Instr :=
  match f.fn with
  | 0 => oneSrc f .vredsum | 1 => oneSrc f .vredmax | 2 => oneSrc f .vredmin
  | 3 => oneSrc f .vredand | 4 => oneSrc f .vredor | 5 => oneSrc f .vredxor | _ => .error .function

/-- Major 0x24 (R123): the high half is fn bit 2. -/
def decodeInterleave (f : VFields) : Except Reject Instr :=
  match f.fn with
  | 0 => twoSrc f (.vzip false) | 4 => twoSrc f (.vzip true)
  | 1 => twoSrc f (.vunzip false) | 5 => twoSrc f (.vunzip true)
  | 2 => twoSrc f (.vtrn false) | 6 => twoSrc f (.vtrn true)
  | _ => .error .function

/-- Majors 0x27 and 0x28 (R126, R127). -/
def decodeToScalar (f : VFields) : Except Reject Instr :=
  if f.na ≠ 0 ∨ f.nb ≠ 0 then .error .neighbour
  else match f.op, f.fn with
  | 0x27, 0 => match srcOf f with
    | .error e => .error e
    | .ok src => if f.vd = 0 && !src.isVV then .ok (.vmvxs (vreg f.va) src f.m) else .error .form
  | 0x27, 1 => if f.form = 1 ∧ f.va = 0 ∧ f.vb = 0 ∧ f.x < 32 then .ok (.vmvsx (vreg f.vd) (Fin.ofNat 32 f.x) f.m) else .error .nonZero
  | 0x28, 0 => if f.form = 0 ∧ f.vd = 0 ∧ f.vb = 0 ∧ f.x = 0 then .ok (.mpop (vreg f.va) f.m) else .error .nonZero
  | 0x28, 1 => if f.form = 0 ∧ f.vd = 0 ∧ f.vb = 0 ∧ f.x = 0 then .ok (.mfirst (vreg f.va) f.m) else .error .nonZero
  | _, _ => .error .function

/-- Class XFU (R67, R133 to R135). -/
def decodeXfu (f : VFields) : Except Reject Instr :=
  match f.op with
  | 0x2C => if f.fn < 8 then plainVV f (.ok (.vdec (Fin.ofNat 8 f.fn) (vreg f.vd) (vreg f.va) (vreg f.vb))) else .error .function
  | 0x2D =>
    if f.fn < 8 then
      (if f.form = 0 ∧ f.vb = 0 ∧ f.na = 0 ∧ f.nb = 0 ∧ f.x = 0 then .ok (.vlut (Fin.ofNat 8 f.fn) (vreg f.vd) (vreg f.va) f.m)
       else .error .nonZero)
    else .error .function
  | _ => plainVV f <| match f.fn with
    | 0 => if f.vd < 8 ∧ f.vb = 0 then .ok (.ctblW (Fin.ofNat 8 f.vd) (vreg f.va)) else .error .nonZero
    | 1 => if f.vd < 8 ∧ f.va = 0 ∧ f.vb = 0 then .ok (.ctblSwap (Fin.ofNat 8 f.vd)) else .error .nonZero
    | _ => .error .function

/-- Class PRM (R67). -/
def decodePrm (f : VFields) : Except Reject Instr :=
  match f.op with
  | 0x20 => fnZero f (twoSrc f .vslideup)
  | 0x21 => fnZero f (twoSrc f .vslidedn)
  | 0x22 => fnZero f (twoSrc f .vrgather)
  | 0x23 => fnZero f (oneSrc f .vcompress)
  | 0x24 => decodeInterleave f
  | 0x25 => decodeReduce f
  | 0x26 => match f.fn with
    | 0 => oneSrc f .vscanAdd | 1 => oneSrc f .vscanMax | 2 => oneSrc f .vscanMin | _ => .error .function
  | 0x27 => decodeToScalar f
  | 0x28 => decodeToScalar f
  | 0x29 => fnZero f (twoSrc f .vtopk)
  | 0x2A => fnZero f (twoSrc f .vbkt)
  | _ => fnZero f (twoSrc f .vselge)

/-- VAMO and VAMOO by the operation code (R291). -/
def vamoOf (ordered : Bool) (op : Nat) (o : VAmoOps) : Except Reject Instr :=
  match ordered, op with
  | false, 0 => .ok (.vamoAdd o)
  | false, 1 => .ok (.vamoAnd o)
  | false, 2 => .ok (.vamoOr o)
  | false, 3 => .ok (.vamoXor o)
  | false, 4 => .ok (.vamoMin o)
  | false, 5 => .ok (.vamoMax o)
  | false, 6 => .ok (.vamoMinn o)
  | false, 7 => .ok (.vamoMaxn o)
  | false, 8 => .ok (.vamoSwap o)
  | false, 10 => .ok (.vamoFadd o)
  | true, 0 => .ok (.vamooAdd o)
  | true, 1 => .ok (.vamooAnd o)
  | true, 2 => .ok (.vamooOr o)
  | true, 3 => .ok (.vamooXor o)
  | true, 4 => .ok (.vamooMin o)
  | true, 5 => .ok (.vamooMax o)
  | true, 6 => .ok (.vamooMinn o)
  | true, 7 => .ok (.vamooMaxn o)
  | true, 8 => .ok (.vamooSwap o)
  | true, 10 => .ok (.vamooFadd o)
  | _, _ => .error .function

/-- Major 0x3B (R291). -/
def decodeVamo (f : VFields) : Except Reject Instr :=
  memForm f false <|
    if 32 ≤ f.fn then .error .function
    else if fld f.x 13 11 ≠ 0 then .error .nonZero
    else match scopeOf (fld f.x 10 3) with
      | none => .error .scope
      | some sc => vamoOf (bitOf f.fn 4) (fld f.fn 0 4) ⟨vreg f.vd, vreg f.va, vreg f.vb, baseOf f, sc, f.m⟩

/-- Major 0x39 (R152). -/
def decodeVsred (f : VFields) : Except Reject Instr :=
  match f.fn with
  | 0 => memIndex f (.vsredAdd (vmemOf f) (vreg f.vb))
  | 1 => memIndex f (.vsredMax (vmemOf f) (vreg f.vb))
  | 2 => memIndex f (.vsredMin (vmemOf f) (vreg f.vb))
  | 3 => memIndex f (.vsredOr (vmemOf f) (vreg f.vb))
  | _ => .error .function

/-- Classes LDP and STP (R67, R137, R389). -/
def decodeMemory (f : VFields) : Except Reject Instr :=
  match f.op with
  | 0x30 => fnZero f (memPlain f false (.vld (vmemOf f)))
  | 0x31 => fnZero f (memPlain f false (.vst (vmemOf f)))
  | 0x32 => fnZero f (memPlain f true (.vldq (vmemOf f) (secondOf f)))
  | 0x33 => fnZero f (memPlain f true (.vstq (vmemOf f) (secondOf f)))
  | 0x34 => fnZero f (memPlain f true (.vlds (vmemOf f) (secondOf f)))
  | 0x35 => fnZero f (memPlain f true (.vsts (vmemOf f) (secondOf f)))
  | 0x36 => fnBit f fun o => if o then memIndex f (.vldxo (vmemOf f) (vreg f.vb)) else memIndex f (.vldx (vmemOf f) (vreg f.vb))
  | 0x37 => fnBit f fun o => if o then memIndex f (.vstxo (vmemOf f) (vreg f.vb)) else memIndex f (.vstx (vmemOf f) (vreg f.vb))
  | 0x38 => fnZero f (memPlain f false (.vldff (vmemOf f)))
  | 0x39 => decodeVsred f
  | 0x3A => fnZero f (if f.vd = 0 then memIndex f (.vpref (baseOf f) (offOf f) (vreg f.vb) f.m) else .error .nonZero)
  | 0x3B => decodeVamo f
  | _ => fnZero f (memIndex f (.vmstore (vmemOf f) (vreg f.vb)))

/-- Class SYS, major 0x3E (R313, R360). -/
def decodeSys (f : VFields) : Except Reject Instr :=
  match f.fn with
  | 0 =>
    if f.form = 0 ∧ f.vb = 0 ∧ f.na = 0 ∧ f.nb = 0 then
      match f.x with
      | 0 => .ok (.ecmdCpe (vreg f.vd) (vreg f.va) f.m)
      | 1 => .ok (.ecmdSte (vreg f.vd) (vreg f.va) f.m)
      | 2 => .ok (.ecmdCoe (vreg f.vd) (vreg f.va) f.m)
      | _ => .error .engine
    else .error .nonZero
  | 1 => noMods f (if f.form = 1 ∧ f.vd = 0 ∧ f.va = 0 ∧ f.vb = 0 ∧ f.x < 32 then .ok (.savev (baseOf f)) else .error .nonZero)
  | 2 => noMods f (if f.form = 1 ∧ f.vd = 0 ∧ f.va = 0 ∧ f.vb = 0 ∧ f.x < 32 then .ok (.restv (baseOf f)) else .error .nonZero)
  | _ => .error .function

/-- A vector word by its major (R67). -/
def decodeVector (p0 p1 : Nat) : Except Reject Instr :=
  let f := vfields p0 p1
  if f.form = 3 then .error .form
  else if f.na = 3 ∨ f.nb = 3 then .error .neighbour
  else if f.op < 3 then decodeCfg f
  else if f.op = 3 then .error .major
  else if f.op < 0x1C then decodeAlu f
  else if f.op = 0x1C then decodeFibre f
  else if f.op = 0x1D then decodePigeon f
  else if f.op = 0x1E then decodeTile f
  else if f.op = 0x1F then decodeOuter f
  else if f.op < 0x2C then decodePrm f
  else if f.op < 0x2F then decodeXfu f
  else if f.op = 0x2F then .error .major
  else if f.op < 0x3D then decodeMemory f
  else if f.op = 0x3D then decodeScout f
  else if f.op = 0x3E then decodeSys f
  else .error .major

/-- The instruction at a parcel and the parcel after it (R55); the second is read by a vector instruction alone. -/
def decode (p0 p1 : Parcel) : Except Reject Instr :=
  match fld p0.toNat 0 2 with
  | 0 => decodeSpace0 p0.toNat
  | 1 => decodeSpace1 p0.toNat
  | 2 => decodeHeader p0.toNat
  | _ => decodeVector p0.toNat p1.toNat

/-- The instruction of a word whose bit 0 is bit 0 of the first parcel, as spec/opcode_table.json numbers the bits. -/
def decodeTableWord (nbits w : Nat) : Option Instr :=
  let w := w % 2 ^ nbits
  match decode (BitVec.ofNat 32 w) (BitVec.ofNat 32 (w / 2 ^ 32)) with
  | .ok i => some i
  | .error _ => none

/-! ### The encoder -/

def encA (maj : Nat) (d a b : SReg) (fn : Nat) : List Nat :=
  [maj * 2 ^ 2 + d.val * 2 ^ 7 + a.val * 2 ^ 12 + b.val * 2 ^ 17 + fn * 2 ^ 22]
def encI (maj : Nat) (d a : SReg) (imm : BitVec 15) : List Nat :=
  [maj * 2 ^ 2 + d.val * 2 ^ 7 + a.val * 2 ^ 12 + imm.toNat * 2 ^ 17]
def encU (maj : Nat) (d : SReg) (imm : BitVec 20) : List Nat := [maj * 2 ^ 2 + d.val * 2 ^ 7 + imm.toNat * 2 ^ 12]
def encM (maj : Nat) (d a : SReg) (sz : Size) (zx : Nat) (off : BitVec 12) : List Nat :=
  [maj * 2 ^ 2 + d.val * 2 ^ 7 + a.val * 2 ^ 12 + sizeCode sz * 2 ^ 17 + zx * 2 ^ 19 + off.toNat * 2 ^ 20]
def encB (cond : Nat) (a b : SReg) (off : BitVec 12) : List Nat :=
  [0x0B * 2 ^ 2 + b.val * 2 ^ 7 + a.val * 2 ^ 12 + cond * 2 ^ 17 + off.toNat * 2 ^ 20]
def encC (fn : Nat) (d a : SReg) (c : Csr) : List Nat :=
  [0x0F * 2 ^ 2 + d.val * 2 ^ 7 + a.val * 2 ^ 12 + fn * 2 ^ 17 + csrNumber c * 2 ^ 20]
def encX (space maj : Nat) (d a : SReg) (imm fn : Nat) : List Nat :=
  [space + maj * 2 ^ 2 + d.val * 2 ^ 7 + a.val * 2 ^ 12 + imm * 2 ^ 17 + fn * 2 ^ 25]
def encAmo (op : Nat) (sc : Scope) (sz : AmoSize) (d a b : SReg) : List Nat :=
  encA 0x0E d a b (op + amoSizeCode sz * 2 ^ 4 + scopeCode sc * 2 ^ 6)
def encShift (kind : Nat) (d a : SReg) (sh : Fin 64) : List Nat :=
  [0x06 * 2 ^ 2 + d.val * 2 ^ 7 + a.val * 2 ^ 12 + sh.val * 2 ^ 17 + kind * 2 ^ 23]

/-- A bit as a number. -/
def bitN (b : Bool) : Nat := if b then 1 else 0

/-- The unit codes from bit 5 up. -/
def encUnits (lo : Nat) : List UnitCode → Nat
  | [] => 0
  | u :: t => unitCode u * 2 ^ lo + encUnits (lo + 3) t

/-- The two parcels of a vector word (R98). -/
def encV (op form vd va vb : Nat) (m : Bool) (na nb fn x : Nat) : List Nat :=
  [3 + op * 2 ^ 2 + form * 2 ^ 8 + vd * 2 ^ 10 + va * 2 ^ 16 + vb * 2 ^ 22 + bitN m * 2 ^ 28 + na * 2 ^ 29 + nb % 2 * 2 ^ 31,
   nb / 2 + fn * 2 + x * 2 ^ 8]

def encTwo (op fn : Nat) (o : VOps) : List Nat :=
  match o.src with
  | .vv vb nb => encV op 0 o.vd.val o.va.val vb.val o.m (nbrCode o.na) (nbrCode nb) fn 0
  | .vx s => encV op 1 o.vd.val o.va.val 0 o.m (nbrCode o.na) 0 fn s.val
  | .vi imm => encV op 2 o.vd.val o.va.val 0 o.m (nbrCode o.na) 0 fn imm.toNat
def encOne (op fn : Nat) (o : VUn) : List Nat := encV op 0 o.vd.val o.va.val 0 o.m (nbrCode o.na) 0 fn 0
def encMem (op fn : Nat) (o : VMem) (vb : Nat) (s : SReg) : List Nat :=
  encV op 1 o.vd.val 0 vb o.m 0 0 fn (o.base.val + s.val * 2 ^ 5 + o.off.toNat * 2 ^ 10)
def encVamo (ordered op : Nat) (o : VAmoOps) : List Nat :=
  encV 0x3B 1 o.vd.val o.va.val o.vb.val o.m 0 0 (op + ordered * 2 ^ 4) (o.base.val + scopeCode o.scope * 2 ^ 10)
def encPlain (op vd va vb fn : Nat) : List Nat := encV op 0 vd va vb false 0 0 fn 0
/-- A fibre register's number in a register field (R67). -/
def fnum (f : FIdx) : Nat := 32 + 2 * f.val
def encFibreMem (fn : Nat) (f : FIdx) (va : Nat) (base s : SReg) (off : BitVec 14) : List Nat :=
  encV 0x1C 1 (fnum f) va 0 false 0 0 fn (base.val + s.val * 2 ^ 5 + off.toNat * 2 ^ 10)
/-- A matrix or scout word (R184). -/
def encMtx (op mop form vd va vb tile ke x : Nat) : List Nat :=
  encV op form vd va vb false 0 0 (mop + tile * 2 ^ 3 + ke * 2 ^ 6) x
/-- ke and kn of an optional keep mask. -/
def keN (k : Option KIdx) : Nat := match k with | some _ => 1 | none => 0
def knN (k : Option KIdx) : Nat := match k with | some n => n.val | none => 0

/-- The parcels of an instruction, in ascending address order; none for a step of another agent. -/
def encode : Instr → List Nat
  | .add d a b => encA 0 d a b 1
  | .sub d a b => encA 0 d a b 2
  | .and d a b => encA 0 d a b 3
  | .or d a b => encA 0 d a b 4
  | .xor d a b => encA 0 d a b 5
  | .sll d a b => encA 0 d a b 6
  | .srl d a b => encA 0 d a b 7
  | .sra d a b => encA 0 d a b 8
  | .slt d a b => encA 0 d a b 9
  | .sltu d a b => encA 0 d a b 10
  | .min d a b => encA 0 d a b 11
  | .max d a b => encA 0 d a b 12
  | .mul d a b => encA 0 d a b 13
  | .mulh d a b => encA 0 d a b 14
  | .mulhu d a b => encA 0 d a b 15
  | .div d a b => encA 0 d a b 16
  | .divu d a b => encA 0 d a b 17
  | .rem d a b => encA 0 d a b 18
  | .remu d a b => encA 0 d a b 19
  | .clz d a => encA 0 d a 0 20
  | .ctz d a => encA 0 d a 0 21
  | .popc d a => encA 0 d a 0 22
  | .addi d a imm => encI 1 d a imm
  | .andi d a imm => encI 2 d a imm
  | .ori d a imm => encI 3 d a imm
  | .xori d a imm => encI 4 d a imm
  | .slti d a imm => encI 5 d a imm
  | .slli d a sh => encShift 0 d a sh
  | .srli d a sh => encShift 1 d a sh
  | .srai d a sh => encShift 2 d a sh
  | .lih d imm => encU 7 d imm
  | .addpc d imm => encU 8 d imm
  | .ld sz d a off => encM 9 d a sz 0 off
  | .ldz sz d a off => encM 9 d a sz 1 off
  | .st sz b a off => encM 10 b a sz 0 off
  | .beq a b off => encB 0 a b off
  | .bne a b off => encB 1 a b off
  | .blt a b off => encB 2 a b off
  | .bge a b off => encB 3 a b off
  | .bltu a b off => encB 4 a b off
  | .bgeu a b off => encB 5 a b off
  | .jal d off => encU 0x0C d off
  | .jalr d a imm => encI 0x0D d a imm
  | .amoAdd sc sz d a b => encAmo 0 sc sz d a b
  | .amoAnd sc sz d a b => encAmo 1 sc sz d a b
  | .amoOr sc sz d a b => encAmo 2 sc sz d a b
  | .amoXor sc sz d a b => encAmo 3 sc sz d a b
  | .amoMin sc sz d a b => encAmo 4 sc sz d a b
  | .amoMax sc sz d a b => encAmo 5 sc sz d a b
  | .amoMinn sc sz d a b => encAmo 6 sc sz d a b
  | .amoMaxn sc sz d a b => encAmo 7 sc sz d a b
  | .amoSwap sc sz d a b => encAmo 8 sc sz d a b
  | .amoCas sc sz d a b => encAmo 9 sc sz d a b
  | .amoFadd sc sz d a b => encAmo 10 sc sz d a b
  | .csrr d c => encC 0 d 0 c
  | .csrw c a => encC 1 0 a c
  | .csrs c a => encC 2 0 a c
  | .csrc c a => encC 3 0 a c
  | .loopn a n => [0x10 * 2 ^ 2 + a.val * 2 ^ 12 + n.val * 2 ^ 17]
  | .qrd d => encX 0 0x11 d 0 0 0
  | .drain p q r t => encX 0 0x11 0 0 (bitN p + bitN q * 2 + bitN r * 4 + bitN t * 8) 1
  | .trap c => encX 1 0 0 0 c.toNat 0
  | .eret => encX 1 0 0 0 0 1
  | .ebreak c => encX 1 0 0 0 c.toNat 2
  | .part a => encX 1 0 0 a 0 3
  | .launch a => encX 1 1 0 a 0 0
  | .hyield => encX 1 1 0 0 0 1
  | .hwait a => encX 1 1 0 a 0 2
  | .hexit => encX 1 1 0 0 0 3
  | .fenceArrive sc b => encX 1 1 0 0 (b.val + scopeCode sc * 2 ^ 4) 4
  | .bwait b => encX 1 1 0 0 b.val 5
  | .ppt m => encX 1 1 0 0 m.toNat 6
  | .fence sc er ew lr lw => encX 1 2 0 0 (scopeCode sc + bitN er * 8 + bitN ew * 16 + bitN lr * 32 + bitN lw * 64) 0
  | .clean a => encX 1 2 0 a 0 1
  | .flush a => encX 1 2 0 a 0 2
  | .inval a => encX 1 2 0 a 0 3
  | .iinv a => encX 1 2 0 a 0 4
  | .fetchb => encX 1 2 0 0 0 5
  | .ewait n a => encX 1 3 0 a n.val 0
  | .epoll d n => encX 1 3 d 0 n.val 1
  | .ecancel d n => encX 1 3 d 0 n.val 2
  | .convoyHeader us => [2 + (us.length - 2) * 2 ^ 2 + encUnits 5 us]
  | .vsetvl d a t => encV 0 1 0 0 0 false 0 0 0 (a.val + d.val * 2 ^ 5 + tagCode t * 2 ^ 10)
  | .vcfg a => encV 1 1 0 0 0 false 0 0 0 a.val
  | .vcfgTag a lo hi t => encV 1 1 lo.val hi.val 0 false 0 0 1 (a.val + tagCode t * 2 ^ 10)
  | .vtag vd t => encV 2 2 vd.val 0 0 false 0 0 0 (tagCode t)
  | .vadd s o => encTwo 4 (bitN s) o
  | .vsub s o => encTwo 5 (bitN s) o
  | .vrsub s o => encTwo 6 (bitN s) o
  | .vmul o => encTwo 0x7 0 o
  | .vmulh o => encTwo 0x8 0 o
  | .vdiv o => encTwo 0x9 0 o
  | .vrem o => encTwo 0xa 0 o
  | .vmin o => encTwo 0xb 0 o
  | .vmax o => encTwo 0xc 0 o
  | .vand o => encTwo 0xd 0 o
  | .vor o => encTwo 0xe 0 o
  | .vxor o => encTwo 0xf 0 o
  | .vsll o => encTwo 0x10 0 o
  | .vsrl o => encTwo 0x11 0 o
  | .vsra o => encTwo 0x12 0 o
  | .vfma o => encTwo 0x13 0 o
  | .vfms o => encTwo 0x14 0 o
  | .vfnma o => encTwo 0x15 0 o
  | .vabs o => encOne 0x16 0 o
  | .vneg o => encOne 0x16 1 o
  | .vsqrt o => encOne 0x16 2 o
  | .vrsqrte o => encOne 0x16 3 o
  | .vrcpe o => encOne 0x16 4 o
  | .vexp2 o => encOne 0x16 5 o
  | .vmv o => encTwo 0x16 6 o
  | .vid vd m => encV 0x16 0 vd.val 0 0 m 0 0 7 0
  | .vcmpEq o => encTwo 0x17 0 o
  | .vcmpNe o => encTwo 0x17 1 o
  | .vcmpLt o => encTwo 0x17 2 o
  | .vcmpLe o => encTwo 0x17 3 o
  | .vcmpGt o => encTwo 0x17 4 o
  | .vcmpGe o => encTwo 0x17 5 o
  | .vcmpUo o => encTwo 0x17 6 o
  | .mand o => encTwo 0x18 0 o
  | .mor o => encTwo 0x18 1 o
  | .mxor o => encTwo 0x18 2 o
  | .mnot o => encOne 0x18 3 o
  | .vmerge o => encTwo 0x19 0 o
  | .vcvt s v t o => encOne 0x1A (bitN s + bitN v * 2 + tagCode t * 4) o
  | .vcvts s v t o => encOne 0x1B (bitN s + bitN v * 2 + tagCode t * 4) o
  | .vslideup o => encTwo 0x20 0 o
  | .vslidedn o => encTwo 0x21 0 o
  | .vrgather o => encTwo 0x22 0 o
  | .vcompress o => encOne 0x23 0 o
  | .vzip h o => encTwo 0x24 (bitN h * 4) o
  | .vunzip h o => encTwo 0x24 (1 + bitN h * 4) o
  | .vtrn h o => encTwo 0x24 (2 + bitN h * 4) o
  | .vredsum o => encOne 0x25 0 o
  | .vredmax o => encOne 0x25 1 o
  | .vredmin o => encOne 0x25 2 o
  | .vredand o => encOne 0x25 3 o
  | .vredor o => encOne 0x25 4 o
  | .vredxor o => encOne 0x25 5 o
  | .vscanAdd o => encOne 0x26 0 o
  | .vscanMax o => encOne 0x26 1 o
  | .vscanMin o => encOne 0x26 2 o
  | .vmvxs va src m => encTwo 0x27 0 ⟨0, va, .none, src, m⟩
  | .vmvsx vd s m => encV 0x27 1 vd.val 0 0 m 0 0 1 s.val
  | .mpop va m => encV 0x28 0 0 va.val 0 m 0 0 0 0
  | .mfirst va m => encV 0x28 0 0 va.val 0 m 0 0 1 0
  | .vtopk o => encTwo 0x29 0 o
  | .vbkt o => encTwo 0x2A 0 o
  | .vselge o => encTwo 0x2B 0 o
  | .vdec n vd va vb => encPlain 0x2C vd.val va.val vb.val n.val
  | .vlut n vd va m => encV 0x2D 0 vd.val va.val 0 m 0 0 n.val 0
  | .ctblW n va => encPlain 0x2E n.val va.val 0 0
  | .ctblSwap n => encPlain 0x2E n.val 0 0 1
  | .vld o => encMem 0x30 0 o 0 0
  | .vst o => encMem 0x31 0 o 0 0
  | .vldq o s => encMem 0x32 0 o 0 s
  | .vstq o s => encMem 0x33 0 o 0 s
  | .vlds o s => encMem 0x34 0 o 0 s
  | .vsts o s => encMem 0x35 0 o 0 s
  | .vldx o vb => encMem 0x36 0 o vb.val 0
  | .vldxo o vb => encMem 0x36 1 o vb.val 0
  | .vstx o vb => encMem 0x37 0 o vb.val 0
  | .vstxo o vb => encMem 0x37 1 o vb.val 0
  | .vldff o => encMem 0x38 0 o 0 0
  | .vsredAdd o vb => encMem 0x39 0 o vb.val 0
  | .vsredMax o vb => encMem 0x39 1 o vb.val 0
  | .vsredMin o vb => encMem 0x39 2 o vb.val 0
  | .vsredOr o vb => encMem 0x39 3 o vb.val 0
  | .vpref base off vb m => encMem 0x3A 0 ⟨0, base, off, m⟩ vb.val 0
  | .vmstore o vb => encMem 0x3C 0 o vb.val 0
  | .vamoAdd o => encVamo 0 0 o
  | .vamoAnd o => encVamo 0 1 o
  | .vamoOr o => encVamo 0 2 o
  | .vamoXor o => encVamo 0 3 o
  | .vamoMin o => encVamo 0 4 o
  | .vamoMax o => encVamo 0 5 o
  | .vamoMinn o => encVamo 0 6 o
  | .vamoMaxn o => encVamo 0 7 o
  | .vamoSwap o => encVamo 0 8 o
  | .vamoFadd o => encVamo 0 10 o
  | .vamooAdd o => encVamo 1 0 o
  | .vamooAnd o => encVamo 1 1 o
  | .vamooOr o => encVamo 1 2 o
  | .vamooXor o => encVamo 1 3 o
  | .vamooMin o => encVamo 1 4 o
  | .vamooMax o => encVamo 1 5 o
  | .vamooMinn o => encVamo 1 6 o
  | .vamooMaxn o => encVamo 1 7 o
  | .vamooSwap o => encVamo 1 8 o
  | .vamooFadd o => encVamo 1 10 o
  | .fld f base off => encFibreMem 0 f 0 base 0 off
  | .fst f base off => encFibreMem 1 f 0 base 0 off
  | .fldlvl f base off va => encFibreMem 2 f va.val base 0 off
  | .flen f s => encV 0x1C 1 (fnum f) 0 0 false 0 0 3 s.val
  | .finterMul d a b => encPlain 0x1C (fnum d) (fnum a) (fnum b) 4
  | .finterAdd d a b => encPlain 0x1C (fnum d) (fnum a) (fnum b) 20
  | .funionAdd d a b => encPlain 0x1C (fnum d) (fnum a) (fnum b) 5
  | .funionMax d a b => encPlain 0x1C (fnum d) (fnum a) (fnum b) 21
  | .funionOr d a b => encPlain 0x1C (fnum d) (fnum a) (fnum b) 37
  | .fmerge d a b => encPlain 0x1C (fnum d) (fnum a) (fnum b) 6
  | .fsort d a => encPlain 0x1C (fnum d) (fnum a) 0 7
  | .fcompact d a => encPlain 0x1C (fnum d) (fnum a) 0 8
  | .fexpand vd a => encPlain 0x1C vd.val (fnum a) 0 9
  | .fpos d a b => encPlain 0x1C (fnum d) (fnum a) (fnum b) 10
  | .fsend f base off tgt => encFibreMem 11 f 0 base tgt off
  | .ixclr => encPlain 0x1D 0 0 0 0
  | .ixins va vb => encPlain 0x1D 0 va.val vb.val 1
  | .ixlook vd va vb => encPlain 0x1D vd.val va.val vb.val 2
  | .ixaccAdd va vb => encPlain 0x1D 0 va.val vb.val 3
  | .ixaccMax va vb => encPlain 0x1D 0 va.val vb.val 19
  | .ixaccMin va vb => encPlain 0x1D 0 va.val vb.val 35
  | .ixaccOr va vb => encPlain 0x1D 0 va.val vb.val 51
  | .ixdrain f => encPlain 0x1D (fnum f) 0 0 4
  | .ixcnt => encPlain 0x1D 0 0 0 5
  | .tzero t => encMtx 0x1E 0 0 0 0 0 t.val 0 0
  | .tld t base st => encMtx 0x1E 1 1 0 0 0 t.val 0 (base.val * 2 ^ 4 + st.val * 2 ^ 9)
  | .tst t base st => encMtx 0x1E 2 1 0 0 0 t.val 0 (base.val * 2 ^ 4 + st.val * 2 ^ 9)
  | .tmvTileToVector vd t row => encMtx 0x1E 3 1 vd.val 0 0 t.val 0 (row.val * 2 ^ 9)
  | .tmvVectorToTile t vd row => encMtx 0x1E 4 1 vd.val 0 0 t.val 0 (row.val * 2 ^ 9)
  | .tfill t k => encMtx 0x1E 5 0 0 0 0 t.val 1 k.val
  | .tredmax vd t => encMtx 0x1E 6 0 vd.val 0 0 t.val 0 0
  | .opa s t va vb k => encMtx 0x1F 0 0 0 va.val vb.val t.val (keN k) (knN k + bitN s * 2 ^ 3)
  | .opas t va vb k => encMtx 0x1F 1 0 0 va.val vb.val t.val (keN k) (knN k)
  | .opag s t va vb vx k => encMtx 0x1F 2 0 0 va.val vb.val t.val (keN k) (knN k + bitN s * 2 ^ 3 + vx.val * 2 ^ 4)
  | .tmma s t base k => encMtx 0x1F 3 1 0 0 0 t.val (keN k) (knN k + bitN s * 2 ^ 3 + base.val * 2 ^ 4)
  | .scoutA vd t va vb => encMtx 0x3D 0 0 vd.val va.val vb.val t.val 0 0
  | .scoutT k vd va => encMtx 0x3D 1 0 vd.val va.val 0 0 0 k.val
  | .kand k a b => encMtx 0x3D 2 0 0 0 0 a.val 0 (k.val + b.val * 2 ^ 4)
  | .kor k a b => encMtx 0x3D 3 0 0 0 0 a.val 0 (k.val + b.val * 2 ^ 4)
  | .kpop k => encMtx 0x3D 4 0 0 0 0 0 0 k.val
  | .ecmdCpe vd va m => encV 0x3E 0 vd.val va.val 0 m 0 0 0 0
  | .ecmdSte vd va m => encV 0x3E 0 vd.val va.val 0 m 0 0 0 1
  | .ecmdCoe vd va m => encV 0x3E 0 vd.val va.val 0 m 0 0 0 2
  | .savev s => encV 0x3E 1 0 0 0 false 0 0 1 s.val
  | .restv s => encV 0x3E 1 0 0 0 false 0 0 2 s.val
  | .vatpWrite _ | .vgateWrite _ | .contextRegisterWrite _ _ | .commandAccept _ _ | .copy _ | .levelWalk _
  | .allReduce _ | .reduceScatter _ | .allGather _ | .broadcast _ | .xa2a _ | .commandComplete _
  | .commandFail _ _ | .trapEntry _ _ _ | .asynchronousFabricError _ _ | .issueOpportunity _ | .admitLaunch | .createHart
  | .preEmption _ | .escalation _ | .resumption | .completionWordWrite _ | .arrivalRegister _ _ | .mergedHartEmit _ _
  | .hwaitWake _ | .uncorrectableError _ _ | .read _ | .write _ | .atomic _ | .fsendMessage _ _
  | .collectiveData _ _ _ | .arrivalIncrement _ _ _ _ _ | .announce _ _ | .dataResponse _ | .completionResponse _ | .errorResponse _
  | .portNotice _ _ | .watchNotice _ _ | .linkRetrain _ | .linkFailure _ | .createContext _ _ _ _ _ _ _ _ _ | .startRootHart _ _ _ _ _ _ _
  | .endHart _ _ _ | .freezeContext _ _ | .thawContext _ _ | .debugHalt _ _ | .endHalt _ _ | .attestationReport _ _ _
  | .destroyContext _ _ | .modulePowerLimit _ _ | .managementWordWrite _ _ _ | .hostWrite _ _ | .hostRead _ _ | .atomicop _
  | .retirementPropose _ _ | .retirementApply | .thermalThrottle _ | .thermalReset | .bringUp _ | .receiptAddPacket _
  | .firmwareUpdate _ _ _ _ | .quadReset _ => []

/-- The two parcels a decoder is given for an encoded instruction; a scalar one is followed by any parcel. -/
def encodedParcels (i : Instr) (next : Parcel) : Option (Parcel × Parcel) :=
  match encode i with
  | [p] => some (BitVec.ofNat 32 p, next)
  | [p, q] => some (BitVec.ofNat 32 p, BitVec.ofNat 32 q)
  | _ => none

end Sys2Proof
end

