-- ==== Sys2Proof/Config.lean ====
section
/-! DEFINITION. What the silicon fixes, and the free values: constants without a body for what the spec leaves open. -/
namespace Sys2Proof.Config

/-- Bits of a full vector register: 32 lanes of 2,048 bits (R11). -/
def vregBits : Nat := 65536
/-- Bits of one lane's slice of a vector register (R11). -/
def laneBits : Nat := 2048
/-- Bits of a tile: 256 x 256 words of 32 bits (R20). -/
def tileBits : Nat := 2097152
/-- Bits of one bank of a code table: 256 entries of 32 bits (R132). -/
def bankBits : Nat := 8192
/-- Bytes of one lane die's HBM4, 128 GiB (R366). -/
def dieBytes : Nat := 137438953472
/-- Bytes of local memory, 3 TiB (R368). -/
def localBytes : Nat := 3298534883328

/-- A free Boolean: an open choice the spec leaves to the device. Log entry 12. -/
opaque freeBool : Nat → Bool
/-- A free byte. Log entry 12. -/
opaque freeByte : Nat → Byte
/-- A free 64-bit word. Log entry 12. -/
opaque freeWord : Nat → Word
/-- A free number: which of several allowed choices the device takes. Log entry 12. -/
opaque freeNat : Nat → Nat

/-- The routers of places `a` and `b` of a row or column are attached to one crossrack switch (R377). Log entry 26. -/
opaque oneSwitch : (row : Bool) → (line a b : Nat) → Bool

/-- SHA-384, which the spec names and does not define (R407, R408). Log entry 13. -/
opaque sha384 : List Byte → BitVec 384
/-- Ed25519 with the monitor's key, which the spec does not give (R408). Log entry 13. -/
opaque ed25519 : List Byte → BitVec 512
/-- ML-DSA-65 with the monitor's key, 3,309 bytes, which the spec does not give (R408). Log entry 13. -/
opaque mldsa65 : List Byte → BitVec 26472
/-- Whether a signature of Ed25519 or of ML-DSA-65 over some bytes verifies under a public key, which the spec names and does not define
(R407). Log entry 13. -/
opaque ed25519Verifies : (key signed : List Byte) → BitVec 512 → Bool
opaque mldsa65Verifies : (key signed : List Byte) → BitVec 26472 → Bool
/-- The bytes of an image's header before its signatures, whose layout the spec does not give (R407). Log entry 13. -/
opaque headerBytes : (magic kind svn length : Nat) → BitVec 384 → List Byte
/-- What the inspection space shows of a command's state, of a scoreboard entry and of the resumption entries, in layouts that the spec does
not give (R410). Log entry 33. -/
opaque commandState : (stage : Nat) → (code : BitVec 8) → BitVec 128
opaque scoreboardEntry : (valid : Bool) → (srcLo srcHi dstLo dstHi : Nat) → BitVec 256
opaque resumptionByte : (entries : List (Nat × Nat × Nat)) → (off : Nat) → Byte
/-- The device serial number, 16 bytes (R408). Log entry 13. -/
opaque serialNumber : BitVec 128

end Sys2Proof.Config
end

