-- ==== Sys2Proof/Machine/State.lean ====
section
/-! DEFINITION. The state of the device as plain data: the harts, the cores, the contexts, memory and its caches, the
launches, the engines, the fabric and the management space; and the state after reset. -/
namespace Sys2Proof.Machine
open Sys2Proof

/-- Why a step cannot be taken. -/
inductive Fault where
  /-- Raised by `step` alone, where `State.schedule` names an instruction of a hart as a step of another agent: such a schedule is no
  schedule of the device. Safe: no instruction and no event raises it. -/
  | notAnEvent
deriving DecidableEq, Repr

/-- Why an instruction has no meaning. -/
inductive Refusal where
  /-- An instruction whose meaning is not written yet. Raised by `exec` alone. Safe. -/
  | notModelled (mnemonic : String)
deriving DecidableEq, Repr

/-- Neighbour edge modes (R18, R21). -/
inductive Edge where
  | zero | wrap | clamp
deriving DecidableEq, Repr

/-- Rounding modes (R21). -/
inductive RMode where
  | nearestEven | towardZero | down | up | nearestAway | stochastic
deriving DecidableEq, Repr

/-- vcfg (R21). -/
structure VCfg where
  plog : Fin 4
  edge : Edge
  rm : RMode
  fzw : Bool
  fzh : Bool
  fz8 : Bool
  fz6 : Bool
  blk : Fin 4
  cthr : BitVec 8
deriving DecidableEq, Repr

/-- State of a register bank (R21, R22). -/
inductive GateState where
  | on | retention | gated
deriving DecidableEq, Repr

/-- One bank of vgate (R21). -/
structure Bank where
  st : GateState
  dead : Bool
deriving DecidableEq, Repr

/-- fflags (R41). -/
structure FFlags where
  nx : Bool
  uf : Bool
  ovf : Bool
  dz : Bool
  nv : Bool
deriving DecidableEq, Repr

/-- Threshold modes of the scout pass (R199). -/
inductive KMode where
  | relative | absolute | topm
deriving DecidableEq, Repr

/-- kthr (R199). -/
structure Kthr where
  tau : BitVec 32
  mode : KMode
  topm : Fin 8
deriving DecidableEq, Repr

/-- Hart modes (R340). -/
inductive Mode where
  | user | supervisor
deriving DecidableEq, Repr

/-- estat (R342). -/
structure EStat where
  tip : Bool
  pmode : Mode
  async : Bool
  kind : AccessKind
  prog : Bool
  lps : Bool
  rqs : Fin 32
  fpend : Bool
deriving DecidableEq, Repr

/-- One increment entry of a level record (R89). -/
structure LoopInc where
  reg : SReg
  inc : BitVec 48
deriving DecidableEq, Repr

/-- One level record of a LOOPN nest (R89). -/
structure LoopLevel where
  trips : BitVec 32
  incs : Vector LoopInc 3
deriving DecidableEq, Repr

/-- A loop state (R90, R91, R358). -/
structure LoopState where
  levels : Nat
  start : Word
  stop : Word
  counters : Vector Word 6
  records : Vector LoopLevel 6
  body : List Parcel
deriving DecidableEq, Repr

/-- Parcels that a convoy header has fetched with it (R69, R266). -/
structure Covered where
  start : Word
  parcels : List Parcel
deriving DecidableEq, Repr

/-- The watch of a hart (R229): the watched sector and the written bit. -/
structure Watch where
  sector : Nat
  written : Bool
deriving DecidableEq, Repr

/-- The hart's last arrival at one barrier (R232): the phase, whether it is registered, and the earlier stores that it still
waits for: requests by device, class and number, and messages by number. -/
structure Arrival where
  phase : Nat
  registered : Bool
  reqs : List (Nat × Fin 4 × Nat)
  msgs : List Nat
deriving DecidableEq, Repr

/-- The answer to a remote request of the instruction at the pc (R384, R385): the place and the length asked for, the data, and the
offsets of the poisoned sectors it marks. -/
structure RemoteAnswer where
  dev : Nat
  off : Nat
  len : Nat
  data : List Byte
  poisoned : List Nat
  failed : Bool
deriving DecidableEq, Repr

/-- What an address reaches. A `cell` is storage of the package, with the lane die that serves it. -/
inductive Loc where
  | cell (key die : Nat)
  | repl (quad off : Nat)
  | shelf (off : Nat)
  | mgmt (off : Nat)
  | host (addr : Nat)
  | fabric (dev off : Nat)
deriving DecidableEq, Repr

/-- What an access asks of a translation (R333, order 8). -/
inductive Access where
  | load | store | atomic | fetch
deriving DecidableEq, Repr

/-- A leaf as a translation uses it (R329, R330). -/
structure Leaf where
  entry : Word
  level : Nat
  k : Nat
  key : Nat
deriving DecidableEq, Repr

/-- A resolved address: what it reaches, its attributes, its physical address (a window address stands for itself), the placement
it was reached under, and the leaf that translated it. -/
structure Target where
  va : Word
  loc : Loc
  device : Bool
  window : Bool
  pa : Nat
  pmode : Nat
  leaf : Option Leaf
deriving DecidableEq, Repr

/-- A translation that an instruction keeps while it waits for another device or at its home (R336). -/
structure HeldPage where
  va : Word
  acc : Access
  target : Target
deriving DecidableEq, Repr

/-- An access of a vector instruction before its address is resolved: element `i`, `w` bits from bit `b` of its first byte, the
lane group that issues it, and the value of the source element, read before any element is written (R17, R138). -/
structure VReq where
  i : Nat
  va : Word
  b : Nat
  w : Nat
  group : Nat
  v : Nat := 0
deriving DecidableEq, Repr

/-- A memory instruction under way: vstart as it began, the elements still to be accessed, and the bits it has written, as
storage number, bit and width (R17, R262, R346). -/
structure Begun where
  vstart : BitVec 16
  left : List VReq
  written : List (Nat × Nat × Nat)
deriving DecidableEq, Repr

/-- A scalar load that the AP has performed while vector instructions before it still stood in the dispatch queue (R26, R29): its
address, bytes and value; the sector that it watches, and whether that has been written since (R229); the vector instructions it
has passed; the returns owed, once it has passed a memory access, that do not show that access complete, and whether the convoy of
that access still runs; whether a scalar store came after the load was performed, or one before it is under way; whether an access
it has passed is known to be complete; whether it has passed a VLDFF; and the registers whose value depends on a return that
shows one complete (R275). -/
structure EarlyLoad where
  va : Word
  n : Nat
  v : Nat
  target : Target
  sector : Nat
  written : Bool
  passed : Nat
  behind : Option Nat
  same : Bool
  stored : Bool
  known : Bool
  trimmed : Bool
  deps : List SReg
deriving DecidableEq, Repr

/-- A batch that an ECMD is offering: the engine, the context's vatp and windows as the ECMD read its group, the commands still to
be decided, and the decisions (R314, R316). -/
structure Offer where
  engine : Engine
  vatp : Word
  swin : Vector Word 4
  left : List (Nat × List Word)
  decided : List (Nat × Bool)
deriving DecidableEq, Repr

/-- Whether a slot holds a hart, and whether it runs (R24, R347). -/
inductive HartStatus where
  | absent | resident | halted
deriving DecidableEq, Repr

/-- A hart (R9), with its place in the device. -/
structure Hart where
  status : HartStatus
  place : Slot
  ctx : Fin 64
  launch : Nat
  born : Nat
  linear : Word
  quadIndex : Word
  coreIndex : Word
  merged : Bool
  sregs : Vector Word 32
  vregs : Vector (BitVec Config.vregBits) 64
  vtags : Vector Tag 64
  flen : Vector (BitVec 16) 16
  tiles : Vector (BitVec Config.tileBits) 8
  keep : Vector Word 8
  counters : Vector (BitVec 32) 16
  cerr : Vector Bool 16
  vl : BitVec 16
  vstart : BitVec 16
  cura : BitVec 32
  curb : BitVec 32
  vcfg : VCfg
  vgate : Vector Bank 8
  pc : Word
  fflags : FFlags
  srseed : Word
  sroff : Word
  kthr : Kthr
  pclass : Fin 4
  ltmask : BitVec 8
  ixlive : Bool
  mode : Mode
  ecause : BitVec 8
  epc : Word
  eval : Word
  estat : EStat
  retq : List Word
  asideRet : List Word
  watch : Option Watch
  prog : Bool
  loop : Option LoopState
  asideLoop : Option LoopState
  covered : Option Covered
  ahead : List (Word × Parcel)
  pigeon : List (BitVec 32 × Word)
  early : List EarlyLoad
  afresh : List Nat
  waiting : Bool
  arrivals : Vector (Option Arrival) 16
  credit : Int
  yielded : Nat
  preempt : Bool
  convoys : Nat
  answers : List RemoteAnswer
  begun : Option Begun
  underway : Bool
  parcels : Option (Parcel × Parcel)
  held : List HeldPage
  counted : List (Nat × Nat)
  locking : Option Nat
  issue : Bool
  startedAt : Nat
  offer : Option Offer
  cancelling : Option (List Nat)
  canCount : Nat
  fpEval : Word
deriving DecidableEq, Repr

/-- Placement policy of a core (R228). -/
inductive PartMode where
  | free | pinned | closed
deriving DecidableEq, Repr

/-- One code table: two banks and the selector (R132). -/
structure CodeTable where
  bank0 : BitVec Config.bankBits
  bank1 : BitVec Config.bankBits
  sel : Bool
deriving DecidableEq, Repr

/-- An announce that has arrived and matches no command yet (R391). -/
structure Announced where
  src : Nat
  key : CollKey
deriving DecidableEq, Repr

/-- One line of an instruction L1 (R256, R267). -/
structure ILine where
  line : Nat
  data : BitVec 1024
deriving DecidableEq, Repr

/-- The state of one core (R132, R94, R369, R228, R243). -/
structure Core where
  retired : Bool
  tables : Vector CodeTable 8
  ckcount : Word
  ctrloc : Word
  ctrrem : Word
  part : PartMode
  partPlog : Fin 4
  position : Fin 15
  il1 : List ILine
deriving DecidableEq, Repr

/-- The registers of a context (R340, R341, R406). -/
structure Context where
  live : Bool
  frozen : Bool
  vatp : Word
  evec : Word
  swin : Vector Word 4
  saveBase : Word
deriving DecidableEq, Repr

/-- Memory: address and byte pairs, addresses strictly rising, no zero byte listed (an unlisted byte reads 0). -/
abbrev Memory := List Host.Cell

/-- A cached translation (R335): the tag, the page it serves and the leaf. -/
structure TlbEntry where
  asid : BitVec 15
  global : Bool
  priv : Bool
  vpage : Nat
  size : Nat
  leaf : Leaf
deriving DecidableEq, Repr

/-- A page-table entry as it stood before a write, which a walk may still read until a write of vatp under each address space
in turn (R269, R338): where it lies, its value, and the address spaces it is gone for. -/
structure OldEntry where
  key : Nat
  value : Word
  gone : List (BitVec 15)
deriving DecidableEq, Repr

/-- A pointer entry that a walk has read and the walk cache holds (R336): the address space, where it lies, and its value. -/
structure WalkEntry where
  asid : BitVec 15
  key : Nat
  value : Word
deriving DecidableEq, Repr

/-- Who waits in the FIFO of a line (R295): a hart by its creation number, a hart of another device by its slot, or the receipt of a
message by the device it comes from and its number. -/
inductive Waiter where
  | hart (born : Nat)
  | far (src : Nat) (slot : Slot)
  | receipt (src : Nat) (n : Nat)
deriving DecidableEq, Repr

/-- An atomic that waits for a line (R295); the list of them is in order of arrival. -/
structure LineWait where
  line : Nat
  who : Waiter
deriving DecidableEq, Repr

/-- The lines that a VAMO or VSRED of another device's hart holds locked here, from its first packet to its last; `refused` where it
found a poisoned sector among them, so that none of its packets is applied (R153, R293, R384). -/
structure LineLock where
  src : Nat
  slot : Slot
  lines : List Nat
  refused : Bool
deriving DecidableEq, Repr

/-- One barrier of a gang launch (R231), with the harts that arrived at its current phase and then exited (R235). -/
structure Barrier where
  phase : Nat
  arrivals : Nat
  parts : Nat
  leaving : Nat
deriving DecidableEq, Repr

/-- A dependence of a launch in force (R216, R223). -/
structure Dep where
  target : BitVec 32
  cnt : WIdx
deriving DecidableEq, Repr

/-- A spatial loop row of a launch (R216): its trips, and whether it is a quads row. -/
structure SpatialRow where
  trips : Nat
  quads : Bool
deriving DecidableEq, Repr

/-- A quad index bound to a quad, and how many of its harts have ended (R240). -/
structure Bind where
  index : Nat
  quad : Fin 6
  ended : Nat
deriving DecidableEq, Repr

/-- An accepted launch, from acceptance to its completion word (R222 to R225). -/
structure Launch where
  id : Nat
  ctx : Fin 64
  cls : Fin 4
  gang : Bool
  root : Bool
  plog : Fin 4
  entry : Word
  arg : Word
  nest : Word
  desc : List Word
  rows : List SpatialRow
  compact : Bool
  deps : List Dep
  parent : Nat
  admitted : Bool
  total : Nat
  created : Nat
  ended : Nat
  nexit : Nat
  code : BitVec 8
  cword : List Nat
  barriers : Vector Barrier 16
  binds : List Bind
  mergedOut : Nat
deriving DecidableEq, Repr

/-- Kept counters of a hart that exited (R223). -/
structure Kept where
  born : Nat
  counters : Vector (BitVec 32) 16
  cerr : Vector Bool 16
deriving DecidableEq, Repr

/-- A pre-empted hart (R237, R353): its identity, and what reached it since the save. -/
structure Saved where
  hart : Hart
  order : Nat
  gang : Bool
  image : Nat
  increments : List (WIdx × Bool)
deriving DecidableEq, Repr

/-- A merged element of a compaction pool (R246, R247). -/
structure PoolElem where
  vals : List Nat
  index : Nat
  linear : Word
deriving DecidableEq, Repr

/-- A pool of a quad's compaction unit (R247). -/
structure Pool where
  quad : Fin 6
  launch : Nat
  addr : Word
  tags : List Tag
  cfg : VCfg
  srseed : Word
  sroff : Word
  quadIndex : Word
  elems : List PoolElem
deriving DecidableEq, Repr

/-- A merged hart that waits to be placed (R247). -/
structure MergedHart where
  pool : Pool
  elems : List PoolElem
deriving DecidableEq, Repr

/-- How far an accepted command has come: its data still to be moved; for XA2A, its writes under way; or moved, with the
code and the place it ends with. -/
inductive CmdStage where
  | pending
  | flying
  | moved (code : BitVec 8) (place : Word)
deriving DecidableEq, Repr

/-- A page as an accepted command translates it: where its first byte lies, and its physical address (R315). -/
structure CmdPage where
  vpage : Nat
  loc : Loc
  pa : Nat
deriving DecidableEq, Repr

/-- A part of a contribution to a collective that has arrived: whose, from which element on (R392). -/
structure CollPart where
  src : Nat
  first : Nat
  elems : List CollElem
deriving DecidableEq, Repr

/-- A collective as a participant's COE holds it (R390, R391). -/
structure Coll where
  key : CollKey
  self : Nat
  root : Nat
  sdim : Nat
  gstride : Word
  maps : List (List Word)
  core : Nat
  announced : Bool
  peers : List Nat
  sent : Bool
  place : BitVec 8 × Word
  data : List CollPart
deriving DecidableEq, Repr

/-- A command's dwords as its fields (R305, R306): the used dimensions' trips and strides only. -/
structure Job where
  op : Nat
  conv : Bool
  stag : Tag
  dtag : Tag
  rm : RMode
  sat : Bool
  fz : Bool
  cnt : WIdx
  kmode : Nat
  kfill : Bool
  kn : KIdx
  kdim : Nat
  cten : Bool
  ctn : Fin 8
  trips : List Nat
  sstr : List Int
  dstr : List Int
  src : Word
  dst : Word
  key : Word
  off : Word
  erec : Word
  extra : Word
deriving DecidableEq, Repr

/-- What devices hand to the fabric (R379). -/
inductive OutMsg where
  | read (p : Packet) | write (p : Packet) | atomic (p : Packet)
  | fsend (p : Packet) (m : FMsg) | collData (p : Packet) (key : CollKey) (elems : List CollElem)
  | announce (p : Packet) (key : CollKey) | arrival (p : Packet) (ctx : Fin 64) (core : Nat) (slot : Fin 8) (w : WIdx)
  | dataResponse (p : Packet) | completionResponse (p : Packet) | errorResponse (p : Packet)
  | watchNotice (p : Packet) (sector : Nat) | receiptAdd (p : Packet)
  | portNotice (p : Packet) (news : PortNews)
deriving DecidableEq, Repr

/-- A request of a command that is still to leave (R382): its class, device, offset and length, and its message but for what its
stream gives it. -/
structure CmdSend where
  ocls : Fin 4
  dev : Nat
  off : Nat
  len : Nat
  msg : OutMsg
deriving DecidableEq, Repr

/-- An accepted engine command (R305, R315, R316): with the lines it owns (R281) and the ranges of its scoreboard entry,
as first and past-the-end storage numbers (R282). -/
structure Cmd where
  id : Nat
  engine : Engine
  quad : Fin 6
  owner : Nat
  launch : Nat
  place : Slot
  ctx : Fin 64
  mode : Mode
  vatp : Word
  swin : Vector Word 4
  dwords : List Word
  job : Job
  keepMask : Word
  table : BitVec Config.bankBits
  bank : Bool
  pages : List CmdPage
  coll : Option Coll
  owned : List Nat
  rsbSrc : Option (Nat × Nat)
  rsbDst : Option (Nat × Nat)
  sends : List CmdSend
  answers : List RemoteAnswer
  stage : CmdStage
deriving DecidableEq, Repr

/-- A request sent over the fabric that has no response yet (R382), or that failed and whose hart has not taken its error yet (R346). -/
structure OutReq where
  txn : Nat
  dst : Nat
  ocls : Fin 4
  seq : Nat
  born : Nat
  off : Nat
  len : Nat
  posted : Bool
  mc : Bool
  eval : Word
  cmd : Option Nat
  refused : Bool
deriving DecidableEq, Repr

/-- One entry of the remote watch table (R386): the watched sector, and the offset under which its hart asked. -/
structure RemoteWatch where
  dev : Nat
  place : Slot
  sector : Nat
  off : Nat
deriving DecidableEq, Repr

/-- A response kept for the duplicates of a request (R382). -/
structure CachedResponse where
  src : Nat
  ocls : Fin 4
  seq : Nat
  msg : OutMsg
deriving DecidableEq, Repr

/-- One received stream: source, class, the next expected number (R381, R382). -/
structure Stream where
  dev : Nat
  ocls : Fin 4
  next : Nat
deriving DecidableEq, Repr

/-- The last burst number and packet index of a source and class performed here (R388). -/
structure Burst where
  src : Nat
  cls : Fin 4
  num : Nat
  done : List Nat
deriving DecidableEq, Repr

/-- The fabric side of the device (R375 to R388). -/
structure Fabric where
  row : Fin 32
  col : Fin 32
  nrow : Nat
  ncol : Nat
  rsw : Bool
  csw : Bool
  rowMasks : Vector (BitVec 1024) 33
  colMasks : Vector (BitVec 1024) 33
  localMask : BitVec 1024
  retrains : List (Nat × Nat)
  failedPorts : List Nat
  farFailed : List (Nat × Nat)
  lost : List Nat
  sent : List Stream
  expected : List Stream
  held : List OutMsg
  cached : List CachedResponse
  bursts : List Burst
  outstanding : List OutReq
  watches : List RemoteWatch
  out : List OutMsg
  nextTxn : Nat
deriving DecidableEq, Repr

/-- An attic entry (R374). -/
structure Attic where
  unit : Retired
  errs : Nat
  boot : Nat
  drain : Nat
deriving DecidableEq, Repr

/-- The management space and the firmware's state (R374, R376, R404, R405, R407, R410, R411, R413): the fuse slots hold the hashes of the
two public keys; `msix` are the vectors raised, which the host takes once it has enabled them. -/
structure Mgmt where
  attic : List Attic
  proposed : List (Retired × Nat)
  boots : Nat
  drains : Nat
  bstage : Fin 9
  bfail : Bool
  svn : List (Nat × Nat)
  fuseEd : BitVec 384
  fuseMl : BitVec 384
  monitor : Option FwImage
  firmware : Option FwImage
  detour : BitVec 8
  escalation : Vector (BitVec 32 × BitVec 32) 6
  pshare : Vector (Fin 13) 24
  selector : BitVec 19
  mboxCmd : List Word
  mboxStatus : BitVec 8
  mboxSeq : BitVec 24
  mboxTaken : List Word
  msix : List (Fin 64)
  powerLimit : Nat
  throttled : List (Fin 24)
  resets : Nat
deriving DecidableEq, Repr

/-- What the schedule says moves next: a step of another agent, another resident hart, a parcel that the current hart fetches
ahead of its pc (R267), a scalar load that it performs ahead of vector instructions in its dispatch queue (R29), a line whose dirty bytes leave the data L1s for the L2 on their own (R256), or a line that the L2 gives
up (R260).
DESIGN CHOICE, log entry 2: unsafe with the empty schedule. -/
inductive Action where
  | event (i : Instr)
  | turn (h : Slot)
  | ahead (va : Word)
  | early (va : Word) (n : Nat)
  | evict (line : Nat)
  | castOut (line : Nat)
deriving DecidableEq, Repr

/-- The head of the launch dispatcher (R237): a launch by its number, a resumption entry by the order of its oldest hart, or a
merged hart by its place among those that wait. -/
inductive Head where
  | launch (id : Nat)
  | resume (order : Nat)
  | merged (n : Nat)
deriving DecidableEq, Repr

/-- The state of the device. -/
structure State where
  hart : Hart
  others : List Hart
  cores : Vector Core 192
  ctxs : Vector Context 64
  mem : Memory
  l2 : Memory
  hbm : Memory
  poison : List Nat
  hbmPoison : List Nat
  ptrLines : List Nat
  tlb : List TlbEntry
  oldEntries : List OldEntry
  walks : List WalkEntry
  lineWaits : List LineWait
  locks : List LineLock
  launches : List Launch
  head : Option Head
  kept : List Kept
  saved : List Saved
  pools : List Pool
  mergedHarts : List MergedHart
  cmds : List Cmd
  announces : List Announced
  unpaired : List (Word × Nat)
  msgs : List FMsg
  haltedQuads : List (Fin 6)
  fabric : Fabric
  mgmt : Mgmt
  hostReads : List (List Byte)
  unsupported : Nat
  nextId : Nat
  schedule : List Action
  ran : Nat
  free : Nat
deriving DecidableEq, Repr

def FFlags.zero : FFlags := ⟨false, false, false, false, false⟩
def VCfg.reset : VCfg := ⟨0, .zero, .nearestEven, false, false, false, false, 0, 0⟩
def EStat.reset : EStat := ⟨false, .user, false, .none, false, false, 0, false⟩

/-- A hart slot as creation leaves it (R24), before a launch or the management path delivers its values.
DESIGN CHOICE, log entry 3: unsafe. -/
def Hart.fresh : Hart where
  status := .absent
  place := ⟨0, 0⟩
  ctx := 0
  launch := 0
  born := 0
  linear := 0
  quadIndex := 0
  coreIndex := 0
  merged := false
  sregs := .replicate 32 0
  vregs := .replicate 64 (BitVec.ofNat Config.vregBits 0)
  vtags := .replicate 64 .n64
  flen := .replicate 16 0
  tiles := .replicate 8 (BitVec.ofNat Config.tileBits 0)
  keep := .replicate 8 0
  counters := .replicate 16 0
  cerr := .replicate 16 false
  vl := 0
  vstart := 0
  cura := 0
  curb := 0
  vcfg := .reset
  vgate := .replicate 8 ⟨.on, false⟩
  pc := 0
  fflags := .zero
  srseed := 0
  sroff := 0
  kthr := ⟨0, .relative, 0⟩
  pclass := 0
  ltmask := 0
  ixlive := false
  mode := .supervisor
  ecause := 0
  epc := 0
  eval := 0
  estat := .reset
  retq := []
  asideRet := []
  watch := none
  prog := false
  loop := none
  asideLoop := none
  covered := none
  ahead := []
  pigeon := []
  early := []
  afresh := []
  waiting := false
  arrivals := .replicate 16 none
  credit := 0
  yielded := 0
  preempt := false
  convoys := 0
  answers := []
  begun := none
  underway := false
  parcels := none
  held := []
  counted := []
  locking := none
  issue := false
  startedAt := 0
  offer := none
  cancelling := none
  canCount := 0
  fpEval := 0

def CodeTable.reset : CodeTable := ⟨BitVec.ofNat Config.bankBits 0, BitVec.ofNat Config.bankBits 0, false⟩

/-- A core at core reset (R94, R132, R228, R243, R369).
DESIGN CHOICE, log entry 6: unsafe. -/
def Core.reset : Core where
  retired := false
  tables := .replicate 8 .reset
  ckcount := 0
  ctrloc := 0
  ctrrem := 0
  part := .free
  partPlog := 0
  position := 0
  il1 := []

/-- A context number that Create context has not used (R327, R342, R250). -/
def Context.reset : Context := ⟨false, false, 0, 0, .replicate 4 0, 0⟩

/-- A device alone in its fabric (R376).
DESIGN CHOICE, log entry 14: unsafe. -/
def Fabric.reset : Fabric where
  row := 0
  col := 0
  nrow := 1
  ncol := 1
  rsw := false
  csw := false
  rowMasks := .replicate 33 0
  colMasks := .replicate 33 0
  localMask := 1
  retrains := []
  failedPorts := []
  farFailed := []
  lost := []
  sent := []
  expected := []
  held := []
  cached := []
  bursts := []
  outstanding := []
  watches := []
  out := []
  nextTxn := 0

/-- The management space and the firmware at power-on (R374, R404, R411).
DESIGN CHOICE for the attic, the boots, the versions and the fuse slots, log entry 5: unsafe. -/
def Mgmt.reset : Mgmt where
  attic := []
  proposed := []
  boots := 0
  drains := 0
  bstage := 0
  bfail := false
  svn := []
  fuseEd := 0
  fuseMl := 0
  monitor := none
  firmware := none
  detour := 48
  escalation := .replicate 6 (65536, 65536)
  pshare := .replicate 24 4
  selector := 0
  mboxCmd := .replicate 16 0
  mboxStatus := 0
  mboxSeq := 0
  mboxTaken := []
  msix := []
  powerLimit := 22000
  throttled := []
  resets := 0

/-- The device right after reset: no context, no hart, every queue empty, memory with nothing listed. -/
def State.reset : State where
  hart := .fresh
  others := []
  cores := .replicate 192 .reset
  ctxs := .replicate 64 .reset
  mem := []
  l2 := []
  hbm := []
  poison := []
  hbmPoison := []
  ptrLines := []
  tlb := []
  oldEntries := []
  walks := []
  lineWaits := []
  locks := []
  launches := []
  head := none
  kept := []
  saved := []
  pools := []
  mergedHarts := []
  cmds := []
  announces := []
  unpaired := []
  msgs := []
  haltedQuads := []
  fabric := .reset
  mgmt := .reset
  hostReads := []
  unsupported := 0
  nextId := 1
  schedule := []
  ran := 0
  free := 0

end Sys2Proof.Machine
end

