-- ==== Sys2Proof/Machine/Routes.lean ====
section
/-! DEFINITION. The routes of the fabric: the ports and cabling of this device's two routers, the hop of a packet, and the packets that
leave here (R375 to R378, R381). -/
namespace Sys2Proof.Machine
open Sys2Proof

/-- This device's id (R375). -/
def Fabric.self (f : Fabric) : Nat := 32 * f.row.val + f.col.val


/-! ### Ports (R375) -/

/-- Ports 0 to 32 of the row router are numbered 0 to 32, those of the column router 33 to 65.
DESIGN CHOICE, log entry 26: unsafe. -/
def portNumber (row : Bool) (p : Nat) : Nat := if row then p else 33 + p

/-- A port is cabled to another device, or to a crossrack switch (R375, R376). -/
def Fabric.cabled (f : Fabric) (port : Nat) : Bool :=
  if port < 32 then port < f.ncol && port != f.col.val
  else if port = 32 then f.rsw
  else if port < 65 then port - 33 < f.nrow && port - 33 != f.row.val
  else port = 65 && f.csw
/-- A port of this device is in service. -/
def Fabric.portUp (f : Fabric) (port : Nat) : Bool := f.cabled port && !f.failedPorts.contains port
/-- A port of another device is in service, as far as port notices say. -/
def Fabric.farPortUp (f : Fabric) (dev port : Nat) : Bool := !f.farFailed.contains (dev, port) && !f.lost.contains dev

/-! ### Routes (R377, R378) -/

/-- The port a packet leaves on, and whether it is on the detour channel from there. -/
structure Hop where
  port : Nat
  dt : Bool
deriving DecidableEq, Repr

/-- The intermediates of a detour towards place `goal` of this row or column, in ascending id, whose two ports are in service. -/
def Fabric.intermediates (f : Fabric) (row : Bool) (goal : Nat) : List Nat :=
  (rangeFrom 0 32).filter fun k =>
    k != goal && f.portUp (portNumber row k)
      && f.farPortUp (if row then 32 * f.row.val + k else 32 * k + f.col.val) (portNumber row goal)

/-- Both routers of a hop along this row or column to place `goal` are attached to one switch (R377, R378). Which switch a spare port goes
to is the installation's: it is free.
DESIGN CHOICE, log entry 26: unsafe. -/
def Fabric.switched (f : Fabric) (row : Bool) (goal : Nat) : Bool :=
  f.portUp (portNumber row 32)
    && f.farPortUp (if row then 32 * f.row.val + goal else 32 * goal + f.col.val) (portNumber row 32)
    && Config.oneSwitch row (if row then f.row.val else f.col.val) (if row then f.col.val else f.row.val) goal

/-- One hop of a packet: its port, a detour around a failed port, or the switch; none where the packet is unreachable. Which detour
a congested port makes it take changes its timing only. -/
def Fabric.hop (f : Fabric) (row : Bool) (goal : Nat) (dt : Bool) : Option Hop :=
  if f.portUp (portNumber row goal) then some ⟨portNumber row goal, dt⟩
  else match (if dt then [] else f.intermediates row goal) with
    | k :: _ => some ⟨portNumber row k, true⟩
    | [] => if f.switched row goal then some ⟨portNumber row 32, true⟩ else none

/-- The minimal route's first hop from here: along the row, else along the column (R377). -/
def Fabric.route (f : Fabric) (dev : Nat) (dt : Bool) : Option Hop :=
  if dev % 32 = f.col.val then f.hop false (dev / 32) dt else f.hop true (dev % 32) dt

/-- A device that no route from here reaches: lost, no position of the grid, or behind failed ports (R375, R377, R383). -/
def Fabric.unreachable (f : Fabric) (dev : Nat) : Bool :=
  f.lost.contains dev || f.nrow ≤ dev / 32 || f.ncol ≤ dev % 32 || (dev != f.self && (f.route dev false).isNone)
/-- Whether a request to a device can leave (R383, R385). -/
def Fabric.reaches (f : Fabric) (dev : Nat) : Bool := !f.unreachable dev

/-- A packet to a device leaves: on the detour channel where its hop is one; a multicast copy goes as its port has it. -/
def Packet.leaves (f : Fabric) (p : Packet) : Packet :=
  if p.mc then p else { p with dt := ((f.route p.dst p.dt).map Hop.dt).getD p.dt }

/-! ### Packets of this device -/

/-- Ordering class of an access on the fabric (R381). -/
abbrev Ocls := Fin 4

/-- The next sequence number of a stream from this device (R381). -/
def Fabric.nextSeq (f : Fabric) (dev : Nat) (c : Ocls) : Nat :=
  match f.sent.find? (fun x => x.dev = dev ∧ x.ocls = c) with
  | some x => x.next
  | none => 0

/-- A packet of this device to another. -/
def Fabric.packet (f : Fabric) (dev : Nat) (c : Ocls) (off : Nat) (slot : Slot) : Packet where
  src := f.self
  dst := dev
  mc := false
  dt := ((f.route dev false).map Hop.dt).getD false
  string := 0
  ocls := c
  seq := f.nextSeq dev c
  bidx := 0
  off := off
  txn := f.nextTxn % 2 ^ 16
  data := []
  mask := []
  marks := []
  tainted := false
  wt := false
  slot := slot
  op := .add
  size := .w
  len := 0
  rm := 0
  fz := false
  merges := false
  tag := .n64
  lockset := []
  closing := true

/-- Bytes cut into the payloads of packets, of up to 256 bytes each (R379). -/
def payloadParts (l : List Byte) : List (List Byte) := (rangeFrom 0 ((l.length + 255) / 256)).map fun k => (l.drop (256 * k)).take 256

end Sys2Proof.Machine
end

