-- ==== Sys2Proof/Machine/Ops.lean ====
section
/-! DEFINITION. The named operations over registers and memory, the ending of an instruction, and taking a trap and
returning from one. -/
namespace Sys2Proof.Machine
open Sys2Proof

/-! ### Scalar registers (R10) -/

/-- A read of a scalar register; s0 reads zero. -/
def Hart.getS (h : Hart) (r : SReg) : Word := if r = 0 then 0 else h.sregs.get r
/-- A write of a scalar register; a write to s0 is discarded. -/
def Hart.setS (h : Hart) (r : SReg) (v : Word) : Hart := if r = 0 then h else { h with sregs := h.sregs.set r v }
/-- A read of a scalar register of the current hart. -/
def State.getS (s : State) (r : SReg) : Word := s.hart.getS r
/-- A write of a scalar register of the current hart. -/
def State.setS (s : State) (r : SReg) (v : Word) : State := { s with hart := s.hart.setS r v }

/-! ### Memory (R83: little-endian; canonical form) -/

/-- The byte a list holds at an address; an unlisted address reads 0.
DESIGN CHOICE, log entry 7: unsafe. -/
def Memory.get : Memory → Nat → Byte
  | [], _ => 0
  | (k', b) :: t, k => if k' = k then b else Memory.get t k

/-- The list with one byte written, in canonical form. -/
def Memory.set : Memory → Nat → Byte → Memory
  | [], k, b => if b = 0 then [] else [(k, b)]
  | (k', b') :: t, k, b =>
    if k < k' then (if b = 0 then (k', b') :: t else (k, b) :: (k', b') :: t)
    else if k = k' then (if b = 0 then t else (k, b) :: t)
    else (k', b') :: Memory.set t k b

/-- The number held in `n` bytes from `k`. -/
def Memory.read (m : Memory) (k : Nat) : Nat → Nat
  | 0 => 0
  | n + 1 => (m.get k).toNat + 256 * Memory.read m (k + 1) n

/-- The list with the low `n` bytes of `v` written from `k`. -/
def Memory.write (m : Memory) (k : Nat) : Nat → Nat → Memory
  | 0, _ => m
  | n + 1, v => Memory.write (m.set k (BitVec.ofNat 8 v)) (k + 1) n (v / 256)

/-- `dst` with the bytes of [lo, lo + n) taken from `src`. -/
def Memory.splice (dst src : Memory) (lo n : Nat) : Memory :=
  dst.filter (fun c => c.1 < lo) ++ src.filter (fun c => lo ≤ c.1 && c.1 < lo + n) ++ dst.filter (fun c => lo + n ≤ c.1)

/-- The canonical form: addresses strictly rising, no zero byte listed. -/
def Memory.wf : Memory → Bool
  | [] => true
  | [(_, b)] => b != 0
  | (k, b) :: (k', b') :: t => b != 0 && decide (k < k') && Memory.wf ((k', b') :: t)

/-- The number held in `n` bytes from `lo`, by one pass over the list. -/
def Memory.readRange (m : Memory) (lo n : Nat) : Nat :=
  m.foldl (fun acc c => if lo ≤ c.1 ∧ c.1 < lo + n then acc + c.2.toNat * 256 ^ (c.1 - lo) else acc) 0

/-- The non-zero bytes of `v`, `2^d` bytes wide, as cells from `lo`. -/
def cellsOf (lo v : Nat) : Nat → Memory
  | 0 => if v % 256 = 0 then [] else [(lo, BitVec.ofNat 8 v)]
  | d + 1 =>
    if v = 0 then [] else cellsOf lo (v % 2 ^ (8 * 2 ^ d)) d ++ cellsOf (lo + 2 ^ d) (v / 2 ^ (8 * 2 ^ d)) d

/-- The list with `n` bytes of `v` written from `lo`, by one pass. -/
def Memory.writeRange (m : Memory) (lo n v : Nat) : Memory :=
  Memory.splice m (cellsOf lo (v % 256 ^ n) (clog2 n)) lo n

/-! ### Where bytes are stored: one number for every byte of the package (R249, R366, R368) -/

/-- Bases of the storage numbers of the scratch levels and of the host's memory. -/
def cupboardBase : Nat := 2 ^ 42
def larderBase : Nat := 2 ^ 43
def cellarBase : Nat := 2 ^ 44
def shelfBase : Nat := 2 ^ 45
def hostBase : Nat := 2 ^ 52

/-- Local memory is the storage the caches hold (R256). -/
def isLocal (key : Nat) : Bool := key < Config.localBytes

/-- The written bit of a watch on one of the sectors is set (R229), also of the watch that a load performed early will set. -/
def Hart.noteWrite (h : Hart) (sectors : List Nat) : Hart :=
  { h with
    watch := h.watch.map fun w => if sectors.contains w.sector then { w with written := true } else w
    early := h.early.map fun e => if sectors.contains e.sector then { e with written := true } else e }

/-- A fabric-window address as a number (R368). -/
def fabricPlace (dev off : Nat) : Nat := 2 ^ 55 + dev * 2 ^ 45 + off

/-- The notice of a watch: a packet to its hart's device, which names the sector of the fabric-window address that the hart loaded (R379,
R386). -/
def Fabric.notice (f : Fabric) (w : RemoteWatch) : OutMsg :=
  .watchNotice (f.packet w.dev 0 w.off w.place) (fabricPlace f.self w.off / 32)

/-- A write to the sectors reaches every watch, on this device and on others (R229, R386). -/
def State.noteWrites (s : State) (sectors : List Nat) : State :=
  let hit := s.fabric.watches.filter (fun w => sectors.contains w.sector)
  { s with
    hart := s.hart.noteWrite sectors
    others := s.others.map (·.noteWrite sectors)
    fabric := { s.fabric with
      watches := s.fabric.watches.filter (fun w => !sectors.contains w.sector)
      out := s.fabric.out ++ hit.map (fun w => s.fabric.notice w) } }

/-- The sectors that `n` bytes from `key` touch. -/
def sectorsOf (key n : Nat) : List Nat :=
  if n = 0 then [] else rangeFrom (key / 32) ((key + n - 1) / 32 - key / 32 + 1)

/-- The directory recalls the dirty bytes of a line into the L2 (R257). -/
def State.drawBack (s : State) (key : Nat) : State :=
  if isLocal key then { s with l2 := s.l2.splice s.mem (key / 128 * 128) 128 } else s

/-- Whether some context translates (R327). -/
def State.paged (s : State) : Bool := s.ctxs.toList.any (fun c => c.vatp.toNat / 2 ^ 60 != 0)

/-- The aligned dwords of local memory that runs of bytes (first byte, length) touch. -/
def dwordsOf (spans : List (Nat × Nat)) : List Nat :=
  ((spans.filter fun x => isLocal x.1 && x.2 != 0).flatMap fun x =>
    rangeFrom (x.1 / 8) ((x.1 + x.2 - 1) / 8 - x.1 / 8 + 1)).eraseDups

/-- Memory written in the bytes of `spans`: while some context translates, what stood there before may still be read as a
page-table entry (R269, R338). -/
def State.setMem (s : State) (spans : List (Nat × Nat)) (m : Memory) : State :=
  { s with
    mem := m
    oldEntries := if s.paged then
        s.oldEntries ++ ((dwordsOf spans).filter fun d => s.mem.read (8 * d) 8 != m.read (8 * d) 8).map
          fun d => ⟨8 * d, BitVec.ofNat 64 (s.mem.read (8 * d) 8), []⟩
      else s.oldEntries }

/-- A scalar store of `n` bytes: it lands in the data L1 and leaves the L2 as it was (R256). -/
def State.storeScalar (s : State) (key n v : Nat) : State :=
  (s.setMem [(key, n)] (s.mem.write key n v)).noteWrites (sectorsOf key n)

/-- A write of `n` bytes that goes to the L2, as every write but a scalar store does (R257). -/
def State.storeDirect (s : State) (key n v : Nat) : State :=
  ((s.setMem [(key, n)] (s.mem.write key n v)).drawBack key).noteWrites (sectorsOf key n)

/-- The sectors that some watch holds, of this device's harts or of others (R229, R386). -/
def State.watchedSectors (s : State) : List Nat :=
  (s.hart :: s.others).flatMap (fun h => (h.watch.map Watch.sector).toList ++ h.early.map EarlyLoad.sector)
    ++ s.fabric.watches.map RemoteWatch.sector

/-- A write of a long run of bytes, in one pass (images, engine lines): the lines it touches are recalled whole (R257). -/
def State.storeRange (s : State) (key n v : Nat) : State :=
  let m := s.mem.writeRange key n v
  let hit := s.watchedSectors.filter (fun q => key / 32 ≤ q && q ≤ (key + n - 1) / 32)
  { s with mem := m, l2 := if isLocal key then s.l2.splice m (key / 128 * 128) ((key + n + 127) / 128 * 128 - key / 128 * 128) else s.l2 }.noteWrites hit

/-- A sector becomes poisoned (R261). -/
def State.addPoison (s : State) (sector : Nat) : State := { s with poison := insertNat sector s.poison }
/-- A sector's poison is cleared (R143). -/
def State.clearPoison (s : State) (sectors : List Nat) : State :=
  { s with poison := s.poison.filter (fun p => !sectors.contains p) }
/-- Whether a byte lies in a poisoned sector (R262). -/
def State.poisoned (s : State) (key : Nat) : Bool := s.poison.contains (key / 32)

/-! ### The units of the package (R213, R373) -/

/-- The context of the current hart. -/
def State.ctx (s : State) : Context := s.ctxs.get s.hart.ctx
/-- The core of the current hart. -/
def State.core (s : State) : Core := s.cores.get s.hart.place.core
/-- The state with the current hart's core changed. -/
def State.setCore (s : State) (c : Core) : State := { s with cores := s.cores.set s.hart.place.core c }
/-- The state with the current hart's context changed. -/
def State.setCtx (s : State) (c : Context) : State := { s with ctxs := s.ctxs.set s.hart.ctx c }

/-- Whether a physical core is in service. -/
def State.inService (s : State) (c : Nat) : Bool :=
  if h : c < 192 then !(s.cores.get ⟨c, h⟩).retired else false
/-- Physical cores in service, ascending; coreid is the place in this list (R213). -/
def State.coreMap (s : State) : List Nat := (rangeFrom 0 192).filter s.inService
/-- Physical quads in service, ascending; quadid is the place in this list (R373). -/
def State.quadMap (s : State) : List Nat :=
  (rangeFrom 0 6).filter (fun q => (rangeFrom (32 * q) 32).any s.inService)
/-- coreid of a physical core: the cores in service below it (R213). -/
def State.coreId (s : State) (c : Nat) : Nat := ((rangeFrom 0 c).filter s.inService).length
/-- quadid of a physical quad (R373). -/
def State.quadId (s : State) (q : Nat) : Nat := (s.quadMap.filter (· < q)).length
/-- Physical quad of a core. -/
def quadOfCore (c : Fin 192) : Fin 6 := ⟨c.val / 32, by omega⟩

/-- P, the partition count (R21). -/
def Hart.parts (h : Hart) : Nat := 2 ^ h.vcfg.plog.val

/-! ### How an instruction ends -/

/-- A trap as an instruction raises it (R343). -/
structure TrapInfo where
  cause : Cause
  eval : Word := 0
  kind : AccessKind := .none
deriving DecidableEq, Repr

/-- Why an instruction does not complete: it takes a trap, or it waits with its state unchanged; or, with the work done so far
kept, a remote access sends its request and waits for the answer (R384), a burst leaves (R388), or it pauses. -/
inductive Exc where
  | trap (t : TrapInfo)
  | wait
  | remote (req : OutReq) (msg : OutMsg)
  | burst (reqs : List OutReq) (copies : List OutMsg)
  | pause
deriving DecidableEq, Repr

/-- The meaning of an instruction's work: it changes the state, or leaves with a reason. -/
abbrev M := EStateM Exc State

/-- The outcome of one step. -/
abbrev Out := Host.Outcome State Fault Refusal

/-- Leave with a trap. -/
def raise {α : Type} (c : Cause) (eval : Word := 0) (kind : AccessKind := .none) : M α := throw (.trap ⟨c, eval, kind⟩)
/-- Leave with a trap when a condition holds. -/
def raiseIf (b : Bool) (c : Cause) (eval : Word := 0) (kind : AccessKind := .none) : M Unit :=
  if b then raise c eval kind else pure ()
/-- The next free value's number; each is taken once.
DESIGN CHOICE, log entry 12: safe. -/
def takeFree : M Nat := fun s => .ok s.free { s with free := s.free + 1 }

/-- Cause codes (R343). -/
def causeCode : Cause → BitVec 8
  | .illegal => 0x01 | .operand => 0x02 | .misaligned => 0x03 | .access => 0x04
  | .pageLoad => 0x05 | .pageStore => 0x06 | .pageFetch => 0x07 | .unsupportedLeaf => 0x08
  | .gated => 0x09 | .poison => 0x0A | .breakpoint => 0x0B | .systemCall => 0x0C
  | .engineError => 0x0D | .fabricError => 0x0E

/-- The causes whose record keeps the kind of the access (R343). -/
def causeHasKind : Cause → Bool
  | .misaligned | .access | .pageLoad | .pageStore | .pageFetch | .unsupportedLeaf | .gated | .poison | .fabricError => true
  | _ => false

/-- The causes that set estat.prog at an instruction of class LDP or STP (R346). -/
def causeSetsProg : Cause → Bool
  | .access | .pageLoad | .pageStore | .unsupportedLeaf | .poison => true
  | _ => false

/-- The hart with no instruction under way: what an instruction keeps while it waits is gone. -/
def Hart.settled (h : Hart) : Hart :=
  { h with waiting := false, answers := [], begun := none, underway := false, parcels := none, held := [], counted := [], locking := none,
           issue := false, offer := none, cancelling := none, canCount := 0 }

/-- Taking a trap: cause `t` with `epc` to be recorded; `ldst` says whether the trapping instruction is of class LDP or
STP (R346). With a trap in progress the hart halts; the record keeps its values but for the cause (R347, log entry 9).
DEDUCED, log entry 9: unsafe. -/
def takeTrap (t : TrapInfo) (epc : Word) (ldst async : Bool) (s : State) : State :=
  let h := s.hart.settled
  if h.estat.tip then
    { s with hart := { h with status := .halted, ecause := causeCode t.cause, prog := false, covered := none, early := [] } }
  else
    { s with hart := { h with
        ecause := causeCode t.cause
        epc := epc &&& ~~~3#64
        eval := t.eval
        estat := { h.estat with
          pmode := h.mode, tip := true, async := async
          kind := if causeHasKind t.cause then t.kind else .none
          prog := ldst && causeSetsProg t.cause
          lps := h.loop.isSome
          rqs := Fin.ofNat 32 h.retq.length }
        asideLoop := h.loop
        loop := none
        asideRet := h.retq
        retq := []
        watch := none
        early := []
        prog := false
        covered := none
        mode := .supervisor
        pc := s.ctx.evec &&& ~~~3#64 } }

/-- Whether an address lies in the body of a loop state (R91). -/
def LoopState.holds (l : LoopState) (a : Word) : Bool := l.start ≤ a && a < l.stop

/-- The increments of one level (R90). -/
def applyIncs (incs : List LoopInc) (h : Hart) : Hart :=
  incs.foldl (fun h e => h.setS e.reg (h.getS e.reg + sext e.inc)) h

/-- The back-edge of R90 from level `j - 1` outwards; the loop goes on, or ends with loop mode off. -/
def backEdge (l : LoopState) (h : Hart) : Nat → Hart
  | 0 => { h with pc := l.stop, loop := none }
  | j + 1 =>
    if hj : j < 6 then
      let h := applyIncs (l.records[j]).incs.toList h
      let c := l.counters[j] + 1
      if c.toNat < (l.records[j]).trips.toNat then
        { h with pc := l.start, loop := some { l with counters := l.counters.set j c } }
      else backEdge { l with counters := l.counters.set j 0 } h j
    else { h with pc := l.stop, loop := none }

/-- The hart at its next instruction: `npc` after an instruction of `len` bytes (R86, R91). Of the events of R91 that end loop mode, a
branch taken to an address outside the body does so wherever it stands: RESTV may have restored a loop whose body does not hold the pc. -/
def Hart.advance (h : Hart) (len : Nat) (npc : Word) : Hart :=
  let last := h.pc + BitVec.ofNat 64 len
  let h := { h.settled with
    prog := false,
    covered := match h.covered with
      | none => none
      | some c => if c.start ≤ npc && npc < c.start + BitVec.ofNat 64 (4 * c.parcels.length) then some c else none }
  match h.loop with
  | none => { h with pc := npc }
  | some l =>
    if npc = l.stop && last = l.stop then backEdge l h l.levels
    else { h with pc := npc, loop := if npc != last && !l.holds npc then none else some l }

/-- An instruction of `len` bytes completes and the next one follows it. -/
def retire (len : Nat) (s : State) : State :=
  { s with hart := s.hart.advance len (s.hart.pc + BitVec.ofNat 64 len) }
/-- A control instruction of one parcel completes with its next pc given. -/
def retireTo (npc : Word) (s : State) : State := { s with hart := s.hart.advance 4 npc }

/-- The hart waits at its instruction; nothing else changes.
DESIGN CHOICE, log entry 28: safe. -/
def waitHere (s : State) : State := { s with hart := { s.hart with waiting := true } }

/-- A number of a stream is used; numbers are modulo 2^32. -/
def Fabric.bumpSeq (f : Fabric) (dev : Nat) (c : Ocls) : Fabric :=
  { f with sent := ⟨dev, c, (f.nextSeq dev c + 1) % 2 ^ 32⟩ :: f.sent.filter (fun x => !(x.dev = dev ∧ x.ocls = c)) }

/-- A request leaves and stays outstanding until its response (R382). -/
def Fabric.hand (f : Fabric) (req : OutReq) (msg : OutMsg) : Fabric :=
  { f with outstanding := f.outstanding ++ [req], out := f.out ++ [msg], nextTxn := f.nextTxn + 1 }

/-- A request leaves on its stream (R381). -/
def State.sendMsg (s : State) (req : OutReq) (msg : OutMsg) : State :=
  { s with fabric := (s.fabric.bumpSeq req.dst req.ocls).hand req msg }

/-- The stream number under which a device counts its multicast bursts of a class (R388). -/
def burstDev : Nat := 1024

/-- From here on the instruction is not withdrawn: it goes on from what it keeps (R290, R336). -/
def keepGoing (s : State) : State := { s with hart := { s.hart with underway := true } }

/-- The request of a remote access leaves, and the hart waits for the answer (R384). -/
def sendRemote (req : OutReq) (msg : OutMsg) (s : State) : State :=
  let s := keepGoing s
  if s.fabric.outstanding.any (fun o => o.born == req.born && !o.posted && o.cmd == none) then waitHere s
  else waitHere (s.sendMsg req msg)

/-- The packets of one multicast burst leave together, under one burst number: each device's acknowledgement is outstanding, and the
routers' copies are on their way (R387, R388). -/
def Fabric.handBurst (f : Fabric) (reqs : List OutReq) (copies : List OutMsg) : Fabric :=
  let f := match reqs with
    | [] => f
    | r :: _ => f.bumpSeq burstDev r.ocls
  { f with outstanding := f.outstanding ++ reqs, out := f.out ++ copies, nextTxn := f.nextTxn + reqs.length }

/-- A burst leaves, and the hart waits for every acknowledgement (R388). -/
def sendBurst (reqs : List OutReq) (copies : List OutMsg) (s : State) : State :=
  waitHere (keepGoing { s with fabric := s.fabric.handBurst reqs copies })

/-- The causes whose trap leaves every register as it was (R100, R140, R185). -/
def causeUndoes : Cause → Bool
  | .illegal | .operand => true
  | _ => false

/-- The register banks as they were: an operand trap changes no state, nor does the bank check before it (R100). -/
def banksBack (s s' : State) : State := { s' with hart := { s'.hart with vregs := s.hart.vregs, vgate := s.hart.vgate } }

/-- How the work of an instruction that leaves early ends: a trap is taken at the pc (R30); a wait leaves the state before
the instruction; a request or a pause keeps what has been done. -/
def leave (e : Exc) (ldst : Bool) (s s' : State) : State :=
  match e with
  | .trap t => takeTrap t s.hart.pc ldst false (if causeUndoes t.cause then banksBack s s' else s')
  | .wait => waitHere s
  | .remote req msg => sendRemote req msg s'
  | .burst reqs copies => sendBurst reqs copies s'
  | .pause => waitHere s'

/-- An instruction of `len` bytes whose work is `m`.
DEDUCED, log entry 1: safe for one hart, unsafe towards others. -/
def finish (len : Nat) (ldst : Bool) (m : M Unit) (s : State) : Out :=
  match m s with
  | .ok _ s' => .next (retire len s')
  | .error e s' => .next (leave e ldst s s')

/-- A control instruction whose work gives its own next state. -/
def finishAt (m : M Unit) (s : State) : Out :=
  match m s with
  | .ok _ s' => .next s'
  | .error e s' => .next (leave e false s s')

/-- A step of another agent: where the agent cannot take it now, nothing happens. -/
def orStay (t : Option State) (s : State) : Out := .next (t.getD s)

/-- A trap that is the whole effect of the current step. -/
def trapNow (c : Cause) (eval : Word) (kind : AccessKind) (s : State) : Out :=
  .next (takeTrap ⟨c, eval, kind⟩ s.hart.pc false false s)

/-- Return from a trap (R348), after its checks. -/
def returnFromTrap (s : State) : State :=
  let h := s.hart
  let h' := { h.settled with
    retq := h.asideRet, asideRet := []
    loop := if h.estat.lps then (h.asideLoop.filter (fun l => l.holds h.epc)) else none
    asideLoop := none
    watch := none, covered := none
    prog := h.estat.prog
    mode := h.estat.pmode
    estat := { h.estat with tip := false, lps := false, rqs := 0, fpend := false }
    pc := h.epc }
  let s' := { s with hart := h' }
  if h.estat.fpend then takeTrap ⟨.fabricError, h.fpEval, .store⟩ h.epc false true s' else s'

/-- An asynchronous fabric error is held pending: the first keeps its address (R346). -/
def Hart.pendFabric (addr : Word) (h : Hart) : Hart :=
  { h with estat := { h.estat with fpend := true }, fpEval := if h.estat.fpend then h.fpEval else addr }

/-- The asynchronous fabric error (R346): held pending while a trap is in progress, else taken at the pc. -/
def asyncFabricError (addr : Word) (s : State) : State :=
  let h := s.hart
  if h.estat.tip then { s with hart := h.pendFabric addr }
  else takeTrap ⟨.fabricError, addr, .store⟩ h.pc false true s

end Sys2Proof.Machine
end

