-- ==== Sys2Proof/Machine/Flags.lean ====
section
/-! DEFINITION. The floating-point flags (R41, R42): sticky bits that an instruction only sets. -/
namespace Sys2Proof.Machine
open Sys2Proof

/-- The union of two sets of flags. -/
def FFlags.or (a b : FFlags) : FFlags :=
  ⟨a.nx || b.nx, a.uf || b.uf, a.ovf || b.ovf, a.dz || b.dz, a.nv || b.nv⟩

def FFlags.NX : FFlags := { FFlags.zero with nx := true }
def FFlags.NV : FFlags := { FFlags.zero with nv := true }
def FFlags.DZ : FFlags := { FFlags.zero with dz := true }
/-- OF and NX together (R37). -/
def FFlags.OFNX : FFlags := { FFlags.zero with nx := true, ovf := true }
/-- UF and NX together (R52). -/
def FFlags.UFNX : FFlags := { FFlags.zero with nx := true, uf := true }
/-- NX, and UF when the exact value is tiny (R36). -/
def FFlags.inexact (tiny : Bool) : FFlags := { FFlags.zero with nx := true, uf := tiny }
/-- NV when a condition holds. -/
def FFlags.nvIf (b : Bool) : FFlags := { FFlags.zero with nv := b }

/-- fflags as the CSR reads (R41). -/
def FFlags.bits (f : FFlags) : Nat :=
  (if f.nx then 1 else 0) + (if f.uf then 2 else 0) + (if f.ovf then 4 else 0) + (if f.dz then 8 else 0)
    + (if f.nv then 16 else 0)
/-- fflags from the bits of a write; bits 63:5 are discarded (R41, R92). -/
def FFlags.ofBits (v : Nat) : FFlags := ⟨bitOf v 0, bitOf v 1, bitOf v 2, bitOf v 3, bitOf v 4⟩

/-- Flags are sticky: the hart's flags with these raised too (R42). -/
def Hart.raiseFlags (h : Hart) (f : FFlags) : Hart := { h with fflags := h.fflags.or f }

/-- The union of the flags of a list of results. -/
def flagsOf : List FFlags → FFlags
  | [] => .zero
  | f :: t => f.or (flagsOf t)

end Sys2Proof.Machine
end

