-- ==== Sys2Proof/Machine/Float.lean ====
section
/-! DEFINITION. Number formats, the rounding function, the exact operations and the estimates (R31 to R54). -/
namespace Sys2Proof.Machine
open Sys2Proof

/-! ### Tags and formats (R12, R31, R32) -/

/-- Width in bits of an element in a register and in memory (R12). -/
def width : Tag → Nat
  | .n64 | .i64 | .f64 => 64
  | .n32 | .i32 | .f32 => 32
  | .n16 | .i16 | .bf16 | .f16 => 16
  | .n8 | .i8 | .e5m2 | .e4m3 | .e3m2 | .e2m3 | .e8m0 => 8
  | .i4 | .e2m1 => 4
  | .i2 => 2

/-- The I tags. -/
def isI : Tag → Bool
  | .i64 | .i32 | .i16 | .i8 | .i4 | .i2 => true
  | _ => false
/-- The N tags. -/
def isN : Tag → Bool
  | .n64 | .n32 | .n16 | .n8 => true
  | _ => false
/-- The integer tags. -/
def isInt (t : Tag) : Bool := isI t || isN t
/-- The float tags: those with a sign, an exponent and a mantissa (R32). -/
def isFloat (t : Tag) : Bool := !isInt t && t != .e8m0
/-- The tags of width at most 8 that R105 calls narrow. -/
def isNarrow : Tag → Bool
  | .e5m2 | .e4m3 | .e3m2 | .e2m3 | .e2m1 => true
  | _ => false

/-- The special encodings a format has. -/
inductive Specials where
  | ieee | nanOnly | none
deriving DecidableEq, Repr

/-- A floating-point format (R32). -/
structure Fmt where
  e : Nat
  m : Nat
  bias : Nat
  sp : Specials
deriving DecidableEq, Repr

/-- The format of a float tag; the others are given a format that no rule uses. -/
def fmtOf : Tag → Fmt
  | .f64 => ⟨11, 52, 1023, .ieee⟩
  | .f32 => ⟨8, 23, 127, .ieee⟩
  | .bf16 => ⟨8, 7, 127, .ieee⟩
  | .f16 => ⟨5, 10, 15, .ieee⟩
  | .e5m2 => ⟨5, 2, 15, .ieee⟩
  | .e4m3 => ⟨4, 3, 7, .nanOnly⟩
  | .e3m2 => ⟨3, 2, 3, .none⟩
  | .e2m3 => ⟨2, 3, 1, .none⟩
  | .e2m1 => ⟨2, 1, 1, .none⟩
  | _ => ⟨8, 23, 127, .ieee⟩

/-- Bits of sign, exponent and mantissa. -/
def Fmt.width (f : Fmt) : Nat := 1 + f.e + f.m
/-- The magnitude bits of the largest finite value. -/
def Fmt.maxMag (f : Fmt) : Nat :=
  match f.sp with
  | .ieee => (2 ^ f.e - 1) * 2 ^ f.m - 1
  | .nanOnly => 2 ^ (f.e + f.m) - 2
  | .none => 2 ^ (f.e + f.m) - 1
/-- The minimum exponent. -/
def Fmt.emin (f : Fmt) : Int := 1 - (f.bias : Int)
/-- The sign bit in place. -/
def Fmt.signBit (f : Fmt) (neg : Bool) : Nat := if neg then 2 ^ (f.e + f.m) else 0
/-- The canonical NaN (R33); formats without one give +0 (R38). -/
def Fmt.nan (f : Fmt) : Nat :=
  match f.sp with
  | .ieee => (2 ^ f.e - 1) * 2 ^ f.m + 2 ^ (f.m - 1)
  | .nanOnly => 2 ^ (f.e + f.m) - 1
  | .none => 0
/-- An infinity; formats without one have none. -/
def Fmt.infMag (f : Fmt) : Nat := (2 ^ f.e - 1) * 2 ^ f.m

/-- 2^k as a rational. -/
def pow2 (k : Int) : Rat := if 0 ≤ k then mkRat (2 ^ k.toNat) 1 else mkRat 1 (2 ^ (-k).toNat)

/-- What a float element stands for: NaN, an infinity, a signed zero or a finite non-zero number. -/
inductive FVal where
  | nan
  | inf (neg : Bool)
  | zero (neg : Bool)
  | fin (q : Rat)
deriving DecidableEq, Repr

/-- The sign; a NaN counts as positive. -/
def FVal.neg : FVal → Bool
  | .nan => false
  | .inf s | .zero s => s
  | .fin q => q < 0
def FVal.isNan : FVal → Bool
  | .nan => true
  | _ => false
def FVal.isInf : FVal → Bool
  | .inf _ => true
  | _ => false
def FVal.isZero : FVal → Bool
  | .zero _ => true
  | _ => false

/-- The value of the bits of an element (R32). -/
def Fmt.value (f : Fmt) (bits : Nat) : FVal :=
  let M := bits % 2 ^ f.m
  let E := bits / 2 ^ f.m % 2 ^ f.e
  let neg := bits / 2 ^ (f.e + f.m) % 2 = 1
  let s : Int := if neg then -1 else 1
  if f.sp = .ieee ∧ E = 2 ^ f.e - 1 then (if M = 0 then .inf neg else .nan)
  else if f.sp = .nanOnly ∧ E = 2 ^ f.e - 1 ∧ M = 2 ^ f.m - 1 then .nan
  else if E = 0 ∧ M = 0 then .zero neg
  else if E = 0 then .fin ((s * M : Int) * pow2 (f.emin - f.m))
  else .fin ((s * (2 ^ f.m + M : Nat) : Int) * pow2 ((E : Int) - f.bias - f.m))

/-- A subnormal encoding. -/
def Fmt.isSubnormal (f : Fmt) (bits : Nat) : Bool :=
  bits / 2 ^ f.m % 2 ^ f.e = 0 && bits % 2 ^ f.m != 0

/-- The flush bit of a tag's class (R21, R43). -/
def VCfg.flushes (c : VCfg) : Tag → Bool
  | .f64 | .f32 => c.fzw
  | .bf16 | .f16 => c.fzh
  | .e5m2 | .e4m3 => c.fz8
  | .e3m2 | .e2m3 | .e2m1 => c.fz6
  | _ => false

/-- An E8M0 element (R34). -/
def e8m0Value (bits : Nat) : FVal := if bits % 256 = 255 then .nan else .fin (pow2 ((bits % 256 : Nat) - 127 : Int))

/-- The value of a float source element after the flush of R43; E8M0 by R34. -/
def readFloat (c : VCfg) (t : Tag) (bits : Nat) : FVal :=
  if t = .e8m0 then e8m0Value bits
  else
    let f := fmtOf t
    if c.flushes t && f.isSubnormal bits then .zero (bits / 2 ^ (f.e + f.m) % 2 = 1)
    else f.value bits

/-- The value of an integer element (R31). -/
def readInt (t : Tag) (bits : Nat) : Int := if isI t then toSigned (width t) bits else (bits % 2 ^ width t : Nat)
/-- The ends of the range of an integer tag (R31). -/
def intMin (t : Tag) : Int := if isI t then -(2 ^ (width t - 1) : Nat) else 0
def intMax (t : Tag) : Int := if isI t then (2 ^ (width t - 1) : Nat) - 1 else (2 ^ width t : Nat) - 1
/-- A value clamped to the range of an integer tag. -/
def clampInt (t : Tag) (x : Int) : Int := max (intMin t) (min (intMax t) x)

/-! ### The stochastic generator (R40) -/

/-- One round of Philox4x32. -/
def philoxRound (k0 k1 c0 c1 c2 c3 : Nat) : Nat × Nat × Nat × Nat :=
  let p0 := 0xD2511F53 * c0
  let p1 := 0xCD9E8D57 * c2
  ((p1 / 2 ^ 32 ^^^ c1) ^^^ k0, p1 % 2 ^ 32, (p0 / 2 ^ 32 ^^^ c3) ^^^ k1, p0 % 2 ^ 32)

/-- `n` rounds, the key bumped between them. -/
def philoxRounds (k0 k1 c0 c1 c2 c3 : Nat) : Nat → Nat
  | 0 => c0
  | n + 1 =>
    let r := philoxRound k0 k1 c0 c1 c2 c3
    philoxRounds ((k0 + 0x9E3779B9) % 2 ^ 32) ((k1 + 0xBB67AE85) % 2 ^ 32) r.1 r.2.1 r.2.2.1 r.2.2.2 n

/-- The random word of an absolute index (R40). -/
def philox (key idx : Nat) : Nat :=
  philoxRounds (key % 2 ^ 32) (key / 2 ^ 32 % 2 ^ 32) (idx % 2 ^ 32) (idx / 2 ^ 32 % 2 ^ 32) 0 0 10

/-! ### Rounding (R36 to R38) -/

/-- How a result is rounded: the mode, the saturating variant, and the random word of the element. -/
structure Rnd where
  rm : RMode
  sat : Bool
  word : Nat
deriving DecidableEq, Repr

/-- Nearest even without saturation. -/
def Rnd.even : Rnd := ⟨.nearestEven, false, 0⟩
/-- Stochastic acts as nearest even where R39 says so. -/
def RMode.noStochastic : RMode → RMode
  | .stochastic => .nearestEven
  | m => m

/-- Bits of a result, with the flags it raises. -/
structure Res where
  bits : Nat
  fl : FFlags
deriving DecidableEq, Repr

/-- overflow(x) of a finite x (R37). -/
def Fmt.overflow (f : Fmt) (r : Rnd) (neg : Bool) : Res :=
  let big := f.signBit neg + f.maxMag
  if r.sat || r.rm = .towardZero || (r.rm = .down && !neg) || (r.rm = .up && neg) then ⟨big, .OFNX⟩
  else match f.sp with
    | .ieee => ⟨f.signBit neg + f.infMag, .OFNX⟩
    | .nanOnly => ⟨f.nan, .OFNX⟩
    | .none => ⟨big, .OFNX⟩

/-- An exact infinity in the destination format (R37). -/
def Fmt.infinity (f : Fmt) (r : Rnd) (neg : Bool) : Res :=
  let big := f.signBit neg + f.maxMag
  match f.sp with
  | .ieee => if r.sat then ⟨big, .zero⟩ else ⟨f.signBit neg + f.infMag, .zero⟩
  | .nanOnly => if r.sat then ⟨big, .NV⟩ else ⟨f.nan, .NV⟩
  | .none => ⟨big, .NV⟩

/-- floor(log2(n / d)) for n, d > 0. -/
def ratLog2 (n d : Nat) : Int :=
  let l : Int := (Nat.log2 n : Int) - Nat.log2 d
  let ge := if 0 ≤ l then d * 2 ^ l.toNat ≤ n else d ≤ n * 2 ^ (-l).toNat
  if ge then l else l - 1

/-- Whether the discarded fraction rem / d rounds the magnitude t up (R36). -/
def roundsUp (r : Rnd) (neg : Bool) (t rem d : Nat) : Bool :=
  match r.rm with
  | .nearestEven => d < 2 * rem || (2 * rem = d && t % 2 = 1)
  | .towardZero => false
  | .down => 0 < rem && neg
  | .up => 0 < rem && !neg
  | .nearestAway => d ≤ 2 * rem
  | .stochastic => d * 2 ^ 32 ≤ rem * 2 ^ 32 + r.word * d

/-- rnd of a finite non-zero value n / d (R36). -/
def Fmt.round (f : Fmt) (r : Rnd) (neg : Bool) (n d : Nat) : Res :=
  let ex := max (ratLog2 n d) f.emin
  let k := (f.m : Int) - ex
  let N := if 0 ≤ k then n * 2 ^ k.toNat else n
  let D := if 0 ≤ k then d else d * 2 ^ (-k).toNat
  let t := N / D
  let rem := N % D
  let t' := if roundsUp r neg t rem D then t + 1 else t
  let mag := (ex - f.emin).toNat * 2 ^ f.m + t'
  if f.maxMag < mag then f.overflow r neg
  else
    let tiny := ratLog2 n d < f.emin
    ⟨f.signBit neg + mag, if rem = 0 then .zero else .inexact tiny⟩

/-- rnd (R36): a value into the bits of a format, with its flags. -/
def Fmt.rnd (f : Fmt) (r : Rnd) : FVal → Res
  | .nan => ⟨f.nan, .nvIf (f.sp = .none)⟩
  | .inf s => f.infinity r s
  | .zero s => ⟨f.signBit s, .zero⟩
  | .fin q => f.round r (q < 0) q.num.natAbs q.den

/-- A float rounded to an integer tag (R38). -/
def rndInt (t : Tag) (r : Rnd) : FVal → Res
  | .nan => ⟨0, .NV⟩
  | .inf s => ⟨ofInt (width t) (if s then intMin t else intMax t), .NV⟩
  | .zero _ => ⟨0, .zero⟩
  | .fin q =>
    let n := q.num.natAbs; let d := q.den
    let neg := q < 0
    let m := n / d + (if roundsUp r neg (n / d) (n % d) d then 1 else 0)
    let v : Int := if neg then -m else m
    if v < intMin t ∨ intMax t < v then ⟨ofInt (width t) (clampInt t v), .NV⟩
    else ⟨ofInt (width t) v, if n % d = 0 then .zero else .NX⟩

/-! ### Exact operations (R35, R46) -/

/-- An exact result, with the flags of R35. -/
abbrev Exact := FVal × FFlags

/-- Negation. -/
def FVal.negate : FVal → FVal
  | .nan => .nan
  | .inf s => .inf (!s)
  | .zero s => .zero (!s)
  | .fin q => .fin (-q)

/-- A finite sum; an exact zero is +0, or −0 when rounding down. -/
def finite (rm : RMode) (q : Rat) : FVal := if q = 0 then .zero (rm = .down) else .fin q

/-- a + b (R35). -/
def fAdd (rm : RMode) : FVal → FVal → Exact
  | .nan, _ | _, .nan => (.nan, .zero)
  | .inf s, .inf t => if s = t then (.inf s, .zero) else (.nan, .NV)
  | .inf s, _ | _, .inf s => (.inf s, .zero)
  | .zero s, .zero t => (.zero (if s = t then s else rm = .down), .zero)
  | .zero _, .fin q | .fin q, .zero _ => (.fin q, .zero)
  | .fin p, .fin q => (finite rm (p + q), .zero)

/-- a × b (R35). -/
def fMul : FVal → FVal → Exact
  | .nan, _ | _, .nan => (.nan, .zero)
  | .inf _, .zero _ | .zero _, .inf _ => (.nan, .NV)
  | .fin p, .fin q => (.fin (p * q), .zero)
  | .inf s, b => (.inf (s != b.neg), .zero)
  | a, .inf s => (.inf (a.neg != s), .zero)
  | a, b => (.zero (a.neg != b.neg), .zero)

/-- a / b (R35). -/
def fDiv : FVal → FVal → Exact
  | .nan, _ | _, .nan => (.nan, .zero)
  | .inf _, .inf _ | .zero _, .zero _ => (.nan, .NV)
  | .inf s, b => (.inf (s != b.neg), .zero)
  | a, .inf s => (.zero (a.neg != s), .zero)
  | .fin p, .fin q => (.fin (p / q), .zero)
  | .fin p, .zero s => (.inf ((p < 0) != s), .DZ)
  | .zero s, b => (.zero (s != b.neg), .zero)

/-- a × b + c, rounded once by its user (R46). -/
def fFma (rm : RMode) (a b c : FVal) : Exact :=
  if a.isNan || b.isNan || c.isNan then (.nan, .zero)
  else
    let p := fMul a b
    if p.1.isNan then p
    else fAdd rm p.1 c

/-- The square root to a precision that decides every rounding: exact, or a value strictly between its neighbours. -/
def sqrtRat (n d : Nat) : Rat :=
  let k := 120 + Nat.log2 d
  let N := n * 4 ^ k / d
  let s := isqrt N
  if s * s = N ∧ n * 4 ^ k % d = 0 then mkRat s (2 ^ k) else mkRat (2 * s + 1) (2 ^ (k + 1))

/-- Square root (R35). -/
def fSqrt : FVal → Exact
  | .nan => (.nan, .zero)
  | .zero s => (.zero s, .zero)
  | .inf s => if s then (.nan, .NV) else (.inf false, .zero)
  | .fin q => if q < 0 then (.nan, .NV) else (.fin (sqrtRat q.num.natAbs q.den), .zero)

/-- An exact result rounded: the flags of both. -/
def Fmt.rndExact (f : Fmt) (r : Rnd) (x : Exact) : Res :=
  let y := f.rnd r x.1
  ⟨y.bits, y.fl.or x.2⟩

/-! ### Order (R49, R114) -/

/-- Strictly below in the order −∞ < … < −0 < +0 < … < +∞; a NaN is below nothing. -/
def FVal.below : FVal → FVal → Bool
  | .nan, _ | _, .nan => false
  | .inf s, .inf t => s && !t
  | .inf s, _ => s
  | _, .inf t => !t
  | .zero s, .zero t => s && !t
  | .zero _, .fin q => 0 < q
  | .fin p, .zero _ => p < 0
  | .fin p, .fin q => p < q

/-- The larger or smaller by R49; a NaN is ignored beside a number. -/
def fMax (a b : FVal) : FVal := if a.isNan then b else if b.isNan then a else if a.below b then b else a
def fMin (a b : FVal) : FVal := if a.isNan then b else if b.isNan then a else if b.below a then b else a

/-- a = b and a < b of numbers, with −0 = +0 (R114). -/
def FVal.eqNum (a b : FVal) : Bool :=
  if a.isNan || b.isNan then false else (a.isZero && b.isZero) || a = b
def FVal.ltNum (a b : FVal) : Bool := if a.isZero && b.isZero then false else a.below b

/-! ### Estimates (R51 to R54) -/

/-- |q| as 2^e × (1 + M / 2^7) with M the top seven fraction bits: e and M. -/
def topBits (bits : Nat) (n d : Nat) : Int × Nat :=
  let e := ratLog2 n d
  let k := (bits : Int) - e
  let N := if 0 ≤ k then n * 2 ^ k.toNat / d else n / (d * 2 ^ (-k).toNat)
  (e, N - 2 ^ bits)

/-- VRCPE (R52). -/
def rcpe (f : Fmt) : FVal → Res
  | .nan => ⟨f.nan, .zero⟩
  | .zero s => ⟨f.signBit s + f.infMag, .DZ⟩
  | .inf s => ⟨f.signBit s, .zero⟩
  | .fin q =>
    let neg := q < 0
    let (e, j) := topBits 7 q.num.natAbs q.den
    let d := 257 + 2 * j
    let T := (131072 + d) / (2 * d) - 128
    let x := -e - 1
    if (f.bias : Int) < x then ⟨f.signBit neg + f.infMag, .OFNX⟩
    else if f.emin ≤ x then ⟨f.signBit neg + ((x + f.bias).toNat * 2 ^ f.m + T * 2 ^ (f.m - 7)), .zero⟩
    else ⟨f.signBit neg + (128 + T) * 2 ^ (f.m - 7) / 2 ^ (f.emin - x).toNat, .UFNX⟩

/-- VRSQRTE (R53). -/
def rsqrte (f : Fmt) : FVal → Res
  | .nan => ⟨f.nan, .zero⟩
  | .zero s => ⟨f.signBit s + f.infMag, .DZ⟩
  | .inf s => if s then ⟨f.nan, .NV⟩ else ⟨0, .zero⟩
  | .fin q =>
    if q < 0 then ⟨f.nan, .NV⟩
    else
      let (e, j) := topBits 6 q.num.natAbs q.den
      let p := e % 2
      let h := (e - p) / 2
      let D := 2 ^ p.toNat * (129 + 2 * j)
      let n := (isqrt (33554432 / D) + 1) / 2
      ⟨(-h - 1 + f.bias).toNat * 2 ^ f.m + (n - 128) * 2 ^ (f.m - 7), .zero⟩

/-- The largest T with (2T − 1)^64 ≤ 2^(k + 1536), by trying the bits of T from `b` downwards. -/
def exp2Search (k acc : Nat) : Nat → Nat
  | 0 => acc
  | b + 1 =>
    let c := acc + 2 ^ b
    exp2Search k (if (2 * c - 1) ^ 64 ≤ 2 ^ (k + 1536) then c else acc) b
/-- T[k] = round(2^(k/64) × 2^23) (R54). -/
def exp2Table (k : Nat) : Nat := exp2Search k 0 25

/-- VEXP2 (R54). -/
def exp2e (f : Fmt) : FVal → Res
  | .nan => ⟨f.nan, .zero⟩
  | .zero _ => ⟨f.bias * 2 ^ f.m, .zero⟩
  | .inf s => if s then ⟨0, .zero⟩ else ⟨f.infMag, .zero⟩
  | .fin q =>
    let n := q.floor
    let F := ((q - n) * 65536).floor.toNat
    let idx := F / 1024
    let low := F % 1024
    let M := exp2Table idx + (exp2Table (idx + 1) - exp2Table idx) * low / 1024
    -- Far outside every format's range the result is that of the bound (overflow or zero), so 2^n need not be formed.
    let n' := max (-400) (min 400 n)
    f.rnd .even (.fin (M * pow2 (n' - 23)))

end Sys2Proof.Machine
end

