-- ==== Sys2Proof/Machine/Operands.lean ====
section
/-! DEFINITION. Operand forms: vector elements and where they lie, masks, neighbours, immediates, the tag of a result,
and the checks that vector instructions share (R11 to R19, R22, R99 to R105). -/
namespace Sys2Proof.Machine
open Sys2Proof

/-! ### Elements of a register (R11, R13, R14) -/

/-- VLMAX of a width on a hart of partition count P (R13). -/
def vlmaxW (P w : Nat) : Nat := 32 / P * 2048 / w

/-- The bit of a register where element `i` of width `w` begins (R11, R14). -/
def elemPos (P w i : Nat) : Nat :=
  let L := 32 / P
  let Q := vlmaxW P w / 4
  let g := i / Q
  let lane := g * (L / 4) + i % Q % (L / 4)
  let slot := i % Q / (L / 4)
  lane * 2048 + slot * w

/-- The field of `w` bits from bit `pos`. -/
def getBits (r pos w : Nat) : Nat := r / 2 ^ pos % 2 ^ w
/-- `r` with the field of `w` bits from bit `pos` replaced. -/
def setBits (r pos w v : Nat) : Nat := (r / 2 ^ (pos + w) * 2 ^ w + v % 2 ^ w) * 2 ^ pos + r % 2 ^ pos

/-- The tag of a vector register. -/
def Hart.tag (h : Hart) (r : VIdx) : Tag := h.vtags.get r
/-- The register's tag written; no bit changes (R11). -/
def Hart.setTag (h : Hart) (r : VIdx) (t : Tag) : Hart := { h with vtags := h.vtags.set r t }
/-- VLMAX of a tag (R13). -/
def Hart.vlmax (h : Hart) (t : Tag) : Nat := vlmaxW h.parts (width t)
/-- Q, a quarter of VLMAX (R14). -/
def Hart.quarter (h : Hart) (t : Tag) : Nat := h.vlmax t / 4
/-- The lane group of element `i` (R14). -/
def Hart.group (h : Hart) (t : Tag) (i : Nat) : Nat := i / h.quarter t
/-- vl as a number. -/
def Hart.vln (h : Hart) : Nat := h.vl.toNat
/-- vstart as a number. -/
def Hart.vst (h : Hart) : Nat := h.vstart.toNat

/-- Bits of an element that carry its value: bits 7:6 of E3M2 and E2M3 are ignored on read and written zero, in registers and in memory
(R12).
DEDUCED, log entry 42: unsafe. -/
def valBits : Tag → Nat
  | .e3m2 | .e2m3 => 6
  | t => width t

/-- Element `i` of a register under a tag. -/
def Hart.elem (h : Hart) (r : VIdx) (t : Tag) (i : Nat) : Nat :=
  getBits (h.vregs.get r).toNat (elemPos h.parts (width t) i) (width t) % 2 ^ valBits t

/-- The bits of a register with elements of width `w` written, the later of a list prevailing. -/
def writeElems (P w : Nat) (r : Nat) : List (Nat × Nat) → Nat
  | [] => r
  | (i, v) :: t => writeElems P w (setBits r (elemPos P w i) w v) t

/-- Elements of a register written under a tag; every other bit is kept (R12, R17). -/
def Hart.setElems (h : Hart) (r : VIdx) (t : Tag) (l : List (Nat × Nat)) : Hart :=
  let kept := l.map fun x => (x.1, x.2 % 2 ^ valBits t)
  { h with vregs := h.vregs.set r (BitVec.ofNat _ (writeElems h.parts (width t) (h.vregs.get r).toNat kept)) }

/-- Bit `i` of a register read as a bit string (R15). -/
def Hart.bit (h : Hart) (r : VIdx) (i : Nat) : Bool := bitOf (h.elem r .n8 (i / 8)) (i % 8)
/-- Where bit `i` of a bit string lies. -/
def bitPos (P i : Nat) : Nat := elemPos P 8 (i / 8) + i % 8
/-- Bits of a bit string written. -/
def writeBitList (P : Nat) (r : Nat) : List (Nat × Bool) → Nat
  | [] => r
  | (i, b) :: t => writeBitList P (setBits r (bitPos P i) 1 (if b then 1 else 0)) t
/-- Bits of a register read as a bit string written; every other bit is kept. -/
def Hart.setBitList (h : Hart) (r : VIdx) (l : List (Nat × Bool)) : Hart :=
  { h with vregs := h.vregs.set r (BitVec.ofNat _ (writeBitList h.parts (h.vregs.get r).toNat l)) }

/-- The mask bit of element `i`; an instruction without a mask takes every element (R15). -/
def Hart.masked (h : Hart) (m : Bool) (i : Nat) : Bool := !m || h.bit 0 i
/-- The active elements: those of [vstart, vl) that the mask takes, ascending (R99, R139). -/
def Hart.active (h : Hart) (m : Bool) : List Nat :=
  (rangeFrom h.vst (h.vln - h.vst)).filter (h.masked m)
/-- The elements of [0, vl) that the mask takes, ascending. -/
def Hart.selected (h : Hart) (m : Bool) : List Nat := (rangeFrom 0 h.vln).filter (h.masked m)

/-- The element that a source supplies to element `i` through a neighbour modifier (R18); none for an edge of zeros. -/
def nbrIndex (edge : Edge) (vl i : Nat) : Nbr → Option Nat
  | .none => some i
  | .l =>
    if 0 < i then some (i - 1)
    else match edge with
      | .zero => none
      | .wrap => some (vl - 1)
      | .clamp => some 0
  | .r =>
    if i + 1 < vl then some (i + 1)
    else match edge with
      | .zero => none
      | .wrap => some 0
      | .clamp => some (vl - 1)

/-- Element `i` of a source with a neighbour modifier, under a tag (R18). -/
def Hart.srcElem (h : Hart) (r : VIdx) (t : Tag) (nb : Nbr) (i : Nat) : Nat :=
  match nbrIndex h.vcfg.edge h.vln i nb with
  | some j => h.elem r t j
  | none => 0
/-- Bit `i` of a source with a neighbour modifier, as a bit string (R15, R18; log entry 10).
DEDUCED, log entry 10: unsafe. -/
def Hart.srcBit (h : Hart) (r : VIdx) (nb : Nbr) (i : Nat) : Bool :=
  match nbrIndex h.vcfg.edge h.vln i nb with
  | some j => h.bit r j
  | none => false

/-! ### The second source (R64, R101) -/

/-- The immediate as one element of a tag (R101). -/
def immElem (t : Tag) (unsigned : Bool) (imm : BitVec 24) : Nat :=
  if isInt t then (if unsigned then imm.toNat % 2 ^ width t else ofInt (width t) imm.toInt)
  else if t = .e8m0 then imm.toNat % 256
  else ((fmtOf t).rnd .even ((fmtOf .f32).value (imm.toNat * 256))).bits

/-- A second source read: a register under its own tag, or one element for every index. -/
inductive Src2 where
  | reg (r : VIdx) (t : Tag) (nb : Nbr)
  | const (t : Tag) (bits : Nat)
deriving DecidableEq, Repr

/-- The second source of an instruction whose source tag is `t` (R101). -/
def Hart.src2 (h : Hart) (t : Tag) (unsigned : Bool) : VSrc → Src2
  | .vv vb nb => .reg vb (h.tag vb) nb
  | .vx s => .const t ((h.getS s).toNat % 2 ^ width t)
  | .vi imm => .const t (immElem t unsigned imm)

/-- The tag of a second source. -/
def Src2.tag : Src2 → Tag
  | .reg _ t _ => t
  | .const t _ => t
/-- The bits of a second source for element `i`. -/
def Src2.get (h : Hart) : Src2 → Nat → Nat
  | .reg r t nb, i => h.srcElem r t nb i
  | .const _ b, _ => b

/-- A second source taken as an unsigned number: the scalar or the zero-extended immediate (R120, R121, R126). -/
def Hart.srcNat (h : Hart) : VSrc → Nat
  | .vv _ _ => 0
  | .vx s => (h.getS s).toNat
  | .vi imm => imm.toNat

/-! ### The tag of a result (R105) -/

/-- The format two float tags compute in. -/
def floatPair (a b : Tag) : Tag :=
  if a = .f64 ∨ b = .f64 then .f64
  else if a = .f32 ∨ b = .f32 then .f32
  else if a = .f16 ∧ b = .bf16 ∨ a = .bf16 ∧ b = .f16 then .f32
  else if a = .bf16 ∨ b = .bf16 then .bf16
  else .f16

/-- The result tag of two operands, none where the pair is illegal (R105). -/
def pairTag (a b : Tag) : Option Tag :=
  if isI a && isI b || isN a && isN b then some (if width a ≤ width b then b else a)
  else if isFloat a && isFloat b then some (floatPair a b)
  else none

/-! ### The checks vector instructions share -/

/-- The bank of a register (R21). -/
def bankOf (r : VIdx) : Fin 8 := ⟨r.val / 8, by omega⟩

/-- Whether a register lies in a gated bank whose contents are not declared dead (R22). -/
def Hart.faults (h : Hart) (r : VIdx) : Bool :=
  let b := h.vgate.get (bankOf r)
  b.st = .gated && !b.dead

/-- The registers of a bank read as zero. -/
def Hart.zeroBank (h : Hart) (b : Fin 8) : Hart :=
  { h with vregs := Vector.ofFn fun i => if bankOf i = b then BitVec.ofNat _ 0 else h.vregs.get i }

/-- An access wakes the bank of a register (R22). -/
def Hart.wake (h : Hart) (r : VIdx) : Hart :=
  let b := bankOf r
  match (h.vgate.get b).st with
  | .on => h
  | .retention => { h with vgate := h.vgate.set b { h.vgate.get b with st := .on } }
  | .gated => { h.zeroBank b with vgate := h.vgate.set b ⟨.on, false⟩ }

/-- The least register number of a list. -/
def leastReg : List VIdx → Nat
  | [] => 0
  | [r] => r.val
  | r :: t => min r.val (leastReg t)

/-- The bank check of every named register: a precise gated-register fault, or the banks awake (R22, R343).
DEDUCED, log entry 17: unsafe. -/
def touch (rs : List VIdx) : M Unit := fun s =>
  let bad := rs.filter s.hart.faults
  if bad.isEmpty then .ok () { s with hart := rs.foldl Hart.wake s.hart }
  else .error (.trap ⟨.gated, BitVec.ofNat 64 (leastReg bad), .none⟩) s

/-- The registers an instruction with a mask names besides its own. -/
def maskReg (m : Bool) : List VIdx := if m then [0] else []
/-- The register of a second source. -/
def srcRegs : VSrc → List VIdx
  | .vv vb _ => [vb]
  | _ => []
/-- The registers an instruction names (R22). -/
def VOps.regs (o : VOps) : List VIdx := [o.vd, o.va] ++ srcRegs o.src ++ maskReg o.m
def VUn.regs (o : VUn) : List VIdx := [o.vd, o.va] ++ maskReg o.m

/-- The first parcel of an instruction: eval of an illegal-instruction trap (R73). -/
def firstParcel (i : Instr) : Word := BitVec.ofNat 64 ((encode i).headD 0)
/-- The illegal-instruction trap of an instruction (R73). -/
def illegal {α : Type} (i : Instr) : M α := raise .illegal (firstParcel i)
def illegalIf (b : Bool) (i : Instr) : M Unit := raiseIf b .illegal (firstParcel i)
/-- An operand trap (R100), its eval 0 (R343). -/
def operandIf (b : Bool) : M Unit := raiseIf b .operand

/-- vl fits VLMAX of each tag (R100). -/
def Hart.vlFits (h : Hart) (ts : List Tag) : Bool := ts.all (fun t => h.vln ≤ h.vlmax t)
/-- A mask register holds a bit for each of the vl elements (R100). -/
def Hart.maskFits (h : Hart) : Bool := h.vln ≤ 8 * h.vlmax .n8
/-- E8M0 may be the tag of v1 only (R12). -/
def e8m0Ok (vd : VIdx) (t : Tag) : Bool := t != .e8m0 || vd == 1

/-- The checks of R100 on sources, result and mask, for a result tag already found legal. -/
def checkAlu (vd : VIdx) (sources : List Tag) (rt : Tag) (m : Bool) : M Unit := do
  let h := (← get).hart
  operandIf (!(h.vlFits sources && h.vlFits [rt] && (!m || h.maskFits) && e8m0Ok vd rt))

/-- The hart changed. -/
def onHart (f : Hart → Hart) : M Unit := modify fun s => { s with hart := f s.hart }

/-- Completion of a vector instruction: vstart becomes 0 (R21). -/
def Hart.vdone (h : Hart) : Hart := { h with vstart := 0 }

/-- The element-wise effect of R99: every active element of vd is written under the result tag, from sources all read
before, with the flags of those elements. -/
def Hart.elementwise (h : Hart) (vd : VIdx) (rt : Tag) (m : Bool) (f : Nat → Res) : Hart :=
  let rs := (h.active m).map (fun i => (i, f i))
  ((h.setElems vd rt (rs.map fun p => (p.1, p.2.bits))).setTag vd rt).raiseFlags (flagsOf (rs.map fun p => p.2.fl)) |>.vdone

/-- The rounding of element `i` (R39, R40). -/
def Hart.rndAt (h : Hart) (sat : Bool) (i : Nat) : Rnd :=
  ⟨h.vcfg.rm, sat, if h.vcfg.rm = .stochastic then philox h.srseed.toNat ((h.sroff.toNat + i) % 2 ^ 64) else 0⟩
/-- The rounding where stochastic acts as nearest even (R39). -/
def Hart.rndPlain (h : Hart) : Rnd := ⟨h.vcfg.rm.noStochastic, false, 0⟩

/-- The space for a return: at most 16 are owed (R27). -/
def needReturn (i : Instr) : M Unit := do
  illegalIf ((← get).hart.retq.length == 16) i
/-- A value enters the return queue (R26). -/
def pushReturn (v : Nat) : M Unit := onHart fun h => { h with retq := h.retq ++ [BitVec.ofNat 64 v] }

/-- A fibre's registers (R19). -/
def coordReg (f : FIdx) : VIdx := ⟨32 + 2 * f.val, by omega⟩
def valueReg (f : FIdx) : VIdx := ⟨33 + 2 * f.val, by omega⟩
def fibreRegs (f : FIdx) : List VIdx := [coordReg f, valueReg f]

end Sys2Proof.Machine
end

