-- ==== Sys2Proof/Machine/Translate.lean ====
section
/-! DEFINITION. Scratch windows, the Sv57 walk, the home of a byte and the accesses that harts make to memory (R249 to
R262, R327 to R338, R366 to R369, R384, R385). -/
namespace Sys2Proof.Machine
open Sys2Proof

/-- The kind a trap records for an access (R342). -/
def Access.kind : Access → AccessKind
  | .load => .load
  | .store | .atomic => .store
  | .fetch => .fetch

/-- The page fault of an access's kind (R343). -/
def Access.pageFault : Access → Cause
  | .load => .pageLoad
  | .store | .atomic => .pageStore
  | .fetch => .pageFetch

/-! ### The home of a byte (R366) -/

/-- The fold F(PA): the XOR of the 2-bit fields PA[13:12] up to PA[45:44]. -/
def foldBits (pa lo : Nat) : Nat → Nat
  | 0 => 0
  | n + 1 => fld pa lo 2 ^^^ foldBits pa (lo + 2) n
def fold (pa : Nat) : Nat := foldBits pa 12 17

/-- The storage number of a lane die and a die offset. -/
def dieKey (die off : Nat) : Nat := die * Config.dieBytes + off

/-- The pmode 0b00 home of a physical address of local memory. -/
def packageHome (pa : Nat) : Loc :=
  let b := fld pa 14 33
  let die := b % 6 * 4 + fold pa
  .cell (dieKey die (b / 6 * 4096 + pa % 4096)) die

/-- The physical address whose pmode 0b00 home is a storage number of local memory (R366). -/
def paOfKey (key : Nat) : Nat :=
  let die := key / Config.dieBytes
  let off := key % Config.dieBytes
  let b := off / 4096 * 6 + die / 4
  b * 2 ^ 14 + (die % 4 ^^^ foldBits (b * 2 ^ 14) 14 16) * 4096 + off % 4096

/-- The physical quad that holds a quadid (R373). -/
def State.physQuad (s : State) (id : Nat) : Nat := (s.quadMap)[id]?.getD 0

/-- 3 TiB, the size of local memory. -/
def localTop : Nat := Config.localBytes
def mgmtBase : Nat := 2 ^ 53
def hostWindow : Nat := 2 ^ 54
/-- A fabric-window address (R368). -/
def fabricAddr (dev off : Nat) : Word := BitVec.ofNat 64 (fabricPlace dev off)

/-- What a physical address reaches under a placement; none where it is unassigned (R366, R368, R376). -/
def State.home (s : State) (pa pmode target : Nat) : Option Loc :=
  if 2 ^ 56 ≤ pa then none
  else if 2 ^ 55 ≤ pa then
    let dev := fld pa 45 10
    let off := fld pa 0 45
    if s.fabric.nrow ≤ dev / 32 ∨ s.fabric.ncol ≤ dev % 32 ∨ localTop ≤ off then none
    else some (.fabric dev off)
  else match pmode with
  | 0 =>
    if pa < localTop then some (packageHome pa)
    else if mgmtBase ≤ pa ∧ pa < mgmtBase + 2 ^ 32 then some (.mgmt (pa - mgmtBase))
    else if hostWindow ≤ pa ∧ pa < hostWindow + 2 ^ 48 then some (.host (pa - hostWindow))
    else none
  | 1 =>
    if pa < 2 ^ 39 then
      let die := s.physQuad target * 4 + fold pa
      some (.cell (dieKey die (fld pa 14 25 * 4096 + pa % 4096)) die)
    else none
  | 2 =>
    if pa < 2 ^ 37 then
      let die := s.physQuad (target / 4) * 4 + target % 4
      some (.cell (dieKey die pa) die)
    else none
  | _ => if pa < 2 ^ 37 then some (.repl (s.physQuad target) pa) else none

/-- Device memory by the physical address map, for bare mode (R368). -/
def bareDevice : Loc → Bool
  | .mgmt _ | .host _ => true
  | _ => false

/-! ### Scratch windows (R249 to R254) -/

/-- log2 of the size of window `n` (R250). -/
def winLog : Fin 4 → Nat
  | 0 => 16
  | 1 => 22
  | 2 => 24
  | 3 => 27

/-- lim of window `n` for the hart's core: all storage is in service but for the larder shares of retired cores (R250). -/
def State.winLim (s : State) (core : Fin 192) : Fin 4 → Nat
  | 2 => 8 * ((rangeFrom (core.val / 8 * 8) 8).filter s.inService).length - 1
  | _ => 63

/-- The window that holds an address, the lowest number first (R251). -/
def findWindow (swin : Vector Word 4) (a : Word) : Option (Fin 4) :=
  ([0, 1, 2, 3] : List (Fin 4)).find? fun n =>
    let w := (swin.get n).toNat
    w % 2 = 1 && w / 2 ^ winLog n = a.toNat / 2 ^ winLog n

/-- The storage behind offset `o` of window `n`, for a hart at a core (R249). -/
def winLoc (core : Fin 192) (n : Fin 4) (o : Nat) : Loc :=
  let quad := core.val / 32
  match n with
  | 0 => .shelf o
  | 1 => .cell (cupboardBase + core.val * 2 ^ 22 + o) (quad * 4 + o / 2 ^ 20)
  | 2 => .cell (larderBase + core.val / 8 * 2 ^ 24 + o) (quad * 4 + o / 2 ^ 22)
  | 3 => .cell (cellarBase + quad * 2 ^ 27 + o) (quad * 4 + o / 2 ^ 25)

/-- The storage number of a byte of the shelf of a lane: lane `l` of group `g` of the hart (R252). -/
def shelfKey (core : Fin 192) (slot P g l o : Nat) : Nat :=
  shelfBase + (core.val * 32 + g * 8 + slot * (8 / P) + l) * 65536 + o

/-! ### The walk (R328 to R334) -/

/-- Fields of a page-table entry (R329). -/
def pteV (e : Nat) : Bool := bitOf e 0
def pteR (e : Nat) : Bool := bitOf e 1
def pteW (e : Nat) : Bool := bitOf e 2
def pteX (e : Nat) : Bool := bitOf e 3
def pteU (e : Nat) : Bool := bitOf e 4
def pteG (e : Nat) : Bool := bitOf e 5
def pteA (e : Nat) : Bool := bitOf e 6
def pteD (e : Nat) : Bool := bitOf e 7
def ptePpn (e : Nat) : Nat := fld e 10 44
def pteTarget (e : Nat) : Nat := fld e 54 5
def ptePmode (e : Nat) : Nat := fld e 59 2
def ptePbmt (e : Nat) : Nat := fld e 61 2
def pteN (e : Nat) : Bool := bitOf e 63

/-- k of a leaf's group by its level, N and ppn (R330): 0 without a group; none where the code is reserved. -/
def groupOf (e level : Nat) : Option Nat :=
  if !pteN e then
    (if level = 1 ∧ ptePpn e % 2 ^ 9 ≠ 0 ∨ level = 2 ∧ ptePpn e % 2 ^ 18 ≠ 0 then none else some 0)
  else if level = 0 then (lowestSet (ptePpn e) 0 8).map (· + 1)
  else if level = 1 ∧ ptePpn e % 2 ^ 9 = 0 then (lowestSet (ptePpn e / 2 ^ 9) 0 5).map (· + 1)
  else none

/-- log2 of the size of the page of a leaf. -/
def leafLog (level k : Nat) : Nat := 12 + 9 * level + k

/-- The checks of a leaf, orders 5 to 7 of R333: the leaf with its group, or a page fault. -/
def checkLeaf (priv : Bool) (nquads e level key : Nat) : Option Leaf :=
  match groupOf e level with
  | none => none
  | some k =>
    if ptePbmt e = 3 then none
    else if !priv && (fld e 54 7 ≠ 0 || (pteN e && !(level = 0 && k = 4))) then none
    else if priv && (match ptePmode e with
      | 0 => pteTarget e != 0
      | 2 => 4 * nquads ≤ pteTarget e
      | _ => nquads ≤ pteTarget e) then none
    else some ⟨BitVec.ofNat 64 e, level, k, key⟩

/-! ### Owned lines and the range scoreboard (R281, R282) -/

/-- Whether [lo, hi) meets a range. -/
def meets (r : Option (Nat × Nat)) (lo hi : Nat) : Bool :=
  match r with
  | some (a, b) => a < hi && lo < b
  | none => false

/-- Whether a command owns a line of the bytes (R281). -/
def Cmd.owns (c : Cmd) (key n : Nat) : Bool := c.owned.any (fun l => key / 128 ≤ l && l ≤ (key + n - 1) / 128)

/-- A VAMO or VSRED of another device holds a line of the bytes locked: every other access is wholly before or after it (R153, R293). -/
def State.locked (s : State) (key n : Nat) : Bool := s.locks.any fun k => k.lines.any fun l => key / 128 ≤ l && l ≤ (key + n - 1) / 128

/-- A read of `n` bytes stalls on an owned line, on a destination range or on a locked line (R153, R281, R282). -/
def State.readStalls (s : State) (key n : Nat) : Bool :=
  s.locked key n || s.cmds.any fun c => c.owns key n || meets c.rsbDst key (key + n)
/-- A write or an atomic stalls on a source range too (R282). -/
def State.writeStalls (s : State) (key n : Nat) : Bool :=
  s.locked key n || s.cmds.any fun c => c.owns key n || meets c.rsbDst key (key + n) || meets c.rsbSrc key (key + n)
/-- Wait when a condition holds. -/
def waitIf (b : Bool) : M Unit := if b then throw .wait else pure ()

/-! ### The walk (R328 to R338) -/

/-- The outcome of a walk: a leaf, or the cause of the trap. -/
abbrev Walk := Except Cause Leaf

/-- asid of a vatp value (R327). -/
def asidOf (vatp : Nat) : BitVec 15 := BitVec.ofNat 15 (fld vatp 44 15)

/-- One of a list of values that the device may take, the first where there is no choice. -/
def pickOne {α : Type} (x : α) (more : List α) : M α := do
  if more.isEmpty then return x
  else return (x :: more)[Config.freeNat (← takeFree) % (more.length + 1)]?.getD x

/-- A page-table entry as a walk reads it, a package agent's load (R269, R281, R328): the directory recalls dirty bytes first, and a
poisoned one is not read; under `old`, a value that a write has replaced may be read in its place until a write of vatp (R338). -/
def readEntry (old : Bool) (asid : BitVec 15) (key : Nat) : M (Option Nat) := do
  waitIf ((← get).readStalls key 8)
  modify (·.drawBack key)
  let s ← get
  let now := if s.poisoned key then none else some (s.mem.read key 8)
  if old then pickOne now ((s.oldEntries.filter fun o => o.key = key && !o.gone.contains asid).map (some ·.value.toNat))
  else return now

/-- A pointer entry that the walk cache holds, where the device still has it and takes it (R336). -/
def keptEntry (asid : BitVec 15) (key : Nat) : M (Option Nat) := do
  match (← get).walks.find? fun w => w.asid = asid && w.key = key with
  | some w => if Config.freeBool (← takeFree) then return some w.value.toNat else return none
  | none => return none

/-- A pointer entry that a walk has read stays in the walk cache (R336). -/
def keepEntry (asid : BitVec 15) (key e : Nat) : M Unit := modify fun s =>
  { s with walks := ⟨asid, key, BitVec.ofNat 64 e⟩ :: s.walks.filter fun w => !(w.asid = asid && w.key = key) }

/-- The entries of a table from index `lo` on, `n` of them, as one number (R331). -/
def State.entriesAt (s : State) (base lo n : Nat) : List Nat :=
  let v := s.mem.readRange (base + 8 * lo) (8 * n)
  (rangeFrom 0 n).map fun j => v / 2 ^ (64 * j) % 2 ^ 64

/-- A valid leaf with a group code that its tables allow: its k; 0 for any other entry (R330). -/
def groupCode (priv : Bool) (level e : Nat) : Nat :=
  if pteV e && pteN e && (pteR e || pteX e) then
    let k := (groupOf e level).getD 0
    if priv || (level = 0 && k = 4) then k else 0
  else 0

/-- The largest group of entries of one table that an entry of it claims for index `i`, as log2 of its length: 0 without one
(R330, R331). A poisoned entry claims none. -/
def State.groupAround (s : State) (priv : Bool) (base level i : Nat) : Nat :=
  if 2 ≤ level then 0
  else
    let n := if level = 0 then 256 else 32
    let lo := i / n * n
    ((s.entriesAt base lo n).zipIdx.map fun p =>
      let j := lo + p.2
      let k := if s.poisoned (base + 8 * j) then 0 else groupCode priv level p.1
      if j / 2 ^ k = i / 2 ^ k then k else 0).foldl Nat.max 0

/-- The index of the entry that a walk takes for index `i` of a table: where the entries of a group differ, the device takes any of
them (R331). -/
def groupIndex (priv : Bool) (base level i : Nat) : M Nat := do
  let s ← get
  let k := s.groupAround priv base level i
  let lo := i / 2 ^ k * 2 ^ k
  let e := s.mem.read (base + 8 * i) 8
  if k = 0 || (s.entriesAt base lo (2 ^ k)).all (· == e) then return i else pickOne i (rangeFrom lo (2 ^ k))

/-- The entry that a walk takes at index `i` of a table, and where it lies; none where it is poisoned. -/
def takeEntry (old priv : Bool) (asid : BitVec 15) (base level i : Nat) : M (Option Nat × Nat) := do
  let key := base + 8 * (← groupIndex priv base level i)
  match ← (if old && level != 0 then keptEntry asid key else pure none) with
  | some e => return (some e, key)
  | none => return (← readEntry old asid key, key)

/-- One level of the walk and those below it (R328, R333). -/
def walkFrom (old priv : Bool) (asid : BitVec 15) (nquads va : Nat) (acc : Access) (table : Nat) : Nat → M Walk
  | 0 => return .error acc.pageFault
  | n + 1 => do
    if localTop ≤ table * 4096 then return .error .access
    else match packageHome (table * 4096) with
      | .cell base _ => do
        let (e?, key) ← takeEntry old priv asid base n (fld va (12 + 9 * n) 9)
        match e? with
        | none => return .error .poison
        | some e =>
          if !pteV e || (pteW e && !pteR e) then return .error acc.pageFault
          else if pteR e || pteX e then
            (if 3 ≤ n then return .error .unsupportedLeaf
             else match checkLeaf priv nquads e n key with
              | some l => return .ok l
              | none => return .error acc.pageFault)
          else if n = 0 then return .error acc.pageFault
          else if pteN e || ptePbmt e != 0 || pteA e || pteD e || pteU e || fld e 54 7 != 0 then return .error acc.pageFault
          else do
            keepEntry asid key e
            walkFrom old priv asid nquads va acc (ptePpn e) n
      | _ => return .error .access

/-- The walk of an address from the root (R328). -/
def walk (old : Bool) (vatp va : Nat) (acc : Access) : M Walk := do
  if va / 2 ^ 56 ≠ 0 ∧ va / 2 ^ 56 ≠ 255 then return .error acc.pageFault
  else walkFrom old (bitOf vatp 59) (asidOf vatp) (← get).quadMap.length va acc (fld vatp 0 44) 5

/-- The physical address of an address under a leaf (R330). -/
def Leaf.pa (l : Leaf) (va : Nat) : Nat :=
  let b := leafLog l.level l.k
  ptePpn l.entry.toNat * 4096 / 2 ^ b * 2 ^ b + va % 2 ^ b

/-- Order 8 of R333: the U bit against the mode, and the rights. -/
def Leaf.allows (l : Leaf) (mode : Mode) (acc : Access) : Bool :=
  let e := l.entry.toNat
  (pteU e == (mode == .user)) &&
    match acc with
    | .load => pteR e
    | .store => pteW e
    | .atomic => pteR e && pteW e
    | .fetch => pteX e

/-- A cached translation serves an address of a context (R335). -/
def TlbEntry.serves (t : TlbEntry) (vatp va : Nat) : Bool :=
  (t.global || t.asid = asidOf vatp) && t.priv = bitOf vatp 59 && va / 2 ^ t.size = t.vpage

/-- A leaf but for its A and D bits. -/
def Leaf.bare (l : Leaf) : Word := l.entry &&& ~~~0xC0#64

/-- The leaf an access uses: that of a walk, or a cached one that differs from it where the device still holds it (R335,
R338, log entry 8).
DEDUCED, log entry 8: safe. -/
def chooseLeaf (vatp va : Nat) (fresh : Walk) : M Walk := do
  let s ← get
  let kept := (s.tlb.filter (fun t => t.serves vatp va && (match fresh with
    | .ok l => t.leaf.bare != l.bare
    | .error _ => true))).map (·.leaf)
  pickOne fresh (kept.map .ok)

/-- A successful translation may be cached (R335). -/
def cacheLeaf (vatp va : Nat) (l : Leaf) : M Unit := modify fun s =>
  let size := leafLog l.level l.k
  let t : TlbEntry := ⟨asidOf vatp, pteG l.entry.toNat, bitOf vatp 59, va / 2 ^ size, size, l⟩
  if s.tlb.contains t then s else { s with tlb := t :: s.tlb }

/-- A walk of the current hart that faults caches nothing, and its retry walks afresh (R333, R338). -/
def forget (va : Nat) : M Unit := modify fun s => { s with hart := { s.hart with afresh := insertNat (va / 4096) s.hart.afresh } }
/-- The current hart walks an address afresh: its last walk of the page faulted. -/
def Hart.retries (h : Hart) (va : Nat) : Bool := h.afresh.contains (va / 4096)
/-- A translation of the page has been found. -/
def found (va : Nat) : M Unit := modify fun s => { s with hart := { s.hart with afresh := s.hart.afresh.filter (· != va / 4096) } }

/-- Whether an access writes. -/
def Access.writes : Access → Bool
  | .store | .atomic => true
  | _ => false

/-- A leaf's entry with the bits that an access of it sets (R334). -/
def Leaf.marked (l : Leaf) (acc : Access) : Nat := l.entry.toNat ||| 0x40 ||| (if acc.writes then 0x80 else 0)

/-- The walker sets A, and D for a write, by a compare-and-swap of the entry (R334). -/
def setAD (l : Leaf) (acc : Access) : M Unit := modify fun s =>
  if l.marked acc = l.entry.toNat ∨ s.mem.read l.key 8 ≠ l.entry.toNat then s else s.storeDirect l.key 8 (l.marked acc)

/-- The compare-and-swap of A and D cannot succeed: the entry is no longer what the walk read (R334). -/
def State.casFails (s : State) (l : Leaf) (acc : Access) : Bool :=
  l.marked acc != l.entry.toNat && s.mem.read l.key 8 != l.entry.toNat

/-- A trap of a translation, after which the address is walked afresh (R333). -/
def noLeaf {α : Type} (c : Cause) (va : Word) (acc : Access) : M α := do
  forget va.toNat
  raise c va acc.kind

/-- The leaf of a walk of memory as it is. -/
def freshLeaf (vatp : Word) (va : Word) (acc : Access) : M Leaf := do
  match ← walk false vatp.toNat va.toNat acc with
  | .error c => noLeaf c va acc
  | .ok l => return l

/-- The leaf that a translation of an address finds (R333, orders 1 to 7): as any walk may find it, or a cached one; for a retry, that
of memory. -/
def findLeaf (vatp : Word) (va : Word) (acc : Access) : M Leaf := do
  let a := va.toNat
  let v := vatp.toNat
  if (← get).hart.retries a then freshLeaf vatp va acc
  else
    match ← chooseLeaf v a (← walk true v a acc) with
    | .error c => noLeaf c va acc
    | .ok l => return l

/-- The placement of a page: its leaf's, under private tables (R332). -/
def Leaf.placement (l : Leaf) (vatp : Word) : Nat := if bitOf vatp.toNat 59 then ptePmode l.entry.toNat else 0
/-- What an address reaches under a leaf. -/
def State.leafHome (s : State) (l : Leaf) (vatp va : Word) : Option Loc :=
  s.home (l.pa va.toNat) (l.placement vatp) (pteTarget l.entry.toNat)
/-- Device memory by the page's attribute (R329). -/
def Leaf.device (l : Leaf) : Bool := ptePbmt l.entry.toNat = 2

/-- Orders 8 and 9 of R333 on the leaf of an address, and what the address reaches. -/
def checkRights (vatp : Word) (mode : Mode) (va : Word) (acc : Access) (l : Leaf) : M Target := do
  if !l.allows mode acc then noLeaf acc.pageFault va acc
  else match (← get).leafHome l vatp va with
    | none => noLeaf .access va acc
    | some loc => return ⟨va, loc, l.device, false, l.pa va.toNat, l.placement vatp, some l⟩

/-- The translation of an address by a leaf; where its A and D bits cannot be set, the walk starts again and reads memory (R334). -/
def translateBy (vatp : Word) (mode : Mode) (va : Word) (acc : Access) (l : Leaf) : M Target := do
  let t ← checkRights vatp mode va acc l
  let t ← if (← get).casFails l acc then checkRights vatp mode va acc (← freshLeaf vatp va acc) else pure t
  found va.toNat
  return t

/-- Translation of an address under a context's vatp and a mode, before its entry is marked (R327 to R334). -/
def translate (vatp : Word) (mode : Mode) (va : Word) (acc : Access) : M Target := do
  if vatp.toNat / 2 ^ 60 = 0 then
    match (← get).home va.toNat 0 0 with
    | none => raise .access va acc.kind
    | some loc => return ⟨va, loc, bareDevice loc, false, va.toNat, 0, none⟩
  else translateBy vatp mode va acc (← findLeaf vatp va acc)

/-- A translation is used: A and D are set, and the leaf may be cached (R334, R335). -/
def useLeaf (vatp : Word) (acc : Access) (t : Target) : M Unit :=
  match t.leaf with
  | none => pure ()
  | some l => do
    setAD l acc
    cacheLeaf vatp.toNat t.va.toNat { l with entry := BitVec.ofNat 64 (l.marked acc) }

/-- The management space is reached in supervisor mode only (R368). -/
def guardMgmt (mode : Mode) (acc : Access) (t : Target) : M Target :=
  match t.loc with
  | .mgmt _ => if mode = .user then raise .access t.va acc.kind else return t
  | _ => return t

/-- Whether an address of a window lies at or above the limit in service (R250, R251). -/
def State.pastLimit (s : State) (core : Fin 192) (n : Fin 4) (va : Word) : Bool :=
  (s.winLim core n + 1) * 2 ^ winLog n / 64 ≤ va.toNat % 2 ^ winLog n

/-- What an address reaches for a core, under the windows, vatp and mode given: a window first, else by translation (R251,
R316, R327); nothing is marked or cached. -/
def lookupAs (core : Fin 192) (swin : Vector Word 4) (vatp : Word) (mode : Mode) (va : Word) (acc : Access) : M Target := do
  match findWindow swin va with
  | some n =>
    if acc = .fetch ∨ (← get).pastLimit core n va then raise .access va acc.kind
    else return ⟨va, winLoc core n (va.toNat % 2 ^ winLog n), false, true, va.toNat, 0, none⟩
  | none => guardMgmt mode acc (← translate vatp mode va acc)

/-- What an address reaches, its translation used. -/
def resolveAs (core : Fin 192) (swin : Vector Word 4) (vatp : Word) (mode : Mode) (va : Word) (acc : Access) : M Target := do
  let t ← lookupAs core swin vatp mode va acc
  useLeaf vatp acc t
  return t

/-- The translation that the instruction under way holds for an access (R336). -/
def Hart.heldFor (h : Hart) (va : Word) (acc : Access) : Option Target :=
  if h.underway || h.begun.isSome then (h.held.find? fun x => x.va = va ∧ x.acc = acc).map (·.target) else none

/-- What an address of the current hart reaches, and whether it was held; the instruction holds it while it is under way. -/
def lookup (va : Word) (acc : Access) : M (Target × Bool) := do
  let s ← get
  match s.hart.heldFor va acc with
  | some t => return (t, true)
  | none => do
    let t ← lookupAs s.hart.place.core s.ctx.swin s.ctx.vatp s.hart.mode va acc
    modify fun s => { s with hart := { s.hart with held := ⟨va, acc, t⟩ :: s.hart.held } }
    return (t, false)

/-- What an address of the current hart reaches. -/
def resolve (va : Word) (acc : Access) : M Target := do
  let (t, held) ← lookup va acc
  if !held then useLeaf (← get).ctx.vatp acc t
  return t

end Sys2Proof.Machine
end

