-- ==== Sys2Proof/Machine/Registers.lean ====
section
/-! DEFINITION. The maps of the CSRs: each as the word that reads it and from the word that writes it (R21, R23, R41,
R199, R220, R250, R327, R342, R354). -/
namespace Sys2Proof.Machine
open Sys2Proof

def edgeCode : Edge → Nat
  | .zero => 0 | .wrap => 1 | .clamp => 2
def edgeOf : Nat → Option Edge
  | 0 => some .zero | 1 => some .wrap | 2 => some .clamp | _ => none
def rmCode : RMode → Nat
  | .nearestEven => 0 | .towardZero => 1 | .down => 2 | .up => 3 | .nearestAway => 4 | .stochastic => 5
def rmOf : Nat → Option RMode
  | 0 => some .nearestEven | 1 => some .towardZero | 2 => some .down | 3 => some .up | 4 => some .nearestAway
  | 5 => some .stochastic | _ => none

/-- vcfg as a word (R21). -/
def VCfg.bits (c : VCfg) : Nat :=
  c.plog.val + edgeCode c.edge * 2 ^ 2 + rmCode c.rm * 2 ^ 4 + bitN c.fzw * 2 ^ 8 + bitN c.fzh * 2 ^ 9
    + bitN c.fz8 * 2 ^ 10 + bitN c.fz6 * 2 ^ 11 + c.blk.val * 2 ^ 12 + c.cthr.toNat * 2 ^ 16
/-- A write of vcfg: plog is kept; none where rm or edge is reserved (R21, R92). -/
def VCfg.write (c : VCfg) (v : Nat) : Option VCfg :=
  match edgeOf (fld v 2 2), rmOf (fld v 4 3) with
  | some e, some r => some
      { c with edge := e, rm := r, fzw := bitOf v 8, fzh := bitOf v 9, fz8 := bitOf v 10, fz6 := bitOf v 11
               blk := Fin.ofNat 4 (v / 2 ^ 12), cthr := BitVec.ofNat 8 (v / 2 ^ 16) }
  | _, _ => none

def gateCode : GateState → Nat
  | .on => 0 | .retention => 1 | .gated => 2
def gateOf : Nat → Option GateState
  | 0 => some .on | 1 => some .retention | 2 => some .gated | _ => none

/-- One bank of vgate as its four bits (R21). -/
def Bank.bits (b : Bank) : Nat := gateCode b.st + bitN b.dead * 4
/-- vgate as a word (R21). -/
def gateBits (g : Vector Bank 8) : Nat := (rangeFrom 0 8).foldl (fun acc b => acc + (g[b]?.getD ⟨.on, false⟩).bits * 2 ^ (4 * b)) 0

/-- One bank from a word; none where st is reserved. -/
def bankField (v b : Nat) : Option Bank := (gateOf (fld v (4 * b) 2)).map (fun st => ⟨st, bitOf v (4 * b + 2)⟩)
/-- Whether a word puts no reserved code into a bank (R21). -/
def gateLegal (v : Nat) : Bool := (rangeFrom 0 8).all (fun b => (bankField v b).isSome)

/-- One bank of a write of vgate by its old state and the value written (R23). -/
def writeBank (h : Hart) (b : Fin 8) (new : Bank) : Hart :=
  let old := h.vgate.get b
  let h' := if (old.st == .gated) != (new.st == .gated) then h.zeroBank b else h
  let dead := if old.st == .gated && new.st != .gated then false else new.dead
  { h' with vgate := h'.vgate.set b ⟨new.st, dead⟩ }

/-- A write of vgate (R23), its codes already checked. -/
def Hart.writeGate (h : Hart) (v : Nat) : Hart :=
  ([0, 1, 2, 3, 4, 5, 6, 7] : List (Fin 8)).foldl
    (fun h b => match bankField v b.val with | some n => writeBank h b n | none => h) h

def kmodeCode : KMode → Nat
  | .relative => 0 | .absolute => 1 | .topm => 2
def kmodeOf : Nat → Option KMode
  | 0 => some .relative | 1 => some .absolute | 2 => some .topm | _ => none
/-- kthr as a word (R199). -/
def Kthr.bits (k : Kthr) : Nat := k.tau.toNat + kmodeCode k.mode * 2 ^ 32 + k.topm.val * 2 ^ 34
/-- kthr from a word; none where mode is reserved. -/
def Kthr.ofWord (v : Nat) : Option Kthr :=
  (kmodeOf (fld v 32 2)).map (fun m => ⟨BitVec.ofNat 32 v, m, Fin.ofNat 8 (v / 2 ^ 34)⟩)

def kindCode : AccessKind → Nat
  | .load => 0 | .store => 1 | .fetch => 2 | .none => 3
def kindOf : Nat → AccessKind
  | 0 => .load | 1 => .store | 2 => .fetch | _ => .none
def modeN : Mode → Nat
  | .user => 0 | .supervisor => 1
def modeOf (b : Bool) : Mode := if b then .supervisor else .user

/-- estat as a word (R342). -/
def EStat.bits (e : EStat) : Nat :=
  bitN e.tip + modeN e.pmode * 2 + bitN e.async * 4 + kindCode e.kind * 8 + bitN e.prog * 32 + bitN e.lps * 64
    + e.rqs.val * 128 + bitN e.fpend * 4096
/-- estat with every field from a word (a context image). -/
def EStat.ofWord (v : Nat) : EStat :=
  ⟨bitOf v 0, modeOf (bitOf v 1), bitOf v 2, kindOf (fld v 3 2), bitOf v 5, bitOf v 6, Fin.ofNat 32 (v / 128), bitOf v 12⟩
/-- A CSR write of estat: pmode and prog alone are writable (R342). -/
def EStat.write (e : EStat) (v : Nat) : EStat := { e with pmode := modeOf (bitOf v 1), prog := bitOf v 5 }

/-- vprog as a word (R21). -/
def Hart.vprog (h : Hart) : Nat := h.cura.toNat + h.curb.toNat * 2 ^ 32

/-- A swin register as the hart reads it: en and base from its write, lsz and lim from the storage (R250). -/
def State.swinBits (s : State) (core : Fin 192) (n : Fin 4) (w : Word) : Nat :=
  let v := w.toNat
  v % 2 + winLog n * 2 ^ 5 + s.winLim core n * 2 ^ 10 + v / 2 ^ winLog n * 2 ^ winLog n
/-- A swin register as a write leaves it: en, and the base above lsz (R250). -/
def swinStored (n : Fin 4) (w : Word) : Word :=
  BitVec.ofNat 64 (w.toNat % 2 + w.toNat / 2 ^ winLog n * 2 ^ winLog n)

end Sys2Proof.Machine
end

