-- ==== Sys2Proof/Machine/Image.lean ====
section
/-! DEFINITION. The context image (R358, R359): the bytes that a save writes, and the hart that a restore reads. -/
namespace Sys2Proof.Machine
open Sys2Proof

/-- Fields at byte offsets, packed into one number. -/
def packAt : List (Nat × Nat) → Nat
  | [] => 0
  | (off, v) :: t => v * 2 ^ (8 * off) + packAt t

/-- Equal fields of `n` bytes, one after another from an offset. -/
def packList (off n : Nat) : List Nat → Nat
  | [] => 0
  | v :: t => v * 2 ^ (8 * off) + packList (off + n) n t

/-- The number in `n` bytes at an offset of a packed number. -/
def unpack (v off n : Nat) : Nat := v / 2 ^ (8 * off) % 2 ^ (8 * n)

/-- One level record, laid out as in R89. -/
def packLevel (l : LoopLevel) : Nat :=
  l.trips.toNat + packList 8 8 (l.incs.toList.map fun e => e.reg.val + e.inc.toNat * 2 ^ 16)
def unpackLevel (v : Nat) : LoopLevel where
  trips := BitVec.ofNat 32 v
  incs := Vector.ofFn fun e =>
    let d := unpack v (8 + 8 * e.val) 8
    ⟨Fin.ofNat 32 d, BitVec.ofNat 48 (d / 2 ^ 16)⟩

/-- A loop-state block (R358). -/
def packLoop (l : LoopState) : Nat :=
  packAt [(0, l.levels), (8, l.start.toNat), (16, l.stop.toNat)]
    + packList 0x20 8 (l.counters.toList.map (·.toNat))
    + packList 0x80 32 (l.records.toList.map packLevel)
    + packList 0x200 4 (l.body.map (·.toNat))
/-- The loop state of a block (R358). -/
def unpackLoop (v : Nat) : LoopState :=
  let start := unpack v 8 8
  let stop := unpack v 16 8
  { levels := unpack v 0 8
    start := BitVec.ofNat 64 start
    stop := BitVec.ofNat 64 stop
    counters := Vector.ofFn fun j => BitVec.ofNat 64 (unpack v (0x20 + 8 * j.val) 8)
    records := Vector.ofFn fun j => unpackLevel (unpack v (0x80 + 32 * j.val) 32)
    body := (rangeFrom 0 (min 64 ((stop - start) / 4))).map fun k => BitVec.ofNat 32 (unpack v (0x200 + 4 * k) 4) }

/-- Sizes and places of the large sections (R359). -/
def regBytes (P : Nat) : Nat := 8192 / P
def tilesAt (P : Nat) : Nat := 0x1000 + 64 * regBytes P
def shelvesAt (P : Nat) : Nat := tilesAt P + 8 / P * 262144
def pigeonAt (P : Nat) : Nat := shelvesAt P + 32 / P * 65536

/-- How the header of an image is filled (R358). -/
structure Header where
  ixs : Bool
  shs : Bool
  tls : Nat
  stop : Nat
  full : Bool
  halt : Bool
deriving DecidableEq, Repr

/-- The header dword (R358). -/
def packHeader (h : Hart) (hd : Header) : Nat :=
  2 + h.vcfg.plog.val * 2 ^ 8 + modeN h.mode * 2 ^ 10 + bitN h.estat.tip * 2 ^ 11 + bitN h.prog * 2 ^ 12
    + bitN hd.ixs * 2 ^ 13 + bitN hd.shs * 2 ^ 14 + hd.tls % 256 * 2 ^ 15 + bitN h.loop.isSome * 2 ^ 23
    + h.retq.length * 2 ^ 24 + bitN h.asideLoop.isSome * 2 ^ 29 + h.asideRet.length * 2 ^ 30 + hd.stop * 2 ^ 35
    + bitN hd.full * 2 ^ 43 + bitN hd.halt * 2 ^ 44

/-- The CSRs of offset 0x200, in the order of R358. -/
def imageCsrs (h : Hart) : List Nat :=
  [h.vl.toNat, h.vstart.toNat, h.vprog, h.vcfg.bits, gateBits h.vgate, h.fflags.bits, h.srseed.toNat, h.sroff.toNat,
   h.kthr.bits, h.ltmask.toNat, bitN h.ixlive, h.ecause.toNat, h.epc.toNat, h.eval.toNat, h.estat.bits, h.pclass.val]

/-- Bits of a list of flags, the first at bit 0. -/
def packBits : List Bool → Nat
  | [] => 0
  | b :: t => bitN b + 2 * packBits t

/-- Bytes 0x200 to 0xFFF of the small state. -/
def packSmall (h : Hart) : Nat :=
  packList 0 8 (imageCsrs h)
    + packList 0x80 1 (h.vtags.toList.map tagCode)
    + packList 0xC0 2 (h.flen.toList.map (·.toNat))
    + packAt [(0xE0, packBits h.cerr.toList)]
    + packList 0x100 4 (h.counters.toList.map (·.toNat))
    + packList 0x140 8 (h.keep.toList.map (·.toNat))
    + packList 0x180 8 (h.retq.map (·.toNat))
    + packAt [(0x200, match h.loop with | some l => packLoop l | none => 0),
              (0x600, match h.asideLoop with | some l => packLoop l | none => 0)]
    + packList 0xA00 8 (h.asideRet.map (·.toNat))

/-- The bytes of a vector register in an image: the register read as N8, byte i = element i (R359); a gated bank's are
zero (R357). -/
def regImage (h : Hart) (r : VIdx) : Nat :=
  if (h.vgate.get (bankOf r)).st = .gated then 0
  else
    let P := h.parts
    let v := (h.vregs.get r).toNat
    if v = 0 then 0
    else packList 0 1 ((rangeFrom 0 (regBytes P)).map fun i => getBits v (elemPos P 8 i) 8)
/-- A register from its bytes in an image. -/
def regOfImage (P v : Nat) : BitVec Config.vregBits :=
  if v = 0 then BitVec.ofNat _ 0
  else BitVec.ofNat _ (writeElems P 8 0 ((rangeFrom 0 (regBytes P)).map fun i => (i, unpack v i 1)))

/-- A key's value in a share, whose entries stand in ascending key order. -/
def putKey (k : BitVec 32) (v : Word) : List (BitVec 32 × Word) → List (BitVec 32 × Word)
  | [] => [(k, v)]
  | (k', v') :: t => if k.toNat < k'.toNat then (k, v) :: (k', v') :: t else if k = k' then (k, v) :: t else (k', v') :: putKey k v t

/-- The pigeonhole section: the count, then the entries in ascending key order (R359). -/
def packPigeon (l : List (BitVec 32 × Word)) : Nat :=
  packAt [(0, l.length)] + packList 16 16 (l.map fun e => e.1.toNat + e.2.toNat * 2 ^ 64)
def unpackPigeon (v : Nat) : List (BitVec 32 × Word) :=
  (rangeFrom 0 (min (unpack v 0 8) 65536)).foldl (fun l k =>
    putKey (BitVec.ofNat 32 (unpack v (16 + 16 * k) 4)) (BitVec.ofNat 64 (unpack v (24 + 16 * k) 8)) l) []

/-- A run of bytes of an image: offset, length, value. -/
structure Blob where
  off : Nat
  len : Nat
  val : Nat
deriving DecidableEq, Repr

/-- The first bytes of every section but the small state: registers, tiles, shelves and pigeonhole. -/
def largeBlobs (s : State) (h : Hart) (tls : Nat) (shs ixs : Bool) : List Blob :=
  let P := h.parts
  (List.finRange 64).map (fun r => ⟨0x1000 + r.val * regBytes P, regBytes P, regImage h r⟩)
    ++ ((List.finRange 8).filter (fun t => t.val < 8 / P && bitOf tls t.val)).map
        (fun t => ⟨tilesAt P + 262144 * t.val, 262144, (h.tiles.get t).toNat⟩)
    ++ (if shs then (rangeFrom 0 (32 / P)).map (fun k =>
          let g := k / (8 / P); let l := k % (8 / P)
          ⟨shelvesAt P + 65536 * k, 65536, s.mem.readRange (shelfKey h.place.core h.place.slot.val P g l 0) 65536⟩) else [])
    ++ (if ixs then [⟨pigeonAt P, 16 + 16 * h.pigeon.length, packPigeon h.pigeon⟩] else [])

/-- The image that SAVEV writes: bytes 0x008 to 0x1FF are left out (R360). -/
def savevBlobs (s : State) (h : Hart) (shs : Bool) : List Blob :=
  let hd : Header := ⟨h.ixlive, shs, 2 ^ (8 / h.parts) - 1, 0, false, false⟩
  [⟨0, 8, packHeader h hd⟩, ⟨0x200, 0xE00, packSmall h⟩] ++ largeBlobs s h hd.tls shs h.ixlive

/-- The image that a pre-emption writes (R353). -/
def fullBlobs (s : State) (h : Hart) (shs : Bool) (tls : Nat) (full : Bool) (resume : Word) : List Blob :=
  let hd : Header := ⟨h.ixlive, shs, tls, 15, full, h.status == .halted⟩
  [⟨0, 0x100, packHeader h hd + resume.toNat * 2 ^ 64⟩,
   ⟨0x100, 0x100, packList 0 8 ((List.finRange 32).map fun r => (h.getS r).toNat)⟩,
   ⟨0x200, 0xE00, packSmall h⟩] ++ largeBlobs s h tls shs h.ixlive

/-- The records of a loop-state block keep the bits that R89 marks zero, and name temporal levels alone. -/
def levelsLegal (block : Nat) : Bool :=
  (rangeFrom 0 6).all fun j =>
    unpack block (0x80 + 32 * j) 8 / 2 ^ 32 = 0
      && (rangeFrom 1 3).all fun e => fld (unpack block (0x80 + 32 * j + 8 * e) 8) 5 11 = 0

/-- Whether an image read by a restore passes the checks of R360: the header, the loop states that it marks valid, and the codes a
CSR write could not place.
DEDUCED, log entry 31: unsafe. -/
def imageLegal (plog : Fin 4) (hdr small : Nat) : Bool :=
  let tags := (rangeFrom 0 64).map fun n => (n, unpack small (0x80 + n) 1)
  fld hdr 0 8 = 2 && fld hdr 8 2 = plog.val && !bitOf hdr 44 && hdr / 2 ^ 45 = 0
    && tags.all (fun p => p.2 < 20 && (p.2 != 19 || p.1 = 1))
    && (rmOf (fld (unpack small 24 8) 4 3)).isSome && (edgeOf (fld (unpack small 24 8) 2 2)).isSome
    && (!bitOf hdr 23 || levelsLegal (unpack small 0x200 1024)) && (!bitOf hdr 29 || levelsLegal (unpack small 0x600 1024))
    && gateLegal (unpack small 32 8) && (kmodeOf (fld (unpack small 64 8) 32 2)).isSome

/-- The hart's small state restored from an image: everything but the scalar registers, the mode, the resume address and
estat, which the users of this set (R356, R360). -/
def restoreSmall (h : Hart) (hdr small : Nat) : Hart :=
  let csr (k : Nat) := unpack small (8 * k) 8
  let h1 : Hart := { h with
    vl := BitVec.ofNat 16 (csr 0), vstart := BitVec.ofNat 16 (csr 1)
    cura := BitVec.ofNat 32 (csr 2), curb := BitVec.ofNat 32 (csr 2 / 2 ^ 32)
    vcfg := (h.vcfg.write (csr 3)).getD h.vcfg
    fflags := .ofBits (csr 5), srseed := BitVec.ofNat 64 (csr 6), sroff := BitVec.ofNat 64 (csr 7)
    kthr := (Kthr.ofWord (csr 8)).getD h.kthr
    ltmask := BitVec.ofNat 8 (csr 9), ixlive := bitOf (csr 10) 0
    ecause := BitVec.ofNat 8 (csr 11), epc := BitVec.ofNat 64 (csr 12 / 4 * 4), eval := BitVec.ofNat 64 (csr 13)
    pclass := Fin.ofNat 4 (csr 15)
    vtags := Vector.ofFn fun n => (tagOf (unpack small (0x80 + n.val) 1)).getD .n64
    flen := Vector.ofFn fun n => BitVec.ofNat 16 (unpack small (0xC0 + 2 * n.val) 2)
    cerr := Vector.ofFn fun n => bitOf (unpack small 0xE0 2) n.val
    counters := Vector.ofFn fun n => BitVec.ofNat 32 (unpack small (0x100 + 4 * n.val) 4)
    keep := Vector.ofFn fun n => BitVec.ofNat 64 (unpack small (0x140 + 8 * n.val) 8)
    retq := (rangeFrom 0 (fld hdr 24 5)).map fun k => BitVec.ofNat 64 (unpack small (0x180 + 8 * k) 8)
    loop := if bitOf hdr 23 then some (unpackLoop (unpack small 0x200 1024)) else none
    asideLoop := if bitOf hdr 29 then some (unpackLoop (unpack small 0x600 1024)) else none
    asideRet := (rangeFrom 0 (fld hdr 30 5)).map fun k => BitVec.ofNat 64 (unpack small (0xA00 + 8 * k) 8)
    prog := bitOf hdr 12 }
  h1

/-- The large sections restored (R356, R357, R360): `reg`, `tile` and `pig` give the bytes of each. -/
def restoreLarge (h : Hart) (hdr gate : Nat) (reg : Nat → Nat) (tile : Nat → Nat) (pig : Nat) : Hart :=
  let P := h.parts
  { h with
    vregs := Vector.ofFn fun r =>
      match bankField gate (r.val / 8) with
      | some b => if b.st = .gated then BitVec.ofNat _ 0 else regOfImage P (reg r.val)
      | none => BitVec.ofNat _ 0
    vgate := Vector.ofFn fun b => (bankField gate b.val).getD ⟨.on, false⟩
    tiles := Vector.ofFn fun t =>
      if t.val < 8 / P && bitOf hdr (15 + t.val) then BitVec.ofNat _ (tile t.val) else BitVec.ofNat _ 0
    pigeon := if bitOf hdr 13 then unpackPigeon pig else [] }

end Sys2Proof.Machine
end

