-- ==== Sys2Proof/Machine/Mgmt.lean ====
section
/-! DEFINITION. What the management space reads: the device status word, the fabric identity word, the attic, the mailbox
and the inspection space (R259, R374, R376, R404, R405, R410). -/
namespace Sys2Proof.Machine
open Sys2Proof

/-- The bit map of physical quads in service. -/
def State.quadMask (s : State) : Nat := s.quadMap.foldl (fun a q => a + 2 ^ q) 0

/-- The device status word (R374). -/
def State.statusWord (s : State) : Nat :=
  bitN (!s.mgmt.attic.isEmpty) + bitN (!s.mgmt.proposed.isEmpty) * 2 + s.quadMask * 4 + s.mgmt.attic.length % 256 * 2 ^ 8
    + s.coreMap.length * 2 ^ 16 + s.mgmt.bstage.val * 2 ^ 24 + bitN s.mgmt.bfail * 2 ^ 28

/-- The fabric identity word (R376). -/
def Fabric.identity (f : Fabric) : Nat :=
  f.col.val + f.row.val * 2 ^ 5 + (f.ncol - 1) % 32 * 2 ^ 10 + (f.nrow - 1) % 32 * 2 ^ 15 + bitN f.rsw * 2 ^ 20 + bitN f.csw * 2 ^ 21

/-- kind and unit of an attic entry (R374). -/
def retiredCode : Retired → Nat
  | .core n => 1 + n.val * 2 ^ 4
  | .wayPair n => 2 + n % 2 ^ 12 * 2 ^ 4
  | .laneLink n => 3 + n % 2 ^ 12 * 2 ^ 4
  | .seqLink n => 4 + n % 2 ^ 12 * 2 ^ 4
  | .port n => 5 + n % 2 ^ 12 * 2 ^ 4

/-- The two dwords of an attic entry, `seq` its number from 1 (R374). -/
def atticDword (a : Attic) (seq : Nat) : Bool → Nat
  | false => retiredCode a.unit + min a.errs 0xFFFF * 2 ^ 16 + seq % 2 ^ 32 * 2 ^ 32
  | true => a.boot % 2 ^ 32 + a.drain % 2 ^ 32 * 2 ^ 32

/-- A hart stands still: halted under R347, frozen, or on a debug-halted quad (R370, R409). -/
def State.still (s : State) (h : Hart) : Bool :=
  h.status == .halted || (s.ctxs.get h.ctx).frozen || s.haltedQuads.contains (quadOfCore h.place.core)

/-- The resident hart of a slot. -/
def State.hartAt (s : State) (p : Slot) : Option Hart :=
  (s.hart :: s.others).find? (fun h => h.status != .absent && h.place == p)

/-- The image slot of a physical core and slot in a context's save region (R406). -/
def saveSlot (base : Word) (p : Slot) : Nat := base.toNat + 6 * 2 ^ 20 * (8 * p.core.val + p.slot.val)

/-- The byte of a list of blobs at an offset; bytes of no blob are zero. -/
def blobByte (l : List Blob) (off : Nat) : Nat :=
  match l.find? (fun b => b.off ≤ off && off < b.off + b.len) with
  | some b => b.val / 2 ^ (8 * (off - b.off)) % 256
  | none => 0

/-- One byte at a physical address of local memory under pmode 0b00. -/
def State.paByte (s : State) (pa : Nat) : Nat :=
  match packageHome pa with
  | .cell key _ => (s.mem.get key).toNat
  | _ => 0

/-- The slot that the inspection selector names (R410). -/
def State.selected (s : State) : Option Slot :=
  if h : s.mgmt.selector.toNat % 256 < 192 then
    some ⟨⟨s.mgmt.selector.toNat % 256, h⟩, Fin.ofNat 8 (s.mgmt.selector.toNat / 2 ^ 8)⟩
  else none

/-- What the selected slot holds for inspection: a still resident hart, or a saved one (R410). -/
def State.inspected (s : State) : Option (Hart × Bool) :=
  match s.selected with
  | none => none
  | some p =>
    match (s.hartAt p).filter s.still with
    | some h => some (h, false)
    | none => (s.saved.find? (fun x => x.hart.place == p)).map (fun x => (x.hart, true))

/-- The inspection selector with its ok bit (R410). -/
def State.selectorWord (s : State) : Nat := s.mgmt.selector.toNat + bitN s.inspected.isSome * 2 ^ 63

/-- How far a command has come, as the inspection space shows it. -/
def Cmd.stateBits (c : Cmd) : BitVec 128 :=
  match c.stage with
  | .pending => Config.commandState 1 0
  | .flying => Config.commandState 2 0
  | .moved code _ => Config.commandState 3 code

/-- One byte of the inspection space; none for what the model does not hold: which TLB holds which translation, and what the L2 slices hold
(R258, R335, R410). Layouts that the spec does not give are free.
DESIGN CHOICE, log entry 33: safe. -/
def State.inspectByte (s : State) (off : Nat) : Option Nat :=
  if off < 0x800000 then
    some (match s.inspected with
      | none => 0
      | some (h, true) => s.paByte (saveSlot (s.ctxs.get h.ctx).saveBase h.place + off)
      | some (h, false) =>
        let shs := bitOf (s.ctxs.get h.ctx).swin[0].toNat 0
        blobByte (fullBlobs s h shs (2 ^ (8 / h.parts) - 1) true h.pc) off)
  else if off < 0x800000 + 192 * 144 then
    let e := (off - 0x800000) / 144
    let b := (off - 0x800000) % 144
    let quad := s.mgmt.selector.toNat / 2 ^ 16 % 8
    let eng := match e / 64 with | 0 => Engine.cpe | 1 => Engine.ste | _ => Engine.coe
    some (match (s.cmds.filter (fun c => c.engine == eng && c.quad.val = quad))[e % 64]? with
      | some c => if b < 128 then (c.dwords[b / 8]?.getD 0).toNat / 2 ^ (8 * (b % 8)) % 256 else c.stateBits.toNat / 2 ^ (8 * (b - 128)) % 256
      | none => if b < 128 then 0 else (Config.commandState 0 0).toNat / 2 ^ (8 * (b - 128)) % 256)
  else if 0x900000 ≤ off ∧ off < 0x900000 + 64 * 32 then
    let quad := s.mgmt.selector.toNat / 2 ^ 16 % 8
    let held := s.cmds.filter fun c => c.quad.val = quad && (c.rsbSrc.isSome || c.rsbDst.isSome)
    some ((match held[(off - 0x900000) / 32]? with
      | some c =>
        let src := c.rsbSrc.getD (0, 0)
        let dst := c.rsbDst.getD (0, 0)
        Config.scoreboardEntry true src.1 src.2 dst.1 dst.2
      | none => Config.scoreboardEntry false 0 0 0 0).toNat / 2 ^ (8 * (off % 32)) % 256)
  else if 0x2000000 ≤ off ∧ off < 0x2000000 + 4 * 64 * 512 then
    let cls := (off - 0x2000000) / 32768
    let slot := (off - 0x2000000) / 512 % 64
    let b := off % 512
    some (match (s.launches.filter (fun l => l.cls.val = cls && !l.admitted))[slot]? with
      | some l => (l.desc[b / 8]?.getD 0).toNat / 2 ^ (8 * (b % 8)) % 256
      | none => 0)
  else if 0x2000000 + 4 * 64 * 512 ≤ off ∧ off < 0x3000000 then
    let entries := s.saved.map fun x => (x.hart.pclass.val, x.order, x.image)
    some (Config.resumptionByte entries (off - (0x2000000 + 4 * 64 * 512))).toNat
  else none

/-- One byte of the management space; none where the spec gives no word (R404). -/
def State.mgmtByte (s : State) (off : Nat) : Option Nat :=
  let byte (v : Nat) : Option Nat := some (v / 2 ^ (8 * (off % 8)) % 256)
  if 0x40000000 ≤ off then s.inspectByte (off - 0x40000000)
  else if off < 8 then byte s.statusWord
  else if off < 16 then byte s.fabric.identity
  else if off < 24 then byte s.mgmt.detour.toNat
  else if 0x100 ≤ off ∧ off < 0x130 then
    let e := s.mgmt.escalation[(off - 0x100) / 8]?.getD (0, 0)
    byte (e.1.toNat + e.2.toNat * 2 ^ 32)
  else if 0x200 ≤ off ∧ off < 0x2C0 then byte ((s.mgmt.pshare[(off - 0x200) / 8]?.map (·.val)).getD 0)
  else if 0x400 ≤ off ∧ off < 0x408 then byte s.selectorWord
  else if 0x10000 ≤ off ∧ off < 0x10080 then byte (s.mgmt.mboxCmd[(off - 0x10000) / 8]?.getD 0).toNat
  else if 0x10800 ≤ off ∧ off < 0x10808 then byte (s.mgmt.mboxStatus.toNat + s.mgmt.mboxSeq.toNat * 2 ^ 8)
  else if 0x100000 ≤ off ∧ off < 0x100000 + 16 * s.mgmt.attic.length then
    let e := (off - 0x100000) / 16
    match s.mgmt.attic[e]? with
    | some a => byte (atticDword a (e + 1) (8 ≤ off % 16))
    | none => none
  else none

/-- Bytes read from the management space; those of no word of the spec are free. -/
def mgmtRead (off : Nat) : Nat → M (List Byte)
  | 0 => return []
  | n + 1 => do
    let b ← match (← get).mgmtByte off with
      | some v => pure (BitVec.ofNat 8 v)
      | none => do pure (Config.freeByte (← takeFree))
    return b :: (← mgmtRead (off + 1) n)

end Sys2Proof.Machine
end

