-- ==== Sys2Proof/Machine/Router.lean ====
section
/-! DEFINITION. The two routers of a device: the copies of a multicast string, and a packet as flits (R379, R380, R387). -/
namespace Sys2Proof.Machine
open Sys2Proof

/-! ### Multicast strings (R387) -/

/-- The string of a list of devices. -/
def stringOf (devs : List Nat) : BitVec 1024 := BitVec.ofNat 1024 (devs.foldl (fun n d => n ||| 2 ^ (d % 1024)) 0)
/-- The devices that a string names. -/
def stringDevs (b : BitVec 1024) : List Nat := (rangeFrom 0 1024).filter fun d => bitOf b.toNat d

/-- The masks of R387 from the cabling, as at reset: row port p reaches column p, column port p the device of row p. -/
def Fabric.cable (f : Fabric) : Fabric :=
  { f with
    rowMasks := Vector.ofFn fun p =>
      if p.val < 32 && f.cabled p.val then stringOf ((rangeFrom 0 f.nrow).map fun y => 32 * y + p.val) else 0
    colMasks := Vector.ofFn fun p => if p.val < 32 && f.cabled (33 + p.val) then stringOf [32 * p.val + f.col.val] else 0
    localMask := stringOf [f.self] }

/-- The devices of this column but this one. -/
def Fabric.columnString (f : Fabric) : BitVec 1024 :=
  stringOf (((rangeFrom 0 32).map fun y => 32 * y + f.col.val).filter (· != f.self))

/-- The copies that the routers make of a string: the row router those of other columns, the column router those of its own; each
with its port and its masked string (R387). -/
def Fabric.copies (f : Fabric) (b : BitVec 1024) : List (Nat × BitVec 1024) :=
  let mine := b &&& f.columnString
  ((rangeFrom 0 33).map (fun p => (portNumber true p, b &&& (f.rowMasks[p]?).getD 0 &&& ~~~f.columnString))
    ++ (rangeFrom 0 33).map (fun p => (portNumber false p, mine &&& (f.colMasks[p]?).getD 0))).filter fun x => x.2 != 0

/-- Whether a copy on a port leaves on the detour channel, `dt` saying whether it is there already; none where it cannot leave at all. -/
def Fabric.copyDetours (f : Fabric) (port : Nat) (dt : Bool) : Option Bool :=
  (if port < 33 then f.hop true port dt else f.hop false (port - 33) dt).map Hop.dt

/-- The masks computed again as ports have failed: a port keeps its devices while a copy for them still has a way, if by a detour (R387).
DESIGN CHOICE, log entry 26: unsafe. -/
def Fabric.remask (f : Fabric) : Fabric :=
  let g := f.cable
  { g with
    rowMasks := Vector.ofFn fun p => if (f.copyDetours (portNumber true p.val) false).isSome then g.rowMasks.get p else 0
    colMasks := Vector.ofFn fun p => if (f.copyDetours (portNumber false p.val) false).isSome then g.colMasks.get p else 0 }

/-! ### Messages (R379, R380) -/

/-- The packet of a message that carries one. -/
def OutMsg.packet : OutMsg → Option Packet
  | .read p | .write p | .atomic p | .fsend p _ | .collData p _ _ | .announce p _ | .arrival p _ _ _ _
  | .dataResponse p | .completionResponse p | .errorResponse p | .receiptAdd p | .watchNotice p _ | .portNotice p _ => some p
/-- A message with its packet changed. -/
def OutMsg.mapPacket (f : Packet → Packet) : OutMsg → OutMsg
  | .read p => .read (f p) | .write p => .write (f p) | .atomic p => .atomic (f p) | .fsend p m => .fsend (f p) m
  | .collData p k es => .collData (f p) k es | .announce p k => .announce (f p) k | .arrival p c core h w => .arrival (f p) c core h w
  | .dataResponse p => .dataResponse (f p) | .completionResponse p => .completionResponse (f p)
  | .errorResponse p => .errorResponse (f p) | .receiptAdd p => .receiptAdd (f p)
  | .watchNotice p n => .watchNotice (f p) n | .portNotice p n => .portNotice (f p) n

/-- The op of a header (R379). -/
def OutMsg.op : OutMsg → Nat
  | .read _ => 0 | .write _ => 1 | .atomic _ => 2 | .fsend _ _ => 3 | .collData _ _ _ => 4 | .arrival _ _ _ _ _ => 5
  | .announce _ _ => 6 | .dataResponse _ => 8 | .completionResponse _ => 9 | .errorResponse _ => 10 | .portNotice _ _ => 11
  | .watchNotice _ _ => 12 | .receiptAdd _ => 13
/-- The class of a packet: request, forward or response (R380). -/
def OutMsg.vcls (m : OutMsg) : Nat :=
  match m with
  | .watchNotice _ _ | .receiptAdd _ => 1
  | _ => if m.op < 8 then 0 else 2
/-- A request class packet, which its stream numbers (R380, R381). -/
def OutMsg.isRequest (m : OutMsg) : Bool := m.vcls = 0

/-- The header flit of a packet of a class and op (R379). -/
def Packet.header (p : Packet) (op vcls : Nat) : Nat :=
  let payload := p.data.length
  op + vcls * 2 ^ 4 + bitN p.dt * 2 ^ 6 + bitN p.mc * 2 ^ 7 + p.src % 1024 * 2 ^ 8
    + (if p.mc then 0 else p.dst % 1024) * 2 ^ 18 + p.ocls.val * 2 ^ 28 + bitN p.wt * 2 ^ 30 + p.seq % 2 ^ 32 * 2 ^ 32
    + p.off % 2 ^ 45 * 2 ^ 64 + (if payload = 0 then 0 else (payload - 1) % 256) * 2 ^ 112
    + (if op = 2 then amoCode p.op + amoSizeCode p.size * 16 else 0) * 2 ^ 120
    + p.txn % 2 ^ 16 * 2 ^ 128 + p.bidx % 256 * 2 ^ 144
    + packBytes (p.mask.map fun b => b != 0) * 2 ^ 152
where
  packBytes : List Bool → Nat
    | [] => 0
    | b :: t => bitN b + 2 * packBytes t
  amoCode : AmoOp → Nat
    | .add => 0 | .and => 1 | .or => 2 | .xor => 3 | .min => 4 | .max => 5 | .minn => 6 | .maxn => 7 | .swap => 8 | .cas => 9 | .fadd => 10

/-- A packet as the flits of R379: its header, the two of its string where it is a multicast, and its payload of up to four. -/
def Packet.flits (p : Packet) (op vcls : Nat) : List Nat :=
  let payload := ofBytes p.data
  [Packet.header p op vcls] ++ (if p.mc then [p.string.toNat % 2 ^ 512, p.string.toNat / 2 ^ 512] else [])
    ++ (rangeFrom 0 ((p.data.length + 63) / 64)).map fun k => payload / 2 ^ (512 * k) % 2 ^ 512

/-- A message handed to the fabric. -/
def State.emit (s : State) (m : OutMsg) : State :=
  { s with fabric := { s.fabric with out := s.fabric.out ++ [m.mapPacket (Packet.leaves s.fabric)] } }

/-- The messages of a multicast packet: one copy for each port (R387). -/
def Fabric.copiesOf (f : Fabric) (m : OutMsg) (b : BitVec 1024) : List OutMsg :=
  (f.copies b).filterMap fun x =>
    let before := (m.packet.map Packet.dt).getD false
    (f.copyDetours x.1 before).map fun dt => m.mapPacket fun p => { p with dst := 0, string := x.2, dt := dt }

end Sys2Proof.Machine
end

