-- ==== Sys2Proof/Machine/Access.lean ====
section
/-! DEFINITION. The accesses that harts make to memory: scalar and vector reads and writes of what an address reaches, the
waits on owned lines, the request counters, and remote accesses (R83 to R85, R141 to R150, R229, R252 to R262, R280 to R282,
R369, R384 to R386). -/
namespace Sys2Proof.Machine
open Sys2Proof

/-! ### Storage numbers of what an address reaches -/

/-- The storage number of a byte of one replica: `die` is the lane die in the quad (R280). -/
def replKey (quad die off : Nat) : Nat := dieKey (quad * 4 + die % 4) off

/-- The storage numbers of the four replicas; the home, on lane die 0, comes first (R367). -/
def replKeys (quad off : Nat) : List Nat := [replKey quad 0 off, replKey quad 1 off, replKey quad 2 off, replKey quad 3 off]

/-- A fabric-window address of this device is served here, as the pmode 0b00 byte it names (R368). -/
def State.served (s : State) : Loc → Loc
  | .fabric dev off => if dev = s.fabric.self then packageHome off else .fabric dev off
  | l => l

/-- The fabric window is never cached (R256, R368). -/
def Loc.uncached : Loc → Bool
  | .fabric _ _ => true
  | _ => false

/-! ### The FIFO of a line (R295) -/

/-- Whether an atomic stands first at every one of its lines. -/
def State.firstAt (s : State) (who : Waiter) (lines : List Nat) : Bool :=
  lines.all fun l => match s.lineWaits.find? (·.line = l) with
    | some w => w.who = who
    | none => true
/-- An atomic takes its place at the lines where it does not stand yet. -/
def State.queueAt (s : State) (who : Waiter) (lines : List Nat) : State :=
  { s with lineWaits := s.lineWaits ++ (lines.filter fun l => !s.lineWaits.contains ⟨l, who⟩).map fun l => ⟨l, who⟩ }
/-- An atomic leaves every line. -/
def State.unqueue (s : State) (who : Waiter) : State := { s with lineWaits := s.lineWaits.filter (·.who != who) }
/-- The lines of `n` bytes at each of these places. -/
def linesOf (keys : List Nat) (n : Nat) : List Nat := (keys.flatMap fun k => (sectorsOf k n).map (· / 4)).eraseDups

/-- One number for the place of a byte: that of its home for a replicated page (R229, R367). -/
def Loc.place : Loc → Nat
  | .cell key _ => key
  | .repl q off => replKey q 0 off
  | .shelf off => shelfBase + off
  | .mgmt off => mgmtBase + off
  | .host a => hostBase + a
  | .fabric dev off => (fabricAddr dev off).toNat

/-! ### The fabric window (R384 to R386) -/

/-- The posted requests of this hart that wait for their response: scalar stores and messages to other devices. -/
def State.posted (s : State) : List OutReq :=
  s.fabric.outstanding.filter (fun o => o.posted && o.born = s.hart.born && o.cmd = none)
/-- A scalar store of this hart still stands in its store queue: one to another device, until its response arrives (R26, R384). -/
def State.storeQueued (s : State) : Bool := s.posted.any (·.ocls = 0)
/-- The messages of this hart that are not applied yet: each is a store (R279). -/
def State.ownMsgs (s : State) : List FMsg := s.msgs.filter (·.born = s.hart.born)
/-- Some earlier store of this hart is not performed beyond it yet. -/
def State.hasPosted (s : State) : Bool := !s.posted.isEmpty || !s.ownMsgs.isEmpty
/-- Whether the hart waits for the answer to a request. -/
def State.hasAsked (s : State) (h : Hart) : Bool :=
  s.fabric.outstanding.any (fun o => !o.posted && o.born = h.born && o.cmd = none)

/-- At most 512 requests of a stream are without a response (R382). -/
def Fabric.full (f : Fabric) (dev : Nat) (c : Ocls) : Bool :=
  512 ≤ (f.outstanding.filter (fun o => o.dst = dev ∧ o.ocls = c ∧ !o.mc)).length

/-- Bytes of another device lie in a line that a command of this device owns (R281). -/
def State.farStalls (s : State) (dev off n : Nat) : Bool := s.cmds.any (·.owns (fabricPlace dev off) n)

/-- The packets of another hart's VAMO or VSRED to a device are on their way, one after another on the stream (R384, log entry 21). -/
def State.streamHeld (s : State) (dev : Nat) (c : Ocls) : Bool := c = 1 && s.others.any (·.locking = some dev)

/-- The answer of the instruction's request for these bytes, the `nth` of those with the same place, or the request leaves and the
hart waits (R384, R385). -/
def askRemote (dev off n : Nat) (c : Ocls) (nth : Nat) (mk : Packet → Packet) (msg : Packet → OutMsg) (kind : AccessKind) :
    M RemoteAnswer := do
  let s ← get
  match (s.hart.answers.filter (fun a => a.dev = dev ∧ a.off = off ∧ a.len = n))[nth]? with
  | some a => if a.failed then raise .fabricError (fabricAddr dev off) kind else return a
  | none =>
    if !s.fabric.reaches dev then raise .fabricError (fabricAddr dev off) kind
    else if s.farStalls dev off n || s.storeQueued || s.fabric.full dev c || s.streamHeld dev c then throw .wait
    else
      let p := mk (s.fabric.packet dev c off s.hart.place)
      throw (.remote ⟨p.txn, dev, c, p.seq, s.hart.born, off, n, false, false, fabricAddr dev off, none, false⟩ (msg p))

/-- A read packet's answer. -/
def readRemote (dev off n : Nat) (c : Ocls) (nth : Nat) (watch : Bool) : M RemoteAnswer :=
  askRemote dev off n c nth (fun p => { p with wt := watch, len := n }) .read .load

/-- A write packet of a vector instruction: the instruction completes once its response arrives (R384). -/
def writeRemote (dev off n : Nat) (c : Ocls) (bytes mask : List Byte) : M Unit := do
  let _ ← askRemote dev off n c 0 (fun p => { p with data := bytes, mask := mask }) .write .store
  pure ()

/-- Scalar stores that the store queue holds (R26). -/
def storeDepth : Nat := 32

/-- A scalar store to another device: outstanding until its completion response (R346, R384); the hart waits while its store queue is
full (R26). -/
def postRemote (dev off n : Nat) (c : Ocls) (bytes mask : List Byte) : M Unit := do
  let s ← get
  if !s.fabric.reaches dev then raise .fabricError (fabricAddr dev off) .store
  else if s.farStalls dev off n || s.fabric.full dev c || storeDepth ≤ (s.posted.filter (·.ocls = 0)).length then throw .wait
  else
    let p := { s.fabric.packet dev c off s.hart.place with data := bytes, mask := mask }
    modify fun s => s.sendMsg ⟨p.txn, dev, c, p.seq, s.hart.born, off, n, true, false, fabricAddr dev off, none, false⟩ (.write p)

/-- `n` bytes of the host's memory: each is what this device last stored or read there, or what the host has written since, which
is not the device's to say (R85, R271). -/
def hostBytes (addr : Nat) : Nat → M (List Byte)
  | 0 => return []
  | n + 1 => do
    if Config.freeBool (← takeFree) then
      let b := Config.freeByte (← takeFree)
      modify fun s => { s with mem := s.mem.set (hostBase + addr) b }
    let b := (← get).mem.get (hostBase + addr)
    return b :: (← hostBytes (addr + 1) n)

/-! ### Scalar accesses -/

/-- Lane die, within its quad, whose replica a scalar access reads (R280). -/
def State.scalarDie (s : State) : Nat := s.coreId s.hart.place.core.val % 4

/-- The misaligned-access trap of an address that is no multiple of `n` (R83). -/
def aligned (va : Word) (n : Nat) (kind : AccessKind) : M Unit := raiseIf (va.toNat % n != 0) .misaligned va kind

/-- Scalar accesses do not reach the shelf (R251, R253). -/
def noShelf (t : Target) (acc : Access) : M Unit :=
  match t.loc with
  | .shelf _ => raise .access t.va acc.kind
  | _ => pure ()

/-- The current hart's atomic at these places goes on where they are free and its turn has come; else it waits at them, and is not
withdrawn (R281, R282, R290, R295). -/
def claim (keys : List Nat) (n : Nat) : M Unit := do
  let s ← get
  let me := Waiter.hart s.hart.born
  let lines := linesOf keys n
  if keys.any (fun k => s.writeStalls k n) || !s.firstAt me lines then
    set (keepGoing (s.queueAt me lines))
    throw .pause
  else set (s.unqueue me)

/-! ### Reads and writes of a hart -/

/-- A read of `n` bytes of storage by a hart: it waits while they are owned, and a poisoned sector traps with the address
(R262, R281). The directory recalls dirty bytes for every reader but a scalar load (R257). -/
def readCell (va : Word) (key n : Nat) (drawBack : Bool) (kind : AccessKind) : M Nat := do
  let s ← get
  waitIf (s.readStalls key n)
  raiseIf (s.poisoned key) .poison va kind
  if drawBack then modify (·.drawBack key)
  return s.mem.read key n

/-- Whether an access goes past the data L1: device memory and the fabric window are never cached (R256, R368). -/
def Target.uncached (t : Target) : Bool := t.device || t.loc.uncached

/-- An access to device memory follows every earlier access of the hart to it (R273). -/
def deviceOrder (t : Target) : M Unit := do waitIf (t.device && (← get).hasPosted)

/-- A scalar read of `n` bytes of what an address reaches, within one sector; `nth` counts the instruction's earlier reads of the
same bytes. -/
def readTarget (t : Target) (n nth : Nat) (watch : Bool) : M Nat := do
  let s ← get
  match s.served t.loc with
  | .cell key _ => readCell t.va key n t.uncached .load
  | .repl q off => readCell t.va (replKey q s.scalarDie off) n t.uncached .load
  | .shelf _ => return 0
  | .mgmt off => return ofBytes (← mgmtRead off n)
  | .host a => return ofBytes (← hostBytes a n)
  | .fabric dev off =>
    let a ← readRemote dev off n 0 nth watch
    raiseIf (!a.poisoned.isEmpty) .poison (fabricAddr dev (off / 32 * 32)) .load
    return ofBytes a.data % 256 ^ n

/-- A write of `n` bytes to storage by a hart: it waits while they are owned (R281, R282). -/
def writeCells (keys : List Nat) (n v : Nat) (wr : State → Nat → Nat → Nat → State) : M Unit := do
  let s ← get
  waitIf (keys.any fun k => s.writeStalls k n)
  keys.forM fun k => modify fun s => wr s k n v

/-- A scalar write of `n` bytes to what an address reaches. Words of the management space that harts read are written by
others, and a hart's write to them is discarded (R404). -/
def writeTarget (t : Target) (n v : Nat) : M Unit := do
  let s ← get
  let wr := if t.uncached then State.storeDirect else State.storeScalar
  match s.served t.loc with
  | .cell key _ => writeCells [key] n v wr
  | .repl q off => writeCells (replKeys q off) n v wr
  | .shelf _ => pure ()
  | .mgmt _ => pure ()
  | .host a => modify (·.storeDirect (hostBase + a) n v)
  | .fabric dev off => postRemote dev off n 0 (bytesOf v n) (List.replicate n 0xFF)

/-- The watch set to the sector of an address (R229). -/
def setWatch (t : Target) : M Unit := do
  let s ← get
  onHart fun h => { h with watch := some ⟨(s.served t.loc).place / 32, false⟩ }
/-- A scalar load or AMO of another device sets the watch when it is issued: what is written while its answer is under way follows
it (R229, R386). -/
def issueWatch (t : Target) : M Unit := do
  let s ← get
  if !s.hart.underway && (s.served t.loc).uncached then setWatch t else pure ()
/-- A load of this device sets the watch with its read (R229). -/
def readWatch (t : Target) : M Unit := do
  if ((← get).served t.loc).uncached then pure () else setWatch t

/-- A scalar load of `n` bytes: alignment, translation, rights, then poison (R83, R84). -/
def scalarLoad (va : Word) (n : Nat) : M Nat := do
  aligned va n .load
  let t ← resolve va .load
  noShelf t .load
  deviceOrder t
  issueWatch t
  let v ← readTarget t n 0 true
  readWatch t
  return v

/-- A scalar store of `n` bytes (R83, R84). -/
def scalarStore (va : Word) (n v : Nat) : M Unit := do
  aligned va n .store
  let t ← resolve va .store
  noShelf t .store
  deviceOrder t
  writeTarget t n v

/-- An access fault, before anything is accessed, on the lowest address of a list that lies in the shelf window (R253).
DEDUCED, log entry 38: unsafe. -/
def refuseShelfAt (kind : AccessKind) (l : List Word) : M Unit := do
  let swin := (← get).ctx.swin
  match (l.filter fun a => findWindow swin a = some 0).map (·.toNat) with
  | [] => pure ()
  | x :: t => raise .access (BitVec.ofNat 64 (t.foldl Nat.min x)) kind

/-- An access fault, before anything is accessed, on the first address that lies past its window's limit (R251). -/
def refusePast (kind : AccessKind) (l : List Word) : M Unit := do
  let s ← get
  match l.find? fun a => match findWindow s.ctx.swin a with
    | some n => s.pastLimit s.hart.place.core n a
    | none => false with
  | some a => raise .access a kind
  | none => pure ()

/-- The shelf refused to every element (R253). -/
def refuseShelf (kind : AccessKind) (l : List VReq) : M Unit := refuseShelfAt kind (l.map (·.va))

/-- `n` dwords of a descriptor: scalar loads' accesses, without the watch; a shelf address or one past a window's limit is found
before any of them is read (R90, R222, R251, R253). -/
def readDwords (va : Word) (n : Nat) : M (List Nat) := do
  let as := (rangeFrom 0 n).map fun k => va + BitVec.ofNat 64 (8 * k)
  refuseShelfAt .load as
  let ts ← as.mapM fun a => resolve a .load
  ts.forM deviceOrder
  let earlier (k : Nat) (t : Target) : Nat := ((ts.take k).filter fun u => u.loc = t.loc).length
  ts.zipIdx.mapM fun p => readTarget p.1 8 (earlier p.2 p.1) false

/-! ### Accesses of vector instructions -/

/-- One access of a vector instruction: element `i`, `w` bits from bit `b` of its first byte, issued by a lane group. -/
structure VAcc where
  i : Nat
  va : Word
  b : Nat
  w : Nat
  group : Nat
  loc : Loc
  uncached : Bool
  device : Bool := false
deriving DecidableEq, Repr

/-- Bytes an access touches. -/
def VAcc.bytes (a : VAcc) : Nat := (a.b + a.w + 7) / 8

/-- Which addresses a vector form accepts. -/
structure Reach where
  /-- device memory is accepted (VLDXO, VSTXO; R148) -/
  device : Bool
  /-- the shelf is accepted (R253) -/
  shelf : Bool
  /-- the host window and the management space are accepted; atomics refuse them (R289) -/
  outside : Bool
deriving DecidableEq, Repr

/-- Loads and stores of class LDP and STP but the ordered ones. -/
def Reach.plain : Reach := ⟨false, true, true⟩
/-- VLDXO and VSTXO. -/
def Reach.ordered : Reach := ⟨true, true, true⟩
/-- VSRED. -/
def Reach.reduce : Reach := ⟨false, true, false⟩
/-- VAMO and VAMOO. -/
def Reach.atomic : Reach := ⟨false, false, false⟩
/-- Fibre and tile accesses. -/
def Reach.noShelf : Reach := ⟨false, false, true⟩

/-- Where element `i` of width `w` reaches the shelf window: the shelf of its own lane (R252). -/
def Hart.shelfLoc (h : Hart) (w i off : Nat) : Loc :=
  let L := 32 / h.parts
  let Q := vlmaxW h.parts w / 4
  let g := i / Q
  .cell (shelfKey h.place.core h.place.slot.val h.parts g (i % Q % (L / 4)) off) (quadOfCore h.place.core * 4 + g)

/-- A resolved access checked (R150, R251, R253, R289). `w` is the width whose layout places the element.
DEDUCED, log entry 18: unsafe. -/
def checkReach (reach : Reach) (acc : Access) (w : Nat) (q : VReq) (t : Target) : M VAcc := do
  let s ← get
  let bad := (t.device && !reach.device) || (match t.loc with
    | .shelf _ => !reach.shelf
    | .host _ | .mgmt _ => !reach.outside
    | _ => false)
  raiseIf bad .access q.va acc.kind
  let loc := match t.loc with
    | .shelf off => s.hart.shelfLoc w q.i off
    | l => s.served l
  return ⟨q.i, q.va, q.b, q.w, q.group, loc, t.loc.uncached, t.device⟩

/-- One access resolved and checked. -/
def probe (reach : Reach) (acc : Access) (w : Nat) (q : VReq) : M VAcc := do checkReach reach acc w q (← resolve q.va acc)

/-- The lane group that issues an indexed element: that of the element for a window address, else the group of its
virtual-address interleave (R142, R251, R335). -/
def State.indexGroup (s : State) (t : Tag) (i : Nat) (va : Word) : Nat :=
  match findWindow s.ctx.swin va with
  | some _ => s.hart.group t i
  | none => fld va.toNat 12 2

/-! ### The request counters (R142, R369) -/

/-- The sectors of an access, each with whether the issuing lane die serves it. -/
def VAcc.requests (quad : Nat) (write : Bool) (a : VAcc) : List (Nat × Nat × Bool) :=
  match a.loc with
  | .cell key die =>
    if shelfBase ≤ key && key < hostBase then []
    else (sectorsOf key a.bytes).map fun q => (a.group, q, !a.uncached && die == quad * 4 + a.group)
  | .repl tq off =>
    (sectorsOf (replKey tq 0 off) a.bytes).map fun q => (a.group, q, tq == quad && (!write || a.group == 0))
  | .shelf _ => []
  | l => (sectorsOf l.place a.bytes).map fun q => (a.group, q, false)

/-- The requests of an instruction counted when they are issued: one for each pair of issuing group and sector, whichever
of its accesses and executions make it (R142, R369). -/
def countRequests (write : Bool) (accs : List VAcc) : M Unit := modify fun s =>
  let quad := (quadOfCore s.hart.place.core).val
  let rs := ((accs.flatMap (VAcc.requests quad write)).filter fun r => !s.hart.counted.contains (r.1, r.2.1)).eraseDups
  let near := (rs.filter (fun r => r.2.2)).length
  let c := s.core
  { s.setCore { c with ctrloc := c.ctrloc + BitVec.ofNat 64 near, ctrrem := c.ctrrem + BitVec.ofNat 64 (rs.length - near) } with
    hart := { s.hart with counted := s.hart.counted ++ rs.map fun r => (r.1, r.2.1) } }

/-! ### Reading the accesses of an instruction -/

/-- The storage number an access reads: on a replicated page that of the replica on the issuing lane die (R280). -/
def VAcc.readKey (a : VAcc) : Option Nat :=
  match a.loc with
  | .cell key _ => some key
  | .repl q off => some (replKey q a.group off)
  | _ => none

/-- The runs of remote sectors an instruction reads: those of one group in one aligned 256-byte block are merged (R384). -/
def mergeRuns : List Nat → List (Nat × Nat)
  | [] => []
  | q :: t =>
    match mergeRuns t with
    | (lo, n) :: rest => if lo = q + 1 ∧ lo / 8 = q / 8 then (q, n + 1) :: rest else (q, 1) :: (lo, n) :: rest
    | [] => [(q, 1)]

/-- Device, offset and length of the read packets of an instruction. -/
def remoteRuns (accs : List VAcc) : List (Nat × Nat × Nat) :=
  let codes := accs.flatMap fun a =>
    match a.loc with
    | .fabric dev off => (sectorsOf off a.bytes).map fun q => (a.group * 1024 + dev) * 2 ^ 40 + q
    | _ => []
  (mergeRuns (codes.foldl (fun l c => insertNat c l) [])).map fun r =>
    (r.1 / 2 ^ 40 % 1024, r.1 % 2 ^ 40 * 32, r.2 * 32)

/-- The data of every remote run, or the first request that is still to be sent: `done` are those before it, whose places may be
the same for another group. -/
def askRuns (c : Ocls) (done : List (Nat × Nat)) : List (Nat × Nat × Nat) → M (List RemoteAnswer)
  | [] => return []
  | (dev, off, n) :: t => do
    let a ← readRemote dev off n c (done.filter (· == (dev, off))).length false
    return a :: (← askRuns c ((dev, off) :: done) t)

/-- The value of one access; none where its sector is poisoned (R144). -/
def readAcc (ans : List RemoteAnswer) (a : VAcc) : M (Option Nat) := do
  let s ← get
  let take (v : Nat) : Option Nat := some (v / 2 ^ a.b % 2 ^ a.w)
  match a.loc with
  | .mgmt off => return take (ofBytes (← mgmtRead off a.bytes))
  | .host addr => return take (ofBytes (← hostBytes addr a.bytes))
  | .fabric dev off =>
    match ans.find? (fun r => r.dev = dev ∧ r.off ≤ off ∧ off < r.off + r.data.length) with
    | some r =>
      if (sectorsOf off a.bytes).any (fun q => r.poisoned.contains (q * 32)) then return none
      else return take (ofBytes ((r.data.drop (off - r.off)).take a.bytes))
    | none => return none
  | _ =>
    match a.readKey with
    | some key => return if (sectorsOf key a.bytes).any s.poison.contains then none else take (s.mem.readRange key a.bytes)
    | none => return none

/-- The values of all accesses, in order: after the waits of R281 and R282 and the recalls of R257. -/
def readAccs (c : Ocls) (accs : List VAcc) : M (List (VAcc × Option Nat)) := do
  let s ← get
  waitIf (accs.any fun a => match a.readKey with | some k => s.readStalls k a.bytes | none => false)
  let ans ← askRuns c [] (remoteRuns accs)
  ((accs.filterMap fun a => a.readKey.map (· / 128)).eraseDups).forM fun l => modify (·.drawBack (l * 128))
  accs.mapM fun a => do return (a, ← readAcc ans a)

/-! ### Writing the accesses of an instruction -/

/-- The storage numbers an access writes: all replicas of a replicated page (R280). -/
def VAcc.writeKeys (a : VAcc) : List Nat :=
  match a.loc with
  | .cell key _ => [key]
  | .repl q off => replKeys q off
  | .host addr => [hostBase + addr]
  | _ => []

/-- `w` bits from bit `b` of the byte at `key` written; the other bits of those bytes are kept (R143). -/
def Memory.writeBits (m : Memory) (key b w v : Nat) : Memory :=
  let n := (b + w + 7) / 8
  m.writeRange key n (setBits (m.readRange key n) b w v)

/-- A piece of memory that a packet writes: where it goes, and its byte with the bits that change. -/
structure Piece where
  dev : Nat
  off : Nat
  val : Nat
  bits : Nat
deriving DecidableEq, Repr

/-- The bytes that `w` bits from bit `b` of offset `off` write (R143). -/
def piecesOf (dev off b w v : Nat) : List Piece :=
  (rangeFrom 0 ((b + w + 7) / 8)).map fun k =>
    ⟨dev, off + k, v % 2 ^ w * 2 ^ b / 256 ^ k % 256, (2 ^ w - 1) * 2 ^ b / 256 ^ k % 256⟩

/-- The pieces of remote memory an instruction writes, in order. -/
def remotePieces (l : List (VAcc × Nat)) : List Piece :=
  l.flatMap fun p =>
    match p.1.loc with
    | .fabric dev off => piecesOf dev off p.1.b p.1.w p.2
    | _ => []

/-- One byte of a packet: the later pieces prevail, bit by bit (R143, R147). -/
def mergePieces (l : List Piece) : Byte × Byte :=
  l.foldl (fun x p => (x.1 &&& ~~~BitVec.ofNat 8 p.bits ||| BitVec.ofNat 8 (p.val &&& p.bits), x.2 ||| BitVec.ofNat 8 p.bits)) (0, 0)

/-- The write packets of pieces: for each device and aligned block of `size` bytes its data and the bits it changes (R384). -/
def packetsOf (size : Nat) (ps : List Piece) : List (Nat × Nat × List Byte × List Byte) :=
  ((ps.map fun p => (p.dev, p.off / size)).eraseDups).map fun blk =>
    let mine := ps.filter fun p => p.dev = blk.1 ∧ p.off / size = blk.2
    let cells := (rangeFrom (blk.2 * size) size).map fun o => mergePieces (mine.filter fun p => p.off = o)
    (blk.1, blk.2 * size, cells.map (·.1), cells.map (·.2))

/-- One write packet for each aligned block of 256 bytes, with its mask (R384). -/
def writeBlocks (c : Ocls) (ps : List Piece) : M Unit :=
  (packetsOf 256 ps).forM fun p => writeRemote p.1 p.2.1 256 c p.2.2.1 p.2.2.2

/-- The bits of a sector that one instruction writes cover it (R143, R262). -/
def covers (l : List (Nat × Nat × Nat)) (sector : Nat) : Bool :=
  (rangeFrom (sector * 256) 256).all fun bit => l.any fun x => x.1 * 8 + x.2.1 ≤ bit && bit < x.1 * 8 + x.2.1 + x.2.2

/-- The writes of one instruction or engine, in order, as storage number, bit, width and value: they reach the L2, the
sectors they cover, with the bits that the same instruction wrote `earlier`, lose their poison, and the watches of the sectors
they touch see them (R143, R229, R257, R262). -/
def State.putCells (s : State) (cells : List (Nat × Nat × Nat × Nat)) (earlier : List (Nat × Nat × Nat) := []) : State :=
  let spans := cells.map fun x => (x.1, x.2.1, x.2.2.1)
  let m := cells.foldl (fun m x => m.writeBits x.1 x.2.1 x.2.2.1 x.2.2.2) s.mem
  let lines := (spans.flatMap fun x => (sectorsOf x.1 ((x.2.1 + x.2.2 + 7) / 8)).map (· / 4)).eraseDups
  let s := lines.foldl (fun s q => s.drawBack (q * 128)) (s.setMem (spans.map fun x => (x.1, (x.2.1 + x.2.2 + 7) / 8)) m)
  let s := s.clearPoison (s.poison.filter (covers (earlier ++ spans)))
  let hit := s.watchedSectors.filter fun q => spans.any fun x => x.1 / 32 ≤ q && q ≤ (x.1 + (x.2.1 + x.2.2 - 1) / 8) / 32
  s.noteWrites hit

/-- The writes of one instruction, in order; the highest index prevails (R143, R147). What it has written before counts
towards the sectors it covers (R262). -/
def writeAccs (c : Ocls) (l : List (VAcc × Nat)) : M Unit := do
  let s ← get
  waitIf (l.any fun p => p.1.writeKeys.any fun k => s.writeStalls k p.1.bytes)
  writeBlocks c (remotePieces l)
  let cells := l.flatMap fun p => p.1.writeKeys.map fun k => (k, p.1.b, p.1.w, p.2)
  modify fun s => s.putCells cells ((s.hart.begun.map Begun.written).getD [])
  onHart fun h => { h with begun := h.begun.map fun b => { b with written := b.written ++ cells.map fun x => (x.1, x.2.1, x.2.2.1) } }

/-! ### Runs of bytes: tile rows, fibre arrays, images -/

/-- A run of `n` bytes cut where pages may part (every 4,096 bytes), as accesses of a group. -/
def cutRun (i group : Nat) (va : Word) (n : Nat) : Nat → List VReq
  | 0 => []
  | fuel + 1 =>
    let k := min n (4096 - va.toNat % 4096)
    if n = 0 then [] else ⟨i, va, 0, 8 * k, group, 0⟩ :: cutRun i group (va + BitVec.ofNat 64 k) (n - k) fuel

/-- The first poisoned sector's address among accesses that were read in pieces. -/
def firstPoison (s : State) (ans : List RemoteAnswer) (a : VAcc) : Option Word :=
  match a.loc with
  | .fabric dev off =>
    ((sectorsOf off a.bytes).find? (fun q => ans.any fun r => r.dev = dev && r.poisoned.contains (q * 32))).map
      (fun q => fabricAddr dev (q * 32))
  | _ =>
    match a.readKey with
    | some key => ((sectorsOf key a.bytes).find? s.poison.contains).map
        (fun q => (a.va - BitVec.ofNat 64 (a.va.toNat % 32)) + BitVec.ofNat 64 (32 * (q - key / 32)))
    | none => none

/-- Reading pieces whose poison is a trap with the sector's address (R162, R186, R197). -/
def readPieces (accs : List VAcc) : M (List (VAcc × Nat)) := do
  let s ← get
  let got ← readAccs 1 accs
  match got.find? (fun p => p.2.isNone) with
  | some p =>
    let ans := s.hart.answers
    raise .poison ((firstPoison s ans p.1).getD p.1.va) .load
  | none => return got.map fun p => (p.1, p.2.getD 0)

/-- The bytes of pieces joined, the first lowest. -/
def joinPieces : List (VAcc × Nat) → Nat
  | [] => 0
  | (a, v) :: t => v + joinPieces t * 256 ^ a.bytes

/-- Instruction fetch of one parcel (R267): from the instruction L1, which holds what the L2 held when it filled. Where
that differs from what the L2 holds now, the line may have left the cache or not. -/
def fetchParcel (va : Word) : M Parcel := do
  let h := (← get).hart
  let c := (← get).ctx
  let t ← resolveAs h.place.core c.swin c.vatp h.mode va .fetch
  let s ← get
  let key ← match t.loc with
    | .cell key _ => pure key
    | .repl q off => pure (replKey q s.scalarDie off)
    | _ => raise .access va .fetch
  waitIf (s.readStalls key 4)
  raiseIf (s.poisoned key) .poison va .fetch
  let now := s.l2.read key 4
  let line := key / 128
  let fill : ILine := ⟨line, BitVec.ofNat 1024 (s.l2.readRange (line * 128) 128)⟩
  match s.core.il1.find? (fun l => l.line = line) with
  | none =>
    modify fun s => s.setCore { s.core with il1 := fill :: s.core.il1 }
    return BitVec.ofNat 32 now
  | some l =>
    let old := l.data.toNat / 2 ^ (8 * (key % 128)) % 2 ^ 32
    if old = now then return BitVec.ofNat 32 now
    else if Config.freeBool (← takeFree) then
      modify fun s => s.setCore { s.core with il1 := fill :: s.core.il1.filter (fun l => l.line != line) }
      return BitVec.ofNat 32 now
    else return BitVec.ofNat 32 old

end Sys2Proof.Machine
end

