-- ==== Sys2Proof/Machine/LoadStore.lean ====
section
/-! DEFINITION. Scalar loads and stores (R83 to R85). -/
namespace Sys2Proof.Machine
open Sys2Proof

/-- Bytes of a scalar access (R57). -/
def Size.bytes : Size → Nat
  | .b => 1 | .h => 2 | .w => 4 | .d => 8

/-- The low `8 n` bits sign-extended or zero-extended (R83). -/
def signLoaded (n v : Nat) : Word := BitVec.ofInt 64 (toSigned (8 * n) v)

/-- The effective address of a scalar load or store (R83). -/
def State.scalarAddr (s : State) (a : SReg) (off : BitVec 12) : Word := s.getS a + sext off

def execLd (sz : Size) (d a : SReg) (off : BitVec 12) (s : State) : Out :=
  finish 4 false (do
    let n := Size.bytes sz
    let v ← scalarLoad (s.scalarAddr a off) n
    modify fun s => s.setS d (signLoaded n v)) s

def execLdz (sz : Size) (d a : SReg) (off : BitVec 12) (s : State) : Out :=
  finish 4 false (do
    let v ← scalarLoad (s.scalarAddr a off) (Size.bytes sz)
    modify fun s => s.setS d (BitVec.ofNat 64 v)) s

def execSt (sz : Size) (b a : SReg) (off : BitVec 12) (s : State) : Out :=
  finish 4 false (do
    let n := Size.bytes sz
    scalarStore (s.scalarAddr a off) n ((s.getS b).toNat % 256 ^ n)) s

end Sys2Proof.Machine
end

