-- ==== Sys2Proof/Machine/Amo.lean ====
section
/-! DEFINITION. Scalar atomics (R286 to R290). -/
namespace Sys2Proof.Machine
open Sys2Proof

/-- Bytes of an atomic's operand (R61). -/
def AmoSize.bytes : AmoSize → Nat
  | .w => 4 | .d => 8 | .q => 16

/-- The operation of an atomic on two values of `w` bits: the value written and its flags (R287). CAS is decided by its
user, and writes the second value. -/
def amoApply (c : VCfg) (op : AmoOp) (w old y : Nat) : Res :=
  match op with
  | .add => ⟨(old + y) % 2 ^ w, .zero⟩
  | .and => ⟨old &&& y, .zero⟩
  | .or => ⟨old ||| y, .zero⟩
  | .xor => ⟨old ^^^ y, .zero⟩
  | .min => ⟨if toSigned w old ≤ toSigned w y then old else y, .zero⟩
  | .max => ⟨if toSigned w old ≤ toSigned w y then y else old, .zero⟩
  | .minn => ⟨Nat.min old y, .zero⟩
  | .maxn => ⟨Nat.max old y, .zero⟩
  | .swap | .cas => ⟨y, .zero⟩
  | .fadd =>
    let t := if w = 32 then Tag.f32 else .f64
    let r : Rnd := ⟨c.rm.noStochastic, false, 0⟩
    (fmtOf t).rndExact r (fAdd r.rm (readFloat c t old) (readFloat c t y))

/-- An operand of `n` bytes in a register or, for 16 bytes, in a pair (R288). -/
def State.operand (s : State) (r : SReg) (n : Nat) : Nat :=
  if n = 16 then (s.getS r).toNat + (s.getS (r + 1)).toNat * 2 ^ 64 else (s.getS r).toNat % 256 ^ n

/-- The old value in its registers (R288). -/
def State.setOld (s : State) (op : AmoOp) (d : SReg) (n old : Nat) : State :=
  match n with
  | 16 => (s.setS d (BitVec.ofNat 64 old)).setS (d + 1) (BitVec.ofNat 64 (old / 2 ^ 64))
  | 8 => s.setS d (BitVec.ofNat 64 old)
  | _ => s.setS d (match op with
    | .minn | .maxn | .fadd => BitVec.ofNat 64 old
    | _ => signLoaded 4 old)

/-- What an atomic of `n` bytes does to the value it finds: the value it writes, none for a CAS that fails, and flags. -/
def amoEffect (c : VCfg) (op : AmoOp) (n old y cmp : Nat) : Option Res :=
  if op = .cas && old != cmp then none else some (amoApply c op (8 * n) old y)

/-- The checks of R289 on a resolved address. -/
def amoTarget (t : Target) : M Unit := do
  let bad := t.device || (match t.loc with | .shelf _ | .host _ | .mgmt _ => true | _ => false)
  raiseIf bad .access t.va .store

/-- An atomic on storage of this device, in its turn: a poisoned sector traps before anything is written; its own
write is no later write to its watch (R229).
DEDUCED, log entry 41: unsafe. -/
def amoCells (t : Target) (keys : List Nat) (n : Nat) (f : Nat → Option Res) : M Nat := do
  claim keys n
  let s ← get
  let home := keys.headD 0
  raiseIf (s.poisoned home) .poison t.va .store
  let old := s.mem.read home n
  match f old with
  | none => modify (·.drawBack home)
  | some r =>
    keys.forM fun k => modify (·.storeDirect k n r.bits)
    onHart (·.raiseFlags r.fl)
  setWatch t
  return old

/-- An atomic performed at another device, once; its flags are those of the value it found there (R384). -/
def amoRemote (dev off n : Nat) (op : AmoOp) (sz : AmoSize) (data : List Byte) (f : Nat → Option Res) : M Nat := do
  let c := (← get).hart.vcfg
  let a ← askRemote dev off n 0 0 (fun p => { p with
    op := op, size := sz, data := data, wt := true, len := n, rm := rmCode c.rm, fz := c.fzw, tag := if n = 4 then .f32 else .f64 })
    .atomic .store
  raiseIf (!a.poisoned.isEmpty) .poison (fabricAddr dev (off / 32 * 32)) .store
  let old := ofBytes a.data % 256 ^ n
  match f old with
  | none => pure ()
  | some r => onHart (·.raiseFlags r.fl)
  return old

/-- A scalar AMO (R287 to R290): after the earlier scalar accesses at its scope (R276), once its checks have passed it is not
withdrawn. -/
def amo (op : AmoOp) (sc : Scope) (sz : AmoSize) (d a b : SReg) (s : State) : Out :=
  finish 4 false (do
    waitIf (sc != .hart && s.hasPosted)
    let n := AmoSize.bytes sz
    let va := s.getS a
    let y := s.operand b n
    let cmp := s.operand d n
    let f := fun old => amoEffect s.hart.vcfg op n old y cmp
    aligned va n .store
    let t ← resolve va .atomic
    amoTarget t
    issueWatch t
    let old ← match (← get).served t.loc with
      | .cell key _ => amoCells t [key] n f
      | .repl q off => amoCells t (replKeys q off) n f
      | .fabric dev off => amoRemote dev off n op sz ((if op = .cas then bytesOf cmp n else []) ++ bytesOf y n) f
      | _ => raise .access va .store
    modify fun s => s.setOld op d n old) s

def execAmoAdd (sc : Scope) (sz : AmoSize) (d a b : SReg) (s : State) : Out := amo .add sc sz d a b s
def execAmoAnd (sc : Scope) (sz : AmoSize) (d a b : SReg) (s : State) : Out := amo .and sc sz d a b s
def execAmoOr (sc : Scope) (sz : AmoSize) (d a b : SReg) (s : State) : Out := amo .or sc sz d a b s
def execAmoXor (sc : Scope) (sz : AmoSize) (d a b : SReg) (s : State) : Out := amo .xor sc sz d a b s
def execAmoMin (sc : Scope) (sz : AmoSize) (d a b : SReg) (s : State) : Out := amo .min sc sz d a b s
def execAmoMax (sc : Scope) (sz : AmoSize) (d a b : SReg) (s : State) : Out := amo .max sc sz d a b s
def execAmoMinn (sc : Scope) (sz : AmoSize) (d a b : SReg) (s : State) : Out := amo .minn sc sz d a b s
def execAmoMaxn (sc : Scope) (sz : AmoSize) (d a b : SReg) (s : State) : Out := amo .maxn sc sz d a b s
def execAmoSwap (sc : Scope) (sz : AmoSize) (d a b : SReg) (s : State) : Out := amo .swap sc sz d a b s
def execAmoCas (sc : Scope) (sz : AmoSize) (d a b : SReg) (s : State) : Out := amo .cas sc sz d a b s
def execAmoFadd (sc : Scope) (sz : AmoSize) (d a b : SReg) (s : State) : Out := amo .fadd sc sz d a b s

end Sys2Proof.Machine
end

