-- ==== Sys2Proof/Machine/Scalar.lean ====
section
/-! DEFINITION. The integer instructions of the address processor (R79 to R82). -/
namespace Sys2Proof.Machine
open Sys2Proof

/-- A scalar result: one register written, then the next parcel. -/
def regOp (d : SReg) (v : Word) (s : State) : Out := .next (retire 4 (s.setS d v))

/-- 1 or 0. -/
def flag (b : Bool) : Word := if b then 1 else 0
/-- The shift amount of a register: its bits 5:0 (R79). -/
def amount (y : Word) : Nat := y.toNat % 64

/-- The signed and unsigned quotients and remainders of R80. -/
def divSigned (x y : Word) : Word := if y = 0 then -1 else BitVec.ofInt 64 (x.toInt.tdiv y.toInt)
def divUnsigned (x y : Word) : Word := if y = 0 then -1 else BitVec.ofNat 64 (x.toNat / y.toNat)
def remSigned (x y : Word) : Word := if y = 0 then x else BitVec.ofInt 64 (x.toInt.tmod y.toInt)
def remUnsigned (x y : Word) : Word := if y = 0 then x else BitVec.ofNat 64 (x.toNat % y.toNat)

def execAdd (d a b : SReg) (s : State) : Out := regOp d (s.getS a + s.getS b) s
def execSub (d a b : SReg) (s : State) : Out := regOp d (s.getS a - s.getS b) s
def execAnd (d a b : SReg) (s : State) : Out := regOp d (s.getS a &&& s.getS b) s
def execOr (d a b : SReg) (s : State) : Out := regOp d (s.getS a ||| s.getS b) s
def execXor (d a b : SReg) (s : State) : Out := regOp d (s.getS a ^^^ s.getS b) s
def execSll (d a b : SReg) (s : State) : Out := regOp d (s.getS a <<< amount (s.getS b)) s
def execSrl (d a b : SReg) (s : State) : Out := regOp d (s.getS a >>> amount (s.getS b)) s
def execSra (d a b : SReg) (s : State) : Out := regOp d ((s.getS a).sshiftRight (amount (s.getS b))) s
def execSlt (d a b : SReg) (s : State) : Out := regOp d (flag ((s.getS a).slt (s.getS b))) s
def execSltu (d a b : SReg) (s : State) : Out := regOp d (flag ((s.getS a).ult (s.getS b))) s
def execMin (d a b : SReg) (s : State) : Out := regOp d (if (s.getS a).slt (s.getS b) then s.getS a else s.getS b) s
def execMax (d a b : SReg) (s : State) : Out := regOp d (if (s.getS a).slt (s.getS b) then s.getS b else s.getS a) s
def execMul (d a b : SReg) (s : State) : Out := regOp d (s.getS a * s.getS b) s
def execMulh (d a b : SReg) (s : State) : Out :=
  regOp d (BitVec.ofInt 64 ((s.getS a).toInt * (s.getS b).toInt / 2 ^ 64)) s
def execMulhu (d a b : SReg) (s : State) : Out :=
  regOp d (BitVec.ofNat 64 ((s.getS a).toNat * (s.getS b).toNat / 2 ^ 64)) s
def execDiv (d a b : SReg) (s : State) : Out := regOp d (divSigned (s.getS a) (s.getS b)) s
def execDivu (d a b : SReg) (s : State) : Out := regOp d (divUnsigned (s.getS a) (s.getS b)) s
def execRem (d a b : SReg) (s : State) : Out := regOp d (remSigned (s.getS a) (s.getS b)) s
def execRemu (d a b : SReg) (s : State) : Out := regOp d (remUnsigned (s.getS a) (s.getS b)) s
def execClz (d a : SReg) (s : State) : Out := regOp d (BitVec.ofNat 64 (leadingZeros (s.getS a).toNat 64)) s
def execCtz (d a : SReg) (s : State) : Out := regOp d (BitVec.ofNat 64 (trailingZeros (s.getS a).toNat 0 64)) s
def execPopc (d a : SReg) (s : State) : Out := regOp d (BitVec.ofNat 64 (popCount (s.getS a).toNat 64)) s

def execAddi (d a : SReg) (imm : BitVec 15) (s : State) : Out := regOp d (s.getS a + sext imm) s
def execAndi (d a : SReg) (imm : BitVec 15) (s : State) : Out := regOp d (s.getS a &&& sext imm) s
def execOri (d a : SReg) (imm : BitVec 15) (s : State) : Out := regOp d (s.getS a ||| sext imm) s
def execXori (d a : SReg) (imm : BitVec 15) (s : State) : Out := regOp d (s.getS a ^^^ sext imm) s
def execSlti (d a : SReg) (imm : BitVec 15) (s : State) : Out := regOp d (flag ((s.getS a).slt (sext imm))) s
def execSlli (d a : SReg) (sh : Fin 64) (s : State) : Out := regOp d (s.getS a <<< sh.val) s
def execSrli (d a : SReg) (sh : Fin 64) (s : State) : Out := regOp d (s.getS a >>> sh.val) s
def execSrai (d a : SReg) (sh : Fin 64) (s : State) : Out := regOp d ((s.getS a).sshiftRight sh.val) s
/-- LIH zero-extends (R82). -/
def execLih (d : SReg) (imm : BitVec 20) (s : State) : Out := regOp d (BitVec.ofNat 64 (imm.toNat * 2 ^ 12)) s
/-- ADDPC sign-extends imm20 × 2^12 as a 32-bit number (R82). -/
def execAddpc (d : SReg) (imm : BitVec 20) (s : State) : Out := regOp d (s.hart.pc + sext imm * 4096) s

end Sys2Proof.Machine
end

