-- ==== Sys2Proof/Machine/Branch.lean ====
section
/-! DEFINITION. Branches and jumps (R86, R87). -/
namespace Sys2Proof.Machine
open Sys2Proof

/-- Where a branch or JAL of this offset goes when it is taken (R86, R87). -/
def branchTarget {n : Nat} (pc : Word) (off : BitVec n) : Word := pc + 4 * sext off

/-- A conditional branch (R86). -/
def branch (taken : Bool) (off : BitVec 12) (s : State) : Out :=
  .next (retireTo (if taken then branchTarget s.hart.pc off else s.hart.pc + 4) s)

def execBeq (a b : SReg) (off : BitVec 12) (s : State) : Out := branch (s.getS a == s.getS b) off s
def execBne (a b : SReg) (off : BitVec 12) (s : State) : Out := branch (s.getS a != s.getS b) off s
def execBlt (a b : SReg) (off : BitVec 12) (s : State) : Out := branch ((s.getS a).slt (s.getS b)) off s
def execBge (a b : SReg) (off : BitVec 12) (s : State) : Out := branch (!(s.getS a).slt (s.getS b)) off s
def execBltu (a b : SReg) (off : BitVec 12) (s : State) : Out := branch ((s.getS a).ult (s.getS b)) off s
def execBgeu (a b : SReg) (off : BitVec 12) (s : State) : Out := branch (!(s.getS a).ult (s.getS b)) off s

def execJal (d : SReg) (off : BitVec 20) (s : State) : Out :=
  .next (retireTo (branchTarget s.hart.pc off) (s.setS d (s.hart.pc + 4)))

/-- JALR: a target that is no multiple of 4 traps before anything is written (R87). -/
def execJalr (d a : SReg) (imm : BitVec 15) (s : State) : Out :=
  let t := s.getS a + sext imm
  if t.toNat % 4 ≠ 0 then trapNow .misaligned t .fetch s
  else .next (retireTo t (s.setS d (s.hart.pc + 4)))

end Sys2Proof.Machine
end

