-- ==== Sys2Proof/Machine/CsrOps.lean ====
section
/-! DEFINITION. The CSR instructions and the writes that travel through the dispatch queue (R92 to R94, R337, R341). -/
namespace Sys2Proof.Machine
open Sys2Proof

/-- Whether a hart of a mode may read a CSR (R93). -/
def csrReadable (m : Mode) : Csr → Bool
  | .vatp | .evec | .ecause | .epc | .eval | .estat => m == .supervisor
  | _ => true

/-- Whether a hart of a mode may write a CSR (R93). -/
def csrWritable (m : Mode) : Csr → Bool
  | .hartid | .coreid | .quadid | .ncores | .nquads | .ckcount => false
  | .vatp | .evec | .ecause | .epc | .eval | .estat | .swin _ | .pclass | .ctrloc | .ctrrem => m == .supervisor
  | _ => true

/-- The core's cycle count moves on by an amount the spec does not fix (R94); a read returns it.
DEDUCED, log entry 4: safe. -/
def readClock : M Nat := do
  let k := Config.freeNat (← takeFree)
  modify fun s => s.setCore { s.core with ckcount := s.core.ckcount + BitVec.ofNat 64 k }
  return (← get).core.ckcount.toNat

/-- The CSRs whose reads wait until every earlier vector instruction has completed (R28, R42, R93). -/
def csrAwaits : Csr → Bool
  | .vl | .vstart | .vprog | .flen _ | .fflags | .srseed | .sroff | .kthr | .ltmask | .ixlive => true
  | _ => false

/-- A CSR as it reads; reserved bits read as zero (R92). ctrloc and ctrrem are read after every vector instruction before the read
(R93 does not order them).
DESIGN CHOICE, log entry 46: unsafe. -/
def readCsr (c : Csr) : M Nat := do
  let s ← get
  let h := s.hart
  match c with
  | .vl => return h.vl.toNat
  | .vstart => return h.vstart.toNat
  | .vprog => return h.vprog
  | .vcfg => return h.vcfg.bits
  | .vgate => return gateBits h.vgate
  | .fflags => return h.fflags.bits
  | .srseed => return h.srseed.toNat
  | .sroff => return h.sroff.toNat
  | .kthr => return h.kthr.bits
  | .flen n => return (h.flen.get n).toNat
  | .vtag n => return tagCode (h.vtags.get n)
  | .vatp => return s.ctx.vatp.toNat
  | .hartid => return h.place.slot.val
  | .coreid => return s.coreId h.place.core.val
  | .quadid => return s.quadId (quadOfCore h.place.core).val
  | .ncores => return s.coreMap.length
  | .nquads => return s.quadMap.length
  | .ckcount => readClock
  | .swin n => return s.swinBits h.place.core n (s.ctx.swin.get n)
  | .evec => return (s.ctx.evec &&& ~~~3#64).toNat
  | .ecause => return h.ecause.toNat
  | .epc => return (h.epc &&& ~~~3#64).toNat
  | .eval => return h.eval.toNat
  | .estat => return h.estat.bits
  | .pclass => return h.pclass.val
  | .ltmask => return h.ltmask.toNat
  | .ctrloc => return s.core.ctrloc.toNat
  | .ctrrem => return s.core.ctrrem.toNat
  | .ixlive => return bitN h.ixlive

/-- The address spaces whose translations a write of vatp drops (R337). -/
def State.droppedAsids (s : State) (v : Word) : List (BitVec 15) := [asidOf s.ctx.vatp.toNat, asidOf v.toNat]

/-- The effect of a write of vatp (R337, R338): every translation of the old or new asid, and every global one, is dropped, and no
walk of theirs reads an entry that was replaced before. -/
def writeVatp (v : Word) (s : State) : State :=
  let asids := s.droppedAsids v
  { s.setCtx { s.ctx with vatp := v } with
    tlb := s.tlb.filter (fun t => !t.global && !asids.contains t.asid)
    walks := s.walks.filter (fun w => !asids.contains w.asid)
    oldEntries := (s.oldEntries.filter fun o => !pteG o.value.toNat).map fun o => { o with gone := asids ++ o.gone } }

/-- An access of the package that was translated before is still under way: of an instruction that has begun at another hart, of a store
or a request to another device, or of a message (R337). The device waits for all of them, those of other address spaces among them.
DEDUCED, log entry 8: safe. -/
def State.inFlight (s : State) : Bool :=
  s.others.any (fun h => (h.underway || h.begun.isSome) && !h.held.isEmpty)
    || s.fabric.outstanding.any (·.cmd.isNone) || !s.msgs.isEmpty

/-- Whether the mode code of a vatp value is not reserved (R327). -/
def vatpLegal (v : Nat) : Bool := fld v 60 4 = 0 || fld v 60 4 = 10

/-- The effect of a write of evec or of a swin register (R250, R341, R342). -/
def writeCtxReg (r : CtxReg) (v : Word) (s : State) : State :=
  match r with
  | .evec => s.setCtx { s.ctx with evec := v &&& ~~~3#64 }
  | .swin n => s.setCtx { s.ctx with swin := s.ctx.swin.set n (swinStored n v) }

/-- The effect of a write of a CSR: a reserved code is an illegal instruction, and E8M0 outside v1 an operand trap, with
nothing changed (R12, R21, R92, R199, R327). -/
def writeCsr (i : Instr) (c : Csr) (v : Nat) : M Unit := do
  let s ← get
  let h := s.hart
  match c with
  | .vl => onHart fun h => { h with vl := BitVec.ofNat 16 v }
  | .vstart => onHart fun h => { h with vstart := BitVec.ofNat 16 v }
  | .vprog => onHart fun h => { h with cura := BitVec.ofNat 32 v, curb := BitVec.ofNat 32 (v / 2 ^ 32) }
  | .vcfg => match h.vcfg.write v with
    | some c => onHart fun h => { h with vcfg := c }
    | none => illegal i
  | .vgate => do
    illegalIf (!gateLegal v) i
    onHart (·.writeGate v)
  | .fflags => onHart fun h => { h with fflags := .ofBits v }
  | .srseed => onHart fun h => { h with srseed := BitVec.ofNat 64 v }
  | .sroff => onHart fun h => { h with sroff := BitVec.ofNat 64 v }
  | .kthr => match Kthr.ofWord v with
    | some k => onHart fun h => { h with kthr := k }
    | none => illegal i
  | .flen n => onHart fun h => { h with flen := h.flen.set n (BitVec.ofNat 16 v) }
  | .vtag n => match tagOf (v % 32) with
    | some t => do
      operandIf (!e8m0Ok n t)
      onHart (·.setTag n t)
    | none => illegal i
  | .vatp => do
    illegalIf (!vatpLegal v) i
    waitIf s.inFlight
    modify (writeVatp (BitVec.ofNat 64 v))
  | .swin n => modify (writeCtxReg (.swin n) (BitVec.ofNat 64 v))
  | .evec => modify (writeCtxReg .evec (BitVec.ofNat 64 v))
  | .ecause => onHart fun h => { h with ecause := BitVec.ofNat 8 v }
  | .epc => onHart fun h => { h with epc := BitVec.ofNat 64 v &&& ~~~3#64 }
  | .eval => onHart fun h => { h with eval := BitVec.ofNat 64 v }
  | .estat => onHart fun h => { h with estat := h.estat.write v }
  | .pclass => onHart fun h => { h with pclass := Fin.ofNat 4 v }
  | .ltmask => onHart fun h => { h with ltmask := BitVec.ofNat 8 v }
  | .ctrloc => modify fun s => s.setCore { s.core with ctrloc := BitVec.ofNat 64 v }
  | .ctrrem => modify fun s => s.setCore { s.core with ctrrem := BitVec.ofNat 64 v }
  | .ixlive => onHart fun h => { h with ixlive := bitOf v 0 }
  | .hartid | .coreid | .quadid | .ncores | .nquads | .ckcount => illegal i

/-- A read-modify-write of a CSR (R92, R93). -/
def changeCsr (i : Instr) (c : Csr) (f : Nat → Nat) (s : State) : Out :=
  finish 4 false (do
    illegalIf (!csrWritable s.hart.mode c) i
    let old ← readCsr c
    writeCsr i c (f old)) s

def execCsrr (d : SReg) (c : Csr) (s : State) : Out :=
  finish 4 false (do
    illegalIf (!csrReadable s.hart.mode c) (.csrr d c)
    let v ← readCsr c
    modify fun s => s.setS d (BitVec.ofNat 64 v)) s

def execCsrw (c : Csr) (a : SReg) (s : State) : Out := changeCsr (.csrw c a) c (fun _ => (s.getS a).toNat) s
def execCsrs (c : Csr) (a : SReg) (s : State) : Out := changeCsr (.csrs c a) c (fun v => v ||| (s.getS a).toNat) s
def execCsrc (c : Csr) (a : SReg) (s : State) : Out :=
  changeCsr (.csrc c a) c (fun v => v &&& (~~~(s.getS a)).toNat) s

/-! The three writes as steps of their own, for a write that travelled through the queue: they act as the CSRW that placed
them, on the hart that stands at the current slot. -/

/-- A step that is taken under a condition. -/
def onlyIf (b : Bool) (t : State) : Option State := if b then some t else none

def execVatpWrite (v : Word) (s : State) : Out :=
  orStay (onlyIf (s.hart.status == .resident && s.hart.mode == .supervisor && vatpLegal v.toNat && !s.inFlight)
    (writeVatp v s)) s
def execVgateWrite (v : Word) (s : State) : Out :=
  orStay (onlyIf (s.hart.status == .resident && gateLegal v.toNat) { s with hart := s.hart.writeGate v.toNat }) s
def execContextRegisterWrite (r : CtxReg) (v : Word) (s : State) : Out :=
  orStay (onlyIf (s.hart.status == .resident && s.hart.mode == .supervisor) (writeCtxReg r v s)) s

end Sys2Proof.Machine
end

