-- ==== Sys2Proof/Machine/VArith.lean ====
section
/-! DEFINITION. Vector arithmetic, shifts, bitwise operations, moves and estimates (R98 to R112). -/
namespace Sys2Proof.Machine
open Sys2Proof

/-- A result without flags. -/
def plain (v : Nat) : Res := ⟨v, .zero⟩

/-- An element-wise instruction of two sources (R99): `rt` gives the result tag of the source tags, none for an illegal
combination, and `f` the result of element `i` from the bits of the two sources. -/
def binary (o : VOps) (unsigned : Bool) (rt : Hart → Tag → Tag → Option Tag)
    (f : Hart → Tag → Tag → Tag → Nat → Nat → Nat → Res) (s : State) : Out :=
  finish 8 false (do
    touch (VOps.regs o)
    let h := (← get).hart
    let ta := h.tag o.va
    let b := h.src2 ta unsigned o.src
    match rt h ta b.tag with
    | none => raise .operand
    | some t => do
      checkAlu o.vd [ta, b.tag] t o.m
      onHart fun h => h.elementwise o.vd t o.m fun i => f h t ta b.tag i (h.srcElem o.va ta o.na i) (b.get h i)) s

/-- An element-wise instruction of one source (R99). -/
def unary (o : VUn) (rt : Tag → Option Tag) (f : Hart → Tag → Tag → Nat → Nat → Res) (s : State) : Out :=
  finish 8 false (do
    touch (VUn.regs o)
    let h := (← get).hart
    let ta := h.tag o.va
    match rt ta with
    | none => raise .operand
    | some t => do
      checkAlu o.vd [ta] t o.m
      onHart fun h => h.elementwise o.vd t o.m fun i => f h t ta i (h.srcElem o.va ta o.na i)) s

/-- The tag pairs of R105. -/
def pairOf (_ : Hart) (a b : Tag) : Option Tag := pairTag a b
/-- Integer pairs only. -/
def intPairOf (_ : Hart) (a b : Tag) : Option Tag := (pairTag a b).filter isInt

/-- Integer or float arithmetic by the result tag (R106, R108): the integers are the extended operands, reduced at the end. -/
def arith (fi : Tag → Int → Int → Int) (ff : RMode → FVal → FVal → Exact) (sat : Bool)
    (h : Hart) (t ta tb : Tag) (i a b : Nat) : Res :=
  if isInt t then
    let x := fi t (readInt ta a) (readInt tb b)
    plain (ofInt (width t) (if sat then clampInt t x else x))
  else
    let r := h.rndAt sat i
    (fmtOf t).rndExact r (ff r.rm (readFloat h.vcfg ta a) (readFloat h.vcfg tb b))

/-- Truncated quotient and remainder with the two cases of R107; reduction modulo 2^w gives the overflow case. -/
def divInt (_ : Tag) (a b : Int) : Int := if b = 0 then -1 else a.tdiv b
def remInt (_ : Tag) (a b : Int) : Int := if b = 0 then a else a.tmod b
/-- The high half of the exact product (R106). -/
def mulHigh (t : Tag) (a b : Int) : Int := a * b / (2 ^ width t : Nat)

def execVadd (sat : Bool) (o : VOps) (s : State) : Out :=
  binary o false pairOf (arith (fun _ a b => a + b) fAdd sat) s
def execVsub (sat : Bool) (o : VOps) (s : State) : Out :=
  binary o false pairOf (arith (fun _ a b => a - b) (fun rm a b => fAdd rm a b.negate) sat) s
def execVrsub (sat : Bool) (o : VOps) (s : State) : Out :=
  binary o false pairOf (arith (fun _ a b => b - a) (fun rm a b => fAdd rm b a.negate) sat) s
def execVmul (o : VOps) (s : State) : Out := binary o false pairOf (arith (fun _ a b => a * b) (fun _ => fMul) false) s
def execVmulh (o : VOps) (s : State) : Out := binary o false intPairOf (arith mulHigh (fun _ => fMul) false) s
def execVdiv (o : VOps) (s : State) : Out := binary o false pairOf (arith divInt (fun _ => fDiv) false) s
def execVrem (o : VOps) (s : State) : Out := binary o false intPairOf (arith remInt (fun _ => fDiv) false) s
def execVmin (o : VOps) (s : State) : Out :=
  binary o false pairOf (arith (fun _ a b => min a b) (fun _ a b => (fMin a b, .zero)) false) s
def execVmax (o : VOps) (s : State) : Out :=
  binary o false pairOf (arith (fun _ a b => max a b) (fun _ a b => (fMax a b, .zero)) false) s

/-- The result tag of a fused operation: va with vb, and the result with vd (R105). -/
def fusedOf (vd : VIdx) (h : Hart) (a b : Tag) : Option Tag := (pairTag a b).bind (fun t => pairTag t (h.tag vd))

/-- VFMA, VFMS and VFNMA (R46, R106): ± a × b ± c with vd the addend. -/
def fused (negP negC : Bool) (o : VOps) (s : State) : Out :=
  finish 8 false (do
    touch (VOps.regs o)
    let h := (← get).hart
    let ta := h.tag o.va
    let tc := h.tag o.vd
    let b := h.src2 ta false o.src
    match fusedOf o.vd h ta b.tag with
    | none => raise .operand
    | some t => do
      checkAlu o.vd [ta, b.tag, tc] t o.m
      onHart fun h => h.elementwise o.vd t o.m fun i =>
        let x := h.srcElem o.va ta o.na i
        let y := b.get h i
        let c := h.elem o.vd tc i
        if isInt t then
          let p := readInt ta x * readInt b.tag y
          let c := readInt tc c
          plain (ofInt (width t) ((if negP then -p else p) + (if negC then -c else c)))
        else
          let a := readFloat h.vcfg ta x
          let c := readFloat h.vcfg tc c
          let r := h.rndAt false i
          (fmtOf t).rndExact r
            (fFma r.rm (if negP then a.negate else a) (readFloat h.vcfg b.tag y) (if negC then c.negate else c))) s

def execVfma (o : VOps) (s : State) : Out := fused false false o s
def execVfms (o : VOps) (s : State) : Out := fused false true o s
def execVfnma (o : VOps) (s : State) : Out := fused true false o s

/-! ### One source -/

/-- Integer and float tags keep themselves; E8M0 is no source here (R105). -/
def keepTag (t : Tag) : Option Tag := if t = .e8m0 then none else some t

/-- A float element with its sign bit cleared or inverted (R43, R108). -/
def signOf (c : VCfg) (t : Tag) (invert : Bool) (bits : Nat) : Nat :=
  let f := fmtOf t
  let v := readFloat c t bits
  if v.isNan then f.nan
  else (if v.isZero then 0 else bits % 2 ^ (f.e + f.m)) + f.signBit (invert && !v.neg)

def execVabs (o : VUn) (s : State) : Out :=
  unary o keepTag (fun h _ ta _ a =>
    if isInt ta then plain (ofInt (width ta) (readInt ta a).natAbs) else plain (signOf h.vcfg ta false a)) s
/-- VNEG: a float operand is flushed as every arithmetic source is (R43, R111).
DEDUCED, log entry 36: unsafe. -/
def execVneg (o : VUn) (s : State) : Out :=
  unary o keepTag (fun h _ ta _ a =>
    if isInt ta then plain (ofInt (width ta) (-readInt ta a)) else plain (signOf h.vcfg ta true a)) s

/-- A float source computes in the format of its pair with itself (R105). -/
def selfTag (t : Tag) : Option Tag := if isFloat t then some (floatPair t t) else none
def execVsqrt (o : VUn) (s : State) : Out :=
  unary o selfTag (fun h t ta i a => (fmtOf t).rndExact (h.rndAt false i) (fSqrt (readFloat h.vcfg ta a))) s

/-- The tags of the estimates (R51). -/
def estimateTag (wide : Bool) (t : Tag) : Option Tag :=
  if t = .f32 ∨ t = .f16 ∨ t = .bf16 ∨ (wide ∧ t = .f64) then some t else none
def execVrsqrte (o : VUn) (s : State) : Out :=
  unary o (estimateTag true) (fun h t ta _ a => rsqrte (fmtOf t) (readFloat h.vcfg ta a)) s
def execVrcpe (o : VUn) (s : State) : Out :=
  unary o (estimateTag true) (fun h t ta _ a => rcpe (fmtOf t) (readFloat h.vcfg ta a)) s
def execVexp2 (o : VUn) (s : State) : Out :=
  unary o (estimateTag false) (fun h t ta _ a => exp2e (fmtOf t) (readFloat h.vcfg ta a)) s

/-! ### Shifts and bitwise operations (R109, R110) -/

/-- Integer tags, of either signedness and any width for the amount. -/
def shiftTag (_ : Hart) (a b : Tag) : Option Tag := if isInt a && isInt b then some a else none
/-- The shift amount: the low log2(w) bits of the second source's value.
DEDUCED, log entry 20: unsafe. -/
def shiftAmount (ta tb : Tag) (b : Nat) : Nat := ofInt (width ta) (readInt tb b) % width ta

def execVsll (o : VOps) (s : State) : Out :=
  binary o true shiftTag (fun _ _ ta tb _ a b => plain (a * 2 ^ shiftAmount ta tb b % 2 ^ width ta)) s
def execVsrl (o : VOps) (s : State) : Out :=
  binary o true shiftTag (fun _ _ ta tb _ a b => plain (a / 2 ^ shiftAmount ta tb b)) s
def execVsra (o : VOps) (s : State) : Out :=
  binary o true shiftTag
    (fun _ _ ta tb _ a b => plain (ofInt (width ta) (toSigned (width ta) a / (2 ^ shiftAmount ta tb b : Nat)))) s

/-- Tags of one width (R110). -/
def sameWidth (_ : Hart) (a b : Tag) : Option Tag := if width a = width b then some a else none
def execVand (o : VOps) (s : State) : Out := binary o false sameWidth (fun _ _ _ _ _ a b => plain (a &&& b)) s
def execVor (o : VOps) (s : State) : Out := binary o false sameWidth (fun _ _ _ _ _ a b => plain (a ||| b)) s
def execVxor (o : VOps) (s : State) : Out := binary o false sameWidth (fun _ _ _ _ _ a b => plain (a ^^^ b)) s

/-! ### Moves, index and merge (R111 to R113) -/

def execVmv (o : VOps) (s : State) : Out :=
  match o.src with
  | .vv _ _ => unary ⟨o.vd, o.va, o.na, o.m⟩ some (fun _ _ _ _ a => plain a) s
  | src =>
    finish 8 false (do
      touch (o.vd :: maskReg o.m)
      let h := (← get).hart
      let t := h.tag o.vd
      let b := h.src2 t false src
      checkAlu o.vd [] t o.m
      onHart fun h => h.elementwise o.vd t o.m fun i => plain (b.get h i)) s

def execVid (vd : VIdx) (m : Bool) (s : State) : Out :=
  finish 8 false (do
    touch (vd :: maskReg m)
    let t := (← get).hart.tag vd
    operandIf (!isInt t)
    checkAlu vd [] t m
    onHart fun h => h.elementwise vd t m fun i => plain (i % 2 ^ width t)) s

/-- VMERGE writes every element of [vstart, vl), whatever its mask bit (R113). -/
def execVmerge (o : VOps) (s : State) : Out :=
  finish 8 false (do
    touch (VOps.regs o ++ [0])
    let h := (← get).hart
    let ta := h.tag o.va
    let b := h.src2 ta false o.src
    operandIf (b.tag != ta)
    checkAlu o.vd [ta, b.tag] ta true
    onHart fun h => h.elementwise o.vd ta false fun i =>
      plain (if h.bit 0 i then b.get h i else h.srcElem o.va ta o.na i)) s

end Sys2Proof.Machine
end

