-- ==== Sys2Proof/Machine/VMask.lean ====
section
/-! DEFINITION. Compares and mask instructions (R114, R115). -/
namespace Sys2Proof.Machine
open Sys2Proof

/-- Bits of active elements written to a register read as a bit string, which becomes N8; every source was read before. -/
def Hart.writeMask (h : Hart) (vd : VIdx) (l : List (Nat × Bool)) : Hart := ((h.setBitList vd l).setTag vd .n8).vdone

/-- The conditions of VCMP. -/
inductive Cond where
  | eq | ne | lt | le | gt | ge | uo
deriving DecidableEq, Repr

/-- A condition on two integers (R114). -/
def Cond.ofInts (c : Cond) (a b : Int) : Bool :=
  match c with
  | .eq => a == b
  | .ne => a != b
  | .lt => a < b
  | .le => a ≤ b
  | .gt => b < a
  | .ge => b ≤ a
  | .uo => false

/-- A condition on two floats: its result, and whether it raises NV (R114). -/
def Cond.ofFloats (c : Cond) (a b : FVal) : Bool × Bool :=
  let nan := a.isNan || b.isNan
  match c with
  | .eq => (a.eqNum b, false)
  | .ne => (!a.eqNum b, false)
  | .lt => (a.ltNum b, nan)
  | .le => (a.ltNum b || a.eqNum b, nan)
  | .gt => (b.ltNum a, nan)
  | .ge => (b.ltNum a || a.eqNum b, nan)
  | .uo => (nan, false)

/-- VCMP (R114). -/
def compare (c : Cond) (o : VOps) (s : State) : Out :=
  finish 8 false (do
    touch (VOps.regs o)
    let h := (← get).hart
    let ta := h.tag o.va
    let b := h.src2 ta false o.src
    match pairTag ta b.tag with
    | none => raise .operand
    | some t => do
      operandIf (!(h.vlFits [ta, b.tag] && h.maskFits))
      let rs := (h.active o.m).map fun i =>
        let x := h.srcElem o.va ta o.na i
        let y := b.get h i
        if isInt t then (i, c.ofInts (readInt ta x) (readInt b.tag y), false)
        else (i, c.ofFloats (readFloat h.vcfg ta x) (readFloat h.vcfg b.tag y))
      onHart fun h => (h.writeMask o.vd (rs.map fun r => (r.1, r.2.1))).raiseFlags (.nvIf (rs.any fun r => r.2.2))) s

def execVcmpEq (o : VOps) (s : State) : Out := compare .eq o s
def execVcmpNe (o : VOps) (s : State) : Out := compare .ne o s
def execVcmpLt (o : VOps) (s : State) : Out := compare .lt o s
def execVcmpLe (o : VOps) (s : State) : Out := compare .le o s
def execVcmpGt (o : VOps) (s : State) : Out := compare .gt o s
def execVcmpGe (o : VOps) (s : State) : Out := compare .ge o s
def execVcmpUo (o : VOps) (s : State) : Out := compare .uo o s

/-- The bit of the second source of a mask instruction. -/
def Hart.maskBit (h : Hart) (src : VSrc) (i : Nat) : Bool :=
  match src with
  | .vv vb nb => h.srcBit vb nb i
  | _ => false

/-- MAND, MOR and MXOR (R115). -/
def maskOp (f : Bool → Bool → Bool) (o : VOps) (s : State) : Out :=
  finish 8 false (do
    touch (VOps.regs o)
    let h := (← get).hart
    operandIf (!h.maskFits)
    onHart fun h => h.writeMask o.vd ((h.active o.m).map fun i => (i, f (h.srcBit o.va o.na i) (h.maskBit o.src i)))) s

def execMand (o : VOps) (s : State) : Out := maskOp (· && ·) o s
def execMor (o : VOps) (s : State) : Out := maskOp (· || ·) o s
def execMxor (o : VOps) (s : State) : Out := maskOp (· != ·) o s
def execMnot (o : VUn) (s : State) : Out :=
  finish 8 false (do
    touch (VUn.regs o)
    let h := (← get).hart
    operandIf (!h.maskFits)
    onHart fun h => h.writeMask o.vd ((h.active o.m).map fun i => (i, !h.srcBit o.va o.na i))) s

end Sys2Proof.Machine
end

