-- ==== Sys2Proof/Machine/VPermute.lean ====
section
/-! DEFINITION. Slides, gather, compress and interleave; moves to and from the scalar side (R119 to R123, R126, R127). -/
namespace Sys2Proof.Machine
open Sys2Proof

/-- Positions of vd written, each with its bits; vd takes the tag (R119). -/
def Hart.putElems (h : Hart) (vd : VIdx) (t : Tag) (l : List (Nat × Nat)) : Hart := ((h.setElems vd t l).setTag vd t).vdone

/-- Whether a tag is a legal source of a permute's data: vl fits it, the mask fits, and vd may carry it; E8M0 is, in the forms for which the
spec names no trap on it.
DESIGN CHOICE, log entry 62: unsafe. -/
def Hart.permuteOk (h : Hart) (vd : VIdx) (m : Bool) (ts : List Tag) (rt : Tag) : Bool :=
  h.vlFits ts && h.vlFits [rt] && (!m || h.maskFits) && e8m0Ok vd rt

/-- The element a slide or an edge gives for position `j` (R120). -/
def Hart.slid (h : Hart) (r : VIdx) (t : Tag) (j : Int) : Nat :=
  let vl : Int := h.vln
  if 0 ≤ j ∧ j < vl then h.elem r t j.toNat
  else match h.vcfg.edge with
    | .zero => 0
    | .wrap => h.elem r t (j % vl).toNat
    | .clamp => if j < 0 then h.elem r t 0 else h.elem r t (h.vln - 1)

/-- VSLIDEUP and VSLIDEDN (R120). -/
def slide (up : Bool) (o : VOps) (s : State) : Out :=
  finish 8 false (do
    touch (VOps.regs o)
    let h := (← get).hart
    let t := h.tag o.va
    operandIf (!h.permuteOk o.vd o.m [t] t)
    let k : Int := h.srcNat o.src
    onHart fun h => h.putElems o.vd t ((h.active o.m).map fun (i : Nat) => (i, h.slid o.va t (if up then i - k else i + k)))) s

def execVslideup (o : VOps) (s : State) : Out := slide true o s
def execVslidedn (o : VOps) (s : State) : Out := slide false o s

/-- The index of VRGATHER for position `i` (R121). -/
def Hart.gatherIndex (h : Hart) (src : VSrc) (i : Nat) : Int :=
  match src with
  | .vv vb _ => readInt (h.tag vb) (h.elem vb (h.tag vb) i)
  | src => h.srcNat src

def execVrgather (o : VOps) (s : State) : Out :=
  finish 8 false (do
    touch (VOps.regs o)
    let h := (← get).hart
    let t := h.tag o.va
    let tb := match o.src with | .vv vb _ => h.tag vb | _ => .n64
    operandIf (!isInt tb)
    operandIf (!h.permuteOk o.vd o.m (match o.src with | .vv _ _ => [t, tb] | _ => [t]) t)
    onHart fun h => h.putElems o.vd t ((h.active o.m).map fun i =>
      let j := h.gatherIndex o.src i
      (i, if 0 ≤ j ∧ j < h.vln then h.elem o.va t j.toNat else 0))) s

/-- A whole-vector instruction needs vstart = 0 (R119). -/
def wholeVector : M Unit := do operandIf ((← get).hart.vst != 0)

def execVcompress (o : VUn) (s : State) : Out :=
  finish 8 false (do
    touch (VUn.regs o ++ [0])
    wholeVector
    let h := (← get).hart
    let t := h.tag o.va
    operandIf (!h.permuteOk o.vd true [t] t)
    onHart fun h => h.putElems o.vd t ((h.selected true).zipIdx.map fun p => (p.2, h.elem o.va t p.1))) s

/-- VZIP, VUNZIP and VTRN (R123): `f` gives, for a position, the source (true for vb) and its element. -/
def interleave (f : Nat → Nat → Bool × Nat) (o : VOps) (s : State) : Out :=
  finish 8 false (do
    touch (VOps.regs o)
    let h := (← get).hart
    let t := h.tag o.va
    let vb := match o.src with | .vv vb _ => vb | _ => o.va
    operandIf (h.tag vb != t || h.vln % 2 != 0)
    operandIf (!h.permuteOk o.vd o.m [t] t)
    onHart fun h => h.putElems o.vd t ((h.active o.m).map fun i =>
      let p := f (h.vln / 2) i
      (i, h.elem (if p.1 then vb else o.va) t p.2))) s

def execVzip (hi : Bool) (o : VOps) (s : State) : Out :=
  interleave (fun half i => (i % 2 = 1, bitN hi * half + i / 2)) o s
def execVunzip (hi : Bool) (o : VOps) (s : State) : Out :=
  interleave (fun half i => if i < half then (false, 2 * i + bitN hi) else (true, 2 * (i - half) + bitN hi)) o s
def execVtrn (hi : Bool) (o : VOps) (s : State) : Out :=
  interleave (fun _ i => (i % 2 = 1, i / 2 * 2 + bitN hi)) o s

/-- An element widened to 64 bits: sign-extended for I tags, else zero-extended (R126). -/
def widen (t : Tag) (bits : Nat) : Nat := if isI t then ofInt 64 (toSigned (width t) bits) else bits % 2 ^ width t

def execVmvxs (va : VIdx) (src : VSrc) (m : Bool) (s : State) : Out :=
  finish 8 false (do
    needReturn (.vmvxs va src m)
    touch (va :: maskReg m)
    let h := (← get).hart
    let t := h.tag va
    let i := h.srcNat src
    onHart Hart.vdone
    pushReturn (if i < h.vlmax t ∧ h.masked m i then widen t (h.elem va t i) else 0)) s

def execVmvsx (vd : VIdx) (sr : SReg) (m : Bool) (s : State) : Out :=
  finish 8 false (do
    touch (vd :: maskReg m)
    let h := (← get).hart
    let t := h.tag vd
    onHart fun h => (if h.masked m 0 then h.setElems vd t [(0, (h.getS sr).toNat)] else h).vdone) s

/-- The positions MPOP and MFIRST count (R127). -/
def Hart.setBitsOf (h : Hart) (va : VIdx) (m : Bool) : List Nat := (h.active m).filter (h.bit va)

def execMpop (va : VIdx) (m : Bool) (s : State) : Out :=
  finish 8 false (do
    needReturn (.mpop va m)
    touch (va :: maskReg m)
    let h := (← get).hart
    operandIf (!h.maskFits)
    onHart Hart.vdone
    pushReturn (h.setBitsOf va m).length) s

def execMfirst (va : VIdx) (m : Bool) (s : State) : Out :=
  finish 8 false (do
    needReturn (.mfirst va m)
    touch (va :: maskReg m)
    let h := (← get).hart
    operandIf (!h.maskFits)
    onHart Hart.vdone
    pushReturn ((h.setBitsOf va m).headD (2 ^ 64 - 1))) s

end Sys2Proof.Machine
end

