-- ==== Sys2Proof/Machine/VReduce.lean ====
section
/-! DEFINITION. Reductions and scans (R47 to R49, R124, R125). -/
namespace Sys2Proof.Machine
open Sys2Proof

/-- A partial sum in the result's format, with the flags raised so far. -/
abbrev Part := Option Res

/-- rnd(left + right) of two elements of a format (R47). -/
def sumRes (f : Fmt) (r : Rnd) (a b : Res) : Res :=
  let y := f.rndExact r (fAdd r.rm (f.value a.bits) (f.value b.bits))
  ⟨y.bits, (a.fl.or b.fl).or y.fl⟩

/-- The pairwise tree of R47 over 2^d leaves from `lo`. -/
def treeSum (add : Res → Res → Res) (leaf : Nat → Part) (lo : Nat) : Nat → Part
  | 0 => leaf lo
  | d + 1 =>
    match treeSum add leaf lo d, treeSum add leaf (lo + 2 ^ d) d with
    | none, x => x
    | x, none => x
    | some a, some b => some (add a b)

/-- A float element converted exactly into a format that holds it, after the flush of R43. -/
def exactInto (c : VCfg) (t rt : Tag) (bits : Nat) : Res := plain ((fmtOf rt).rnd .even (readFloat c t bits)).bits

/-- A reduction of the active elements into element 0 of vd (R124): `f` gives the result and its flags from the hart, the
source tag and the list of leaves. -/
def reduce (o : VUn) (rt : Tag → Option Tag) (f : Hart → Tag → Tag → List Nat → Res) (s : State) : Out :=
  finish 8 false (do
    touch (VUn.regs o)
    let h := (← get).hart
    let t := h.tag o.va
    match rt t with
    | none => raise .operand
    | some t' => do
      operandIf (!(h.vlFits [t] && (!o.m || h.maskFits)))
      let r := f h t t' (h.active o.m)
      onHart fun h =>
        if h.vln = 0 then (h.setTag o.vd t').vdone
        else (h.putElems o.vd t' [(0, r.bits)]).raiseFlags r.fl) s

/-- The result tag of a sum (R124). -/
def sumTag (t : Tag) : Option Tag := if isInt t then some t else selfTag t

/-- The sum of R47 and R124. -/
def sumOf (h : Hart) (va : VIdx) (t rt : Tag) (leaves : List Nat) : Res :=
  if isInt t then plain (ofInt (width t) ((leaves.map fun i => readInt t (h.elem va t i)).foldl (· + ·) 0))
  else
    let leaf (i : Nat) : Part := if leaves.contains i then some (exactInto h.vcfg t rt (h.elem va t i)) else none
    (treeSum (sumRes (fmtOf rt) h.rndPlain) leaf 0 (clog2 h.vln)).getD (plain 0)

/-- The largest or smallest of the leaves (R48, R49, R124). -/
def extremeOf (h : Hart) (va : VIdx) (most : Bool) (t : Tag) (leaves : List Nat) : Res :=
  let xs := leaves.map (h.elem va t)
  if isInt t then
    let first := if most then intMin t else intMax t
    plain (ofInt (width t) ((xs.map (readInt t)).foldl (fun a b => if most then max a b else min a b) first))
  else
    let x := (xs.map (readFloat h.vcfg t)).foldl (fun a b => if most then fMax a b else fMin a b) .nan
    if x.isNan then plain (fmtOf t).nan else plain ((fmtOf t).rnd .even x).bits

def execVredsum (o : VUn) (s : State) : Out := reduce o sumTag (fun h t rt l => sumOf h o.va t rt l) s
def execVredmax (o : VUn) (s : State) : Out := reduce o keepTag (fun h t _ l => extremeOf h o.va true t l) s
def execVredmin (o : VUn) (s : State) : Out := reduce o keepTag (fun h t _ l => extremeOf h o.va false t l) s
def execVredand (o : VUn) (s : State) : Out :=
  reduce o keepTag (fun h t _ l => plain ((l.map (h.elem o.va t)).foldl (· &&& ·) (2 ^ width t - 1))) s
def execVredor (o : VUn) (s : State) : Out :=
  reduce o keepTag (fun h t _ l => plain ((l.map (h.elem o.va t)).foldl (· ||| ·) 0)) s
def execVredxor (o : VUn) (s : State) : Out :=
  reduce o keepTag (fun h t _ l => plain ((l.map (h.elem o.va t)).foldl (· ^^^ ·) 0)) s

/-- The prefixes of R125, from position `i`, with the accumulator; `take` says which elements join. -/
def prefixes (join : Res → Nat → Res) (first : Nat → Res) (none_ : Nat) (take : Nat → Bool) (acc : Part) (i : Nat) :
    Nat → List (Nat × Nat) × FFlags
  | 0 => ([], match acc with | some a => a.fl | none => .zero)
  | n + 1 =>
    let acc := if take i then (match acc with | some a => some (join a i) | none => some (first i)) else acc
    let rest := prefixes join first none_ take acc (i + 1) n
    ((i, match acc with | some a => a.bits | none => none_) :: rest.1, rest.2)

/-- A scan (R125). -/
def scan (o : VUn) (rt : Tag → Option Tag) (join : Hart → Tag → Tag → Res → Nat → Res) (none_ : Tag → Nat) (s : State) : Out :=
  finish 8 false (do
    touch (VUn.regs o)
    wholeVector
    let h := (← get).hart
    let t := h.tag o.va
    match rt t with
    | none => raise .operand
    | some t' => do
      operandIf (!h.permuteOk o.vd o.m [t] t')
      let first (i : Nat) : Res := if isInt t then plain (h.elem o.va t i) else exactInto h.vcfg t t' (h.elem o.va t i)
      let r := prefixes (fun a i => join h t t' a i) first (none_ t') (h.masked o.m) none 0 h.vln
      onHart fun h => (h.putElems o.vd t' r.1).raiseFlags r.2) s

def execVscanAdd (o : VUn) (s : State) : Out :=
  scan o sumTag (fun h t rt a i =>
    if isInt t then plain (ofInt (width t) (readInt t a.bits + readInt t (h.elem o.va t i)))
    else sumRes (fmtOf rt) h.rndPlain a (exactInto h.vcfg t rt (h.elem o.va t i))) (fun _ => 0) s

/-- VSCAN.max and VSCAN.min. -/
def scanExtreme (most : Bool) (o : VUn) (s : State) : Out :=
  scan o keepTag (fun h t _ a i =>
    let x := h.elem o.va t i
    if isInt t then
      plain (ofInt (width t) (if most then max (readInt t a.bits) (readInt t x) else min (readInt t a.bits) (readInt t x)))
    else
      let p := (fmtOf t).value a.bits
      let q := readFloat h.vcfg t x
      let y := if most then fMax p q else fMin p q
      if y.isNan then plain (fmtOf t).nan else plain ((fmtOf t).rnd .even y).bits)
    (fun t => if isInt t then ofInt (width t) (if most then intMin t else intMax t) else (fmtOf t).nan) s

def execVscanMax (o : VUn) (s : State) : Out := scanExtreme true o s
def execVscanMin (o : VUn) (s : State) : Out := scanExtreme false o s

end Sys2Proof.Machine
end

