-- ==== Sys2Proof/Machine/VMemory.lean ====
section
/-! DEFINITION. Vector loads and stores, prefetch, fault-only-first and scatter-reduce; the progress bit (R137 to R154,
R350 to R352); the multicast store (R389). -/
namespace Sys2Proof.Machine
open Sys2Proof

/-! ### Addresses (R138) -/

/-- How the elements of a form are addressed. -/
inductive Addressing where
  | unit
  | quarter (stride : Word)
  | strided (stride : Word)
  | indexed (vb : VIdx)
deriving DecidableEq, Repr

/-- The base of a memory operand (R138). -/
def State.vbase (s : State) (base : SReg) (off : BitVec 14) : Word := s.getS base + sext off

/-- The access that element `i` asks for, and the lane group that issues it (R138, R142). -/
def State.vreq (s : State) (t : Tag) (a : Word) (m : Addressing) (i : Nat) : VReq :=
  let h := s.hart
  let w := width t
  let g := h.group t i
  match m with
  | .unit => ⟨i, a + BitVec.ofNat 64 (i * w / 8), i * w % 8, w, g, 0⟩
  | .quarter st =>
    let j := i % h.quarter t
    ⟨i, a + BitVec.ofNat 64 g * st + BitVec.ofNat 64 (j * w / 8), j * w % 8, w, g, 0⟩
  | .strided st => ⟨i, a + BitVec.ofNat 64 i * st, 0, w, g, 0⟩
  | .indexed vb =>
    let tb := h.tag vb
    let va := a + BitVec.ofInt 64 (readInt tb (h.elem vb tb i) * (w / 8 : Nat))
    ⟨i, va, 0, w, s.indexGroup t i va, 0⟩

/-- The accesses of the active elements, ascending (R139). -/
def State.vreqs (s : State) (o : VMem) (m : Addressing) : List VReq :=
  (s.hart.active o.m).map (s.vreq (s.hart.tag o.vd) (s.vbase o.base o.off) m)

/-- Accesses with the elements of a register that they write or combine, read before anything is written (R17). -/
def Hart.withValues (h : Hart) (vd : VIdx) (l : List VReq) : List VReq := l.map fun q => { q with v := h.elem vd (h.tag vd) q.i }

/-! ### The checks (R140, R141) -/

/-- The registers a memory form names besides v0 as its mask. -/
def Addressing.regs : Addressing → List VIdx
  | .indexed vb => [vb]
  | _ => []

/-- A tag that may index (R140). -/
def indexTag (t : Tag) : Bool := isInt t && 8 ≤ width t

/-- The operand checks of R140. -/
def Hart.vmemOk (h : Hart) (o : VMem) (m : Addressing) : Bool :=
  let t := h.tag o.vd
  h.vlFits [t] && match m with
    | .unit | .quarter _ => true
    | .strided _ => 8 ≤ width t
    | .indexed vb => 8 ≤ width t && indexTag (h.tag vb) && h.vlFits [h.tag vb]

/-- Whether an access is misaligned (R141). -/
def VReq.misaligned (q : VReq) : Bool := 8 ≤ q.w && q.va.toNat % (q.w / 8) != 0

/-- The misaligned-access trap of the lowest active element that is misaligned (R141). -/
def alignAll (kind : AccessKind) (l : List VReq) : M Unit :=
  match l.find? VReq.misaligned with
  | some q => raise .misaligned q.va kind
  | none => pure ()

/-- The checks up to alignment, and the accesses of the active elements, with the source elements of a store. -/
def vmemStart (o : VMem) (m : Addressing) (acc : Access) : M (List VReq) := do
  touch ([o.vd] ++ m.regs ++ maskReg o.m)
  let s ← get
  operandIf (!s.hart.vmemOk o m)
  let l := s.vreqs o m
  alignAll acc.kind l
  return if acc.writes then s.hart.withValues o.vd l else l

/-- vstart takes the index of an element. -/
def setVstart (i : Nat) : M Unit := onHart fun h => { h with vstart := BitVec.ofNat 16 i }

/-! ### Instructions under way (R17, R149, R346, R353) -/

/-- The elements an instruction has still to access: those it keeps, or, as it begins, those that `start` gives (R17). -/
def elementsLeft (start : M (List VReq)) : M (List VReq) := do
  match (← get).hart.begun with
  | some b => return b.left
  | none => do
    let l ← start
    onHart fun h => { h with begun := some ⟨h.vstart, l, []⟩ }
    return l

/-- What stood before the elements of `rest` is done: they are left, with answers and translations of their own. -/
def leftOver (rest : List VReq) : M Unit :=
  onHart fun h => { h with begun := h.begun.map (fun b => { b with left := rest }), answers := [], held := [], underway := false }

/-- A fabric error leaves vstart as it was when the instruction began (R346). -/
def fabricAtStart (m : M Unit) : M Unit := fun s =>
  match m s with
  | .error (.trap i) s' =>
    .error (.trap i) (match i.cause, s'.hart.begun with
      | .fabricError, some b => { s' with hart := { s'.hart with vstart := b.vstart } }
      | _, _ => s')
  | r => r

/-- A wait inside an instruction that has begun: what it has found so far, its translations among it, stays (R336). -/
def waitBegun (m : M Unit) : M Unit := fun s =>
  match m s with
  | .error .wait s' => .error .pause s'
  | r => r

/-- A memory instruction: the elements it has left, worked on, then its completion. -/
def memoryWork (start : M (List VReq)) (work : List VReq → M Unit) : M Unit := do
  let l ← elementsLeft start
  fabricAtStart (waitBegun (work l))
  onHart Hart.vdone

/-- A pre-emption is requested of the hart, whose convoy is of one: it may stop the instruction part-way, as the device chooses
(R149, R195, R352, R353). -/
def stopsHere : M Bool := do
  let h := (← get).hart
  if h.preempt && h.covered.isNone then return Config.freeBool (← takeFree) else return false

/-- The instruction stops before the elements of `rest`. -/
def stopBefore (q : VReq) (rest : List VReq) : M Unit := do
  setVstart q.i
  leftOver (q :: rest)
  throw .pause

/-! ### Loads and stores whose probe covers the whole instruction (R144, R147, R149) -/

/-- The address a poison trap of one access records: the element's, or the sector's in the fabric window (R385).
DEDUCED, log entry 19: unsafe. -/
def VAcc.poisonEval (a : VAcc) : Word :=
  match a.loc with
  | .fabric dev off => fabricAddr dev (off / 32 * 32)
  | _ => a.va

/-- Loads of probed accesses: elements below the first poisoned one are written (R144). -/
def loadElems (c : Ocls) (vd : VIdx) (accs : List VAcc) : M Unit := do
  countRequests false accs
  let got ← readAccs c accs
  let whole := got.takeWhile (fun p => p.2.isSome)
  onHart fun h => h.setElems vd (h.tag vd) (whole.map fun p => (p.1.i, p.2.getD 0))
  match got[whole.length]? with
  | none => pure ()
  | some p => do
    setVstart p.1.i
    raise .poison p.1.poisonEval .load

/-- Stores of probed accesses with their values. -/
def storeElems (c : Ocls) (l : List (VAcc × Nat)) : M Unit := do
  countRequests true (l.map (·.1))
  writeAccs c l

/-- Whether a place lies at another device. -/
def VAcc.far (a : VAcc) : Bool := match a.loc with | .fabric _ _ => true | _ => false

/-- Elements probed together, each with its value (R149). -/
def probeAll (load : Bool) (l : List VReq) : M (List (VAcc × Nat)) :=
  l.mapM fun q => do return (← probe .plain (if load then .load else .store) q.w q, q.v)
/-- Probed elements accessed. -/
def accessAll (load : Bool) (vd : VIdx) (l : List (VAcc × Nat)) : M Unit :=
  if load then loadElems 1 vd (l.map (·.1)) else storeElems 1 l

/-- Under the progress bit the first element alone, a fault of whose probe leaves vstart as it is; then the others, a fault of whose
probe leaves it after the first (R350). -/
def firstAlone (one : VReq → M Unit) : List VReq → M (List VReq)
  | q :: rest => do
    if (← get).hart.prog then
      one q
      setVstart (q.i + 1)
      leftOver rest
      onHart fun h => { h with prog := false }
      return rest
    else return q :: rest
  | [] => return []

/-- Whether a load under `m` into `vd` overwrites the mask or the index vector that it would read again (R17). -/
def overwrites (load : Bool) (o : VMem) (vb : Option VIdx) : Bool := load && (vb = some o.vd || (o.m && o.vd = 0))

/-- Whether a form may stop part-way for a pre-emption: strided and indexed, with no source overwritten (R17, R149). -/
def mayStop (load : Bool) (o : VMem) : Addressing → Bool
  | .strided _ => !overwrites load o none
  | .indexed vb => !overwrites load o (some vb)
  | _ => false

/-- Whether a stop after the first `n` of these stores would leave a value in memory that a later one replaces (R147). -/
def partsDuplicates (n : Nat) (l : List (VAcc × Nat)) : Bool :=
  (l.take n).any fun a => (l.drop n).any fun b => a.1.loc.place = b.1.loc.place

/-- A form of R144 or R147. -/
def vmem (load : Bool) (o : VMem) (m : Addressing) (s : State) : Out :=
  finish 8 true (memoryWork (vmemStart o m (if load then .load else .store)) fun l => do
    let l ← firstAlone (fun q => do accessAll load o.vd (← probeAll load [q])) l
    let accs ← probeAll load l
    if mayStop load o m && !accs.any (·.1.far) && (← stopsHere) then
      let k := Config.freeNat (← takeFree) % (l.length + 1)
      let n := if !load && partsDuplicates k accs then l.length else k
      accessAll load o.vd (accs.take n)
      match l.drop n with
      | q :: rest => stopBefore q rest
      | [] => pure ()
    else accessAll load o.vd accs) s

def execVld (o : VMem) (s : State) : Out := vmem true o .unit s
def execVst (o : VMem) (s : State) : Out := vmem false o .unit s
def execVldq (o : VMem) (m : SReg) (s : State) : Out := vmem true o (.quarter (s.getS m)) s
def execVstq (o : VMem) (m : SReg) (s : State) : Out := vmem false o (.quarter (s.getS m)) s
def execVlds (o : VMem) (m : SReg) (s : State) : Out := vmem true o (.strided (s.getS m)) s
def execVsts (o : VMem) (m : SReg) (s : State) : Out := vmem false o (.strided (s.getS m)) s
def execVldx (o : VMem) (vb : VIdx) (s : State) : Out := vmem true o (.indexed vb) s
def execVstx (o : VMem) (vb : VIdx) (s : State) : Out := vmem false o (.indexed vb) s

/-! ### Ordered forms (R148, R149) -/

/-- Elements one after another, each precise at itself; a pre-emption may stop the instruction between them, where it has overwritten
no source (R17, R148, R149, R294). -/
def eachElem (stops : Bool) (f : VReq → M Unit) : List VReq → M Unit
  | [] => pure ()
  | q :: rest => do
    if stops && !(← get).hart.underway && (← stopsHere) then stopBefore q rest
    setVstart q.i
    f q
    leftOver rest
    eachElem stops f rest

/-- The elements of an ordered form, an address past its window's limit found before any of them is accessed (R251). -/
def withinLimits (kind : AccessKind) (start : M (List VReq)) : M (List VReq) := do
  let l ← start
  refusePast kind (l.map (·.va))
  return l

/-- VLDXO and VSTXO. -/
def vmemOrdered (load : Bool) (o : VMem) (vb : VIdx) (s : State) : Out :=
  let acc := if load then Access.load else .store
  finish 8 true (memoryWork (withinLimits acc.kind (vmemStart o (.indexed vb) acc)) (eachElem (!overwrites load o (some vb)) fun q => do
    let a ← probe .ordered acc q.w q
    waitIf (a.device && (← get).hasPosted)
    if load then loadElems 0 o.vd [a] else storeElems 0 [(a, q.v)])) s

def execVldxo (o : VMem) (vb : VIdx) (s : State) : Out := vmemOrdered true o vb s
def execVstxo (o : VMem) (vb : VIdx) (s : State) : Out := vmemOrdered false o vb s

/-! ### VLDFF (R151) -/

/-- Work done for its answer alone: the state is as before it, whatever happens. -/
def quietly {α : Type} (m : M α) : M (Except Exc α) := fun s =>
  match m s with
  | .ok a _ => .ok (.ok a) s
  | .error e _ => .ok (.error e) s

/-- Work that may fail: where it does, the state is as before it, but for what a failed walk leaves: it has walked (R333), and the
free values it took are taken. A walk that has to wait makes the instruction wait. -/
def attempt {α : Type} (m : M α) : M (Except TrapInfo α) := fun s =>
  match m s with
  | .ok a s' => .ok (.ok a) s'
  | .error (.trap i) s' => .ok (.error i) { s with free := s'.free, tlb := s'.tlb, hart := { s.hart with afresh := s'.hart.afresh } }
  | .error e s' => .error e s'

/-- The causes at which VLDFF shortens vl. -/
def trims : Cause → Bool
  | .pageLoad | .access | .poison => true
  | _ => false

/-- An access resolved and checked whose page is not marked yet. -/
def probeUnmarked (w : Nat) (q : VReq) : M (VAcc × Target) := do
  let t := (← lookup q.va .load).1
  return (← checkReach .plain .load w q t, t)

/-- The accesses before the first that would trap; the first of all traps as it is.
DESIGN CHOICE for the unsupported leaf of a later element, which traps, log entry 43: unsafe. -/
def probeTrim (w : Nat) (first : Bool) : List VReq → M (List (VAcc × Target))
  | [] => return []
  | q :: t => do
    match ← attempt (probeUnmarked w q) with
    | .error i => if !first && trims i.cause then return [] else raise i.cause i.eval i.kind
    | .ok a => return a :: (← probeTrim w false t)

/-- VLDFF (R151): the elements before the first that would trap; only their pages are marked (R334), and only their requests are
counted. Under the progress bit the first element is performed alone (R363).
DESIGN CHOICE for the requests that poison trims, log entry 44: unsafe; DEDUCED for the progress bit, log entry 51: unsafe. -/
def execVldff (o : VMem) (s : State) : Out :=
  finish 8 true (memoryWork (vmemStart o .unit .load) fun l => do
    let l ← firstAlone (fun q => do accessAll true o.vd (← probeAll true [q])) l
    let h := (← get).hart
    let first := h.begun.all fun b => b.vstart = h.vstart
    let probed ← probeTrim (width (h.tag o.vd)) first l
    let got ← readAccs 1 (probed.map (·.1))
    let whole := got.takeWhile (fun p => p.2.isSome)
    match whole, got, first with
    | [], p :: _, true => raise .poison p.1.poisonEval .load
    | _, _, _ => do
      let vatp := (← get).ctx.vatp
      (probed.take whole.length).forM fun p => useLeaf vatp .load p.2
      countRequests false (whole.map (·.1))
      match l[whole.length]? with
      | some q => onHart fun h => { h with vl := BitVec.ofNat 16 q.i }
      | none => pure ()
      onHart fun h => h.setElems o.vd (h.tag o.vd) (whole.map fun p => (p.1.i, p.2.getD 0))) s

/-! ### VPREF (R154) -/

/-- The address element `i` of a prefetch asks for. -/
def State.prefReq (s : State) (a : Word) (vb : VIdx) (i : Nat) : VReq :=
  let h := s.hart
  let tb := h.tag vb
  let va := if vb = 0 then a + BitVec.ofNat 64 (32 * i) else a + BitVec.ofInt 64 (readInt tb (h.elem vb tb i))
  let va := va - BitVec.ofNat 64 (va.toNat % 32)
  ⟨i, va, 0, 256, fld va.toNat 12 2, 0⟩

/-- The requests of the elements that are not dropped before they leave: one that is dropped for a poisoned sector (R262) has been requested,
and counts.
DESIGN CHOICE, log entry 38: unsafe. -/
def probePref (w : Nat) : List VReq → M (List VAcc)
  | [] => return []
  | q :: t => do
    let s ← get
    match findWindow s.ctx.swin q.va, ← attempt (probe .plain .load w q) with
    | none, .ok a => return a :: (← probePref w t)
    | _, _ => probePref w t

/-- VPREF (R154): its zero vd field names v0, whose bank is checked and whose tag is not (R140). -/
def execVpref (base : SReg) (off : BitVec 14) (vb : VIdx) (m : Bool) (s : State) : Out :=
  finish 8 true (do
    touch [0, vb]
    let s ← get
    let t := if vb = 0 then Tag.n8 else s.hart.tag vb
    operandIf (!(indexTag t && s.hart.vlFits [t]))
    let accs ← probePref 256 ((s.hart.active m).map (s.prefReq (s.vbase base off) vb))
    countRequests false accs
    onHart Hart.vdone) s

/-! ### Groups of equal addresses (R152, R292, R351) -/

/-- Where an element's bytes lie: at a place, nowhere, or not to be known, for want of a leaf. -/
inductive Whereabouts where
  | at (place : Nat)
  | nowhere
  | unknown
deriving DecidableEq, Repr

/-- Where the bytes of an address lie by its leaf alone, whatever its rights. -/
def leafPlace (va : Word) : M Whereabouts := do
  let s ← get
  let vatp := s.ctx.vatp
  if (findWindow s.ctx.swin va).isSome || vatp.toNat / 2 ^ 60 = 0 then return .nowhere
  else match ← quietly (findLeaf vatp va .atomic) with
    | .ok l => return ((s.leafHome l vatp va).map fun loc => Whereabouts.at (s.served loc).place).getD .nowhere
    | .error _ => return .unknown

/-- Where an element's bytes lie. -/
def placeOf (reach : Reach) (w : Nat) (q : VReq) : M (VReq × Whereabouts) := do
  match ← quietly (probe reach .atomic w q) with
  | .ok a => return (q, .at a.loc.place)
  | .error _ => return (q, ← leafPlace q.va)

/-- Two elements reach the same bytes; where the place of one is not known, they do when their addresses are equal. -/
def sameBytes (a b : VReq × Whereabouts) : Bool :=
  match a.2, b.2 with
  | .at x, .at y => x = y
  | _, _ => a.1.va = b.1.va

/-- The elements at or above vstart that were not applied already with one below it (R351). -/
def unapplied (reach : Reach) (o : VMem) (vb : VIdx) (l : List VReq) : M (List VReq) := do
  let s ← get
  let w := width (s.hart.tag o.vd)
  let below := ((rangeFrom 0 (Nat.min s.hart.vst s.hart.vln)).filter (s.hart.masked o.m)).map
    (s.vreq (s.hart.tag o.vd) (s.vbase o.base o.off) (.indexed vb))
  if below.isEmpty then return l
  else
    let done ← below.mapM (placeOf reach w)
    let here ← l.mapM (placeOf reach w)
    return (here.filter fun p => !done.any (sameBytes p)).map (·.1)

/-- An element that may be a duplicate of `p`: it reaches the same bytes, or, where its place is not known, it lies at the same
place of its page, so that the page is probed before `p` is applied (R351, log entry 22). -/
def mayMeet (p x : VReq × Whereabouts) : Bool :=
  sameBytes p x || (x.2 = .unknown && x.1.va.toNat % 4096 == p.1.va.toNat % 4096)

/-- The accesses with their values in groups of equal place, in the order of the first of each. -/
def groupByPlace : List (VAcc × Nat) → Nat → List (List (VAcc × Nat))
  | _, 0 => []
  | [], _ => []
  | a :: t, n + 1 =>
    (a :: t.filter (fun b => b.1.loc.place = a.1.loc.place)) :: groupByPlace (t.filter (fun b => b.1.loc.place != a.1.loc.place)) n

/-- Runs an atomic vector instruction over its groups: all of them probed first, or, under the progress bit, element e and
its duplicates applied before the others are probed (R350, R351).
DEDUCED, log entry 22: unsafe. -/
def groupwise (reach : Reach) (apply : List (List (VAcc × Nat)) → M Unit) (l : List VReq) : M Unit := do
  let run (l : List VReq) : M Unit := do
    if !reach.shelf then refuseShelf .store l
    let accs ← l.mapM fun q => do return (← probe reach .atomic q.w q, q.v)
    countRequests true (accs.map (·.1))
    apply (groupByPlace accs accs.length)
  match (← get).hart.prog, l with
  | true, e :: rest => do
    let p ← placeOf reach e.w e
    let others ← rest.mapM (placeOf reach e.w)
    run (e :: (others.filter (mayMeet p)).map (·.1))
    setVstart (e.i + 1)
    let rest := (others.filter fun x => !mayMeet p x).map (·.1)
    leftOver rest
    onHart fun h => { h with prog := false }
    run rest
  | _, l => run l

/-- The elements of an atomic vector instruction as it begins (R140). -/
def atomicStart (o : VMem) (vb : VIdx) (ok : Hart → Bool) (more : List VIdx) : M (List VReq) := do
  touch ([o.vd, vb] ++ more ++ maskReg o.m)
  let h := (← get).hart
  operandIf (!(h.vmemOk o (.indexed vb) && ok h))
  let l := (← get).vreqs o (.indexed vb)
  alignAll .store l
  return h.withValues o.vd l

/-- The size field of a packet for an operand of `w` bits. -/
def sizeOf_ (w : Nat) : AmoSize := if w ≤ 32 then .w else .d

/-- While packets of the instruction are still to leave for a device, its stream takes no other hart's. -/
def whileLocking {α : Type} (dev : Nat) (closing : Bool) (m : M α) : M α := fun s =>
  match m s with
  | .error (.remote r msg) s' => .error (.remote r msg) { s' with hart := { s'.hart with locking := if closing then none else some dev } }
  | r => r

/-- An atomic that another device performs for a vector instruction, one of those at `offs` there (R384): what it found. -/
def askAtomic (dev off n : Nat) (op : AmoOp) (t : Tag) (c : Ocls) (merges : Bool) (offs : List Nat) (closing : Bool) (y : Nat) :
    M RemoteAnswer := do
  let v := (← get).hart.vcfg
  whileLocking dev closing (askRemote dev off n c 0 (fun p => { p with
    op := op, size := sizeOf_ (8 * n), data := bytesOf y n, len := n, rm := rmCode v.rm, fz := v.flushes t, merges := merges, tag := t
    lockset := offs, closing := closing }) .atomic .store)

/-- What another device found at a place, where it performs the atomic once (R384); with a reduction a poisoned sector stays as
it is (R153). -/
def farOld (a : VAcc) (n : Nat) (op : AmoOp) (t : Tag) (c : Ocls) (merges : Bool) (y : Nat) : M Nat := do
  match a.loc with
  | .fabric dev off => do
    let r ← askAtomic dev off n op t c merges [off] true y
    raiseIf (!merges && !r.poisoned.isEmpty) .poison (fabricAddr dev (off / 32 * 32)) .store
    return ofBytes r.data % 256 ^ n
  | _ => return 0

/-- What a place of this device holds. -/
def nearOld (a : VAcc) (n : Nat) : M Nat := return (← get).mem.readRange (a.writeKeys.headD 0) n

/-- A place of this device written, every replica of it; a reduction of a whole sector clears its poison (R143). -/
def nearStore (a : VAcc) (n : Nat) (merges : Bool) (v : Nat) : M Unit := do
  a.writeKeys.forM fun k => modify (·.storeDirect k n v)
  if merges && n = 32 then modify (·.clearPoison (a.writeKeys.map (· / 32)))

/-- A sector of this device that an atomic cannot read because it is poisoned (R293, R294); of several, that of the first group in the order of
its first element.
DESIGN CHOICE, log entry 64: unsafe. -/
def refusePoison (accs : List VAcc) : M Unit := do
  let s ← get
  match accs.find? (fun a => !a.far && s.poisoned (a.writeKeys.headD 0)) with
  | some a => raise .poison (a.va - BitVec.ofNat 64 (a.va.toNat % 32)) .store
  | none => pure ()

/-- The lines of this device's places claimed, in their FIFOs (R153, R293, R295). -/
def claimAll (accs : List VAcc) (n : Nat) : M Unit := claim ((accs.filter fun a => !a.far).flatMap VAcc.writeKeys) n

/-- The atomics of an instruction at other devices, as device, offset and operand, device by device: each device has its packets one
after another, and takes all their locks with the first (R293, R384). -/
def askFar (n : Nat) (op : AmoOp) (t : Tag) (merges : Bool) (l : List (VAcc × Nat)) : M Unit :=
  let fars := l.filterMap fun x => match x.1.loc with | .fabric dev off => some (dev, off, x.2) | _ => none
  (fars.map (·.1)).eraseDups.forM fun dev => do
    let mine := fars.filter (·.1 = dev)
    mine.zipIdx.forM fun x => do
      let _ ← askAtomic dev x.1.2.1 n op t 1 merges (mine.map (·.2.1)) (x.2 + 1 = mine.length) x.1.2.2

/-- Work whose requests to other devices have all been answered before anything is changed: what the other devices found, for
each group. -/
def farOlds (n : Nat) (op : AmoOp) (t : Tag) (merges : Bool) (l : List (VAcc × Nat)) : M (List Nat) := do
  askFar n op t merges l
  l.mapM fun x => if x.1.far then farOld x.1 n op t 1 merges x.2 else pure 0

/-! ### VSRED (R152, R153) -/

/-- The operations of VSRED (R152), which are those of a reduction everywhere else (R312). -/
inductive Rop where
  | add | max | min | or
deriving DecidableEq, Repr

/-- The legal tag and operation pairs of R152. -/
def Rop.legal (op : Rop) (t : Tag) : Bool :=
  isInt t && 8 ≤ width t || (op != .or && (t = .f64 || t = .f32 || t = .f16 || t = .bf16))

/-- An element as an operand: a float is flushed as R43 says. -/
def ropLeaf (c : VCfg) (t : Tag) (bits : Nat) : Res := if isInt t then plain bits else exactInto c t t bits

/-- op(a, b) under a tag (R152). -/
def Rop.apply (op : Rop) (r : Rnd) (t : Tag) (a b : Res) : Res :=
  let fl := a.fl.or b.fl
  if isInt t then
    let x := readInt t a.bits
    let y := readInt t b.bits
    ⟨match op with
      | .add => (a.bits + b.bits) % 2 ^ width t
      | .max => ofInt (width t) (Max.max x y)
      | .min => ofInt (width t) (Min.min x y)
      | .or => a.bits ||| b.bits, fl⟩
  else
    let f := fmtOf t
    let pick (m : FVal) : Res := ⟨if m.isNan then f.nan else (f.rnd .even m).bits, fl⟩
    match op with
    | .add => sumRes f r a b
    | .max => pick (fMax (f.value a.bits) (f.value b.bits))
    | .min => pick (fMin (f.value a.bits) (f.value b.bits))
    | .or => ⟨a.bits ||| b.bits, fl⟩

/-- S of R152: the values of one address combined in ascending index. -/
def Rop.merge (op : Rop) (r : Rnd) (t : Tag) : List Res → Res
  | [] => plain 0
  | a :: l => l.foldl (op.apply r t) a

/-- The atomic of a packet that carries a reduction (R379). -/
def Rop.amo (op : Rop) (t : Tag) : AmoOp :=
  match op with
  | .add => if isInt t then .add else .fadd
  | .max => if isN t then .maxn else .max
  | .min => if isN t then .minn else .min
  | .or => .or

/-- The sum of a group, with the access that reaches its place (R152). -/
def Rop.sumOf (op : Rop) (h : Hart) (t : Tag) (g : List (VAcc × Nat)) : Option (VAcc × Res) :=
  g.head?.map fun a => (a.1, op.merge h.rndPlain t (g.map fun x => ropLeaf h.vcfg t x.2))

/-- VSRED. -/
def vsred (op : Rop) (o : VMem) (vb : VIdx) (s : State) : Out :=
  finish 8 true (memoryWork (do unapplied .reduce o vb (← atomicStart o vb (fun h => op.legal (h.tag o.vd)) []))
    (groupwise .reduce fun gs => do
      let h := (← get).hart
      let t := h.tag o.vd
      let n := width t / 8
      let sums := gs.filterMap (op.sumOf h t)
      claimAll (sums.map (·.1)) n
      let olds ← farOlds n (op.amo t) t true (sums.map fun x => (x.1, x.2.bits))
      (sums.zip olds).forM fun x => do
        let old ← if x.1.1.far then pure x.2 else nearOld x.1.1 n
        let r := op.apply h.rndPlain t (ropLeaf h.vcfg t old) x.1.2
        nearStore x.1.1 n true r.bits
        onHart (·.raiseFlags r.fl))) s

def execVsredAdd (o : VMem) (vb : VIdx) (s : State) : Out := vsred .add o vb s
def execVsredMax (o : VMem) (vb : VIdx) (s : State) : Out := vsred .max o vb s
def execVsredMin (o : VMem) (vb : VIdx) (s : State) : Out := vsred .min o vb s
def execVsredOr (o : VMem) (vb : VIdx) (s : State) : Out := vsred .or o vb s

/-! ### VAMO and VAMOO (R291 to R294) -/

/-- The operand forms of R291 as those of an indexed memory instruction. -/
def VAmoOps.mem (o : VAmoOps) : VMem := ⟨o.vd, o.base, 0, o.m⟩

/-- The tags an operation accepts (R291). -/
def amoTagOk (op : AmoOp) (t : Tag) : Bool :=
  match op with
  | .swap => (width t = 32 || width t = 64)
  | .fadd => t = .f32 || t = .f64
  | .cas => false
  | _ => t = .i32 || t = .i64 || t = .n32 || t = .n64

/-- The operation of R287 between two values: its inputs are flushed, a sum of elements as any other (R292). -/
def amoJoin (c : VCfg) (op : AmoOp) (w : Nat) (a b : Res) : Res :=
  let r := amoApply c op w a.bits b.bits
  ⟨r.bits, (a.fl.or b.fl).or r.fl⟩

/-- The prefixes P of R292: for each element of a group what the elements before it combine to. -/
def amoPrefixes (join : Res → Res → Res) (acc : Option Res) : List Res → List (Option Res) × Option Res
  | [] => ([], acc)
  | y :: t =>
    let r := amoPrefixes join (some (match acc with | none => y | some p => join p y)) t
    (acc :: r.1, r.2)

/-- The elements of a VAMO or VAMOO as it begins (R291). -/
def vamoStart (op : AmoOp) (o : VAmoOps) : M (List VReq) :=
  atomicStart (VAmoOps.mem o) o.vb (fun h => amoTagOk op (h.tag o.vd)) (if o.va = 0 then [] else [o.va])

/-- Elements of va take the old values, under vd's tag (R292). -/
def returnOld (o : VAmoOps) (t : Tag) (l : List (Nat × Nat)) : M Unit :=
  if o.va = 0 then pure () else onHart fun h => h.setElems o.va t l
/-- va takes vd's tag as the instruction completes (R291): up to then it keeps its own, under which a resumed instruction reads it again
where it is vb too.
DESIGN CHOICE, log entry 53: unsafe. -/
def retagOld (o : VAmoOps) (t : Tag) : M Unit := if o.va = 0 then pure () else onHart fun h => h.setTag o.va t

/-- One group of a VAMO, with the value found at its place: the elements of va, then the place (R292). -/
def vamoGroup (op : AmoOp) (o : VAmoOps) (h : Hart) (t : Tag) (g : List (VAcc × Nat)) (a : VAcc) (old : Nat) : M Unit := do
  let w := width t
  let join := amoJoin h.vcfg op w
  let ps := amoPrefixes join none (g.map fun x => plain x.2)
  let back := (g.zip ps.1).map fun x =>
    match x.2 with
    | none => (x.1.1.i, plain old)
    | some p => (x.1.1.i, join (plain old) { p with fl := .zero })
  let new := join (plain old) (ps.2.getD (plain 0))
  nearStore a (w / 8) false new.bits
  returnOld o t (back.map fun x => (x.1, x.2.bits))
  onHart (·.raiseFlags (new.fl.or (if o.va != 0 then flagsOf (back.map fun x => x.2.fl) else .zero)))

/-- What the elements of a group combine to (R292). -/
def amoSum (op : AmoOp) (h : Hart) (w : Nat) (g : List (VAcc × Nat)) : Nat :=
  ((amoPrefixes (amoJoin h.vcfg op w) none (g.map fun x => plain x.2)).2.getD (plain 0)).bits

/-- VAMO (R292, R293): the lines are claimed and the sectors of this device checked for poison before anything is sent or
written. -/
def vamo (op : AmoOp) (o : VAmoOps) (s : State) : Out :=
  finish 8 true (do
    let t := (← get).hart.tag o.vd
    memoryWork (do unapplied .atomic (VAmoOps.mem o) o.vb (← vamoStart op o)) (groupwise .atomic fun gs => do
      let h := (← get).hart
      let w := width t
      let heads := gs.filterMap fun g => g.head?.map fun a => (a.1, amoSum op h w g)
      claimAll (heads.map (·.1)) (w / 8)
      if h.answers.isEmpty then refusePoison (heads.map (·.1))
      let olds ← farOlds (w / 8) op t false heads
      ((gs.zip heads).zip olds).forM fun x => do
        let old ← if x.1.2.1.far then pure x.2 else nearOld x.1.2.1 (w / 8)
        vamoGroup op o h t x.1.1 x.1.2.1 old)
    retagOld o t) s

/-- VAMOO (R294). -/
def vamoo (op : AmoOp) (o : VAmoOps) (s : State) : Out :=
  finish 8 true (do
    let t := (← get).hart.tag o.vd
    let n := width t / 8
    let start := do
      let l ← withinLimits .store (vamoStart op o)
      refuseShelf .store l
      return l
    memoryWork start (eachElem (o.va = 0 || o.va != o.vb) fun q => do
      let a ← probe .atomic .atomic q.w q
      countRequests true [a]
      claimAll [a] n
      if !a.far then refusePoison [a]
      let old ← if a.far then farOld a n op t 0 false q.v else nearOld a n
      let r := amoJoin (← get).hart.vcfg op (8 * n) (plain old) (plain q.v)
      nearStore a n false r.bits
      onHart (·.raiseFlags r.fl)
      returnOld o t [(q.i, old)])
    retagOld o t) s

def execVamoAdd (o : VAmoOps) (s : State) : Out := vamo .add o s
def execVamoAnd (o : VAmoOps) (s : State) : Out := vamo .and o s
def execVamoOr (o : VAmoOps) (s : State) : Out := vamo .or o s
def execVamoXor (o : VAmoOps) (s : State) : Out := vamo .xor o s
def execVamoMin (o : VAmoOps) (s : State) : Out := vamo .min o s
def execVamoMax (o : VAmoOps) (s : State) : Out := vamo .max o s
def execVamoMinn (o : VAmoOps) (s : State) : Out := vamo .minn o s
def execVamoMaxn (o : VAmoOps) (s : State) : Out := vamo .maxn o s
def execVamoSwap (o : VAmoOps) (s : State) : Out := vamo .swap o s
def execVamoFadd (o : VAmoOps) (s : State) : Out := vamo .fadd o s
def execVamooAdd (o : VAmoOps) (s : State) : Out := vamoo .add o s
def execVamooAnd (o : VAmoOps) (s : State) : Out := vamoo .and o s
def execVamooOr (o : VAmoOps) (s : State) : Out := vamoo .or o s
def execVamooXor (o : VAmoOps) (s : State) : Out := vamoo .xor o s
def execVamooMin (o : VAmoOps) (s : State) : Out := vamoo .min o s
def execVamooMax (o : VAmoOps) (s : State) : Out := vamoo .max o s
def execVamooMinn (o : VAmoOps) (s : State) : Out := vamoo .minn o s
def execVamooMaxn (o : VAmoOps) (s : State) : Out := vamoo .maxn o s
def execVamooSwap (o : VAmoOps) (s : State) : Out := vamoo .swap o s
def execVamooFadd (o : VAmoOps) (s : State) : Out := vamoo .fadd o s

/-! ### VMSTORE (R389) -/

/-- The devices named by the destination string. -/
def Hart.destinations (h : Hart) (vb : VIdx) : List Nat := (rangeFrom 0 1024).filter (h.bit vb)

/-- One element's address for VMSTORE: local memory under pmode 0b00 only. -/
def probeMulticast (q : VReq) : M (VReq × Nat) := do
  let t ← resolve q.va .store
  if t.device || t.window || t.pmode != 0 || localTop ≤ t.pa then raise .access q.va .store else return (q, t.pa)

/-- The packets of the remote copies: offset, data and the bits that change (R384, R388). -/
def multicastBlocks (cells : List (Nat × Nat × Nat × Nat)) : List (Nat × List Byte × List Byte) :=
  (packetsOf 256 (cells.flatMap fun x => piecesOf 0 x.1 x.2.1 x.2.2.1 x.2.2.2)).map (·.2)

/-- The packet of one block of a burst, and what is outstanding at each device that its string names (R387, R388). -/
def State.multicastPacket (s : State) (devs : List Nat) (bidx : Nat) (blk : Nat × List Byte × List Byte) : List OutReq × OutMsg :=
  let f := s.fabric
  let p := { f.packet 0 1 blk.1 s.hart.place with
    mc := true, dt := false, string := stringOf devs, seq := f.nextSeq burstDev 1, bidx := bidx, data := blk.2.1, mask := blk.2.2
    txn := (f.nextTxn + bidx) % 2 ^ 16 }
  (devs.map fun dev => ⟨p.txn, dev, 1, p.seq, s.hart.born, blk.1, 256, false, true, fabricAddr dev blk.1, none, false⟩, .write p)

/-- The remote copies: sent once as one burst, whose packets share one string; then every acknowledgement is awaited, and the devices
that failed are given. -/
def multicast (devs : List Nat) (blocks : List (Nat × List Byte × List Byte)) : M (List Nat) := do
  let s ← get
  let live := devs.filter s.fabric.reaches
  let answer (d : Nat) (off : Nat) : Option RemoteAnswer := s.hart.answers.find? (fun a => a.dev = d ∧ a.off = off)
  if live.all fun d => blocks.all fun b => (answer d b.1).isSome then
    return devs.filter fun d => !s.fabric.reaches d || blocks.any fun b => ((answer d b.1).map (·.failed)).getD false
  else if s.storeQueued || s.fabric.outstanding.any (fun r => r.mc && r.ocls = 1) then throw .wait
  else
    let ps := blocks.zipIdx.map fun b => s.multicastPacket live b.2 b.1
    throw (.burst (ps.flatMap (·.1)) (ps.flatMap fun p => s.fabric.copiesOf p.2 (stringOf live)))

/-- The copies of this device's elements that VMSTORE writes: physical address, bit, width and value. -/
def Hart.multicastCells (h : Hart) (vd : VIdx) (l : List (VReq × Nat)) : List (Nat × Nat × Nat × Nat) :=
  l.map fun p => (p.2, p.1.b, p.1.w, h.elem vd (h.tag vd) p.1.i)

def execVmstore (o : VMem) (vb : VIdx) (s : State) : Out :=
  finish 8 true (do
    touch ([o.vd, vb] ++ maskReg o.m)
    let s ← get
    let f := s.fabric
    let devs := s.hart.destinations vb
    operandIf (devs.any fun d => f.nrow ≤ d / 32 || f.ncol ≤ d % 32)
    if devs.isEmpty || (s.hart.active o.m).isEmpty then onHart Hart.vdone
    else
      operandIf (!s.hart.vmemOk o .unit)
      let l := s.vreqs o .unit
      alignAll .store l
      let pas ← l.mapM probeMulticast
      let remote := devs.filter (· != f.self)
      let local_ := pas.map fun p => (⟨p.1.i, p.1.va, p.1.b, p.1.w, p.1.group, packageHome p.2, false, false⟩ : VAcc)
      let value (a : VAcc) : VAcc × Nat := (a, s.hart.elem o.vd (s.hart.tag o.vd) a.i)
      if devs.contains f.self then waitIf (local_.any fun a => a.writeKeys.any fun k => s.writeStalls k a.bytes)
      let failed ← multicast remote (multicastBlocks (s.hart.multicastCells o.vd pas))
      if !remote.isEmpty then countRequests true (pas.map fun p => ⟨p.1.i, p.1.va, p.1.b, p.1.w, p.1.group, .fabric 0 p.2, true, false⟩)
      if devs.contains f.self then do
        countRequests true local_
        writeAccs 1 (local_.map value)
      match failed, pas with
      | d :: t, p :: _ => raise .fabricError (fabricAddr (t.foldl Nat.min d) p.2) .store
      | _, _ => onHart Hart.vdone) s

end Sys2Proof.Machine
end

