-- ==== Sys2Proof/Machine/Fibre.lean ====
section
/-! DEFINITION. Fibres: loads, stores and level walks, lengths, expansion, sorting, and combining two fibres (R156 to
R171). -/
namespace Sys2Proof.Machine
open Sys2Proof

/-! ### Fibres in registers (R19, R158) -/

/-- The capacity of a fibre under a value tag (R19). -/
def Hart.capacity (h : Hart) (t : Tag) : Nat := Nat.min (h.vlmax .n32) (h.vlmax t)
/-- flen of a fibre. -/
def Hart.flenOf (h : Hart) (f : FIdx) : Nat := (h.flen.get f).toNat
/-- The value tag of a fibre. -/
def Hart.valueTag (h : Hart) (f : FIdx) : Tag := h.tag (valueReg f)
/-- The check of R19 on a fibre that an instruction names. -/
def Hart.fibreOk (h : Hart) (f : FIdx) : Bool :=
  h.tag (coordReg f) = .n32 && h.flenOf f ≤ h.capacity (h.valueTag f)

/-- Entries of a fibre: coordinate and value bits, in positions from 0. -/
abbrev Entries := List (Nat × Nat)

/-- The first `n` entries of a fibre's registers. -/
def Hart.entries (h : Hart) (f : FIdx) (n : Nat) : Entries :=
  (rangeFrom 0 n).map fun e => (h.elem (coordReg f) .n32 e, h.elem (valueReg f) (h.valueTag f) e)

/-- The lowest position p ≥ 1 whose coordinate is not greater than the one before it (R158), counted from `p`. -/
def unordered (p : Nat) : Entries → Option Nat
  | a :: b :: t => if a.1 < b.1 then unordered (p + 1) (b :: t) else some (p + 1)
  | _ => none

/-- The operand trap of coordinates out of order, with the position (R158). -/
def orderedOrTrap (l : Entries) : M Unit :=
  match unordered 0 l with
  | some p => raise .operand (BitVec.ofNat 64 p)
  | none => pure ()

/-- Entries written from position 0 with a value tag, and the length set; other positions are kept (R158). -/
def Hart.setFibre (h : Hart) (f : FIdx) (t : Tag) (l : Entries) (n : Nat) : Hart :=
  let h := h.setElems (coordReg f) .n32 (l.zipIdx.map fun p => (p.2, p.1.1))
  let h := (h.setElems (valueReg f) t (l.zipIdx.map fun p => (p.2, p.1.2))).setTag (valueReg f) t
  { h with flen := h.flen.set f (BitVec.ofNat 16 n) }

/-- The cursors of an instruction that stops early, or zero at completion (R158). -/
def Hart.setCursors (h : Hart) (a b : Nat) : Hart :=
  { h with cura := BitVec.ofNat 32 a, curb := BitVec.ofNat 32 b, vstart := 0 }

/-- The checks that fibre and pigeonhole instructions share: banks, vstart, and the fibres they name (R22, R158). -/
def fibreStart (fs : List FIdx) (extra : List VIdx) : M Hart := do
  touch (fs.flatMap fibreRegs ++ extra)
  wholeVector
  let h := (← get).hart
  operandIf (fs.any fun f => !h.fibreOk f)
  return h

/-- The entries of a source fibre, in order (R158). -/
def readFibre (f : FIdx) : M Entries := do
  let h := (← get).hart
  let l := h.entries f (h.flenOf f)
  orderedOrTrap l
  return l

/-! ### Memory (R159 to R165) -/

/-- Accesses of one kind: the shelf refused, then every page probed (R162, R253). -/
def probeFibre (acc : Access) (l : List VReq) : M (List VAcc) := do
  refuseShelf acc.kind l
  l.mapM fun q => probe .noShelf acc q.w q

/-- The values of accesses; a poisoned sector traps. -/
def readWhole (accs : List VAcc) : M (List Nat) := do
  let got ← readAccs 1 accs
  match got.find? (fun p => p.2.isNone) with
  | some p => raise .poison p.1.poisonEval .load
  | none => return got.map fun p => p.2.getD 0

/-- Entry `e` of arrays of coordinates and values, each read or written by the group that holds position `p` (R162). -/
def Hart.entryReqs (h : Hart) (crd val : Word) (t : Tag) (e p : Nat) : List VReq :=
  [⟨p, crd + BitVec.ofNat 64 (4 * e), 0, 32, h.group .n32 p, 0⟩,
   ⟨p, val + BitVec.ofNat 64 (e * width t / 8), e * width t % 8, width t, h.group t p, 0⟩]

/-- The lines of accesses become pointer class as they fill (R165). -/
def markPointer (accs : List VAcc) : M Unit := modify fun s =>
  { s with ptrLines := accs.foldl (fun l a =>
      match a.readKey with
      | some key => if isLocal key then (sectorsOf key a.bytes).foldl (fun l q => insertNat (q / 4) l) l else l
      | none => l) s.ptrLines }

/-- Entries from `first` on loaded into a fibre, with the order check and the cursors (R158, R160, R164): `n` is the length of the
whole, and `level` says that the coordinates are those of a level, whose lines become pointer class (R165). -/
def loadEntries (f : FIdx) (level : Bool) (crd val : Word) (first n : Nat) : M Unit := do
  let h := (← get).hart
  let t := h.valueTag f
  let done := h.cura.toNat
  operandIf (n < done)
  let k := Nat.min (n - done) (h.capacity t)
  let reqs := (rangeFrom 0 k).flatMap fun p => h.entryReqs crd val t (first + done + p) p
  let accs ← probeFibre .load reqs
  countRequests false accs
  if level then markPointer ((accs.zipIdx.filter fun x => x.2 % 2 = 0).map (·.1))
  let vs ← readWhole accs
  let l := (rangeFrom 0 k).map fun p => (vs[2 * p]?.getD 0, vs[2 * p + 1]?.getD 0)
  orderedOrTrap l
  onHart fun h =>
    let h := h.setFibre f t l k
    if done + k < n then h.setCursors (done + k) h.curb.toNat else h.setCursors 0 0

def execFld (f : FIdx) (base : SReg) (off : BitVec 14) (s : State) : Out :=
  finish 8 false (do
    let _ ← fibreStart [f] []
    let a := (← get).vbase base off
    aligned a 8 .load
    let head ← probeFibre .load [⟨0, a, 0, 64, 0, 0⟩]
    countRequests false head
    let n := ((← readWhole head).headD 0) % 2 ^ 32
    loadEntries f false (a + 8) (a + BitVec.ofNat 64 (roundUp (8 + 4 * n) 8)) 0 n) s

def execFst (f : FIdx) (base : SReg) (off : BitVec 14) (s : State) : Out :=
  finish 8 false (do
    let h ← fibreStart [f] []
    let l ← readFibre f
    let a := (← get).vbase base off
    aligned a 8 .store
    let n := l.length
    let t := h.valueTag f
    let val := a + BitVec.ofNat 64 (roundUp (8 + 4 * n) 8)
    let accs ← probeFibre .store (⟨0, a, 0, 64, 0, 0⟩ :: (rangeFrom 0 n).flatMap fun p => h.entryReqs (a + 8) val t p p)
    countRequests true accs
    writeAccs 1 (accs.zip (n :: l.flatMap fun e => [e.1, e.2]))
    onHart (·.setCursors 0 0)) s

/-- A misaligned array of a level descriptor (R162). -/
def alignedArray (a : Word) (n : Nat) : M Unit := aligned a n .load

def execFldlvl (f : FIdx) (base : SReg) (off : BitVec 14) (va : VIdx) (s : State) : Out :=
  finish 8 false (do
    let h ← fibreStart [f] [va]
    operandIf (h.tag va != .n32 || !h.vlFits [.n32])
    let r := h.elem va .n32 0
    let t := h.valueTag f
    let a := (← get).vbase base off
    aligned a 8 .load
    let desc ← probeFibre .load ((rangeFrom 0 4).map fun k => ⟨k, a + BitVec.ofNat 64 (8 * k), 0, 64, 0, 0⟩)
    countRequests false desc
    let d ← readWhole desc
    let ptr := BitVec.ofNat 64 (d[0]?.getD 0)
    let crd := BitVec.ofNat 64 (d[1]?.getD 0)
    let val := BitVec.ofNat 64 (d[2]?.getD 0)
    let d3 := d[3]?.getD 0
    operandIf (d3 / 2 ^ 33 != 0 || d3 % 2 ^ 32 ≤ r)
    alignedArray ptr 8
    alignedArray crd 4
    alignedArray val (Nat.max (width t / 8) 1)
    let pb := if bitOf d3 32 then 8 else 4
    let ptrs ← probeFibre .load ((rangeFrom 0 2).map fun k => ⟨k, ptr + BitVec.ofNat 64 (pb * (r + k)), 0, 8 * pb, 0, 0⟩)
    countRequests false ptrs
    markPointer ptrs
    let p ← readWhole ptrs
    let lo := p[0]?.getD 0
    let hi := p[1]?.getD 0
    operandIf (hi < lo || 2 ^ 32 ≤ hi - lo)
    loadEntries f true crd val lo (hi - lo)) s

/-! ### Lengths, expansion, compaction and sorting (R166 to R169) -/

def execFlen (f : FIdx) (sn : SReg) (s : State) : Out :=
  finish 8 false (do
    let h ← fibreStart [f] []
    let n := (h.getS sn).toNat
    operandIf (h.capacity (h.valueTag f) < n)
    orderedOrTrap (h.entries f n)
    onHart fun h => { h with flen := h.flen.set f (BitVec.ofNat 16 n) }.setCursors 0 0) s

def execFexpand (vd : VIdx) (fa : FIdx) (s : State) : Out :=
  finish 8 false (do
    let h ← fibreStart [fa] [vd]
    let l ← readFibre fa
    let t := h.valueTag fa
    operandIf (!h.vlFits [t])
    let zeros := (rangeFrom 0 h.vln).map fun i => (i, 0)
    onHart fun h => ((h.setElems vd t (zeros ++ l.filter fun e => e.1 < h.vln)).setTag vd t).setCursors 0 0) s

/-- A value that FCOMPACT drops (R168). -/
def isZeroValue (c : VCfg) (t : Tag) (bits : Nat) : Bool :=
  if isInt t then bits = 0 else (readFloat c t bits).isZero

def execFcompact (fd fa : FIdx) (s : State) : Out :=
  finish 8 false (do
    let h ← fibreStart [fd, fa] []
    let t := h.valueTag fa
    let l := (← readFibre fa).filter fun e => !isZeroValue h.vcfg t e.2
    onHart fun h => (h.setFibre fd t l l.length).setCursors 0 0) s

/-- Insertion after every entry whose coordinate is not greater: a stable sort (R169). -/
def insertEntry (e : Nat × Nat) : Entries → Entries
  | [] => [e]
  | x :: t => if e.1 < x.1 then e :: x :: t else x :: insertEntry e t
/-- Entries sorted by coordinate, equal ones in their order. -/
def sortEntries (l : Entries) : Entries := l.foldl (fun acc e => insertEntry e acc) []

def execFsort (fd fa : FIdx) (s : State) : Out :=
  finish 8 false (do
    let h ← fibreStart [fd, fa] []
    let t := h.valueTag fa
    let n := h.flenOf fa
    operandIf (h.capacity t < n)
    let l := sortEntries (h.entries fa n)
    onHart fun h => (h.setFibre fd t l (if (unordered 0 l).isSome then 0 else n)).setCursors 0 0) s

/-! ### Combining two fibres (R170, R171) -/

/-- Why an entry is written: it is in both, or only in one. -/
inductive Meet where
  | both | onlyA | onlyB
deriving DecidableEq, Repr

/-- The joint walk of R170 from positions p and q: the entries written, with where they came from, and the cursors of an
early stop, if any. `room` is how many entries still fit. -/
def walkTwo (inter : Bool) (a b : Entries) (p q : Nat) : Nat → Nat → List (Meet × Nat × Nat) × Option (Nat × Nat)
  | 0, _ => ([], none)
  | fuel + 1, room =>
    let ca := (a[p]?.map (·.1)).getD (2 ^ 32)
    let cb := (b[q]?.map (·.1)).getD (2 ^ 32)
    if (if inter then p < a.length ∧ q < b.length else p < a.length ∨ q < b.length) then
      let m := if ca = cb then Meet.both else if ca < cb then .onlyA else .onlyB
      let p' := if ca ≤ cb then p + 1 else p
      let q' := if cb ≤ ca then q + 1 else q
      if !inter || m = .both then
        match room with
        | 0 => ([], some (p, q))
        | room + 1 =>
          let r := walkTwo inter a b p' q' fuel room
          ((m, p, q) :: r.1, r.2)
      else walkTwo inter a b p' q' fuel room
    else ([], none)

/-- FINTER, FUNION, FMERGE and FPOS: `rt` gives the result tag of the two value tags, and `entry` an entry's coordinate and
value from the hart, the tags, and the entries it comes from. -/
def combine (inter : Bool) (fd fa fb : FIdx) (rt : Tag → Tag → Option Tag)
    (entry : Hart → Tag → Tag → Tag → Meet → Nat → Nat → Nat × Nat → Nat × Nat → Nat × Res) (s : State) : Out :=
  finish 8 false (do
    let h ← fibreStart [fd, fa, fb] []
    operandIf (fd = fa || fd = fb)
    let a ← readFibre fa
    let b ← readFibre fb
    let ta := h.valueTag fa
    let tb := h.valueTag fb
    match rt ta tb with
    | none => raise .operand
    | some t => do
      let p := h.cura.toNat
      let q := h.curb.toNat
      operandIf (a.length < p || b.length < q)
      let r := walkTwo inter a b p q (a.length + b.length + 1) (h.capacity t)
      let es := r.1.map fun x => entry h t ta tb x.1 x.2.1 x.2.2 (a[x.2.1]?.getD (0, 0)) (b[x.2.2]?.getD (0, 0))
      let stop := r.2.getD (0, 0)
      onHart fun h =>
        ((h.setFibre fd t (es.map fun e => (e.1, e.2.bits)) es.length).setCursors stop.1 stop.2).raiseFlags
          (flagsOf (es.map fun e => e.2.fl))) s

/-- A value that passes alone into the result tag (R171). -/
def passAlone (c : VCfg) (t ta : Tag) (bits : Nat) : Res :=
  if isInt t then plain (ofInt (width t) (readInt ta bits)) else exactInto c ta t bits

/-- FINTER and FUNION (R171): `fi` combines integers and `ff` floats. -/
def combineValues (inter : Bool) (ints : Bool) (fi : Nat → Int → Int → Int) (ff : RMode → FVal → FVal → Exact)
    (fd fa fb : FIdx) (s : State) : Out :=
  combine inter fd fa fb (fun a b => (pairTag a b).filter fun t => !ints || isInt t)
    (fun h t ta tb m _ _ x y =>
      match m with
      | .onlyA => (x.1, passAlone h.vcfg t ta x.2)
      | .onlyB => (y.1, passAlone h.vcfg t tb y.2)
      | .both => (x.1,
        if isInt t then plain (ofInt (width t) (fi (width t) (readInt ta x.2) (readInt tb y.2)))
        else
          let r := h.rndPlain
          (fmtOf t).rndExact r (ff r.rm (readFloat h.vcfg ta x.2) (readFloat h.vcfg tb y.2)))) s

/-- Bitwise or of two integers in `w` bits. -/
def orInt (w : Nat) (a b : Int) : Int := (ofInt w a ||| ofInt w b : Nat)

def execFinterMul (fd fa fb : FIdx) (s : State) : Out :=
  combineValues true false (fun _ a b => a * b) (fun _ => fMul) fd fa fb s
def execFinterAdd (fd fa fb : FIdx) (s : State) : Out :=
  combineValues true false (fun _ a b => a + b) fAdd fd fa fb s
def execFunionAdd (fd fa fb : FIdx) (s : State) : Out :=
  combineValues false false (fun _ a b => a + b) fAdd fd fa fb s
def execFunionMax (fd fa fb : FIdx) (s : State) : Out :=
  combineValues false false (fun _ a b => max a b) (fun _ a b => (fMax a b, .zero)) fd fa fb s
def execFunionOr (fd fa fb : FIdx) (s : State) : Out :=
  combineValues false true orInt (fun _ a _ => (a, .zero)) fd fa fb s
def execFmerge (fd fa fb : FIdx) (s : State) : Out :=
  combine false fd fa fb (fun a b => if a = b then some a else none)
    (fun _ _ _ _ m _ _ x y => match m with | .onlyB => (y.1, plain y.2) | _ => (x.1, plain x.2)) s
def execFpos (fd fa fb : FIdx) (s : State) : Out :=
  combine true fd fa fb (fun a b => if isInt a = isInt b then some .n32 else none) (fun _ _ _ _ _ p q _ _ => (p, plain q)) s

end Sys2Proof.Machine
end

