-- ==== Sys2Proof/Machine/Fetch.lean ====
section
/-! DEFINITION. Fetching an instruction's parcels, and the checks of a convoy header and of a LOOPN body (R55, R69, R90,
R91, R267). -/
namespace Sys2Proof.Machine
open Sys2Proof

/-- The parcel of a list that begins at an address. -/
def parcelIn (start : Word) (l : List Parcel) (a : Word) : Option Parcel := l[((a - start).toNat) / 4]?

/-- The parcel at an address from memory; one that the hart has fetched ahead may be taken instead, as the device chooses, until
a FETCHB discards it (R266, R267). -/
def parcelNow (a : Word) : M Parcel := do
  match (← get).hart.ahead.find? (fun e => e.1 = a) with
  | some e => if Config.freeBool (← takeFree) then return e.2 else fetchParcel a
  | none => fetchParcel a

/-- The parcel at an address: from the loop buffer, from what a convoy header fetched, or from memory (R69, R90, R266). -/
def parcelAt (a : Word) : M Parcel := do
  let h := (← get).hart
  let inLoop := match h.loop with
    | some l => if l.holds a then parcelIn l.start l.body a else none
    | none => none
  match inLoop with
  | some p => return p
  | none =>
    match h.covered with
    | some c =>
      if c.start ≤ a then
        match parcelIn c.start c.parcels a with
        | some p => return p
        | none => parcelNow a
      else parcelNow a
    | none => parcelNow a

/-- Whether a parcel is the first of a vector instruction (R55). -/
def opensVector (p : Parcel) : Bool := p.toNat % 4 = 3

/-- The parcels of the instruction at the pc. -/
def fetchInstr : M (Parcel × Parcel) := do
  let pc := (← get).hart.pc
  let p0 ← parcelAt pc
  if opensVector p0 then return (p0, ← parcelAt (pc + 4)) else return (p0, 0)

/-- `n` parcels from an address. -/
def fetchRun (a : Word) : Nat → M (List Parcel)
  | 0 => return []
  | n + 1 => do
    let p ← parcelAt a
    return p :: (← fetchRun (a + 4) n)

/-- The vector instructions that a list of parcels holds, two parcels each; none where one is not a legal one. -/
def vectorRun : List Parcel → Option (List Instr)
  | p0 :: p1 :: t =>
    if opensVector p0 then
      match decode p0 p1, vectorRun t with
      | .ok i, some is => some (i :: is)
      | _, _ => none
    else none
  | [] => some []
  | [_] => none

/-- No unit code stands twice. -/
def distinctUnits : List UnitCode → Bool
  | [] => true
  | u :: t => !t.contains u && distinctUnits t

/-- Whether a header may cover these instructions (R69). -/
def convoyFits (units : List UnitCode) (is : List Instr) : Bool :=
  decide (is.length = units.length) && distinctUnits units
    && (is.zip units).all fun p => match p.1.vclass with
      | some c => c.accepts p.2
      | none => false

/-- The return-producing instructions of a list. -/
def returnsOf (is : List Instr) : Nat := (is.filter Instr.producesReturn).length

/-- The instructions that may not stand in a LOOPN body (R91). -/
def barredInBody : Instr → Bool
  | .loopn _ _ | .jal _ _ | .jalr _ _ _ | .eret => true
  | _ => false

/-- The first parcel of a LOOPN body that breaks R91, if any; `fuel` bounds the scan. -/
def badParcel : Nat → List Parcel → Option Parcel
  | 0, _ => none
  | _, [] => none
  | fuel + 1, p0 :: t =>
    match decode p0 (t.headD 0) with
    | .error _ => some p0
    | .ok i =>
      if barredInBody i || (opensVector p0 && t.isEmpty) then some p0
      else if opensVector p0 then badParcel fuel (t.drop 1)
      else match i with
        | .convoyHeader us =>
          match vectorRun (t.take (2 * us.length)) with
          | some is => if convoyFits us is then badParcel fuel t else some p0
          | none => some p0
        | _ => badParcel fuel t

/-- A convoy header (R68 to R70). A check that fails records the header in eval, and the checks of the header alone come before the fetch
of what it covers, the others after it.
DESIGN CHOICE, log entry 48: unsafe. -/
def execConvoyHeader (units : List UnitCode) (s : State) : Out :=
  finish 4 false (do
    let pc := s.hart.pc
    let n := 2 * units.length
    let inside := match s.hart.loop with
      | some l => !l.holds pc || l.holds (pc + BitVec.ofNat 64 (4 * n))
      | none => true
    illegalIf (!inside) (.convoyHeader units)
    let ps ← fetchRun (pc + 4) n
    match vectorRun ps with
    | none => illegal (.convoyHeader units)
    | some is => do
      illegalIf (!convoyFits units is || 16 < s.hart.retq.length + returnsOf is) (.convoyHeader units)
      onHart fun h => { h with covered := some ⟨pc + 4, ps⟩ }) s

end Sys2Proof.Machine
end

