-- ==== Sys2Proof/Machine/Control.lean ====
section
/-! DEFINITION. LOOPN, QRD and DRAIN, the trap instructions and PART (R90, R91, R95, R96, R228, R348, R349). -/
namespace Sys2Proof.Machine
open Sys2Proof

/-- The bits of a level record that are marked zero, or hold a kind LOOPN does not accept, are zero (R89). -/
def levelLegal (d : List Nat) : Bool :=
  d.headD 0 / 2 ^ 32 = 0 && (d.drop 1).all fun e => fld e 5 11 = 0
/-- One level record from its four dwords (R89). -/
def levelOf (d : List Nat) : LoopLevel where
  trips := BitVec.ofNat 32 (d.headD 0)
  incs := Vector.ofFn fun e =>
    let v := d[e.val + 1]?.getD 0
    ⟨Fin.ofNat 32 v, BitVec.ofNat 48 (v / 2 ^ 16)⟩

/-- LOOPN (R90, R91). -/
def execLoopn (a : SReg) (len : Fin 64) (s : State) : Out :=
  finishAt (do
    let D := s.getS a
    let pc := s.hart.pc
    raiseIf (D.toNat % 8 != 0) .misaligned D .load
    let hdr := (← readDwords D 1).headD 0
    let n := hdr % 8
    let ds ← readDwords (D + 8) (4 * n)
    let recs := (rangeFrom 0 n).map fun j => (ds.drop (4 * j)).take 4
    operandIf (n == 0 || 6 < n || hdr / 8 != 0 || !recs.all levelLegal)
    let body ← fetchRun (pc + 4) (len.val + 1)
    match badParcel 64 body with
    | some p => raise .illegal (BitVec.ofNat 64 p.toNat)
    | none => pure ()
    let stop := pc + 4 + BitVec.ofNat 64 (4 * (len.val + 1))
    let levels := recs.map levelOf
    let records := Vector.ofFn fun (j : Fin 6) => (levels[j.val]?).getD ⟨0, .replicate 3 ⟨0, 0⟩⟩
    if levels.any (fun l => l.trips == 0) then modify (retireTo stop)
    else do
      modify (retireTo (pc + 4))
      onHart fun h => { h with loop := some ⟨n, pc + 4, stop, .replicate 6 0, records, body⟩ }) s

/-- QRD (R95): with no return owed it is illegal; in this in-order model an owed value has arrived. -/
def execQrd (d : SReg) (s : State) : Out :=
  match s.hart.retq with
  | [] => trapNow .illegal (firstParcel (.qrd d)) .none s
  | v :: rest => .next (retire 4 ({ s with hart := { s.hart with retq := rest } }.setS d v))

/-- DRAIN (R96): what stands before it in the dispatch and engine queues has been performed; a store to another device leaves the store
queue with its response (R384). -/
def execDrain (dispatch ret store engine : Bool) (s : State) : Out :=
  if ret && !s.hart.retq.isEmpty then trapNow .illegal (firstParcel (.drain dispatch ret store engine)) .none s
  else if store && s.storeQueued then .next (waitHere s)
  else .next (retire 4 s)

/-- TRAP (R349): epc is the next parcel, after the back-edge of R91 where it stands last in a loop body. -/
def execTrap (code : BitVec 8) (s : State) : Out :=
  let t : TrapInfo := ⟨.systemCall, code.setWidth 64, .none⟩
  if s.hart.estat.tip then .next (takeTrap t s.hart.pc false false s)
  else
    let s' := retire 4 s
    .next (takeTrap t s'.hart.pc false false s')

def execEbreak (code : BitVec 8) (s : State) : Out := trapNow .breakpoint (code.setWidth 64) .none s

/-- ERET (R348). -/
def execEret (s : State) : Out :=
  if s.hart.mode == .user || !s.hart.estat.tip || !s.hart.retq.isEmpty then trapNow .illegal (firstParcel .eret) .none s
  else .next (returnFromTrap s)

/-- PART (R228). -/
def execPart (a : SReg) (s : State) : Out :=
  finish 4 false (do
    illegalIf (s.hart.mode == .user) (.part a)
    let v := (s.getS a).toNat
    operandIf (s.coreMap.length ≤ v % 256 || fld v 10 2 == 3 || v / 2 ^ 12 != 0)
    let mode := match fld v 10 2 with | 0 => PartMode.free | 1 => .pinned | _ => .closed
    let phys := s.coreMap[v % 256]?.getD 0
    modify fun s =>
      if h : phys < 192 then
        { s with cores := s.cores.set phys { s.cores[phys] with part := mode, partPlog := Fin.ofNat 4 (v / 2 ^ 8) } }
      else s) s

end Sys2Proof.Machine
end

