-- ==== Sys2Proof/Machine/HartOps.lean ====
section
/-! DEFINITION. Harts as units of the device: creation, placement, barriers, ending, launches and their dependences, saving
and resuming (R213 to R240, R353 to R359). -/
namespace Sys2Proof.Machine
open Sys2Proof

/-! ### The harts of the device -/

/-- Every hart, the current one first. -/
def State.harts (s : State) : List Hart := (s.hart :: s.others).filter (fun h => h.status != .absent)
/-- Every hart changed. -/
def State.mapHarts (s : State) (f : Hart → Hart) : State := { s with hart := f s.hart, others := s.others.map f }
/-- The hart with a creation number changed. -/
def State.onBorn (s : State) (born : Nat) (f : Hart → Hart) : State :=
  s.mapHarts fun h => if h.status != .absent && h.born == born then f h else h
/-- The launch of a number. -/
def State.launchOf (s : State) (id : Nat) : Option Launch := s.launches.find? (fun l => l.id = id)
/-- A launch changed. -/
def State.onLaunch (s : State) (id : Nat) (f : Launch → Launch) : State :=
  { s with launches := s.launches.map (fun l => if l.id = id then f l else l) }
/-- The hart of a creation number leaves its slot. -/
def State.dropHart (s : State) (born : Nat) : State :=
  { s with
    hart := if s.hart.status != .absent && s.hart.born == born then .fresh else s.hart
    others := s.others.filter (fun h => h.born != born) }
/-- The hart of a slot becomes the current one. -/
def State.turnTo (s : State) (p : Slot) : Option State :=
  match s.others.find? (fun h => h.status != .absent && h.place == p) with
  | none => if s.hart.status != .absent && s.hart.place == p then some s else none
  | some h =>
    let rest := s.others.filter (fun x => !(x.status != .absent && x.place == p))
    some { s with hart := h, others := if s.hart.status = .absent then rest else rest ++ [s.hart] }

/-! ### Barriers (R231 to R235) -/

def Barrier.start (parts : Nat) : Barrier := ⟨0, 0, parts, 0⟩
/-- Completion of the current phase (R232, R235). -/
def Barrier.turn (b : Barrier) : Barrier := ⟨b.phase + 1, 0, b.parts - b.leaving, 0⟩
/-- An arrival registers at the current phase (R232). -/
def Barrier.arrive (b : Barrier) : Barrier :=
  let b := { b with arrivals := b.arrivals + 1 }
  if b.arrivals = b.parts then b.turn else b
/-- A hart leaves: it stays counted where it has arrived (R235). -/
def Barrier.leave (b : Barrier) (arrived : Bool) : Barrier :=
  if arrived then { b with leaving := b.leaving + 1 }
  else
    let b := { b with parts := b.parts - 1 }
    if b.arrivals = b.parts then b.turn else b

/-- A hart leaves every barrier of its launch (R235); an arrival of its own that is still open registers first. -/
def Launch.leaveAll (l : Launch) (h : Hart) : Launch :=
  { l with barriers := Vector.ofFn fun i =>
      let b := l.barriers.get i
      match h.arrivals.get i with
      | none => b.leave false
      | some a =>
        let b := if a.phase = b.phase ∧ !a.registered then b.arrive else b
        b.leave (a.phase == b.phase) }

/-! ### Dependences (R223) -/

/-- A counter of the hart of a creation number: resident, pre-empted or kept. -/
def State.counterOf (s : State) (born : Nat) (n : WIdx) : Option (BitVec 32) :=
  match s.harts.find? (fun h => h.born = born) with
  | some h => some (h.counters.get n)
  | none =>
    match s.saved.find? (fun x => x.hart.born = born) with
    | some x => some (x.hart.counters.get n + BitVec.ofNat 32 (x.increments.filter (fun i => i.1 = n)).length)
    | none => (s.kept.find? (fun k => k.born = born)).map (fun k => k.counters.get n)

/-- A counter has reached its target (R223). -/
def reached (w target : BitVec 32) : Bool := (w - target).toNat < 2 ^ 31

/-- The dependences of a launch are met (R223). -/
def State.depsMet (s : State) (l : Launch) : Bool :=
  l.deps.all fun d => match s.counterOf l.parent d.cnt with
    | some w => reached w d.target
    | none => false

/-- Kept counters stay while a launch that is not admitted may depend on them (R223). -/
def State.trimKept (s : State) : State :=
  { s with kept := s.kept.filter (fun k => s.launches.any (fun l => !l.admitted && l.parent = k.born && !l.deps.isEmpty)) }

/-! ### The end of a hart (R225, R226, R235) -/

/-- How a hart ends: by HEXIT, or with a failure code of its launch. -/
inductive Ending where
  | exit
  | failed (code : BitVec 8)
deriving DecidableEq, Repr

/-- The launch's account of the end of one of its harts. -/
def Launch.account (l : Launch) (h : Hart) (how : Ending) : Launch :=
  let l := l.leaveAll h
  let l := match how with
    | .exit => { l with nexit := l.nexit + 1 }
    | .failed c => { l with code := if l.code < c then c else l.code }
  if h.merged then { l with mergedOut := l.mergedOut - 1 }
  else
    let quads := (l.rows.filter (·.quads)).foldl (fun n r => n * r.trips) 1
    let per := l.total / quads
    { l with
      ended := l.ended + 1
      binds := (l.binds.map (fun b => if b.index = h.quadIndex.toNat then { b with ended := b.ended + 1 } else b)).filter
        (fun b => b.ended < per) }

/-- A hart ceases to exist: its launch counts it, and its counters are kept while a launch depends on them. -/
def State.endHart (s : State) (h : Hart) (how : Ending) : State :=
  let s := s.onLaunch h.launch (·.account h how)
  let s := { s with kept := s.kept ++ [(⟨h.born, h.counters, h.cerr⟩ : Kept)] }
  (s.dropHart h.born).trimKept.unqueue (.hart h.born)

/-! ### Creation (R24, R214, R219, R255, R406) -/

/-- The storage of a hart's shelves: four runs of 8/P lanes. -/
def shelfRuns (p : Slot) (P : Nat) : List (Nat × Nat) :=
  (rangeFrom 0 4).map fun g => (shelfKey p.core p.slot.val P g 0 0, 8 / P * 65536)

/-- The shelves of a new hart read zero (R255). -/
def State.zeroShelves (s : State) (p : Slot) (P : Nat) : State :=
  (shelfRuns p P).foldl (fun s r =>
    { s with
      mem := s.mem.splice [] r.1 r.2
      poison := s.poison.filter (fun q => !(r.1 / 32 ≤ q && q < (r.1 + r.2) / 32)) }) s

/-- A hart enters its slot, with the next creation number. -/
def State.addHart (s : State) (h : Hart) : State :=
  let s := s.zeroShelves h.place h.parts
  let h := { h with status := .resident, born := s.nextId }
  if s.hart.status = .absent then { s with hart := h, nextId := s.nextId + 1 }
  else { s with others := s.others ++ [h], nextId := s.nextId + 1 }

/-- Scalar registers by number and value. -/
def Hart.setMany (h : Hart) (l : List (SReg × Word)) : Hart := l.foldl (fun h p => h.setS p.1 p.2) h

/-- The hart of a launch at a linear index, before it is placed (R219). -/
def Launch.hartOf (l : Launch) (place : Slot) (quad core linear : Nat) : Hart :=
  { Hart.fresh with
    place := place, ctx := l.ctx, launch := l.id
    linear := BitVec.ofNat 64 linear, quadIndex := BitVec.ofNat 64 quad, coreIndex := BitVec.ofNat 64 core
    pc := l.entry, pclass := l.cls, mode := if l.root then .supervisor else .user
    vcfg := { VCfg.reset with plog := l.plog } } |>.setMany
      (if l.root then [(3, l.arg)] else
        [(3, l.arg), (4, BitVec.ofNat 64 quad), (5, BitVec.ofNat 64 core), (6, BitVec.ofNat 64 linear), (7, l.nest)])

/-- Digits of a linear index over the spatial rows, the last fastest: (quad index, core index) (R218). -/
def indexOf (linear : Nat) : List SpatialRow → Nat × Nat
  | [] => (0, 0)
  | r :: t =>
    let below := t.foldl (fun n x => n * x.trips) 1
    let digit := linear / below % (max r.trips 1)
    let (q, c) := indexOf linear t
    let qs := (t.filter (·.quads)).foldl (fun n x => n * x.trips) 1
    let cs := (t.filter (!·.quads)).foldl (fun n x => n * x.trips) 1
    if r.quads then (digit * qs + q, c) else (q, digit * cs + c)

/-! ### Placement (R214, R228, R240) -/

/-- The harts on a core. -/
def State.onCore (s : State) (c : Nat) : List Hart := s.harts.filter (fun h => h.place.core.val = c)

/-- The slots of a core that no hart of its partition 2^plog holds; none where the core is closed, pinned to another
partition, divided otherwise, retired or on a debug-halted quad (R214, R228, R240, R370). -/
def State.slotsOpen (s : State) (plog : Fin 4) (c : Fin 192) : List Nat :=
  let core := s.cores.get c
  let here := s.onCore c.val
  if core.retired || s.haltedQuads.contains (quadOfCore c) then []
  else if core.part == .closed || (core.part == .pinned && core.partPlog != plog) then []
  else if here.any (fun h => h.vcfg.plog != plog) then []
  else (rangeFrom 0 (2 ^ plog.val)).filter fun k => !here.any (fun h => h.place.slot.val = k)

/-- The slots of a core that a hart of a context may take: those that wait for no pre-empted hart of the context (R180, R240). -/
def State.slotsFree (s : State) (ctx : Fin 64) (plog : Fin 4) (c : Fin 192) : List Nat :=
  (s.slotsOpen plog c).filter fun k =>
    !s.saved.any (fun x => x.hart.ctx = ctx ∧ x.hart.place.core = c ∧ x.hart.place.slot.val = k)

/-- The cores of a physical quad, ascending. -/
def coresOf (q : Fin 6) : List (Fin 192) := (List.finRange 192).filter (fun c => quadOfCore c = q)

/-- Free slots of a quad: those of a core count, reserved or not, unless all of them are reserved (R240). -/
def State.quadFree (s : State) (ctx : Fin 64) (plog : Fin 4) (q : Fin 6) : Nat :=
  ((coresOf q).map fun c => if (s.slotsFree ctx plog c).isEmpty then 0 else (s.slotsOpen plog c).length).foldl (· + ·) 0

/-- The core and slot a hart takes on a quad: a core already divided so first, else the lowest empty one (R240). -/
def State.placeOn (s : State) (ctx : Fin 64) (plog : Fin 4) (q : Fin 6) : Option Slot :=
  let ok := (coresOf q).filter (fun c => !(s.slotsFree ctx plog c).isEmpty)
  match ok.find? (fun c => !(s.onCore c.val).isEmpty), ok with
  | some c, _ | none, c :: _ => (s.slotsFree ctx plog c).head?.map (fun k => ⟨c, Fin.ofNat 8 k⟩)
  | none, [] => none

/-- The quad for an unbound quad index: most free slots, the lower number on a tie, no quad bound to another index (R240). -/
def State.chooseQuad (s : State) (l : Launch) : Option (Fin 6) :=
  let open_ := (List.finRange 6).filter fun q =>
    s.quadMap.contains q.val && !l.binds.any (fun b => b.quad = q) && 0 < s.quadFree l.ctx l.plog q
  open_.foldl (fun best q =>
    match best with
    | none => some q
    | some b => if s.quadFree l.ctx l.plog b < s.quadFree l.ctx l.plog q then some q else some b) none

/-- The next hart of a launch created, where a slot for it is free (R224, R240). -/
def State.createNext (s : State) (id : Nat) : Option State := do
  let l ← (s.launchOf id).filter (fun l => !(s.ctxs.get l.ctx).frozen)
  let (qi, ci) := indexOf l.created l.rows
  let q ← match l.binds.find? (fun b => b.index = qi) with
    | some b => some b.quad
    | none => s.chooseQuad l
  let p ← s.placeOn l.ctx l.plog q
  let h := l.hartOf p qi ci l.created
  let s := s.addHart h
  return s.onLaunch id fun l =>
    { l with
      created := l.created + 1
      admitted := l.created + 1 == l.total
      binds := if l.binds.any (fun b => b.index = qi) then l.binds else l.binds ++ [⟨qi, q, 0⟩] }

/-- `n` harts of a launch created together. -/
def State.createMany (s : State) (id : Nat) : Nat → Option State
  | 0 => some s
  | n + 1 => match s.createNext id with
    | some s' => s'.createMany id n
    | none => none

/-! ### Memory by physical address, for images and completion words (R225, R353, R406) -/

/-- The storage number of a byte of local memory under pmode 0b00. -/
def localKey (pa : Nat) : Nat :=
  match packageHome pa with
  | .cell key _ => key
  | _ => 0

/-- `n` bytes at a physical address of local memory, page by page. -/
def State.readPa (s : State) (pa n : Nat) : Nat → Nat
  | 0 => 0
  | fuel + 1 =>
    let k := min n (4096 - pa % 4096)
    if n = 0 then 0 else s.mem.readRange (localKey pa) k + 256 ^ k * s.readPa (pa + k) (n - k) fuel

/-- `n` bytes written at a physical address of local memory; the sectors that are written whole lose their poison. -/
def State.writePa (s : State) (pa n v : Nat) : Nat → State
  | 0 => s
  | fuel + 1 =>
    let k := min n (4096 - pa % 4096)
    if n = 0 then s
    else
      let key := localKey pa
      let s := s.storeRange key k (v % 256 ^ k)
      let s := s.clearPoison (s.poison.filter (fun q => key ≤ q * 32 && q * 32 + 32 ≤ key + k))
      s.writePa (pa + k) (n - k) (v / 256 ^ k) fuel

/-- Whether a byte of a physical run lies in a poisoned sector. -/
def State.paPoisoned (s : State) (pa n : Nat) : Nat → Bool
  | 0 => false
  | fuel + 1 =>
    let k := min n (4096 - pa % 4096)
    if n = 0 then false
    else (sectorsOf (localKey pa) k).any s.poison.contains || s.paPoisoned (pa + k) (n - k) fuel

/-- A command owns a line of a physical run of local memory: who reads or writes the run waits (R281). -/
def State.paOwned (s : State) (pa n : Nat) : Bool :=
  s.cmds.any fun c => (c.owned.filter fun l => isLocal (l * 128)).any fun l => let a := paOfKey (l * 128); pa < a + 128 && a < pa + n

/-- Pages that a run of bytes may touch. -/
def pagesOf (n : Nat) : Nat := n / 4096 + 2

/-! ### Pre-emption and resumption (R353 to R357) -/

/-- An image written at its slot of the save region. -/
def State.writeImage (s : State) (base : Nat) (l : List Blob) : State :=
  l.foldl (fun s b => s.writePa (base + b.off) b.len b.val (pagesOf b.len)) s

/-- The storage of an image's shelves read back. -/
def State.putShelves (s : State) (p : Slot) (P : Nat) (get : Nat → Nat) : State :=
  (rangeFrom 0 (32 / P)).foldl (fun s k =>
    let g := k / (8 / P); let l := k % (8 / P)
    { s with mem := s.mem.writeRange (shelfKey p.core p.slot.val P g l 0) 65536 (get k) }) s

/-- Where in its image the poisoned sectors of a hart's shelves stand. -/
def State.shelfPoison (s : State) (h : Hart) : List Nat :=
  let P := h.parts
  (rangeFrom 0 (32 / P)).flatMap fun k =>
    let key := shelfKey h.place.core h.place.slot.val P (k / (8 / P)) (k % (8 / P)) 0
    (s.poison.filter fun q => key / 32 ≤ q && q < (key + 65536) / 32).map fun q => shelvesAt P + 65536 * k + (q * 32 - key)

/-- A hart is saved and its slot freed; it becomes a resumption entry (R353). The poison of its shelves goes with their bytes (R262).
DEDUCED, log entry 56: unsafe. -/
def State.save (s : State) (h : Hart) (full : Bool) (resume : Word) : State :=
  let ctx := s.ctxs.get h.ctx
  let shs := bitOf ctx.swin[0].toNat 0
  let tls := if full then 2 ^ (8 / h.parts) - 1 else h.ltmask.toNat % 2 ^ (8 / h.parts)
  let base := saveSlot ctx.saveBase h.place
  let bad := if shs then s.shelfPoison h else []
  let s := bad.foldl (fun s off => s.addPoison (localKey (base + off) / 32)) (s.writeImage base (fullBlobs s h shs tls full resume))
  let gang := match s.launchOf h.launch with | some l => l.gang | none => false
  let s := s.dropHart h.born
  { s with saved := s.saved ++ [(⟨{ h.settled with pc := resume, early := [] }, s.nextId, gang, base, []⟩ : Saved)], nextId := s.nextId + 1 }

/-- Bytes a resumption reads: the small state, the registers and the sections that the header marks present. -/
def imageRuns (P hdr npig : Nat) : List (Nat × Nat) :=
  [(0, 0x1000 + 64 * regBytes P)]
    ++ ((rangeFrom 0 (8 / P)).filter (fun t => bitOf hdr (15 + t))).map (fun t => (tilesAt P + 262144 * t, 262144))
    ++ (if bitOf hdr 14 then [(shelvesAt P, 32 / P * 65536)] else [])
    ++ (if bitOf hdr 13 then [(pigeonAt P, 16 + 16 * npig)] else [])

/-- A completion counter's increment, with its error bit (R318). -/
def Hart.bump (h : Hart) (n : WIdx) (err : Bool) : Hart :=
  { h with counters := h.counters.set n (h.counters.get n + 1), cerr := h.cerr.set n (h.cerr.get n || err) }

/-- Bytes of an image's slot in a save region (R406). -/
def slotBytes : Nat := 6 * 2 ^ 20
/-- Where a hart's image goes (R353, R406). -/
def State.imageAt (s : State) (h : Hart) : Nat := saveSlot (s.ctxs.get h.ctx).saveBase h.place

/-- A saved hart restored from its image (R356, R357). -/
def State.restore (s : State) (x : Saved) : State :=
  let h := x.hart
  let P := h.parts
  let rd (off n : Nat) := s.readPa (x.image + off) n (pagesOf n)
  let hdr := rd 0 8
  let small := rd 0x200 0xE00
  let gate := unpack small 32 8
  let h1 := restoreSmall h hdr small
  let h2 := restoreLarge h1 hdr gate (fun r => rd (0x1000 + r * regBytes P) (regBytes P))
    (fun t => rd (tilesAt P + 262144 * t) 262144) (if bitOf hdr 13 then rd (pigeonAt P) (16 + 16 * (65536 / P)) else 0)
  let h3 := { h2.settled with
    status := if bitOf hdr 44 then .halted else .resident
    sregs := Vector.ofFn fun r => BitVec.ofNat 64 (rd (0x100 + 8 * r.val) 8)
    mode := modeOf (bitOf hdr 10), estat := EStat.ofWord (unpack small 112 8), prog := bitOf hdr 12
    pc := BitVec.ofNat 64 (rd 8 8), watch := none, covered := none
    credit := 0, yielded := 0, preempt := false, convoys := 0 }
  let h4 := x.increments.foldl (fun h i => h.bump i.1 i.2) h3
  let s := s.zeroShelves h.place P
  let s := if bitOf hdr 14 then s.putShelves h.place P (fun k => rd (shelvesAt P + 65536 * k) 65536) else s
  { s with
    saved := s.saved.filter (fun y => y.order != x.order)
    hart := if s.hart.status = .absent then h4 else s.hart
    others := if s.hart.status = .absent then s.others else s.others ++ [h4] }

/-- Whether a sector that a resumption reads is poisoned (R356). -/
def State.imagePoisoned (s : State) (x : Saved) : Bool :=
  let hdr := s.readPa x.image 8 2
  let P := x.hart.parts
  let npig := if bitOf hdr 13 then min (s.readPa (x.image + pigeonAt P) 8 2) (65536 / P) else 0
  (imageRuns P hdr npig).any (fun r => s.paPoisoned (x.image + r.1) r.2 (pagesOf r.2))

/-- Every store of a hart is performed and every request of it answered. -/
def State.quiet (s : State) (h : Hart) : Bool :=
  !s.fabric.outstanding.any (fun o => o.born = h.born && o.cmd = none) && !s.msgs.any (·.born = h.born)

/-- A hart may be stopped now: its stores are performed, its instruction is not one that is not withdrawn, it offers no batch, and no
covered convoy of it is under way (R290, R314, R352, R353). -/
def State.stoppable (s : State) (h : Hart) : Bool :=
  !h.underway && h.answers.isEmpty && h.offer.isNone && h.covered.isNone && s.quiet h

/-- A hart stands still by a freeze or a debug halt (R370, R409). -/
def State.heldStill (s : State) (h : Hart) : Bool :=
  (s.ctxs.get h.ctx).frozen || s.haltedQuads.contains (quadOfCore h.place.core)
/-- A hart may execute: it is resident, does not stand still, and waits for no answer (R347, R370, R384, R409). -/
def State.runnable (s : State) (h : Hart) : Bool := h.status == .resident && !s.heldStill h && !s.hasAsked h

/-- A hart with the members of its gang that hold slots: they are pre-empted as one unit (R236, R239). -/
def State.unitOf (s : State) (h : Hart) : List Hart :=
  match s.launchOf h.launch with
  | some l => if l.gang then s.harts.filter (fun x => x.launch = l.id) else [h]
  | none => [h]

/-- A hart and its gang saved, each full but one that stops at a PPT; none where one of them may not be stopped now, or stands on a
debug-halted quad (R353 to R355, R370). A freeze holds a request up only until its response, which is sent with it (R409). -/
def State.saveUnit (s : State) (h : Hart) (atPpt : Bool) : Option State :=
  let hs := s.unitOf h
  if hs.all (fun x => s.stoppable x && !s.haltedQuads.contains (quadOfCore x.place.core) && !s.paOwned (s.imageAt x) slotBytes) then
    some (hs.foldl (fun s x => s.save x (!(atPpt && x.born = h.born)) x.pc) s)
  else none

end Sys2Proof.Machine
end

