-- ==== Sys2Proof/Machine/VConvert.lean ====
section
/-! DEFINITION. VCVT and VCVTS (R44, R45, R116, R117). -/
namespace Sys2Proof.Machine
open Sys2Proof

/-- The value of an element of any tag (R31, R32, R34, R43). -/
def readValue (c : VCfg) (t : Tag) (bits : Nat) : FVal :=
  if isInt t then (let v := readInt t bits; if v = 0 then .zero false else .fin v) else readFloat c t bits

/-- A value rounded into a tag that is not E8M0, with the flags of what it came from (R36 to R38). -/
def intoTag (t : Tag) (r : Rnd) (x : Exact) : Res :=
  let y := if isInt t then rndInt t r x.1 else (fmtOf t).rnd r x.1
  ⟨y.bits, y.fl.or x.2⟩

/-- The conversion of R116. An infinity gives maxf where sat is set, whatever the tags (R37, R116).
DEDUCED, log entry 50: unsafe. -/
def convert (c : VCfg) (ts td : Tag) (r : Rnd) (bits : Nat) : Res :=
  if isInt ts && isInt td then
    let v := readInt ts bits
    plain (ofInt (width td) (if r.sat then clampInt td v else v))
  else intoTag td r (readValue c ts bits, .zero)

/-- sroff after a conversion with the advance bit (R40). -/
def Hart.advanceOff (h : Hart) (adv : Bool) : Hart := if adv then { h with sroff := h.sroff + BitVec.ofNat 64 h.vln } else h

def execVcvt (sat adv : Bool) (tag : Tag) (o : VUn) (s : State) : Out :=
  finish 8 false (do
    touch (VUn.regs o)
    let h := (← get).hart
    let ta := h.tag o.va
    operandIf (tag == .e8m0)
    checkAlu o.vd [ta] tag o.m
    onHart fun h => (h.elementwise o.vd tag o.m fun i =>
      convert h.vcfg ta tag (h.rndAt sat i) (h.srcElem o.va ta o.na i)).advanceOff adv) s

/-- The scale block of element `i` (R44). -/
def scaleBlock (blk : Fin 4) (i : Nat) : Nat :=
  match blk with
  | 0 => i / 16
  | 1 => i / 32
  | 2 => i / 64
  | 3 => 0

def execVcvts (sat adv : Bool) (tag : Tag) (o : VUn) (s : State) : Out :=
  finish 8 false (do
    touch (VUn.regs o ++ [1])
    let h := (← get).hart
    let ta := h.tag o.va
    let t1 := h.tag 1
    operandIf (!(t1 == .e8m0 || t1 == .f32) || o.va == 1 || o.vd == 1 || tag == .e8m0 || ta == .e8m0)
    checkAlu o.vd [ta] tag o.m
    onHart fun h => (h.elementwise o.vd tag o.m fun i =>
      let a := readValue h.vcfg ta (h.srcElem o.va ta o.na i)
      let sc := readFloat h.vcfg t1 (h.elem 1 t1 (scaleBlock h.vcfg.blk i))
      intoTag tag (h.rndAt sat i) (if width tag < width ta then fDiv a sc else fMul a sc)).advanceOff adv) s

end Sys2Proof.Machine
end

