-- ==== Sys2Proof/Machine/VSelect.lean ====
section
/-! DEFINITION. Selection and the transform unit (R128 to R135). -/
namespace Sys2Proof.Machine
open Sys2Proof

/-- The width of an order key: that of the value bits (R128). -/
def keyWidth (t : Tag) : Nat := if isFloat t then (fmtOf t).width else width t

/-- The order key of an element (R128). -/
def orderKey (c : VCfg) (t : Tag) (bits : Nat) : Nat :=
  let w := keyWidth t
  let b := bits % 2 ^ w
  let top := 2 ^ (w - 1)
  if isN t then b
  else if isI t then b ^^^ top
  else
    let b := if c.flushes t && (fmtOf t).isSubnormal b then b / top * top else b
    if b < top then b + top else 2 ^ w - 1 - b

/-- The bucket of an element: the top 8 bits of its key (R128). -/
def bucketOf (c : VCfg) (t : Tag) (bits : Nat) : Nat :=
  let w := keyWidth t
  if 8 ≤ w then orderKey c t bits / 2 ^ (w - 8) else orderKey c t bits * 2 ^ (8 - w)

/-- The candidates of a selection: the masked-in elements of [0, vl) that are not NaN (R129). -/
def Hart.candidates (h : Hart) (va : VIdx) (t : Tag) (m : Bool) : List Nat :=
  (h.selected m).filter fun i => isInt t || !((fmtOf t).value (h.elem va t i)).isNan

/-- Insertion after every key that is at least as large. -/
def insertRanked (x : Nat × Nat) : List (Nat × Nat) → List (Nat × Nat)
  | [] => [x]
  | y :: t => if y.1 < x.1 then x :: y :: t else y :: insertRanked x t

/-- Indices by descending key, ascending index among equal keys (R129). -/
def ranked (key : Nat → Nat) (l : List Nat) : List Nat :=
  (l.foldl (fun acc i => insertRanked (key i, i) acc) []).map (·.2)

/-- The register after vd. -/
def nextReg (vd : VIdx) : VIdx := vd + 1

/-- The registers of VTOPK and VSELGE. -/
def pairRegs (o : VOps) : List VIdx := VOps.regs o ++ (if o.vd.val < 63 then [nextReg o.vd] else [])

/-- A padding element: the canonical NaN, or zero where the tag has none (R129). -/
def padding (t : Tag) : Nat := if isFloat t then (fmtOf t).nan else 0

/-- VTOPK (R129). Under a flush bit a subnormal is ranked as the zero that R43 makes of it, and the register takes its own bits.
DESIGN CHOICE, log entry 61: unsafe. -/
def execVtopk (o : VOps) (s : State) : Out :=
  finish 8 false (do
    touch (pairRegs o)
    wholeVector
    let h := (← get).hart
    let t := h.tag o.va
    let k := h.srcNat o.src
    operandIf (t == .e8m0 || !(h.vlFits [t] && (!o.m || h.maskFits)) || k == 0 || h.vln < k || h.vlmax .i32 < k || o.vd == 63)
    let best := (ranked (fun i => orderKey h.vcfg t (h.elem o.va t i)) (h.candidates o.va t o.m)).take k
    let vals := (rangeFrom 0 k).map fun r => (r, match best[r]? with | some i => h.elem o.va t i | none => padding t)
    let idxs := (rangeFrom 0 k).map fun r => (r, match best[r]? with | some i => i | none => 2 ^ 32 - 1)
    onHart fun h => (h.putElems o.vd t vals).putElems (nextReg o.vd) .i32 idxs) s

def execVbkt (o : VOps) (s : State) : Out :=
  finish 8 false (do
    touch (VOps.regs o)
    wholeVector
    let h := (← get).hart
    let t := h.tag o.va
    let vb := match o.src with | .vv vb _ => vb | _ => o.va
    operandIf (h.tag o.vd != .n32 || h.tag vb != .n32 || t == .e8m0 || !(h.vlFits [t] && (!o.m || h.maskFits)))
    let bs := (h.candidates o.va t o.m).map fun i => bucketOf h.vcfg t (h.elem o.va t i)
    onHart fun h => h.putElems o.vd .n32 ((rangeFrom 0 256).map fun c =>
      (c, (h.elem vb .n32 c + (bs.filter (· == c)).length) % 2 ^ 32))) s

/-- VSELGE (R129), which ranks and writes subnormals as VTOPK does.
DESIGN CHOICE, log entry 61: unsafe. -/
def execVselge (o : VOps) (s : State) : Out :=
  finish 8 false (do
    needReturn (.vselge o)
    touch (pairRegs o)
    wholeVector
    let h := (← get).hart
    let t := h.tag o.va
    let v := h.srcNat o.src
    let c0 := v % 256
    let base := v / 256 % 2 ^ 24
    operandIf (t == .e8m0 || !(h.vlFits [t, .i32] && (!o.m || h.maskFits)) || o.vd == 63 || 2 ^ 24 < base + h.vln)
    let hits := (h.candidates o.va t o.m).filter fun i => c0 ≤ bucketOf h.vcfg t (h.elem o.va t i)
    onHart fun h => (h.putElems o.vd t (hits.zipIdx.map fun p => (p.2, h.elem o.va t p.1))).putElems (nextReg o.vd) .i32
      (hits.zipIdx.map fun p => (p.2, base + p.1))
    pushReturn hits.length) s

/-! ### Code tables (R132 to R135) -/

/-- The bank of a table that is active, or not. -/
def CodeTable.bank (t : CodeTable) (active : Bool) : BitVec Config.bankBits :=
  if t.sel == active then t.bank1 else t.bank0
/-- Entry `x` of a bank. -/
def bankEntry (b : BitVec Config.bankBits) (x : Nat) : Nat := getBits b.toNat (32 * x) 32

def execVlut (n : Fin 8) (vd va : VIdx) (m : Bool) (s : State) : Out :=
  finish 8 false (do
    touch ([vd, va] ++ maskReg m)
    let s ← get
    let h := s.hart
    let td := h.tag vd
    checkAlu vd [h.tag va] td m
    let b := (s.core.tables.get n).bank true
    onHart fun h => h.elementwise vd td m fun i =>
      plain (bankEntry b (h.elem va (h.tag va) i % 256) % 2 ^ width td)) s

/-- An accepted command of the current hart's core still reads the inactive bank of a table (R133, R316). -/
def State.bankRead (s : State) (n : Fin 8) : Bool :=
  s.cmds.any fun c => c.place.core = s.hart.place.core && c.job.cten && c.job.ctn = n && c.stage = .pending
    && c.bank != (s.core.tables.get n).sel

def execCtblW (n : Fin 8) (va : VIdx) (s : State) : Out :=
  finish 8 false (do
    touch [va]
    let h := (← get).hart
    operandIf (h.tag va != .n32)
    waitIf ((← get).bankRead n)
    let v := packList 0 4 ((rangeFrom 0 256).map fun i => h.elem va .n32 i)
    onHart Hart.vdone
    modify fun s =>
      let t := s.core.tables.get n
      let t := if t.sel then { t with bank0 := BitVec.ofNat _ v } else { t with bank1 := BitVec.ofNat _ v }
      s.setCore { s.core with tables := s.core.tables.set n t }) s

def execCtblSwap (n : Fin 8) (s : State) : Out :=
  finish 8 false (do
    onHart Hart.vdone
    modify fun s =>
      let t := s.core.tables.get n
      s.setCore { s.core with tables := s.core.tables.set n { t with sel := !t.sel } }) s

/-- How a decode ends: the symbols, the final bit position and the status (R135). -/
structure Decoded where
  syms : List Nat
  pos : Nat
  status : Nat
deriving DecidableEq, Repr

/-- The loop of R135: `room` symbols may still be written. -/
def decodeBits (table : BitVec Config.bankBits) (bits B w : Nat) (p : Nat) : Nat → Decoded
  | 0 => ⟨[], p, if p < B then 1 else 0⟩
  | room + 1 =>
    if B ≤ p then ⟨[], p, 0⟩
    else
      let e := bankEntry table (bits % 2 ^ B / 2 ^ p % 256)
      let len := fld e 16 4
      let xb := fld e 21 3
      if !bitOf e 20 || len = 0 || 8 < len || fld e 24 8 ≠ 0 then ⟨[], p, 2⟩
      else if B < p + len + xb then ⟨[], p, 3⟩
      else
        let v := (e % 2 ^ 16 + bits / 2 ^ (p + len) % 2 ^ xb) % 2 ^ w
        let r := decodeBits table bits B w (p + len + xb) room
        { r with syms := v :: r.syms }

/-- The bytes of a register as one number, byte 0 lowest (R15). -/
def Hart.bitString (h : Hart) (r : VIdx) : Nat :=
  packList 0 1 ((rangeFrom 0 (h.vlmax .n8)).map fun i => h.elem r .n8 i)

def execVdec (n : Fin 8) (vd va vb : VIdx) (s : State) : Out :=
  finish 8 false (do
    needReturn (.vdec n vd va vb)
    touch [vd, va, vb]
    wholeVector
    let s ← get
    let h := s.hart
    let t := h.tag vd
    let B := h.elem vb .n32 0
    operandIf (h.tag vb != .n32 || 8 * h.vlmax .n8 < B || B < h.cura.toNat || !h.vlFits [t])
    let r := decodeBits ((s.core.tables.get n).bank true) (h.bitString va) B (width t) h.cura.toNat h.vln
    onHart fun h =>
      let h := h.putElems vd t (r.syms.zipIdx.map fun p => (p.2, p.1))
      if r.status = 0 then { h with cura := 0, curb := 0 }
      else { h with cura := BitVec.ofNat 32 r.pos, curb := h.curb + BitVec.ofNat 32 r.syms.length }
    pushReturn (r.syms.length + r.status * 2 ^ 32)) s

end Sys2Proof.Machine
end

