-- ==== Sys2Proof/Machine/Engines.lean ====
section
/-! DEFINITION. Engine commands: their fields, what they reach, their data, and how they end (R304 to R311, R315 to R319,
R325). -/
namespace Sys2Proof.Machine
open Sys2Proof

/-! ### A command's fields (R304 to R307) -/

/-- Dword `k` of a command. -/
def cdw (d : List Word) (k : Nat) : Nat := (d[k]?.getD 0).toNat

/-- The six trip counts of dwords 5 to 7. -/
def tripsOf (d : List Word) : List Nat := [5, 6, 7].flatMap fun k => [cdw d k % 2 ^ 32, cdw d k / 2 ^ 32]
/-- A signed stride of dwords 8 to 13. -/
def strideOf (d : List Word) (dst : Bool) (k : Nat) : Int := toSigned 32 (cdw d (8 + k) / 2 ^ (if dst then 32 else 0))

/-- The fields of a command; none where a code is reserved or a field marked zero is not (R306, R307, R314). -/
def jobOf (d : List Word) : Option Job :=
  let c := cdw d 2
  match tagOf (fld c 8 5), tagOf (fld c 13 5), rmOf (fld c 18 3) with
  | some stag, some dtag, some rm =>
    let ndim := fld c 4 3
    if ndim = 0 || 6 < ndim || c / 2 ^ 40 != 0 || fld c 27 2 = 3 || ((tripsOf d).drop ndim).any (· != 0) then none
    else some {
      op := fld c 0 4, conv := bitOf c 7, stag := stag, dtag := dtag, rm := rm, sat := bitOf c 21, fz := bitOf c 22
      cnt := Fin.ofNat 16 (fld c 23 4), kmode := fld c 27 2, kfill := bitOf c 29, kn := Fin.ofNat 8 (fld c 30 3)
      kdim := fld c 33 3, cten := bitOf c 36, ctn := Fin.ofNat 8 (fld c 37 3)
      trips := (tripsOf d).take ndim
      sstr := (rangeFrom 0 ndim).map (strideOf d false)
      dstr := (rangeFrom 0 ndim).map (strideOf d true)
      src := d[0]?.getD 0, dst := d[1]?.getD 0, key := d[3]?.getD 0, off := d[4]?.getD 0
      erec := d[14]?.getD 0, extra := d[15]?.getD 0 }
  | _, _, _ => none

/-- A level walk of the stream engine (R311). -/
def isWalk (e : Engine) (j : Job) : Bool := e = .ste && j.op = 1

/-- The iterations of a nest. -/
def Job.count (j : Job) : Nat := j.trips.foldl (· * ·) 1

/-- The alignment of one side of a nest (R307). -/
def sideAligned (w trip0 : Nat) (base : Word) (strs : List Int) : Bool :=
  if w < 8 then strs.headD 0 = 0 && trip0 * w % 8 = 0
  else base.toNat % (w / 8) = 0 && strs.all (fun s => s % ((w / 8 : Nat) : Int) = 0)

/-- The rules of R304 to R312 that a command's own fields decide. -/
def Job.legal (e : Engine) (j : Job) : Bool :=
  (match e with | .cpe => j.op = 0 | .ste => j.op ≤ 1 | .coe => j.op ≤ 4)
    && j.count < 2 ^ 48
    && (j.kmode = 0 || j.kdim < j.trips.length)
    && !(j.conv && j.cten) && !(j.conv && j.dtag = .e8m0) && (j.conv || j.cten || j.stag = j.dtag)
    && j.erec.toNat % 32 = 0
    && (if isWalk e j then
          j.trips.length = 1 && j.sstr.all (· = 0) && j.dstr.all (· = 0) && j.kmode = 0 && !j.conv && !j.cten
            && 8 ≤ width j.stag && j.dst.toNat % 8 = 0 && j.src.toNat % 8 = 0
        else sideAligned (width j.stag) (j.trips.headD 0) j.src j.sstr
            && sideAligned (width j.dtag) (j.trips.headD 0) j.dst j.dstr)
    && (match e with | .coe => j.kmode = 0 && !j.cten | _ => isWalk e j || j.extra = 0)

/-- The digits of a linear index, dimension 0 fastest (R307). -/
def digitsOf (n : Nat) : List Nat → List Nat
  | [] => []
  | t :: ts => n % t :: digitsOf (n / t) ts

/-- The address and bit of an iteration's element on one side (R307). -/
def nestAddr (base : Word) (strs : List Int) (it : List Nat) (w : Nat) : Word × Nat :=
  let outer := ((it.drop 1).zip (strs.drop 1)).foldl (fun (a : Int) p => a + p.1 * p.2) 0
  let i0 := it.headD 0
  if w < 8 then (base + BitVec.ofInt 64 (outer + (i0 * w / 8 : Nat)), i0 * w % 8)
  else (base + BitVec.ofInt 64 (outer + i0 * strs.headD 0), 0)

/-- kept(i) of R310. -/
def keptIndex (kmode : Nat) (mask : Word) (i : Nat) : Bool :=
  let b := i / 32 % 8
  match kmode with
  | 1 => (rangeFrom 0 8).any fun br => bitOf mask.toNat (8 * br + b)
  | 2 => (rangeFrom 0 8).any fun bc => bitOf mask.toNat (8 * b + bc)
  | _ => true

/-- One iteration: its linear index, whether it moves data, and both addresses with their bits. -/
structure Iter where
  n : Nat
  kept : Bool
  src : Word × Nat
  dst : Word × Nat
deriving DecidableEq, Repr

/-- The iterations of a nest in linear order. -/
def Job.iters (j : Job) (mask : Word) : List Iter :=
  (rangeFrom 0 j.count).map fun n =>
    let it := digitsOf n j.trips
    ⟨n, j.kmode = 0 || keptIndex j.kmode mask (it[j.kdim]?.getD 0),
      nestAddr j.src j.sstr it (width j.stag), nestAddr j.dst j.dstr it (width j.dtag)⟩

/-! ### Where a command's bytes lie (R315, R316) -/

/-- The place `o` bytes further on, within a page. -/
def Loc.plus (o : Nat) : Loc → Loc
  | .cell key die => .cell (key + o) die
  | .repl q off => .repl q (off + o)
  | .shelf off => .shelf (off + o)
  | .mgmt off => .mgmt (off + o)
  | .host a => .host (a + o)
  | .fabric dev off => .fabric dev (off + o)

/-- Where an address lies by the pages translated at acceptance, and its physical address. -/
def findPage (pages : List CmdPage) (va : Word) : Option (Loc × Nat) :=
  (pages.find? (fun p => p.vpage = va.toNat / 4096)).map fun p =>
    (p.loc.plus (va.toNat % 4096), p.pa + va.toNat % 4096)

/-- The pages that `n` bytes from an address touch. -/
def pagesFrom (va : Word) (n : Nat) : List Nat :=
  if n = 0 then []
  else (rangeFrom 0 ((va.toNat % 4096 + n - 1) / 4096 + 1)).map fun k => (va.toNat / 4096 + k) % 2 ^ 52

/-- A page that an engine may reach: no device memory, shelf or management space (R314). -/
def pageAllowed (t : Target) : Bool :=
  !t.device && match t.loc with
    | .shelf _ | .mgmt _ => false
    | _ => true

/-- Work for a command, where a trap is an answer: none, with the state as before it. A wait leaves with the state as before it too. -/
def orRejected {α : Type} (m : M (Option α)) : M (Option α) := fun s =>
  match m s with
  | .ok (some a) s' => .ok (some a) s'
  | .ok none s' | .error (.trap _) s' => .ok none { s with free := s'.free }
  | .error _ s' => .error .pause { s with free := s'.free }

/-- What an address of the current hart's batch reaches, under vatp and the windows as the ECMD read its group (R316). -/
def offerTarget (va : Word) (acc : Access) : M Target := do
  let s ← get
  match s.hart.offer with
  | some o => resolveAs s.hart.place.core o.swin o.vatp s.hart.mode va acc
  | none => resolveAs s.hart.place.core s.ctx.swin s.ctx.vatp s.hart.mode va acc

/-- Pages translated for the current hart's batch; none where one fails (R314). -/
def enginePages : List (Nat × Access) → M (Option (List CmdPage))
  | [] => return some []
  | p :: rest => do
    match ← orRejected (some <$> offerTarget (BitVec.ofNat 64 (p.1 * 4096)) p.2) with
    | none => return none
    | some t =>
      if pageAllowed t then do
        let page : CmdPage := ⟨p.1, (← get).served t.loc, t.pa⟩
        return (← enginePages rest).map (page :: ·)
      else return none

/-- The storage numbers of the first byte of a place: every replica of a replicated page; none outside the package. -/
def Loc.keys : Loc → List Nat
  | .cell key _ => [key]
  | .repl q off => replKeys q off
  | .host a => [hostBase + a]
  | _ => []

/-- Scratch storage that engines reach. -/
def isScratch (key : Nat) : Bool := cupboardBase ≤ key && key < shelfBase

/-- The interval of scratch bytes among runs of storage (R282). -/
def scratchSpan (runs : List (Nat × Nat)) : Option (Nat × Nat) :=
  match runs.filter (fun r => isScratch r.1) with
  | [] => none
  | r :: t => some (t.foldl (fun a x => Nat.min a x.1) r.1, t.foldl (fun a x => Nat.max a (x.1 + x.2)) (r.1 + r.2))

/-- The runs of storage behind accesses: address, bit, bits. -/
def runsOf (pages : List CmdPage) (l : List (Word × Nat × Nat)) : List (Nat × Nat) :=
  l.flatMap fun a =>
    match findPage pages a.1 with
    | some (loc, _) => loc.keys.map fun k => (k, (a.2.1 + a.2.2 + 7) / 8)
    | none => []

/-- The lines of local memory among runs of storage (R281). -/
def runLines (runs : List (Nat × Nat)) : List Nat :=
  (runs.filter (fun r => isLocal r.1)).foldl (fun l r => (sectorsOf r.1 r.2).foldl (fun l q => insertNat (q / 4) l) l) []

/-- A line of another device, as the fabric window numbers it (R368). -/
def isFar (key : Nat) : Bool := 2 ^ 55 ≤ key
/-- The runs of other devices' bytes behind accesses, as the fabric window numbers them. -/
def farRuns (pages : List CmdPage) (l : List (Word × Nat × Nat)) : List (Nat × Nat) :=
  l.filterMap fun a => match findPage pages a.1 with
    | some (.fabric dev off, _) => some (fabricPlace dev off, (a.2.1 + a.2.2 + 7) / 8)
    | _ => none
/-- Every run of bytes behind accesses, of this device and of others. -/
def allRuns (pages : List CmdPage) (l : List (Word × Nat × Nat)) : List (Nat × Nat) := runsOf pages l ++ farRuns pages l
/-- The lines of normal memory that accesses touch, of this device and, through the fabric window, of others (R281, R368). -/
def ownedLines (pages : List CmdPage) (l : List (Word × Nat × Nat)) : List Nat :=
  (farRuns pages l).foldl (fun l r => (sectorsOf r.1 r.2).foldl (fun l q => insertNat (q / 4) l) l) (runLines (runsOf pages l))

/-- The commands accepted before one (R315). -/
def State.earlier (s : State) (c : Cmd) : List Cmd := s.cmds.filter (fun x => x.id < c.id)
/-- A command's reads or writes wait for an earlier one, and for a locked line (R153, R281, R315, R324). -/
def State.cmdWaits (s : State) (c : Cmd) (reads writes : List (Nat × Nat)) : Bool :=
  (reads ++ writes).any (fun r => s.locked r.1 r.2) || (s.earlier c).any fun x =>
    reads.any (fun r => x.owns r.1 r.2 || meets x.rsbDst r.1 (r.1 + r.2))
      || writes.any (fun r => x.owns r.1 r.2 || meets x.rsbDst r.1 (r.1 + r.2) || meets x.rsbSrc r.1 (r.1 + r.2))

/-! ### A command changed, and its end (R318, R325) -/

/-- A command changed. -/
def State.onCmd (s : State) (id : Nat) (f : Cmd → Cmd) : State :=
  { s with cmds := s.cmds.map fun c => if c.id = id then f c else c }
/-- A request of a command has no response yet, or is still to leave. -/
def State.cmdFlying (s : State) (id : Nat) : Bool :=
  s.fabric.outstanding.any (fun o => o.cmd = some id) || s.cmds.any (fun c => c.id = id && !c.sends.isEmpty)
/-- A request of this command failed (R385). -/
def Cmd.lost (c : Cmd) : Bool := c.answers.any (·.failed)
/-- The lines of a command that it still owns once its data has left: those of other devices, until their writes are performed (R281). -/
def Cmd.release (c : Cmd) : Cmd := { c with owned := c.owned.filter fun l => isFar (l * 128) }
/-- The data of a command is settled: it ends with a code, a failed request's before another, and its lines are released
(R281, R385). -/
def Cmd.settle (code : BitVec 8) (place : Word) (c : Cmd) : Cmd :=
  { c.release with stage := if c.lost && code != 3 then .moved 2 0 else .moved code place }
/-- A command that another cause ends at once, unless its data has moved. -/
def Cmd.fail (code : BitVec 8) (c : Cmd) : Cmd :=
  match c.stage with
  | .moved _ _ => c
  | _ => { c.release with stage := .moved code 0 }
/-- A command whose request failed after its data had moved ends with the failure's code. -/
def Cmd.failLate (code : BitVec 8) (c : Cmd) : Cmd :=
  match c.stage with
  | .moved k _ => if k = 3 || k = 4 then c else { c with stage := .moved code 0 }
  | _ => c

/-- An increment for the hart of a creation number: resident, pre-empted, or with kept counters; else dropped (R223, R226,
R325). -/
def State.bumpCounter (s : State) (born : Nat) (n : WIdx) (err : Bool) : State :=
  let s := s.onBorn born (·.bump n err)
  { s with
    saved := s.saved.map (fun x => if x.hart.born = born then { x with increments := x.increments ++ [(n, err)] } else x)
    kept := s.kept.map (fun k => if k.born = born then
      { k with counters := k.counters.set n (k.counters.get n + 1), cerr := k.cerr.set n (k.cerr.get n || err) } else k) }

/-- An answer for a command. -/
def State.giveAnswer (s : State) (id : Nat) (a : RemoteAnswer) : State :=
  s.onCmd id fun c => { c with answers := c.answers ++ [a] }
/-- A request of a command has failed (R385, R394). -/
def State.cmdFails (s : State) (id dev off n : Nat) : State :=
  (s.giveAnswer id ⟨dev, off, n, [], [], true⟩).onCmd id (Cmd.failLate 2)

/-- The requests of a command leave as far as their streams have room; to a device that no route reaches one fails at once (R382,
R385). Those that stay are given. -/
def State.sendReady (s : State) (c : Cmd) : List CmdSend → State × List CmdSend
  | [] => (s, [])
  | x :: t =>
    if s.fabric.unreachable x.dev then (s.cmdFails c.id x.dev x.off x.len).sendReady c t
    else if s.fabric.full x.dev x.ocls then
      let r := s.sendReady c t
      (r.1, x :: r.2)
    else
      let p := s.fabric.packet x.dev x.ocls x.off c.place
      let req : OutReq := ⟨p.txn, x.dev, x.ocls, p.seq, c.owner, x.off, x.len, false, false, fabricAddr x.dev x.off, some c.id, false⟩
      (s.sendMsg req (x.msg.mapPacket fun q => { q with seq := p.seq, txn := p.txn, dt := p.dt })).sendReady c t
/-- What a command still has to send leaves as far as it can. -/
def State.flushCmd (s : State) (c : Cmd) : State :=
  let r := s.sendReady c c.sends
  r.1.onCmd c.id fun c => { c with sends := r.2 }
/-- Every command sends what it can. -/
def State.flushAll (s : State) : State :=
  s.cmds.foldl (fun s c => ((s.cmds.find? (fun x => x.id = c.id)).map s.flushCmd).getD s) s

/-- A request of a command to another device: it leaves when its stream has room. -/
def State.cmdSend (s : State) (c : Cmd) (cls : Ocls) (dev off n : Nat) (msg : Packet → OutMsg) : State :=
  let x : CmdSend := ⟨cls, dev, off, n, msg (s.fabric.packet dev cls off c.place)⟩
  s.onCmd c.id fun c => { c with sends := c.sends ++ [x] }
/-- A request of a command of its engine's class (R381). -/
def cmdRequest (c : Cmd) (dev off n : Nat) (mk : Packet → Packet) (msg : Packet → OutMsg) : M Unit :=
  modify fun s => s.cmdSend c 2 dev off n fun p => msg (mk p)

/-! ### Announces (R391) -/

/-- Device of a participant-list entry (R390). -/
def entryDev (e : Word) : Nat := e.toNat % 1024
/-- The devices of a collective but this one. -/
def Coll.peersOf (k : Coll) : List Nat := (k.key.plist.map entryDev).eraseIdx k.self

/-- Whether an accepted command is held behind an earlier one of its group tag and position (R391). -/
def State.heldBack (s : State) (c : Cmd) (k : Coll) : Bool :=
  s.cmds.any fun x => x.id < c.id && (match x.coll with | some y => y.key.gtag = k.key.gtag && y.self = k.self | none => false)

/-- The bytes that what a command announces travels as, whose layout the spec does not give.
DESIGN CHOICE, log entry 26: safe. -/
def CollKey.payload (k : CollKey) : List Byte :=
  bytesOf k.gtag.toNat 8 ++ bytesOf (k.op + k.rop * 16 + k.stag * 64 + k.dtag * 2 ^ 11 + k.rm * 2 ^ 16
      + bitN k.conv * 2 ^ 20 + bitN k.sat * 2 ^ 21 + bitN k.fz * 2 ^ 22) 4
    ++ bytesOf k.np 2 ++ bytesOf k.trips.length 2 ++ k.trips.flatMap (bytesOf · 8) ++ k.plist.flatMap (bytesOf ·.toNat 8)

/-- A command's announce goes to every other participant (R391). -/
def State.announceOf (s : State) (c : Cmd) (k : Coll) : State :=
  let s := s.onCmd c.id fun c => { c with coll := some { k with announced := true } }
  let parts := payloadParts (CollKey.payload k.key)
  k.peersOf.foldl (fun s dev => parts.zipIdx.foldl (fun s x =>
    s.cmdSend c 2 dev 0 0 fun p => .announce { p with data := x.1, closing := x.2 + 1 = parts.length } k.key) s) s

/-- A command that has announced takes part in the pairing of a group tag with a device. -/
def Cmd.pairs (c : Cmd) (a : Announced) : Bool :=
  match c.coll with
  | some k => k.announced && k.key.gtag = a.key.gtag && k.peersOf.contains a.src && !k.peers.contains a.src
  | none => false
/-- The command an announce meets: one that it matches before any other. -/
def State.metBy (s : State) (a : Announced) : Option Cmd :=
  match s.cmds.find? (fun c => c.pairs a && (c.coll.map Coll.key) = some a.key) with
  | some c => some c
  | none => s.cmds.find? (fun c => c.pairs a)

/-- One announce met: it matches, or both commands fail with code 0x07. -/
def Cmd.meetAnnounce (a : Announced) (c : Cmd) : Cmd :=
  match c.coll with
  | some k =>
    let c := { c with coll := some { k with peers := k.peers ++ [a.src] } }
    if k.key = a.key then c else c.fail 7
  | none => c

/-- The announces that have arrived, each met by the command it pairs with: one whose own command ended before the announce
came is dropped. -/
def State.pairAnnounces (s : State) : List Announced → State
  | [] => s
  | a :: t =>
    if s.unpaired.contains (a.key.gtag, a.src) then
      State.pairAnnounces { s with unpaired := s.unpaired.erase (a.key.gtag, a.src) } t
    else match s.metBy a with
      | some c => State.pairAnnounces (s.onCmd c.id (Cmd.meetAnnounce a)) t
      | none => State.pairAnnounces { s with announces := s.announces ++ [a] } t

/-- Every command whose turn has come announces, and the announces held here are paired again. -/
def State.announceReady (s : State) : State :=
  let s := s.cmds.foldl (fun s c =>
    match c.coll with
    | some k => if k.announced || s.heldBack c k then s else s.announceOf c k
    | none => s) s
  (State.pairAnnounces { s with announces := [] } s.announces).flushAll

/-- A collective command leaves: its announces that no peer has answered are remembered. -/
def Cmd.leaves (c : Cmd) : List (Word × Nat) :=
  match c.coll with
  | some k => if k.announced then (k.peersOf.filter (fun d => !k.peers.contains d)).map (k.key.gtag, ·) else []
  | none => []

/-- Code of an engine in a record (R318). -/
def engineCode : Engine → Nat
  | .cpe => 0 | .ste => 1 | .coe => 2

/-- The error record of a failed command (R318). -/
def Cmd.record (c : Cmd) (code : BitVec 8) (place : Word) : Nat :=
  code.toNat + engineCode c.engine * 2 ^ 8 + c.quad.val * 2 ^ 10 + c.job.cnt.val * 2 ^ 13
    + place.toNat * 2 ^ 64 + c.job.src.toNat * 2 ^ 128 + c.job.dst.toNat * 2 ^ 192

/-- The storage of a command's error record. -/
def Cmd.recordKeys (c : Cmd) : List Nat :=
  match findPage c.pages c.job.erec with
  | some (loc, _) => loc.keys
  | none => []

/-- A command that an ECANCEL of its hart has asked to stop has ended with code 0x03 (R322). -/
def Hart.countCancelled (h : Hart) (id : Nat) : Hart :=
  match h.cancelling with
  | some l => if l.contains id then { h with canCount := h.canCount + 1 } else h
  | none => h

/-- A command ends now: none while it cannot (R281, R318). -/
def State.endCommand (s : State) (c : Cmd) : Option State :=
  match c.stage with
  | .moved code place =>
    if s.cmdFlying c.id then none
    else
      let s' := { s with cmds := s.cmds.filter (fun x => x.id != c.id), unpaired := s.unpaired ++ c.leaves }.announceReady
      if code = 0 then some (s'.bumpCounter c.owner c.job.cnt false)
      else if s.cmdWaits c [] (c.recordKeys.map (·, 32)) then none
      else
        let s' := s'.putCells (c.recordKeys.map fun k => (k, 0, 256, c.record code place))
        let s' := s'.bumpCounter c.owner c.job.cnt true
        some (if code = 3 then s'.onBorn c.owner (·.countCancelled c.id) else s')
  | _ => none

/-! ### Reading a source (R307 to R310, R319) -/

/-- What a source access gives: its bits, and the physical address of its sector where that is poisoned. -/
structure Fetched where
  bits : Nat
  bad : Option Nat
deriving DecidableEq, Repr

/-- `w` bits from bit `b` at a place. -/
def Cmd.fetchAt (c : Cmd) (loc : Loc) (pa b w : Nat) : M Fetched := do
  let s ← get
  let n := (b + w + 7) / 8
  let cut (v : Nat) : Nat := v / 2 ^ b % 2 ^ w
  match loc with
  | .host a => return ⟨cut (ofBytes (← hostBytes a n)), none⟩
  | .fabric dev off =>
    match c.answers.find? (fun r => r.dev = dev ∧ r.off ≤ off ∧ off < r.off + r.data.length) with
    | some r => return ⟨cut (ofBytes ((r.data.drop (off - r.off)).take n)),
        if r.poisoned.contains (off / 32 * 32) then some (pa / 32 * 32) else none⟩
    | none => return ⟨0, none⟩
  | loc =>
    match loc.keys with
    | key :: _ => return ⟨cut (s.mem.readRange key n), if s.poisoned key then some (pa / 32 * 32) else none⟩
    | [] => return ⟨0, none⟩

/-- `w` bits at an address of a command's pages. -/
def Cmd.fetch (c : Cmd) (pages : List CmdPage) (a : Word × Nat) (w : Nat) : M Fetched :=
  match findPage pages a.1 with
  | some (loc, pa) => c.fetchAt loc pa a.2 w
  | none => return ⟨0, none⟩

/-- The sectors of other devices that accesses read: device and sector. -/
def remoteSectors (pages : List CmdPage) (l : List (Word × Nat × Nat)) : List (Nat × Nat) :=
  (l.flatMap fun a =>
    match findPage pages a.1 with
    | some (.fabric dev off, _) => (sectorsOf off ((a.2.1 + a.2.2 + 7) / 8)).map fun q => (dev, q)
    | _ => []).eraseDups


/-- Whether every remote sector has been read; else the read packets of those that have not leave (R384, R385). -/
def askEngine (c : Cmd) (secs : List (Nat × Nat)) : M Bool := do
  let missing := secs.filter fun x =>
    !c.answers.any (fun r => r.dev = x.1 && r.off ≤ x.2 * 32 && x.2 * 32 < r.off + r.data.length)
  if missing.isEmpty then return true
  else do
    let runs := mergeRuns ((missing.map fun x => x.1 * 2 ^ 40 + x.2).foldl (fun l x => insertNat x l) [])
    runs.forM fun r =>
      cmdRequest c (r.1 / 2 ^ 40) (r.1 % 2 ^ 40 * 32) (r.2 * 32) (fun p => { p with len := r.2 * 32 }) .read
    return false

/-- The flush bits of a conversion by an engine (R309). -/
def Job.cfg (j : Job) : VCfg := { VCfg.reset with fzw := j.fz, fzh := j.fz, fz8 := j.fz, fz6 := j.fz, rm := j.rm }

/-- f of R309: all 8 bits of an E3M2 or E2M3 element that is copied or looked up, bits 7:6 too.
DESIGN CHOICE, log entry 42: unsafe. -/
def Job.f (j : Job) (table : BitVec Config.bankBits) (n x : Nat) : Nat :=
  if j.conv then
    let bits := if j.rm = .stochastic then philox j.key.toNat ((j.off.toNat + n) % 2 ^ 64) else 0
    (convert j.cfg j.stag j.dtag ⟨j.rm, j.sat, bits⟩ x).bits
  else if j.cten then bankEntry table (x % 256) % 2 ^ width j.dtag
  else x

/-! ### Writing a destination (R307, R319) -/

/-- One write of a command: where, which bits, and whether the value derives from a poisoned sector. -/
structure Put where
  loc : Loc
  b : Nat
  w : Nat
  v : Nat
  bad : Bool
deriving DecidableEq, Repr

/-- Writes to another device leave as packets, one for each block of 256 bytes with the bits it changes; those of sectors that take
bytes derived from poison leave in packets that say so (R319, R384).
DEDUCED, log entry 32: unsafe. -/
def sendPuts (c : Cmd) (l : List Put) : M Unit := do
  let pieces (p : Put) : List Piece := match p.loc with
    | .fabric dev off => piecesOf dev off p.b p.w p.v
    | _ => []
  let bad := ((l.filter (·.bad)).flatMap pieces).map fun x => (x.dev, x.off / 32)
  let parts := (l.flatMap pieces).partition fun x => bad.contains (x.dev, x.off / 32)
  let send (tainted : Bool) (ps : List Piece) : M Unit := (packetsOf 256 ps).forM fun x =>
    cmdRequest c x.1 x.2.1 256 (fun p => { p with data := x.2.2.1, mask := x.2.2.2, tainted := tainted }) .write
  send false parts.2
  send true parts.1

/-- The writes of a command performed; sectors that take bytes derived from poison become poisoned whole. -/
def performPuts (c : Cmd) (l : List Put) : M Unit := do
  modify fun s =>
    let s := s.putCells (l.flatMap fun p => p.loc.keys.map fun k => (k, p.b, p.w, p.v))
    (l.filter (·.bad)).foldl (fun s p =>
      (p.loc.keys.flatMap fun k => sectorsOf k ((p.b + p.w + 7) / 8)).foldl State.addPoison s) s
  sendPuts c l

/-- A command stops early with a code: each destination line holds all of its bytes or none, as the device chooses; what had not left
for other devices does not leave, but for announces (R318). -/
def abortWith (c : Cmd) (code : BitVec 8) (l : List Put) : M Unit := do
  let lines := ((l.flatMap fun p => p.loc.keys).map (· / 128)).eraseDups
  let chosen ← lines.filterM fun _ => do return Config.freeBool (← takeFree)
  modify (·.onCmd c.id fun c => { c with sends := c.sends.filter fun x => x.msg.op = 6 })
  performPuts c (l.filter fun p => p.loc.keys.any fun k => chosen.contains (k / 128))
  modify (·.onCmd c.id (Cmd.settle code 0))

/-- The place of the first poisoned sector of a list of source reads, as code and record (R318, R319). -/
def endingOf (l : List Fetched) : BitVec 8 × Word :=
  match l.findSome? (·.bad) with
  | some pa => (1, BitVec.ofNat 64 pa)
  | none => (0, 0)

/-- A step of an engine on one of its commands: what it still has to send leaves first; none where the command has to wait. -/
def engineStep (id : Nat) (ok : Cmd → Bool) (m : Cmd → M Unit) (s : State) : Option State := do
  let c ← s.cmds.find? (fun c => c.id = id)
  if !c.sends.isEmpty then
    let r := s.sendReady c c.sends
    if r.2.length = c.sends.length then none else some (s.flushCmd c)
  else if ok c && !s.cmdFlying id then
    match m c s with
    | .ok _ s' => some s'.flushAll
    | .error _ _ => none
  else none

/-! ### COPY (R307 to R310) -/

/-- The source accesses of a copy. -/
def Cmd.sources (c : Cmd) : List (Word × Nat × Nat) :=
  ((c.job.iters c.keepMask).filter (·.kept)).map fun i => (i.src.1, i.src.2, width c.job.stag)

/-- The destination accesses of a copy. -/
def copyDests (j : Job) (mask : Word) : List (Word × Nat × Nat) :=
  ((j.iters mask).filter (fun i => i.kept || j.kfill)).map fun i => (i.dst.1, i.dst.2, width j.dtag)

/-- One iteration of a copy: what it reads and what it writes. -/
def Cmd.iterate (c : Cmd) (i : Iter) : M (List Fetched × List Put) := do
  let wd := width c.job.dtag
  match findPage c.pages i.dst.1 with
  | none => return ([], [])
  | some (loc, _) =>
    if i.kept then do
      let x ← c.fetch c.pages i.src (width c.job.stag)
      return ([x], [⟨loc, i.dst.2, wd, c.job.f c.table i.n x.bits, x.bad.isSome⟩])
    else return ([], if c.job.kfill then [⟨loc, i.dst.2, wd, 0, false⟩] else [])

/-- A list in an order that the device chooses. -/
def anyOrder {α : Type} : List α → M (List α)
  | [] => return []
  | x :: t => do
    let l ← anyOrder t
    let k := Config.freeNat (← takeFree) % (l.length + 1)
    return l.take k ++ x :: l.drop k

/-- A copy whose source and destination bytes overlap: its iterations in any order, each overlapped element with its value at
acceptance or with what this command has written there (R307); what they read, by their index, and what they write. -/
def Cmd.overlapping (c : Cmd) (s0 : State) (dst : List (Nat × Nat)) : List Iter → M (List (Nat × List Fetched × List Put))
  | [] => return []
  | i :: t => do
    let src := runsOf c.pages [(i.src.1, i.src.2, width c.job.stag)]
    let hit := i.kept && src.any fun r => dst.any fun d => r.1 < d.1 + d.2 && d.1 < r.1 + r.2
    let old ← if hit then do pure (Config.freeBool (← takeFree)) else pure true
    let now ← get
    if old then modify fun s => { s with mem := s0.mem, poison := s0.poison }
    let r ← c.iterate i
    modify fun s => { s with mem := now.mem, poison := now.poison }
    performPuts { c with sends := [] } (r.2.filter fun p => !p.loc.keys.isEmpty)
    return (i.n, r) :: (← c.overlapping s0 dst t)

/-- The reads and writes of an overlapping copy, in linear order: the higher index prevails (R307). -/
def Cmd.overlapped (c : Cmd) (s0 : State) (dst : List (Nat × Nat)) : M (List (List Fetched × List Put)) := do
  let its := c.job.iters c.keepMask
  let got ← c.overlapping s0 dst (← anyOrder its)
  modify fun s => { s0 with free := s.free }
  return its.filterMap fun i => (got.find? (·.1 = i.n)).map (·.2)

/-- COPY: the data of an accepted copy moves. -/
def moveCopy (c : Cmd) : M Unit := do
  let s ← get
  let src := runsOf c.pages c.sources
  let dst := runsOf c.pages (copyDests c.job c.keepMask)
  if s.cmdWaits c (allRuns c.pages c.sources) (allRuns c.pages (copyDests c.job c.keepMask)) then throw .wait
  else if c.lost then abortWith c 2 []
  else if (← askEngine c (remoteSectors c.pages c.sources)) then do
    let its := c.job.iters c.keepMask
    (runLines src).forM fun l => modify (·.drawBack (l * 128))
    let rs ← if src.any (fun r => dst.any fun d => r.1 < d.1 + d.2 && d.1 < r.1 + r.2) then c.overlapped (← get) dst
      else its.mapM c.iterate
    performPuts c (rs.flatMap (·.2))
    let e := endingOf (rs.flatMap (·.1))
    modify (·.onCmd c.id (Cmd.settle e.1 e.2))
  else pure ()

/-- A copy of the CPE or the STE whose data is still to be moved. -/
def Cmd.isCopy (c : Cmd) : Bool := c.engine != .coe && !isWalk c.engine c.job && c.stage = .pending

def execCopy (id : Nat) (s : State) : Out := orStay (engineStep id Cmd.isCopy moveCopy s) s

/-! ### LEVEL_WALK (R311) -/

/-- The bytes a level walk may write: its capacity (R311). -/
def walkDests (j : Job) : List (Word × Nat × Nat) := (rangeFrom 0 (j.extra.toNat / 2 ^ 32)).map fun k =>
  (j.dst + BitVec.ofNat 64 k, 0, 8)

/-- Work for a command that waits for the lines of earlier commands alone (R315). -/
def besideLater {α : Type} (c : Cmd) (m : M α) : M α := fun s =>
  match m { s with cmds := s.earlier c } with
  | .ok a t => .ok a { t with cmds := s.cmds }
  | .error e t => .error e { t with cmds := s.cmds }

/-- The pages of a walk's reads: those of the acceptance as they were translated then, the others as the issuing hart's addresses (R315,
R316); or the first failing address. -/
def walkPages (c : Cmd) : List Nat → M (Except Word (List CmdPage))
  | [] => return .ok []
  | p :: t => do
    let va := BitVec.ofNat 64 (p * 4096)
    let page ← match c.pages.find? (fun x => x.vpage = p) with
      | some x => pure (some x)
      | none => orRejected (besideLater c do
        let x ← resolveAs c.place.core c.swin c.vatp c.mode va .load
        let s ← get
        return if pageAllowed x then some (⟨p, s.served x.loc, x.pa⟩ : CmdPage) else none)
    match page with
    | none => return .error va
    | some x => do
      match ← walkPages c t with
      | .error e => return .error e
      | .ok l => return .ok (x :: l)

/-- The first address of a run that lies in a page. -/
def firstIn (l : List (Word × Nat × Nat)) (page : Word) : Word :=
  ((l.find? fun a => a.1.toNat / 4096 = page.toNat / 4096).map (·.1)).getD page

/-- Reads of the walk: their pages, their waits, and their values; none where requests have left. -/
def walkRead (c : Cmd) (l : List (Word × Nat × Nat)) : M (Except Word (Option (List Fetched × List (Nat × Nat)))) := do
  match ← walkPages c ((l.flatMap fun a => pagesFrom a.1 ((a.2.2 + 7) / 8)).eraseDups) with
  | .error p => return .error (firstIn l p)
  | .ok pages => do
    let runs := runsOf pages l
    if (← get).cmdWaits c (allRuns pages l) [] then throw .wait
    else if (← askEngine c (remoteSectors pages l)) then do
      (runLines runs).forM fun q => modify (·.drawBack (q * 128))
      let vs ← l.mapM fun a => c.fetch pages (a.1, a.2.1) a.2.2
      return .ok (some (vs, runs))
    else return .ok none

/-- The lines that a level walk fills as it reads pointers and coordinates become pointer class; one that the L2 holds already keeps its
class (R165, R311). The model does not hold which lines the L2 holds: a free value says whether a line is filled.
DESIGN CHOICE, log entry 52: safe. -/
def markRuns (runs : List (Nat × Nat)) : M Unit :=
  (runLines runs).forM fun x => do
    let fills := Config.freeBool (← takeFree)
    modify fun s => { s with ptrLines := if fills then insertNat x s.ptrLines else s.ptrLines }

/-- The walk settles with a code and nothing written. -/
def walkFails (c : Cmd) (code : BitVec 8) (place : Word) : M Unit := modify (·.onCmd c.id (Cmd.settle code place))

/-- An entry is below the one before it. -/
def falls : List Nat → Bool
  | a :: b :: t => b < a || falls (b :: t)
  | _ => false

/-- The new level (R311): words of bytes from dst, with the poison of what each derives from. -/
def walkOutput (j : Job) (n : Nat) (ptrs : List Fetched) (crd val : List Fetched) : List (Nat × Nat × Nat × Bool) :=
  let p0 := (ptrs[0]?.map (·.bits)).getD 0
  let bad0 := (ptrs[0]?.bind (·.bad)).isSome
  let badN := bad0 || (ptrs[n]?.bind (·.bad)).isSome
  let P := roundUp ((n + 1) * 4) 8
  let C := roundUp (4 * crd.length) 8
  let base := j.dst.toNat + 32
  let w := width j.stag
  [(0, 64, base % 2 ^ 64, false), (8, 64, (base + P) % 2 ^ 64, false), (16, 64, (base + P + C) % 2 ^ 64, badN), (24, 64, n, false)]
    ++ ptrs.zipIdx.map (fun x => (32 + 4 * x.2, 32, (x.1.bits - p0) % 2 ^ 32, bad0 || x.1.bad.isSome))
    ++ crd.zipIdx.map (fun x => (32 + P + 4 * x.2, 32, x.1.bits, x.1.bad.isSome))
    ++ val.zipIdx.map (fun x => (32 + P + C + w / 8 * x.2, w, x.1.bits, x.1.bad.isSome))

/-- LEVEL_WALK. The poisoned sector that its record names is the first among those of the descriptor, the pointers, the coordinates and the
values, in that order.
DEDUCED, log entry 23: unsafe; DESIGN CHOICE for the sector, log entry 65: unsafe. -/
def moveWalk (c : Cmd) : M Unit := do
  let j := c.job
  if (← get).cmdWaits c [] (allRuns c.pages (walkDests j)) then throw .wait
  else if c.lost then walkFails c 2 0
  else do
    match ← walkRead c ((rangeFrom 0 4).map fun k => (j.src + BitVec.ofNat 64 (8 * k), 0, 64)) with
    | .error va => walkFails c 8 va
    | .ok none => pure ()
    | .ok (some (desc, _)) => do
      let d (k : Nat) : Nat := (desc[k]?.map (·.bits)).getD 0
      let n := j.trips.headD 0
      let r0 := j.extra.toNat % 2 ^ 32
      let pb := if bitOf (d 3) 32 then 8 else 4
      let w := width j.stag
      if d 3 / 2 ^ 33 != 0 || d 3 % 2 ^ 32 < r0 + n || d 0 % 8 != 0 || d 1 % 4 != 0 || d 2 % (w / 8) != 0 then walkFails c 6 0
      else do
        match ← walkRead c ((rangeFrom 0 (n + 1)).map fun k => (BitVec.ofNat 64 (d 0 + pb * (r0 + k)), 0, 8 * pb)) with
        | .error va => walkFails c 8 va
        | .ok none => pure ()
        | .ok (some (ptrs, pruns)) => do
          let p := ptrs.map (·.bits)
          let lo := p.headD 0
          let E := p.getLastD 0 - lo
          let size := 32 + roundUp ((n + 1) * 4) 8 + roundUp (4 * E) 8 + E * (w / 8)
          markRuns pruns
          if falls p || 2 ^ 32 ≤ E then walkFails c 6 0
          else if j.extra.toNat / 2 ^ 32 < size then walkFails c 5 0
          else do
            match ← walkRead c ((rangeFrom 0 E).map fun e => (BitVec.ofNat 64 (d 1 + 4 * (lo + e)), 0, 32)) with
            | .error va => walkFails c 8 va
            | .ok none => pure ()
            | .ok (some (crd, cruns)) => do
              markRuns cruns
              match ← walkRead c ((rangeFrom 0 E).map fun e => (BitVec.ofNat 64 (d 2 + w / 8 * (lo + e)), 0, w)) with
              | .error va => walkFails c 8 va
              | .ok none => pure ()
              | .ok (some (val, _)) => do
                let puts := (walkOutput j n ptrs crd val).filterMap fun x =>
                  (findPage c.pages (j.dst + BitVec.ofNat 64 x.1)).map fun l => (⟨l.1, 0, x.2.1, x.2.2.1, x.2.2.2⟩ : Put)
                performPuts c puts
                let e := endingOf (desc ++ ptrs ++ crd ++ val)
                modify (·.onCmd c.id (Cmd.settle e.1 e.2))

def Cmd.isLevelWalk (c : Cmd) : Bool := isWalk c.engine c.job && c.stage = .pending
def execLevelWalk (id : Nat) (s : State) : Out := orStay (engineStep id Cmd.isLevelWalk moveWalk s) s

end Sys2Proof.Machine
end

