-- ==== Sys2Proof/Machine/EngineCmds.lean ====
section
/-! DEFINITION. ECMD and the acceptance of its commands, ECANCEL, and the two ends of a command (R304 to R306, R312 to R318,
R322, R324, R390, R393). -/
namespace Sys2Proof.Machine
open Sys2Proof

/-! ### The collective descriptor (R390, R393) -/

/-- One dword that the COE reads at acceptance: from normal memory of this device, outside every window, not poisoned; the directory
recalls dirty bytes first (R257). -/
def coeDword (va : Word) : M (Option Word) := do
  match ← orRejected (some <$> offerTarget va .load) with
  | none => return none
  | some t => do
    let s ← get
    match t.device || t.window, t.loc.keys with
    | false, key :: _ =>
      if !isLocal key || s.poisoned key then return none
      else if s.readStalls key 8 then throw .pause
      else do
        modify (·.drawBack key)
        return some (BitVec.ofNat 64 (s.mem.read key 8))
    | _, _ => return none

/-- `n` dwords from an aligned address; none where one fails (R314). -/
def coeDwords (va : Word) (n : Nat) : M (Option (List Word)) := do
  if va.toNat % 8 != 0 then return none
  else do
    let l ← (rangeFrom 0 n).mapM fun k => coeDword (va + BitVec.ofNat 64 (8 * k))
    return l.mapM id

/-- A code of rop (R390). -/
def ropOf : Nat → Rop
  | 0 => .add | 1 => .max | 2 => .min | _ => .or

/-- Strictly ascending. -/
def rising : List Nat → Bool
  | a :: b :: t => a < b && rising (b :: t)
  | _ => true

/-- A layout map from its eight dwords: the base and the signed strides. -/
def mapBase (m : List Word) : Nat := (m[0]?.getD 0).toNat
def mapStride (m : List Word) (k : Nat) : Int := (m[k + 1]?.getD 0).toInt

/-- The checks of R393 on one layout map, for elements of `w` bits. -/
def mapLegal (w ndim : Nat) (m : List Word) : Bool :=
  mapBase m % (w / 8) = 0 && mapBase m < localTop && m[7]?.getD 0 = 0
    && (rangeFrom 0 ndim).all fun k => mapStride m k % ((w / 8 : Nat) : Int) = 0

/-- Where an iteration of XA2A goes: the position, and the physical offset there (R393). -/
def exchange (k : Coll) (j : Job) (it : List Nat) : Nat × Int :=
  let m := Nat.max (j.trips[k.sdim]?.getD 0 / k.key.np) 1
  let i := it[k.sdim]?.getD 0
  let map := k.maps[i / m]?.getD []
  (i / m, (it.zipIdx.foldl (fun (a : Int) p => a + (if p.2 = k.sdim then i % m else p.1 : Nat) * mapStride map p.2) (mapBase map : Nat)))

/-- The index tuples of a nest in linear order. -/
def Job.tuples (j : Job) : List (List Nat) := (rangeFrom 0 j.count).map fun n => digitsOf n j.trips

/-- The checks of R393 on an exchange as a whole. -/
def exchangeLegal (k : Coll) (j : Job) : Bool :=
  let w := width j.dtag
  8 ≤ w && (j.trips[k.sdim]?.getD 0) % k.key.np = 0 && k.maps.all (mapLegal w j.trips.length)
    && (32 ≤ w || (k.maps.all (fun m => mapStride m 0 = (w / 8 : Nat)) && 32 ≤ j.trips.headD 0 * w))
    && j.tuples.all fun it => let a := (exchange k j it).2; 0 ≤ a && a + (w / 8 : Nat) ≤ (localTop : Nat)

/-- The collective that a command's descriptor describes; none where it breaks R390, R392 or R393.
DEDUCED, log entry 24: unsafe. -/
def collOf (j : Job) : M (Option Coll) := do
  match ← coeDwords j.extra 8 with
  | none => return none
  | some d => do
    let c := cdw d 0
    let np := fld c 0 11
    let self := fld c 11 10
    let bad := c / 2 ^ 36 != 0 || np = 0 || 1024 < np || np ≤ self || np ≤ fld c 23 10 || j.trips.length ≤ fld c 33 3
      || !(ropOf (fld c 21 2)).legal j.dtag || [5, 6, 7].any (fun k => cdw d k != 0) || (j.op != 4 && cdw d 3 != 0)
    if bad then return none
    else do
      match ← coeDwords (d[2]?.getD 0) np, ← (if j.op = 4 then coeDwords (d[3]?.getD 0) (8 * np) else pure (some [])) with
      | some plist, some flat => do
        let s ← get
        let mine := (plist[self]?.getD 0).toNat
        let phys := s.coreMap[fld mine 10 8]?
        let key : CollKey := ⟨d[1]?.getD 0, j.op, np, fld c 21 2, tagCode j.stag, tagCode j.dtag, j.trips, plist, j.conv, rmCode j.rm, j.sat, j.fz⟩
        let k : Coll :=
          { key := key, self := self, root := fld c 23 10, sdim := fld c 33 3, gstride := d[4]?.getD 0
            maps := (rangeFrom 0 (if j.op = 4 then np else 0)).map fun q => (flat.drop (8 * q)).take 8
            core := s.hart.place.core.val, announced := false, peers := [], sent := false, place := (0, 0), data := [] }
        let ok := plist.all (fun e => e.toNat / 2 ^ 25 = 0) && rising (plist.map entryDev) && mine % 1024 = s.fabric.self
          && (phys.map (· / 32)) = some (quadOfCore s.hart.place.core).val
          && (j.op != 1 || j.count % np = 0)
          && (j.op != 2 || width j.dtag < 8 || k.gstride.toInt % ((width j.dtag / 8 : Nat) : Int) = 0)
          && (j.op != 4 || exchangeLegal k j)
        return if ok then some k else none
      | _, _ => return none

/-! ### Acceptance (R314, R315) -/

/-- The destination accesses of a collective on its participant (R392). -/
def collDests (k : Coll) (j : Job) : List (Word × Nat × Nat) :=
  let w := width j.dtag
  let at_ (base : Word) (it : List Nat) : Word × Nat × Nat :=
    let a := nestAddr base j.dstr it w
    (a.1, a.2, w)
  match j.op with
  | 1 => (j.tuples.take (j.count / k.key.np)).map (at_ j.dst)
  | 2 => (rangeFrom 0 k.key.np).flatMap fun p => j.tuples.map (at_ (j.dst + k.gstride * BitVec.ofNat 64 p))
  | 4 => []
  | _ => j.tuples.map (at_ j.dst)

/-- The source accesses that a nest reaches. -/
def nestSources (j : Job) : List (Word × Nat × Nat) := j.tuples.map fun it =>
  let a := nestAddr j.src j.sstr it (width j.stag)
  (a.1, a.2, width j.stag)
/-- The destination accesses that a nest reaches, written or not. -/
def nestDests (j : Job) : List (Word × Nat × Nat) := j.tuples.map fun it =>
  let a := nestAddr j.dst j.dstr it (width j.dtag)
  (a.1, a.2, width j.dtag)

/-- The pages that accesses touch, with the right each needs. -/
def pagesNeeded (acc : Access) (l : List (Word × Nat × Nat)) : List (Nat × Access) :=
  ((l.flatMap fun a => pagesFrom a.1 ((a.2.1 + a.2.2 + 7) / 8)).eraseDups).map (·, acc)

/-- A command's reads at acceptance, and what it may write. -/
structure Probed where
  coll : Option Coll
  pages : List CmdPage
  src : List (Word × Nat × Nat)
  dst : List (Word × Nat × Nat)
deriving DecidableEq, Repr

/-- What a command reaches: the sources it may read, the destinations it may write, and those it does write. -/
def Job.reach (e : Engine) (j : Job) (mask : Word) (coll : Option Coll) :
    List (Word × Nat × Nat) × List (Word × Nat × Nat) × List (Word × Nat × Nat) :=
  match coll with
  | some k => (nestSources j, collDests k j, collDests k j)
  | none =>
    if isWalk e j then ([(j.src, 0, 256)], walkDests j, walkDests j)
    else (nestSources j, nestDests j, copyDests j mask)

/-- The error record lies in writable normal memory of this device, outside every window (R314). -/
def recordPage (j : Job) : M (Option CmdPage) := do
  match ← enginePages [(j.erec.toNat / 4096, .store)] with
  | some [p] => return if p.loc.keys.any isLocal then some p else none
  | _ => return none

/-- The checks of R314 and the translations of R315; none where the command is rejected. -/
def probeCommand (e : Engine) (j : Job) (d : List Word) (mask : Word) : M (Option Probed) := do
  if !j.legal e || (isWalk e j && (rangeFrom 8 6).any (fun k => cdw d k != 0)) then return none
  else do
    match ← recordPage j with
    | none => return none
    | some rec => do
      let coll ← if e = .coe then collOf j else pure none
      if e = .coe && coll.isNone then return none
      else do
        let r := j.reach e mask coll
        match ← enginePages (pagesNeeded .load r.1 ++ pagesNeeded .store r.2.1) with
        | none => return none
        | some pages =>
          let src := if e = .coe || isWalk e j then r.1
            else ((j.iters mask).filter (·.kept)).map fun i => (i.src.1, i.src.2, width j.stag)
          return some ⟨coll, pages ++ [rec], src, r.2.2⟩

/-- The lines that an exchange writes, on this device and on others (R281, R393). -/
def exchangeLines (self : Nat) (k : Coll) (j : Job) : List Nat :=
  let runs := j.tuples.filterMap fun it =>
    let x := exchange k j it
    let dev := ((k.key.plist[x.1]?).map entryDev).getD 0
    if dev = self then
      match packageHome x.2.toNat with
      | .cell key _ => some (key, width j.dtag / 8)
      | _ => none
    else some (fabricPlace dev x.2.toNat, width j.dtag / 8)
  (runs.flatMap fun r => (sectorsOf r.1 r.2).map (· / 4)).foldl (fun l q => insertNat q l) []

/-- The storage of a run of bytes that lies in a window (R282). -/
def windowRun (core : Fin 192) (swin : Vector Word 4) (va : Word) (n : Nat) : List (Nat × Nat) :=
  match findWindow swin va with
  | some k =>
    match winLoc core k (va.toNat % 2 ^ winLog k) with
    | .cell key _ => [(key, n)]
    | _ => []
  | none => []

/-- A number that a level walk will read, as it stands at acceptance; none where it lies at another device, is owned by an earlier
command, or cannot be read. The directory recalls dirty bytes first (R257). -/
def peekAt (va : Word) (n : Nat) : M (Option Nat) := do
  match ← quietly (offerTarget va .load) with
  | .error _ => return none
  | .ok t => do
    match (← get).served t.loc |>.keys with
    | key :: _ => do
      if (← get).readStalls key n then return none
      else do
        modify (·.drawBack key)
        return some ((← get).mem.read key n)
    | [] => return none

/-- All scratch storage that engines reach, as one run: what a level walk whose arrays are not known yet may read (R282).
DEDUCED, log entry 23: safe. -/
def allScratch : List (Nat × Nat) := [(cupboardBase, shelfBase - cupboardBase)]

/-- The window bytes of the pointer, coordinate and value arrays that a level walk reads; where the level cannot be read at acceptance,
any (R282, R311). -/
def walkWindows (core : Fin 192) (swin : Vector Word 4) (j : Job) : M (List (Nat × Nat)) := do
  let d (k : Nat) : M (Option Nat) := peekAt (j.src + BitVec.ofNat 64 (8 * k)) 8
  match ← d 0, ← d 1, ← d 2, ← d 3 with
  | some ptr, some crd, some val, some d3 => do
    let n := j.trips.headD 0
    let pb := if bitOf d3 32 then 8 else 4
    let first := BitVec.ofNat 64 (ptr + pb * (j.extra.toNat % 2 ^ 32))
    let ptrs := windowRun core swin first (pb * (n + 1))
    match ← peekAt first pb, ← peekAt (first + BitVec.ofNat 64 (pb * n)) pb with
    | some lo, some hi =>
      let w := width j.stag / 8
      return if hi ≤ lo then ptrs
        else ptrs ++ windowRun core swin (BitVec.ofNat 64 (crd + 4 * lo)) (4 * (hi - lo))
          ++ windowRun core swin (BitVec.ofNat 64 (val + w * lo)) (w * (hi - lo))
    | _, _ => return allScratch
  | _, _, _, _ => return allScratch

/-- A command as it is accepted: with the lines it owns and its scoreboard ranges, `more` of them beside its probed sources
(R281, R282, R315, R316). -/
def commandOf (s : State) (e : Engine) (j : Job) (d : List Word) (p : Probed) (more : List (Nat × Nat)) : Cmd :=
  let h := s.hart
  { id := s.nextId, engine := e, quad := quadOfCore h.place.core, owner := h.born, launch := h.launch, place := h.place, ctx := h.ctx, mode := h.mode
    vatp := (h.offer.map (·.vatp)).getD s.ctx.vatp, swin := (h.offer.map (·.swin)).getD s.ctx.swin
    dwords := d, job := j, keepMask := h.keep.get j.kn
    table := (s.core.tables.get j.ctn).bank true, bank := (s.core.tables.get j.ctn).sel, pages := p.pages, coll := p.coll
    owned := ownedLines p.pages p.dst ++ (match p.coll with
      | some k => if j.op = 4 then exchangeLines s.fabric.self k j else []
      | none => [])
    rsbSrc := scratchSpan (runsOf p.pages p.src ++ more), rsbDst := scratchSpan (runsOf p.pages p.dst)
    sends := [], answers := [], stage := .pending }

/-- A command that has a scoreboard entry (R282, R324). -/
def Cmd.inRsb (c : Cmd) : Bool := c.rsbSrc.isSome || c.rsbDst.isSome

/-- One command offered to an engine of the current hart's quad: none where it is rejected; it pauses while it can be neither
accepted nor rejected (R304, R314, R315, R324). -/
def admitCommand (e : Engine) (d : List Word) : M (Option Unit) := do
  match jobOf d with
  | none => return none
  | some j => do
    match ← probeCommand e j d ((← get).hart.keep.get j.kn) with
    | none => return none
    | some p => do
      let s ← get
      let more ← if isWalk e j then walkWindows s.hart.place.core ((s.hart.offer.map (·.swin)).getD s.ctx.swin) j else pure []
      let c := commandOf s e j d p more
      let here := s.cmds.filter fun x => x.quad = c.quad
      if 64 ≤ (here.filter (fun x => x.engine = e)).length || (c.inRsb && 64 ≤ (here.filter Cmd.inRsb).length) then throw .pause
      else do
        modify fun s => { s with cmds := s.cmds ++ [c], nextId := s.nextId + 1 }.announceReady
        return some ()

/-- The engine's decision on a command: a rejected one has no effect. -/
def acceptCommand (e : Engine) (d : List Word) : M Bool := do return (← orRejected (admitCommand e d)).isSome

/-! ### ECMD (R313, R314) -/

/-- The registers of a command group (R305). -/
def groupRegs (va : VIdx) : List VIdx := (List.finRange 64).filter fun r => va.val ≤ r.val && r.val < va.val + 16
/-- The dwords of command `c` (R305). -/
def Hart.command (h : Hart) (va : VIdx) (c : Nat) : List Word :=
  (groupRegs va).map fun r => BitVec.ofNat 64 (h.elem r .n64 c)

/-- A batch offered command by command; what is decided is kept in the hart while the engine makes it wait. -/
def offerAll (e : Engine) (vatp : Word) (swin : Vector Word 4) : List (Nat × List Word) → List (Nat × Bool) → M (List (Nat × Bool))
  | [], done => return done
  | (c, d) :: t, done => do
    onHart fun h => { h with offer := some ⟨e, vatp, swin, (c, d) :: t, done⟩ }
    let ok ← acceptCommand e d
    offerAll e vatp swin t (done ++ [(c, ok)])

/-- Another hart's batch stands before the same engine: the engine takes batches whole, one after another (R315). -/
def State.offerOpen (s : State) (e : Engine) : Bool :=
  s.others.any fun h => quadOfCore h.place.core = quadOfCore s.hart.place.core && h.offer.any (·.engine = e)

def ecmd (e : Engine) (vd va : VIdx) (m : Bool) (s : State) : Out :=
  finish 8 false (do
    touch ([vd] ++ groupRegs va ++ maskReg m)
    let h := (← get).hart
    operandIf (!([16, 32, 48].contains va.val) || (groupRegs va).any (fun r => h.tag r != .n64) || !h.vlFits [.n64] || h.vst != 0)
    let done ← match h.offer with
      | some o => offerAll e o.vatp o.swin o.left o.decided
      | none => do
        waitIf ((← get).offerOpen e)
        offerAll e (← get).ctx.vatp (← get).ctx.swin ((h.selected m).map fun c => (c, h.command va c)) []
    onHart fun h => ((h.setBitList vd done).setTag vd .n8).vdone) s

def execEcmdCpe (vd va : VIdx) (m : Bool) (s : State) : Out := ecmd .cpe vd va m s
def execEcmdSte (vd va : VIdx) (m : Bool) (s : State) : Out := ecmd .ste vd va m s
def execEcmdCoe (vd va : VIdx) (m : Bool) (s : State) : Out := ecmd .coe vd va m s

/-- The engine decides the command that the current hart's batch offers next; a debug-halted quad's engines accept none (R370). -/
def State.decideNext (s : State) (e : Engine) (dwords : List Word) : Option State :=
  match s.hart.offer with
  | some o =>
    match o.left with
    | (c, d) :: t =>
      if o.engine = e ∧ d = dwords ∧ !s.haltedQuads.contains (quadOfCore s.hart.place.core) then
        match acceptCommand e d s with
        | .ok ok s' => some { s' with hart := { s'.hart with offer := some { o with left := t, decided := o.decided ++ [(c, ok)] } } }
        | .error _ _ => none
      else none
    | [] => none
  | none => none
/-- COMMAND_ACCEPT. -/
def execCommandAccept (e : Engine) (dwords : List Word) (s : State) : Out := orStay (s.decideNext e dwords) s

/-! ### The two ends of a command (R318) -/

/-- The command of a number ends, where its data has settled with a code that passes a test. -/
def State.endWith (s : State) (id : Nat) (p : BitVec 8 → Bool) : Option State := do
  let c ← s.cmds.find? (fun c => c.id = id && match c.stage with | .moved code _ => p code | _ => false)
  s.endCommand c

/-- COMMAND_COMPLETE: the command's data has moved without a failure. -/
def execCommandComplete (id : Nat) (s : State) : Out := orStay (s.endWith id (· == 0)) s
/-- COMMAND_FAIL: the command ends with its code. -/
def execCommandFail (id : Nat) (code : BitVec 8) (s : State) : Out := orStay (s.endWith id fun k => k != 0 && k == code) s

/-! ### ECANCEL (R322) -/

/-- What a stopping copy may still have written: its local writes, where every source byte is at hand.
DEDUCED, log entry 25: unsafe. -/
def Cmd.partialPuts (c : Cmd) : M (List Put) := do
  let s ← get
  if c.isCopy && !s.cmdWaits c (allRuns c.pages c.sources) (allRuns c.pages (copyDests c.job c.keepMask))
      && (remoteSectors c.pages c.sources).isEmpty then do
    (runLines (runsOf c.pages c.sources)).forM fun l => modify (·.drawBack (l * 128))
    let rs ← (c.job.iters c.keepMask).mapM c.iterate
    return (rs.flatMap (·.2)).filter fun p => !p.loc.keys.isEmpty
  else return []

/-- An accepted command stops early: each destination line holds all of its bytes or none. -/
def stopCommand (code : BitVec 8) (c : Cmd) : M Unit := do
  match c.stage with
  | .moved _ _ => pure ()
  | _ => abortWith c code (← c.partialPuts)

/-- The commands of a list that can end now do. -/
def State.endThese (s : State) (ids : List Nat) : State :=
  ids.foldl (fun s id => match s.cmds.find? (fun c => c.id = id) with
    | some c => (s.endCommand c).getD s
    | none => s) s

def execEcancel (d : SReg) (n : WIdx) (s : State) : Out :=
  finish 4 false (do
    let asked := s.hart.cancelling.getD ((s.cmds.filter fun c => c.owner = s.hart.born && c.job.cnt = n).map (·.id))
    onHart fun h => { h with cancelling := some asked }
    (s.cmds.filter fun c => asked.contains c.id).forM (stopCommand 3)
    modify (·.endThese asked)
    if (← get).cmds.any fun c => asked.contains c.id then throw .pause
    else modify fun s => s.setS d (BitVec.ofNat 64 s.hart.canCount)) s

end Sys2Proof.Machine
end

