-- ==== Sys2Proof/Machine/Pigeon.lean ====
section
/-! DEFINITION. The pigeonhole: keyed accumulation, lookup, drain, and messages to the shares of other harts (R172 to
R181). -/
namespace Sys2Proof.Machine
open Sys2Proof

/-- A share: entries in ascending key order, no key twice (R172). -/
abbrev Share := List (BitVec 32 × Word)

/-- How a value operand is kept in 64 bits (R173). -/
inductive Kind64 where
  | signed | unsigned | float
deriving DecidableEq, Repr

/-- The kind of a tag; none for a tag the pigeonhole refuses (R173). -/
def kind64Of (t : Tag) : Option Kind64 :=
  if t = .e8m0 ∨ t = .i2 ∨ t = .i4 ∨ t = .e2m1 then none
  else if isI t then some .signed else if isN t then some .unsigned else some .float

/-- An element in its 64-bit kind (R173). -/
def toKind (c : VCfg) (t : Tag) (bits : Nat) : Word :=
  if isInt t then BitVec.ofInt 64 (readInt t bits) else BitVec.ofNat 64 (exactInto c t .f64 bits).bits

/-- A stored value read into a tag (R173). -/
def fromKind (t : Tag) (r : Rnd) (v : Word) : Res :=
  if isInt t then plain (v.toNat % 2 ^ width t) else (fmtOf t).rnd r ((fmtOf .f64).value v.toNat)

/-- The set of a key in a share of partition count P (R172). -/
def keySet (P : Nat) (k : BitVec 32) : Nat := k.toNat * 0x9E3779B1 % 2 ^ 32 / 2 ^ (20 + Nat.log2 P)

/-- The value under a key. -/
def Share.find (l : Share) (k : BitVec 32) : Option Word := (List.find? (fun e => e.1 = k) l).map (·.2)
/-- A free way for a key (R172). -/
def Share.hasWay (P : Nat) (l : Share) (k : BitVec 32) : Bool :=
  decide ((List.filter (fun e => keySet P e.1 = keySet P k) l).length < 16)

/-- The operations of IXACC and FSEND, by their field (R175). -/
def ropOfField : Fin 4 → Rop
  | 0 => .add | 1 => .max | 2 => .min | 3 => .or

/-- op(value, x) in a 64-bit kind (R175): the value that stands in the share is not flushed again.
DESIGN CHOICE, log entry 63: unsafe. -/
def combine64 (op : Rop) (k : Kind64) (r : Rnd) (a b : Word) : Res :=
  let t := match k with | .signed => Tag.i64 | .unsigned => .n64 | .float => .f64
  op.apply r t (plain a.toNat) (plain b.toNat)

/-- One entry applied to a share; none where its set is full (R175). -/
def applyEntry (P : Nat) (join : Word → Word → Res) (l : Share) (k : BitVec 32) (x : Word) : Option (Share × FFlags) :=
  match Share.find l k with
  | some v =>
    let r := join v x
    some (putKey k (BitVec.ofNat 64 r.bits) l, r.fl)
  | none => if Share.hasWay P l k then some (putKey k x l, .zero) else none

/-- Entries applied one after another until one cannot be placed: the share, how many were applied, and the flags. -/
def applyEntries (P : Nat) (join : Word → Word → Res) (l : Share) : List (BitVec 32 × Word) → Share × Nat × FFlags
  | [] => (l, 0, .zero)
  | (k, x) :: t =>
    match applyEntry P join l k x with
    | none => (l, 0, .zero)
    | some (l', fl) =>
      let r := applyEntries P join l' t
      (r.1, r.2.1 + 1, fl.or r.2.2)

/-- A key tag (R173). -/
def keyTag (t : Tag) : Bool := t = .n32 || t = .i32

/-- IXINS and IXACC (R175). -/
def ixPut (i : Instr) (va vb : VIdx) (ints : Bool) (join : Kind64 → Rnd → Word → Word → Res) (s : State) : Out :=
  finish 8 false (do
    needReturn i
    let h ← fibreStart [] [va, vb]
    let tk := h.tag va
    let tv := h.tag vb
    match kind64Of tv with
    | none => raise .operand
    | some kind => do
      operandIf (!keyTag tk || !h.vlFits [tk, tv] || (ints && kind = .float))
      let first := h.cura.toNat
      operandIf (h.vln < first)
      let es := (rangeFrom first (h.vln - first)).map fun i =>
        (BitVec.ofNat 32 (h.elem va tk i), toKind h.vcfg tv (h.elem vb tv i))
      let r := applyEntries h.parts (join kind h.rndPlain) h.pigeon es
      let whole := r.2.1 = es.length
      onHart fun h =>
        let h := { h with pigeon := r.1, ixlive := h.ixlive || r.2.1 != 0 }
        (if whole then h.setCursors 0 0 else h.setCursors (first + r.2.1) h.curb.toNat).raiseFlags r.2.2
      pushReturn (if whole then r.2.1 else r.2.1 + 2 ^ 32)) s

def execIxins (va vb : VIdx) (s : State) : Out := ixPut (.ixins va vb) va vb false (fun _ _ _ x => plain x.toNat) s
def execIxaccAdd (va vb : VIdx) (s : State) : Out := ixPut (.ixaccAdd va vb) va vb false (combine64 .add) s
def execIxaccMax (va vb : VIdx) (s : State) : Out := ixPut (.ixaccMax va vb) va vb false (combine64 .max) s
def execIxaccMin (va vb : VIdx) (s : State) : Out := ixPut (.ixaccMin va vb) va vb false (combine64 .min) s
def execIxaccOr (va vb : VIdx) (s : State) : Out := ixPut (.ixaccOr va vb) va vb true (combine64 .or) s

def execIxlook (vd va vb : VIdx) (s : State) : Out :=
  finish 8 false (do
    let h ← fibreStart [] [vd, va, vb]
    let td := h.tag vd
    let tk := h.tag va
    operandIf ((kind64Of td).isNone || !keyTag tk || vd = vb || !h.vlFits [td, tk])
    let rs := (rangeFrom 0 h.vln).map fun i =>
      match Share.find h.pigeon (BitVec.ofNat 32 (h.elem va tk i)) with
      | some v => (i, fromKind td (h.rndAt false i) v, true)
      | none => (i, plain 0, false)
    onHart fun h =>
      let h := h.setElems vd td (rs.map fun r => (r.1, r.2.1.bits))
      let h := (h.setBitList vb (rs.map fun r => (r.1, r.2.2))).setTag vb .n8
      (h.setCursors 0 0).raiseFlags (flagsOf (rs.map fun r => r.2.1.fl))) s

def execIxdrain (f : FIdx) (s : State) : Out :=
  finish 8 false (do
    let h ← fibreStart [f] []
    let t := h.valueTag f
    operandIf (kind64Of t).isNone
    let m := Nat.min h.pigeon.length (h.capacity t)
    let es := (h.pigeon.take m).zipIdx.map fun p => (p.1.1.toNat, fromKind t (h.rndAt false p.2) p.1.2)
    onHart fun h =>
      let h := { h with pigeon := h.pigeon.drop m, ixlive := h.ixlive && m < h.pigeon.length }
      ((h.setFibre f t (es.map fun e => (e.1, e.2.bits)) m).setCursors 0 0).raiseFlags (flagsOf (es.map fun e => e.2.fl))) s

def execIxclr (s : State) : Out :=
  finish 8 false (do
    let _ ← fibreStart [] []
    onHart fun h => { h with pigeon := [], ixlive := false }.setCursors 0 0) s

def execIxcnt (s : State) : Out :=
  finish 8 false (do
    needReturn .ixcnt
    let h ← fibreStart [] []
    onHart (·.setCursors 0 0)
    pushReturn h.pigeon.length) s

/-! ### FSEND (R178 to R181) -/

/-- The number under which a receipt word travels: its physical address, or the storage number of scratch or of a replicated
page's home. -/
def receiptCode : Loc → Nat
  | .cell key _ => if isLocal key then paOfKey key else key
  | .repl q off => 2 ^ 50 + replKey q 0 off
  | .fabric _ off => off
  | _ => 0

/-- The storage numbers of a receipt word. -/
def receiptKeys (code : Nat) : List Nat :=
  if code < localTop then (match packageHome code with | .cell key _ => [key] | _ => [])
  else if 2 ^ 50 ≤ code then
    let key := code - 2 ^ 50
    replKeys (key / Config.dieBytes / 4) (key % Config.dieBytes)
  else [code]

/-- The atomic add of a receipt: a partial write where the sector is poisoned (R179). -/
def State.addReceipt (s : State) (code v : Nat) : State :=
  let keys := receiptKeys code
  let old := s.mem.read (keys.headD 0) 8
  keys.foldl (fun s k => s.storeDirect k 8 ((old + v) % 2 ^ 64)) s

/-- The target of an FSEND (R178). -/
def fsendTargetOk (w : Nat) (float : Bool) : Bool :=
  !bitOf w 11 && fld w 14 2 = 0 && w / 2 ^ 27 = 0 && !(fld w 12 2 = 3 && float)

/-- The bytes that a message travels as, whose layout the spec does not give.
DESIGN CHOICE, log entry 26: safe. -/
def FMsg.payload (m : FMsg) : List Byte :=
  bytesOf m.ctx.val 1 ++ bytesOf m.core 1 ++ bytesOf m.slot.val 1 ++ bytesOf (m.op.val + bitN m.float * 4 + bitN m.signed * 8) 1
    ++ bytesOf m.ascending.length 2 ++ bytesOf m.rdev 2 ++ bytesOf m.receipt 8
    ++ m.ascending.flatMap fun e => bytesOf e.1.toNat 4 ++ bytesOf e.2.toNat 8

def execFsend (f : FIdx) (base : SReg) (off : BitVec 14) (tgt : SReg) (s : State) : Out :=
  finish 8 false (do
    let h ← fibreStart [f] []
    let l ← readFibre f
    let t := h.valueTag f
    let w := (h.getS tgt).toNat
    match kind64Of t with
    | none => raise .operand
    | some kind => do
      operandIf (!fsendTargetOk w (kind = .float))
      let a := (← get).vbase base off
      aligned a 8 .store
      let r ← resolve a .atomic
      amoTarget r
      let s ← get
      let self := s.fabric.self
      let loc := s.served r.loc
      let dst := if bitOf w 26 then fld w 21 5 * 32 + fld w 16 5 else self
      let m : FMsg := {
        id := s.nextId, born := h.born, ctx := h.ctx, core := fld w 0 8, slot := Fin.ofNat 8 (fld w 8 3)
        ascending := l.map fun e => (BitVec.ofNat 32 e.1, toKind h.vcfg t e.2)
        op := Fin.ofNat 4 (fld w 12 2), float := kind = .float, signed := kind = .signed
        rdev := match loc with | .fabric dev _ => dev | _ => self
        receipt := receiptCode loc }
      if dst = self then modify fun s => { s with msgs := s.msgs ++ [m], nextId := s.nextId + 1 }
      else if !s.fabric.reaches dst then
        modify fun s => { s with fabric := { s.fabric with
          outstanding := s.fabric.outstanding ++ [⟨0, dst, 3, 0, h.born, m.receipt, 8, true, false, a, none, true⟩] } }
      else do
        let parts := payloadParts (FMsg.payload m)
        waitIf (s.fabric.full dst 3)
        parts.zipIdx.forM fun x => modify fun s =>
          let last := x.2 + 1 = parts.length
          let p := { s.fabric.packet dst 3 0 h.place with data := x.1, closing := last }
          s.sendMsg ⟨p.txn, dst, 3, p.seq, h.born, m.receipt, if last then 8 else 0, true, false, a, none, false⟩ (.fsend p m)
      onHart (·.setCursors 0 0)) s

end Sys2Proof.Machine
end

