-- ==== Sys2Proof/Machine/Collectives.lean ====
section
/-! DEFINITION. The collectives of the COE (R391 to R394), and what reaches them from other devices. -/
namespace Sys2Proof.Machine
open Sys2Proof

/-! ### What a participant contributes and receives (R391, R392) -/

/-- The source elements of a collective by f, in linear order, with the code and place of its first poisoned sector; none where
requests have left. -/
def contribution (c : Cmd) : M (Option (List CollElem × BitVec 8 × Word)) := do
  let j := c.job
  let srcs := nestSources j
  let runs := runsOf c.pages srcs
  if (← get).cmdWaits c (allRuns c.pages srcs) [] then throw .wait
  else if (← askEngine c (remoteSectors c.pages srcs)) then do
    (runLines runs).forM fun l => modify (·.drawBack (l * 128))
    let got ← srcs.zipIdx.mapM fun x => do
      let f ← c.fetch c.pages (x.1.1, x.1.2.1) x.1.2.2
      return ((⟨j.f c.table x.2 f.bits, f.bad.isSome⟩ : CollElem), f)
    return some (got.map (·.1), endingOf (got.map (·.2)))
  else return none

/-- Whether this participant contributes data to others: the root alone in a broadcast. -/
def Coll.gives (k : Coll) : Bool := k.key.op != 3 || k.self = k.root
/-- The devices whose data this participant needs. -/
def Coll.needs (k : Coll) : List Nat :=
  let devs := k.key.plist.map entryDev
  if k.key.op = 3 then [devs[k.root]?.getD 0] else devs
/-- Parts of a contribution in the order of their first elements. -/
def insertPart (p : CollPart) : List CollPart → List CollPart
  | [] => [p]
  | x :: t => if p.first < x.first then p :: x :: t else x :: insertPart p t
/-- The data of a device. -/
def Coll.dataOf (k : Coll) (dev : Nat) : List CollElem :=
  ((k.data.filter (fun x => x.src = dev)).foldl (fun l x => insertPart x l) []).flatMap (·.elems)
/-- The elements of one contribution: the iterations of the source nest (R392). -/
def Coll.total (k : Coll) : Nat := k.key.trips.foldl (· * ·) 1
/-- Every contribution that this participant needs is here. -/
def Coll.complete (k : Coll) : Bool := k.needs.all fun d => k.total ≤ (k.dataOf d).length

/-- A part of a contribution more. -/
def Coll.take (k : Coll) (src first : Nat) (es : List CollElem) : Coll := { k with data := k.data ++ [⟨src, first, es⟩] }

/-- A command's collective changed. -/
def State.onColl (s : State) (id : Nat) (f : Coll → Coll) : State :=
  s.onCmd id fun c => { c with coll := c.coll.map f }

/-- A contribution cut into the elements that one packet carries in its 256 bytes, each part with the place of its first (R379). -/
def cutElems (w : Nat) (es : List CollElem) : List (Nat × List CollElem) :=
  let n := 2048 / Nat.max w 1
  (rangeFrom 0 ((es.length + n - 1) / n)).map fun k => (k * n, (es.drop (k * n)).take n)
/-- The payload of elements of `w` bits. -/
def elemBytes (w : Nat) (es : List CollElem) : List Byte :=
  bytesOf (packWords w (es.map (·.bits))) ((es.length * w + 7) / 8)
/-- The packet of one part. -/
def dataPacket (k : Coll) (w : Nat) (x : Nat × List CollElem) (p : Packet) : OutMsg :=
  .collData { p with off := x.1, data := elemBytes w x.2 } k.key x.2

/-- Data packets to every other participant: one stream for each, or one multicast burst for a broadcast (R388, R392). -/
def giveData (c : Cmd) (k : Coll) (es : List CollElem) : M Unit := do
  let s ← get
  let w := width c.job.dtag
  let parts := cutElems w es
  if k.key.op = 3 then
    let live := k.peersOf.filter s.fabric.reaches
    if s.fabric.outstanding.any (fun r => r.mc && r.ocls = 2) then throw .wait
    else do
      (k.peersOf.filter (!s.fabric.reaches ·)).forM fun dev => modify (·.cmdFails c.id dev 0 0)
      let packet (bidx : Nat) (x : Nat × List CollElem) : OutMsg := dataPacket k w x { s.fabric.packet 0 2 0 c.place with
        mc := true, dt := false, string := stringOf live, seq := s.fabric.nextSeq burstDev 2, bidx := bidx
        txn := (s.fabric.nextTxn + bidx) % 2 ^ 16 }
      let ms := parts.zipIdx.map fun x => packet x.2 x.1
      let reqs := (ms.filterMap OutMsg.packet).flatMap fun p => live.map fun dev =>
        (⟨p.txn, dev, 2, p.seq, c.owner, p.off, 0, false, true, fabricAddr dev 0, some c.id, false⟩ : OutReq)
      modify fun s => { s with fabric := s.fabric.handBurst reqs (ms.flatMap fun m => s.fabric.copiesOf m (stringOf live)) }
  else k.peersOf.forM fun dev => parts.forM fun x => cmdRequest c dev x.1 0 id (dataPacket k w x)

/-- Result element `e` of ops 0 and 1: the tree of R47 over participant positions (R392). -/
def reducedElem (k : Coll) (j : Job) (e : Nat) : CollElem :=
  let devs := k.key.plist.map entryDev
  let at_ (p : Nat) : CollElem := ((k.dataOf (devs[p]?.getD 0))[e]?).getD ⟨0, false⟩
  let op := ropOf k.key.rop
  let leaf (p : Nat) : Part := if p < k.key.np then some (ropLeaf VCfg.reset j.dtag (at_ p).bits) else none
  ⟨((treeSum (op.apply ⟨j.rm.noStochastic, false, 0⟩ j.dtag) leaf 0 (clog2 k.key.np)).getD (plain 0)).bits,
    (rangeFrom 0 k.key.np).any fun p => (at_ p).poisoned⟩

/-- The elements that a participant writes, in the order of its destinations (R392). -/
def collResult (k : Coll) (j : Job) : List CollElem :=
  let devs := k.key.plist.map entryDev
  let share := j.count / k.key.np
  match j.op with
  | 0 => (rangeFrom 0 j.count).map (reducedElem k j)
  | 1 => (rangeFrom (k.self * share) share).map (reducedElem k j)
  | 2 => devs.flatMap k.dataOf
  | _ => k.dataOf (devs[k.root]?.getD 0)

/-- Some participant that this one still waits for cannot be reached (R394). -/
def State.peerGone (s : State) (k : Coll) : Bool := k.peersOf.any s.fabric.unreachable
/-- A command that waits for its peers ends with code 0x02 where one of them is gone (R383, R394). -/
def waitForPeers (c : Cmd) (k : Coll) : M Unit := do
  if (← get).peerGone k then modify (·.onCmd c.id (Cmd.settle 2 0)) else throw .wait

/-- A participant's step: it contributes once every peer that is to have its data has announced, and writes its result once
every contribution is here. -/
def moveColl (c : Cmd) : M Unit := do
  match c.coll with
  | none => throw .wait
  | some k =>
    if c.lost then modify (·.onCmd c.id (Cmd.settle 2 0))
    else if k.gives && !k.sent then
      if !k.announced || k.peersOf.any (fun d => !k.peers.contains d) then waitForPeers c k
      else do
        match ← contribution c with
        | none => pure ()
        | some (es, e) => do
          modify (·.onColl c.id fun k =>
            { (k.take ((k.key.plist[k.self]?.map entryDev).getD 0) 0 es) with sent := true, place := e })
          giveData c k es
    else if !k.announced || !k.complete then waitForPeers c k
    else do
      let dst := collDests k c.job
      if (← get).cmdWaits c [] (allRuns c.pages dst) then throw .wait
      else do
        performPuts c ((dst.zip (collResult k c.job)).filterMap fun x =>
          (findPage c.pages x.1.1).map fun l => (⟨l.1, x.1.2.1, x.1.2.2, x.2.bits, x.2.poisoned⟩ : Put))
        modify (·.onCmd c.id (Cmd.settle k.place.1 k.place.2))

/-- A pending collective of one operation. -/
def Cmd.isColl (op : Nat) (c : Cmd) : Bool := c.engine = .coe && c.job.op = op && c.stage = .pending

def execAllReduce (id : Nat) (s : State) : Out := orStay (engineStep id (Cmd.isColl 0) moveColl s) s
def execReduceScatter (id : Nat) (s : State) : Out := orStay (engineStep id (Cmd.isColl 1) moveColl s) s
def execAllGather (id : Nat) (s : State) : Out := orStay (engineStep id (Cmd.isColl 2) moveColl s) s
def execBroadcast (id : Nat) (s : State) : Out := orStay (engineStep id (Cmd.isColl 3) moveColl s) s

/-! ### XA2A (R393) -/

/-- The hart that an FSEND message or an arrival increment names: the slot of a core by its coreid; none where the core is not
in service (R180). -/
def State.namedSlot (s : State) (core : Nat) (slot : Fin 8) : Option Slot :=
  match s.coreMap[core]? with
  | some c => if h : c < 192 then some ⟨⟨c, h⟩, slot⟩ else none
  | none => none

/-- An arrival increment: applied to a resident hart of the context, or held for a pre-empted one; none where it is refused
(R180, R393). -/
def State.arrive (s : State) (ctx : Fin 64) (core : Nat) (slot : Fin 8) (w : WIdx) : Option State := do
  let p ← s.namedSlot core slot
  match s.harts.find? (fun h => h.place = p ∧ h.ctx = ctx) with
  | some h => some (s.onBorn h.born (·.bump w false))
  | none =>
    let x ← s.saved.find? (fun x => x.hart.place = p ∧ x.hart.ctx = ctx)
    some { s with saved := s.saved.map fun y => if y.order = x.order then { y with increments := y.increments ++ [(w, false)] } else y }

/-- The writes of an exchange: the copies for this device stay here, the others leave as write packets. -/
def exchangePuts (s : State) (k : Coll) (j : Job) (es : List CollElem) : List Put :=
  let devs := k.key.plist.map entryDev
  (j.tuples.zip es).map fun x =>
    let e := exchange k j x.1
    let dev := devs[e.1]?.getD 0
    let off := e.2.toNat
    ⟨if dev = s.fabric.self then packageHome off else .fabric dev off, 0, width j.dtag, x.2.bits, x.2.poisoned⟩

/-- The arrival increments of an exchange: this device's is applied here, the others leave (R393). -/
def sendArrivals (c : Cmd) (k : Coll) : M Bool := do
  let self := (← get).fabric.self
  let rs ← k.key.plist.mapM fun e => do
    let dev := entryDev e
    let core := fld e.toNat 10 8
    let slot : Fin 8 := Fin.ofNat 8 (e.toNat / 2 ^ 18)
    let w : WIdx := Fin.ofNat 16 (e.toNat / 2 ^ 21)
    if dev = self then do
      match (← get).arrive c.ctx core slot w with
      | some s' => set s'; return true
      | none => return false
    else do
      if !(c.answers.any fun r => r.dev = dev && r.failed) then
        modify fun s => s.cmdSend c 3 dev 0 0 fun p =>
          .arrival { p with data := bytesOf (c.ctx.val + core * 2 ^ 8 + slot.val * 2 ^ 16 + w.val * 2 ^ 24) 4 } c.ctx core slot w
      return true
  return rs.all id

/-- XA2A: first the writes, then, when every one of them is acknowledged, the arrival increments. -/
def moveXa2a (c : Cmd) : M Unit := do
  match c.coll, c.stage with
  | some k, .pending =>
    if c.lost then modify (·.onCmd c.id (Cmd.settle 2 0))
    else if !k.announced || k.peersOf.any (fun d => !k.peers.contains d) then waitForPeers c k
    else do
      match ← contribution c with
      | none => pure ()
      | some (es, e) => do
        let puts := exchangePuts (← get) k c.job es
        if (← get).cmdWaits c [] (puts.map fun p => (p.loc.place, p.w / 8)) then throw .wait
        else do
          performPuts c puts
          modify (·.onColl c.id fun k => { k with sent := true, place := e })
          modify (·.onCmd c.id fun c => { c.release with stage := .flying })
  | some k, .flying => do
    let ok ← sendArrivals c k
    modify (·.onCmd c.id (if ok then Cmd.settle k.place.1 k.place.2 else Cmd.settle 7 0))
  | _, _ => throw .wait

/-- An exchange whose data is still to be moved, or whose writes are under way. -/
def Cmd.isExchange (c : Cmd) : Bool :=
  c.engine = .coe && c.job.op = 4 && match c.stage with | .moved _ _ => false | _ => true
def execXa2a (id : Nat) (s : State) : Out := orStay (engineStep id Cmd.isExchange moveXa2a s) s

/-! ### What arrives from other devices -/

/-- An announce that arrives is paired with a command of this device, now or later (R391). -/
def State.hearAnnounce (s : State) (src : Nat) (key : CollKey) : State :=
  State.pairAnnounces { s with announces := [] } (s.announces ++ [⟨src, key⟩])

/-- Data that arrives lands in the buffer of the command that announced for it; a command that has ended takes none. -/
def State.hearData (s : State) (src first : Nat) (key : CollKey) (es : List CollElem) : State :=
  match s.cmds.find? (fun c => match c.coll with
      | some k => k.key = key && k.announced && k.peers.contains src && (k.dataOf src).length < k.total
      | none => false) with
  | some c => s.onColl c.id (·.take src first es)
  | none => s

end Sys2Proof.Machine
end

