-- ==== Sys2Proof/Machine/Harts.lean ====
section
/-! DEFINITION. LAUNCH, HYIELD, HWAIT, HEXIT, FENCE.ARRIVE, BWAIT and PPT (R216, R222 to R235, R246, R247, R354). -/
namespace Sys2Proof.Machine
open Sys2Proof

/-! ### LAUNCH -/

/-- Dword `k` of a descriptor. -/
def dw (d : List Nat) (k : Nat) : Nat := d[k]?.getD 0

/-- Whether a temporal or spatial row of a descriptor is as R216 asks: `r` its four dwords. -/
def rowLegal (temporal : Bool) (r : List Nat) : Bool :=
  let kind := fld (dw r 0) 32 2
  dw r 0 / 2 ^ 35 = 0
    && (if temporal then kind = 0 && !bitOf (dw r 0) 34 && (r.drop 1).all (fun e => fld e 5 11 = 0)
        else (kind = 1 || kind = 2) && (!bitOf (dw r 0) 34 || kind = 1) && (r.drop 1).all (· == 0))

/-- The checks of R222 on a descriptor: dwords 0 to 8, and its rows. -/
def descLegal (d : List Nat) (rows : List (List Nat)) (user : Bool) (pclass : Fin 4) : Bool :=
  let n := fld (dw d 3) 0 3
  let t := fld (dw d 8) 0 3
  !bitOf (dw d 3) 3 && fld (dw d 3) 6 2 = 0 && dw d 3 / 2 ^ 11 = 0
    && [4, 5, 6, 7].all (fun k => dw d k / 2 ^ 37 = 0)
    && dw d 8 / 2 ^ 3 = 0 && n ≤ 6 && t ≤ n
    && (rows.take t).all (rowLegal true) && (rows.drop t).all (rowLegal false)
    && dw d 0 % 4 = 0 && dw d 2 % 8 = 0
    && !(user && pclass.val < fld (dw d 3) 8 2)

/-- The launch that a legal descriptor describes, accepted (R216, R218, R222). -/
def launchOfDesc (id : Nat) (h : Hart) (D : Word) (d : List Nat) (rows : List (List Nat)) (cword : List Nat) : Launch :=
  let t := fld (dw d 8) 0 3
  let spatial := rows.drop t
  let srows := spatial.map fun r => (⟨dw r 0 % 2 ^ 32, fld (dw r 0) 32 2 = 2⟩ : SpatialRow)
  let total := srows.foldl (fun n r => n * r.trips) 1
  let deps := ([4, 5, 6, 7].filter (fun k => bitOf (dw d k) 36)).map fun k =>
    (⟨BitVec.ofNat 32 (dw d k), Fin.ofNat 16 (dw d k / 2 ^ 32)⟩ : Dep)
  { id := id, ctx := h.ctx, cls := Fin.ofNat 4 (dw d 3 / 2 ^ 8), gang := bitOf (dw d 3) 10, root := false
    plog := Fin.ofNat 4 (dw d 3 / 2 ^ 4), entry := BitVec.ofNat 64 (dw d 0), arg := BitVec.ofNat 64 (dw d 1), nest := D + 64
    desc := (d ++ rows.flatten).map (BitVec.ofNat 64), rows := srows
    compact := spatial.any (fun r => bitOf (dw r 0) 34), deps := deps, parent := h.born, admitted := false
    total := total, created := 0, ended := 0, nexit := 0, code := 0, cword := cword
    barriers := .replicate 16 (Barrier.start total), binds := [], mergedOut := 0 }

/-- The storage of a completion word: local memory only, every replica of a replicated page (R222). -/
def cwordKeys (va : Word) : M (List Nat) := do
  let t ← resolve va .store
  raiseIf (t.device || t.window) .access va .store
  match t.loc with
  | .cell key _ => return [key]
  | .repl q off => return replKeys q off
  | _ => raise .access va .store

/-- LAUNCH waits while its class queue is full: it keeps nothing meanwhile, so that a pre-emption may stop it there (R222, R355). -/
def queueWait (full : Bool) : M Unit := do
  if full then
    onHart fun h => { h with answers := [], held := [], underway := false }
    throw .pause

def execLaunch (a : SReg) (s : State) : Out :=
  finish 4 false (do
    waitIf s.storeQueued
    let D := s.getS a
    raiseIf (D.toNat % 8 != 0) .misaligned D .load
    let d ← readDwords D 9
    let n := fld (dw d 3) 0 3
    let flat ← readDwords (D + 72) (4 * n)
    let rows := (rangeFrom 0 n).map fun k => (flat.drop (4 * k)).take 4
    operandIf (!descLegal d rows (s.hart.mode == .user) s.hart.pclass)
    let cword ← if dw d 2 = 0 then pure [] else cwordKeys (BitVec.ofNat 64 (dw d 2))
    let s ← get
    waitIf s.hasPosted
    let l := launchOfDesc s.nextId s.hart D d rows cword
    queueWait (64 ≤ (s.launches.filter (fun x => x.cls = l.cls && !x.admitted && !x.root)).length)
    modify fun s => { s with launches := s.launches ++ [l], nextId := s.nextId + 1 }) s

/-! ### HYIELD and compaction -/

/-- The registers a held hart hands over: v2 to v7 (R246). -/
def strip : List VIdx := [2, 3, 4, 5, 6, 7]

/-- Whether HYIELD is a compaction point of the hart (R246). -/
def State.compactionPoint (s : State) : Bool :=
  match s.launchOf s.hart.launch with
  | some l => !l.gang && l.compact && !s.hart.merged && s.hart.vcfg.cthr != 0
  | none => false

/-- A pool's capacity (R247). -/
def poolCapacity (h : Hart) (tags : List Tag) : Nat := tags.foldl (fun n t => min n (h.vlmax t)) (h.vlmax .n32)

/-- The elements a held hart hands over (R246). The spec states no element at or above VLMAX of its register's tag: such a
value is free.
DEDUCED, log entry 35: unsafe for the merged hart, safe for the elements. -/
def stripElems (h : Hart) : List Nat → M (List PoolElem)
  | [] => return []
  | i :: t => do
    let vals ← strip.mapM fun r => do
      if i < h.vlmax (h.tag r) then return h.elem r (h.tag r) i
      else return Config.freeNat (← takeFree) % 2 ^ width (h.tag r)
    return ⟨vals, i, h.linear⟩ :: (← stripElems h t)

/-- A list cut into full chunks of `cap` and what is left, no more than `cap` of it; `fuel` bounds the chunks. -/
def cutFull {α : Type} (cap : Nat) : List α → Nat → List (List α) × List α
  | l, 0 => ([], l)
  | l, fuel + 1 =>
    if l.length ≤ cap then ([], l)
    else
      let r := cutFull cap (l.drop cap) fuel
      (l.take cap :: r.1, r.2)

/-- A strip joins the pool: what the pool held leaves as a merged hart when the strip would take it above capacity; a strip above
capacity by itself is cut, so that every element reaches one merged hart (R247).
DESIGN CHOICE for such a strip, log entry 35: unsafe. -/
def Pool.join (p : Pool) (cap : Nat) (strip : List PoolElem) : Pool × List MergedHart :=
  let full := decide (cap < p.elems.length + strip.length)
  let out := if full && !p.elems.isEmpty then [(⟨p, p.elems⟩ : MergedHart)] else []
  let cut := cutFull (Nat.max cap 1) (if full then strip else p.elems ++ strip) strip.length
  ({ p with elems := cut.2 }, out ++ cut.1.map fun es => ⟨p, es⟩)

/-- The state once a held hart has handed over its strip. -/
def State.holdStrip (s : State) (elems : List PoolElem) : State :=
  let h := s.hart
  let tags := strip.map h.tag
  let quad := quadOfCore h.place.core
  let mine (p : Pool) : Bool := p.quad = quad && p.launch = h.launch && p.addr = h.pc && p.tags = tags
  let pools := if s.pools.any mine then s.pools
    else s.pools ++ [⟨quad, h.launch, h.pc, tags, h.vcfg, h.srseed, h.sroff, h.quadIndex, []⟩]
  let joined := pools.map fun p => if mine p then p.join (poolCapacity h tags) elems else (p, [])
  { s with pools := joined.map (·.1), mergedHarts := s.mergedHarts ++ joined.flatMap (·.2) }

/-- Whether the quad's unit can take the strip: its pool stands already, or fewer than four do (R247). -/
def State.poolOpen (s : State) : Bool :=
  let h := s.hart
  let tags := strip.map h.tag
  let mine := s.pools.filter (fun p => p.quad = quadOfCore h.place.core)
  mine.length < 4 || mine.any (fun p => p.launch = h.launch && p.addr = h.pc && p.tags = tags)

/-- The mask bits set in [0, vl) (R246). -/
def Hart.maskOn (h : Hart) : List Nat := h.selected true

/-- HYIELD's own effect on issue (R227, R243, R245). -/
def State.yieldIssue (s : State) : State :=
  let alone := (s.onCore s.hart.place.core.val).length ≤ 1
  { s with hart := { s.hart with credit := 0, yielded := if alone then 0 else 15 } }

def execHyield (s : State) : Out :=
  let on := s.hart.maskOn
  if s.compactionPoint && s.poolOpen && on.length * 256 < s.hart.vcfg.cthr.toNat * s.hart.vln then
    finishAt (do
      illegalIf (!s.hart.retq.isEmpty) .hyield
      waitIf s.hasPosted
      let elems ← stripElems s.hart on
      modify fun s => (s.holdStrip elems).endHart s.hart .exit) s
  else .next (retire 4 s.yieldIssue)

/-! ### HWAIT, HEXIT, barriers, PPT -/

/-- HWAIT (R230). -/
def execHwait (a : SReg) (s : State) : Out :=
  finish 4 false (do
    let va := s.getS a
    let t ← resolve va .load
    noShelf t .load
    raiseIf t.device .access va .load
    let s ← get
    match s.hart.watch with
    | none => pure ()
    | some w => waitIf (w.sector == (s.served t.loc).place / 32 && !w.written)) s

/-- HEXIT (R226). -/
def execHexit (s : State) : Out :=
  finishAt (do
    illegalIf (!s.hart.retq.isEmpty) .hexit
    waitIf s.hasPosted
    modify fun s => s.endHart s.hart .exit) s

/-- The launch of the current hart, where it may use barriers (R231). -/
def State.gangOf (s : State) : Option Launch := (s.launchOf s.hart.launch).filter (·.gang)

/-- Whether the hart's last arrival at a barrier belongs to a phase that is not complete (R232, R233). -/
def Launch.openArrival (l : Launch) (h : Hart) (b : Fin 16) : Bool :=
  match h.arrivals.get b with
  | some a => (l.barriers.get b).phase ≤ a.phase
  | none => false

/-- FENCE.ARRIVE (R231, R232): the arrival registers in the background, once the stores that are still on their way now are
performed at its scope. -/
def execFenceArrive (sc : Scope) (b : Fin 16) (s : State) : Out :=
  finish 4 false (do
    match s.gangOf with
    | none => raise .operand
    | some l =>
      waitIf (l.openArrival s.hart b)
      let after := if sc = .hart then ([], []) else (s.posted.map fun o => (o.dst, o.ocls, o.seq), s.ownMsgs.map FMsg.id)
      onHart fun h => { h with arrivals := h.arrivals.set b (some ⟨(l.barriers.get b).phase, false, after.1, after.2⟩) }) s

/-- BWAIT (R231, R233). -/
def execBwait (b : Fin 16) (s : State) : Out :=
  finish 4 false (do
    match s.gangOf with
    | none => raise .operand
    | some l => waitIf (l.openArrival s.hart b)) s

/-- The escalation limit of a quad for a class (R355, R404). -/
def State.escalationLimit (s : State) (q : Fin 6) (cls : Fin 4) : Nat :=
  let e := s.mgmt.escalation.get q
  if cls = 2 then e.1.toNat else e.2.toNat

/-- A hart has issued as many convoys since the request as its quad's limit for its class (R355). -/
def State.pastEscalation (s : State) (h : Hart) : Bool :=
  h.preempt && 2 ≤ h.pclass.val && s.escalationLimit (quadOfCore h.place.core) h.pclass ≤ h.convoys

/-- PPT (R354): with a pre-emption request pending at a hart of class 2 or 3, the hart is saved at the next instruction; one that has
reached its escalation limit is saved full before it commits the PPT (R355). -/
def execPpt (mask : BitVec 8) (s : State) : Out :=
  let s' := retire 4 { s with hart := { s.hart with ltmask := mask } }
  if s.hart.preempt && 2 ≤ s.hart.pclass.val then
    .next (((if s.pastEscalation s.hart then s.saveUnit s.hart false else s'.saveUnit s'.hart true)).getD (waitHere s))
  else .next s'

end Sys2Proof.Machine
end

