-- ==== Sys2Proof/Machine/Scheduler.lean ====
section
/-! DEFINITION. The launch dispatcher, the chaining sequencers, pre-emption and resumption, and the ends of launches (R219,
R224, R225, R230, R232, R237 to R247, R353 to R357). -/
namespace Sys2Proof.Machine
open Sys2Proof

/-! ### The head (R237, R238) -/

/-- The classes from the highest down. -/
def classesDown : List (Fin 4) := [3, 2, 1, 0]

/-- The class of a merged hart's launch. -/
def State.mergedClass (s : State) (m : MergedHart) : Option (Fin 4) := (s.launchOf m.pool.launch).map (·.cls)

/-- The oldest resumption entry of a class. -/
def oldest (l : List Saved) : Option Saved :=
  l.foldl (fun best x => match best with
    | none => some x
    | some b => if x.order < b.order then some x else some b) none

/-- The head of one class: a merged hart before the resumption entries, these before the eligible launches (R237, R247); of several
merged harts the one emitted first.
DESIGN CHOICE for the order of merged harts, log entry 58: unsafe. -/
def State.headOf (s : State) (cls : Fin 4) : Option Head :=
  match s.mergedHarts.findIdx? (fun m => s.mergedClass m = some cls) with
  | some n => some (.merged n)
  | none =>
    match oldest (s.saved.filter (fun x => x.hart.pclass = cls)) with
    | some x => some (.resume x.order)
    | none => (s.launches.find? (fun l => l.cls = cls && !l.admitted && s.depsMet l)).map (.launch ·.id)

/-- Whether a head is still to be placed. -/
def State.headStands (s : State) : Head → Bool
  | .launch id => s.launches.any (fun l => l.id = id && !l.admitted)
  | .resume k => s.saved.any (fun x => x.order = k)
  | .merged n => n < s.mergedHarts.length

/-- The dispatcher takes a head where it has none. -/
def State.elect (s : State) : State :=
  match s.head.filter s.headStands with
  | some _ => s
  | none => { s with head := classesDown.findSome? s.headOf }

/-! ### Placing the head (R224, R240, R247, R356) -/

/-- Whether the units in service could hold a gang with every slot free (R224). -/
def State.gangFits (s : State) (l : Launch) : Bool :=
  let nq := (l.rows.filter (·.quads)).foldl (fun n r => n * r.trips) 1
  let per := l.total / nq
  nq ≤ ((List.finRange 6).filter fun q => per ≤ ((coresOf q).filter (fun c => s.inService c.val)).length * 2 ^ l.plog.val).length

/-- A launch leaves its queue. -/
def State.dequeue (s : State) (id : Nat) (f : Launch → Launch) : State :=
  ({ s.onLaunch id (fun l => { f l with admitted := true }) with head := none }).trimKept

/-- The state of a merged hart (R247). -/
def Launch.mergedHart (l : Launch) (p : Slot) (m : MergedHart) : Hart :=
  let n := m.elems.length
  let h0 : Hart := { Hart.fresh with
    place := p, ctx := l.ctx, launch := l.id, merged := true, quadIndex := m.pool.quadIndex, pclass := l.cls, mode := .user
    pc := m.pool.addr + 4, vcfg := { m.pool.cfg with plog := l.plog }, srseed := m.pool.srseed, sroff := m.pool.sroff
    vl := BitVec.ofNat 16 n }
  let h1 := h0.setMany [(3, l.arg), (4, m.pool.quadIndex), (5, BitVec.allOnes 64), (6, BitVec.allOnes 64)]
  let h2 := (strip.zipIdx).foldl (fun h r =>
    let t := m.pool.tags[r.2]?.getD .n64
    (h.setElems r.1 t (m.elems.zipIdx.map fun e => (e.2, e.1.vals[r.2]?.getD 0))).setTag r.1 t) h1
  let h3 := (h2.setBitList 0 ((rangeFrom 0 n).map fun i => (i, true))).setTag 0 .n8
  let h4 := (h3.setElems 8 .n32 (m.elems.zipIdx.map fun e => (e.2, e.1.index))).setTag 8 .n32
  (h4.setElems 9 .n32 (m.elems.zipIdx.map fun e => (e.2, e.1.linear.toNat % 2 ^ 32))).setTag 9 .n32

/-- A merged hart placed on its pool's quad (R247). -/
def State.placeMerged (s : State) (n : Nat) (m : MergedHart) : Option State := do
  let l ← (s.launchOf m.pool.launch).filter (fun l => !(s.ctxs.get l.ctx).frozen)
  let p ← s.placeOn l.ctx l.plog m.pool.quad
  let s := (s.addHart (l.mergedHart p m)).onLaunch l.id fun l => { l with mergedOut := l.mergedOut + 1 }
  some { s with mergedHarts := s.mergedHarts.eraseIdx n, head := none }

/-- The harts of a resumption entry: a gang is one entry (R237). -/
def State.entryOf (s : State) (x : Saved) : List Saved :=
  if x.gang then s.saved.filter (fun y => y.gang && y.hart.launch = x.hart.launch) else [x]

/-- A pre-empted hart's slot is free for it, and its core takes harts of its partition (R228, R356). -/
def State.slotBack (s : State) (x : Saved) : Bool :=
  let core := s.cores.get x.hart.place.core
  !core.retired && !s.heldStill x.hart && !s.paOwned x.image slotBytes && core.part != .closed && (core.part != .pinned || core.partPlog = x.hart.vcfg.plog)
    && (s.onCore x.hart.place.core.val).all fun h => h.vcfg.plog = x.hart.vcfg.plog && h.place.slot != x.hart.place.slot

/-- A pre-empted hart that is lost leaves with a code; increments that reached it stay with its counters (R356, R372). -/
def State.lose (s : State) (x : Saved) (code : BitVec 8) : State :=
  let h := x.increments.foldl (fun h i => h.bump i.1 i.2) x.hart
  ({ s with saved := s.saved.filter (fun y => y.order != x.order) }).endHart h (.failed code)

/-- One pre-empted hart back in its slot, or lost where its image is poisoned (R356). -/
def State.resumeOne (s : State) (x : Saved) : State :=
  if s.imagePoisoned x then s.lose x 4 else s.restore x

/-- The head placed as far as one step goes; none where it has to wait. -/
def State.placeHead (s : State) : Option State :=
  match s.head with
  | none => none
  | some (.launch id) =>
    match s.launchOf id with
    | none => none
    | some l =>
      if l.total = 0 then some (s.dequeue id id_)
      else if l.gang then
        if !s.gangFits l then some (s.dequeue id fun l => { l with total := 0, code := 1 })
        else (s.createMany id l.total).map (·.dequeue id id_)
      else (s.createNext id).map fun s => if (s.launchOf id).any (·.admitted) then s.dequeue id id_ else s
  | some (.resume k) =>
    match s.saved.find? (fun x => x.order = k) with
    | none => none
    | some x =>
      let es := s.entryOf x
      if es.all s.slotBack then some { es.foldl State.resumeOne s with head := none } else none
  | some (.merged n) =>
    match s.mergedHarts[n]? with
    | none => none
    | some m => s.placeMerged n m
where id_ (l : Launch) : Launch := l

/-! ### Pre-emption requests (R239) -/

/-- The class of the head. -/
def State.headClass (s : State) : Head → Fin 4
  | .launch id => ((s.launchOf id).map (·.cls)).getD 0
  | .resume k => ((s.saved.find? (fun x => x.order = k)).map (·.hart.pclass)).getD 0
  | .merged n => ((s.mergedHarts[n]?).bind s.mergedClass).getD 0

/-- Harts by ascending class and, within a class, the most recently created first. -/
def insertHart (h : Hart) : List Hart → List Hart
  | [] => [h]
  | x :: t => if x.pclass < h.pclass ∨ (x.pclass = h.pclass ∧ h.born < x.born) then x :: insertHart h t else h :: x :: t

/-- The device as it would stand with harts pre-empted: their slots reserved for them. -/
def State.without (s : State) (hs : List Hart) : State :=
  hs.foldl (fun s h => { s.dropHart h.born with saved := s.saved ++ [⟨h, 0, false, 0, []⟩] }) s

/-- The fewest harts of a list, in its order, whose pre-emption would place the head: of a launch that is no gang, its next hart.
DESIGN CHOICE for such a launch with several harts left, log entry 59: unsafe. -/
def State.enough (s : State) (gone : List Hart) : List Hart → Option (List Hart)
  | [] => if ((s.without gone).placeHead).isSome then some gone else none
  | h :: t =>
    if ((s.without gone).placeHead).isSome then some gone
    else State.enough s (gone ++ (s.unitOf h).filter (fun x => !gone.any (fun g => g.born = x.born))) t

/-- The requests that the waiting head makes: none where they would not do, or are made already. -/
def State.requestPreempt (s : State) (hd : Head) : Option State :=
  let cls := s.headClass hd
  let able (h : Hart) : Bool := h.pclass < cls && (h.status = .resident || (s.launchOf h.launch).any (·.gang))
  let cands := (s.harts.filter able).foldl (fun l h => insertHart h l) []
  let made := cands.filter (·.preempt)
  match s.enough made (cands.filter (!·.preempt)) with
  | none => none
  | some hs =>
    let fresh := hs.filter (!·.preempt)
    if fresh.isEmpty then none
    else some (s.mapHarts fun h => if h.status != .absent && fresh.any (fun x => x.born = h.born) then
      { h with preempt := true, convoys := 0 } else h)

/-! ### The dispatcher's steps -/

/-- A step of the dispatcher on a head of one kind; it admits nothing while a retirement waits for its drain (R372). -/
def dispatch (kind : State → Head → Bool) (s : State) : Option State :=
  let t := s.elect
  match t.head with
  | none => none
  | some hd =>
    if !s.mgmt.proposed.isEmpty || !kind t hd then none
    else match t.placeHead with
      | some u => some u
      | none =>
        match t.requestPreempt hd with
        | some u => some u
        | none => if s.head = t.head then none else some t

/-- A launch none of whose harts is created yet. -/
def freshLaunch (s : State) : Head → Bool
  | .launch id => s.launches.any (fun l => l.id = id && l.created = 0)
  | _ => false

/-- The head is a launch of which some hart exists, or a merged hart. -/
def begunLaunch (s : State) : Head → Bool
  | .launch id => !freshLaunch s (.launch id)
  | .merged _ => true
  | .resume _ => false
/-- The head is a resumption entry. -/
def resuming (_ : State) : Head → Bool
  | .resume _ => true
  | _ => false

def execAdmitLaunch (s : State) : Out := orStay (dispatch freshLaunch s) s
def execCreateHart (s : State) : Out := orStay (dispatch begunLaunch s) s
def execResumption (s : State) : Out := orStay (dispatch resuming s) s

/-! ### Pre-emption (R353, R355) -/

/-- Whether the instruction at a hart's pc is one at which R355 pre-empts a waiting hart. -/
def State.atWait (s : State) (h : Hart) : Bool :=
  match s.turnTo h.place with
  | none => false
  | some t =>
    let at_ := match t.hart.parcels, fetchInstr t with
      | some p, _ => some p
      | none, .ok p _ => some p
      | none, .error _ _ => none
    match at_ with
    | some (p0, p1) =>
      match decode p0 p1 with
      | .ok (.hwait _) | .ok (.bwait _) | .ok (.ewait _ _) | .ok (.qrd _) | .ok (.drain _ _ _ _) | .ok (.launch _) => true
      | _ => false
    | none => false

/-- A request is served at once: for classes 0 and 1, at a wait, and for a gang all of whose members are halted, since none of them
commits a PPT, waits or issues a convoy any more (R353, R355).
DEDUCED for that gang, log entry 57: unsafe. -/
def State.servedNow (s : State) (h : Hart) : Bool :=
  h.preempt && (h.pclass.val < 2 || (s.unitOf h).all (·.status = .halted) || (h.status = .resident && h.waiting && s.atWait h))

/-- A hart of a slot. -/
def State.hartOn (s : State) (p : Slot) : Option Hart := s.harts.find? (fun h => h.place = p)

/-- The request of a hart is served, with its gang (R353). -/
def State.preempted (s : State) (p : Slot) : Option State := do
  let h ← (s.hartOn p).filter s.servedNow
  s.saveUnit h false
def execPreEmption (p : Slot) (s : State) : Out := orStay (s.preempted p) s

/-- The full pre-emption of a hart that commits no PPT (R355). -/
def State.escalated (s : State) (p : Slot) : Option State := do
  let h ← (s.hartOn p).filter s.pastEscalation
  s.saveUnit h false
def execEscalation (p : Slot) (s : State) : Out := orStay (s.escalated p) s

/-! ### Issue opportunities (R241 to R245) -/

/-- The weight of a class (R243). -/
def weight (c : Fin 4) : Int := 2 ^ c.val

/-- An instruction starts a convoy of the current hart: a header, or a vector instruction that none covers (R68, R241). -/
def State.startsConvoy (s : State) : Instr → Bool
  | .convoyHeader _ => true
  | i => i.vclass.isSome && s.hart.covered.isNone

/-- An instruction that reads or changes code tables (R132 to R135). -/
def usesTables : Instr → Bool
  | .vdec _ _ _ _ | .vlut _ _ _ _ | .ctblW _ _ | .ctblSwap _ => true
  | _ => false

/-- The instructions of a hart's started convoy that have not completed. -/
def Hart.started (h : Hart) : List Instr :=
  let rest := match h.covered with
    | some c => (vectorRun (c.parcels.drop ((h.pc - c.start).toNat / 4))).getD []
    | none => []
  match h.parcels with
  | some (p0, p1) => if opensVector p0 then (match decode p0 p1 with | .ok i => i :: rest | .error _ => rest) else rest
  | none => rest
/-- A hart has a convoy that has started and not completed. -/
def Hart.convoyRuns (h : Hart) : Bool :=
  h.issue || h.covered.isSome || (match h.parcels with | some p => opensVector p.1 | none => false)

/-- The code tables serve another hart's convoy first: one that started earlier on the core and whose instructions on the tables have not
all completed (R133, R244). -/
def State.tablesBusy (s : State) : Bool :=
  (s.onCore s.hart.place.core.val).any fun x =>
    x.born != s.hart.born && x.startedAt < s.hart.startedAt && (x.issue || x.started.any usesTables)

/-- Whether the next instruction of the current hart starts a convoy (R242). -/
def State.atConvoy (s : State) : Bool :=
  match fetchInstr s with
  | .ok (p0, p1) t =>
    match decode p0 p1 with
    | .ok i => t.startsConvoy i
    | .error _ => false
  | .error _ _ => false

/-- A hart is eligible at an opportunity (R242). -/
def State.eligible (s : State) (h : Hart) : Bool :=
  s.runnable h && !h.waiting && h.yielded = 0 && !h.convoyRuns && ((s.turnTo h.place).any State.atConvoy)

/-- The hart with the largest credit, the lower hartid on a tie. -/
def richest (l : List Hart) : Option Hart :=
  l.foldl (fun best x => match best with
    | none => some x
    | some b => if b.credit < x.credit ∨ (b.credit = x.credit ∧ x.place.slot < b.place.slot) then some x else some b) none

/-- The hart that an opportunity chooses, and the harts of the core with their new credits (R243). -/
def chooseIssue (position : Nat) (here elig : List Hart) : Option Hart × List (Nat × Int) :=
  match elig.find? (fun h => position < 8 && h.place.slot.val = position) with
  | some h => (some h, here.map fun x => (x.born, x.credit))
  | none =>
    let total := (elig.map fun h => weight h.pclass).foldl (· + ·) 0
    let raised := elig.map fun h => { h with credit := h.credit + weight h.pclass }
    match richest raised with
    | none => (none, here.map fun x => (x.born, x.credit))
    | some y => (some y, here.map fun x =>
        match raised.find? (fun r => r.born = x.born) with
        | some r => (x.born, if r.born = y.born then r.credit - total else r.credit)
        | none => (x.born, x.credit))

/-- The convoys of a core that have started and not completed: its lane groups all hold them (R241). -/
def State.convoysOn (s : State) (core : Fin 192) : Nat := ((s.onCore core.val).filter Hart.convoyRuns).length

/-- The convoy that an opportunity has started on a core is still to begin. -/
def State.startPending (s : State) (core : Fin 192) : Bool :=
  (s.onCore core.val).any fun h => h.issue && s.runnable h && !h.waiting

/-- An issue opportunity of a core: the position advances, the credits change, and the hart that is chosen, which becomes the
current one, starts its convoy; none while the lane groups hold four, nor before the convoy of the last one has begun, so that convoys
begin in start order (R241 to R245).
DEDUCED, log entry 27: safe. -/
def State.opportunity (s : State) (core : Fin 192) : Option State :=
  let c := s.cores.get core
  if c.retired || 4 ≤ s.convoysOn core || s.startPending core then none
  else
    let here := s.onCore core.val
    let (y, credits) := chooseIssue c.position.val here (here.filter s.eligible)
    let start := s.nextId
    let s := { s with cores := s.cores.set core { c with position := Fin.ofNat 15 (c.position.val + 1) }, nextId := start + 1 }
    let chosen (h : Hart) : Bool := y.any fun y => y.born = h.born
    let s := s.mapHarts fun h =>
      if h.status != .absent && h.place.core = core then
        { h with
          credit := ((credits.find? (fun p => p.1 = h.born)).map (·.2)).getD h.credit
          yielded := if y.isSome && !chosen h then 0 else h.yielded - 1
          issue := h.issue || chosen h
          startedAt := if chosen h then start else h.startedAt }
      else h
    match y with
    | some y => some ((s.turnTo y.place).getD s)
    | none => some s

def execIssueOpportunity (core : Fin 192) (s : State) : Out := orStay (s.opportunity core) s

/-- The current hart begins an instruction that it has fetched: from here on these parcels are the instruction's, and a convoy that
it starts counts towards an escalation (R302, R355). -/
def State.begin (s : State) (p : Parcel × Parcel) (i : Instr) : State :=
  { s with hart := { s.hart with
      parcels := some p, issue := false
      convoys := if s.startsConvoy i && s.hart.preempt then s.hart.convoys + 1 else s.hart.convoys } }

/-! ### Waits, barriers, pools and the ends of launches -/

/-- HWAIT_WAKE: the written bit of a waiting hart's watch is set (R230). -/
def execHwaitWake (p : Slot) (s : State) : Out :=
  orStay (((s.hartOn p).filter fun h => h.waiting && h.watch.any (·.written)).map fun h =>
    s.onBorn h.born fun h => { h with waiting := false }) s

/-- A hart of a slot, resident or pre-empted. -/
def State.hartKnown (s : State) (p : Slot) : Option Hart :=
  (s.hartOn p).orElse fun _ => (s.saved.find? (fun x => x.hart.place = p)).map (·.hart)
/-- The stores before an arrival that are still on their way (R232). -/
def State.arrivalWaits (s : State) (a : Arrival) : Bool :=
  a.reqs.any (fun r => s.fabric.outstanding.any fun o => o.dst = r.1 ∧ o.ocls = r.2.1 ∧ o.seq = r.2.2)
    || s.msgs.any (fun m => a.msgs.contains m.id)

/-- ARRIVAL_REGISTER: the arrival of a hart counts once the stores before it are performed (R232, R233). -/
def State.registerArrival (s : State) (p : Slot) (b : Fin 16) : Option State := do
  let h ← s.hartKnown p
  let a ← (h.arrivals.get b).filter fun a => !a.registered && !s.arrivalWaits a
  let mark (h : Hart) : Hart := { h with arrivals := h.arrivals.set b (some { a with registered := true }) }
  let s := s.onBorn h.born mark
  let s := { s with saved := s.saved.map fun (x : Saved) => if x.hart.born = h.born then { x with hart := mark x.hart } else x }
  return s.onLaunch h.launch fun l =>
    let bar := l.barriers.get b
    if bar.phase = a.phase then { l with barriers := l.barriers.set b bar.arrive } else l
def execArrivalRegister (p : Slot) (b : Fin 16) (s : State) : Out := orStay (s.registerArrival p b) s

/-- Every hart of a launch that is not a merged hart has been created and has ended or been held (R247). -/
def Launch.drained (l : Launch) : Bool := l.admitted && l.created = l.total && l.ended = l.total

/-- MERGED_HART_EMIT: what a pool still holds leaves as a merged hart once no strip can join it (R247). -/
def State.emitMerged (s : State) (quad : Fin 6) (pool : Nat) : Option State := do
  let p ← (s.pools.filter (fun p => p.quad = quad))[pool]?
  if !p.elems.isEmpty && (s.launchOf p.launch).any (·.drained) then
    some { s with
      pools := s.pools.map fun x => if x = p then { x with elems := [] } else x
      mergedHarts := s.mergedHarts ++ [⟨p, p.elems⟩] }
  else none
def execMergedHartEmit (quad : Fin 6) (pool : Nat) (s : State) : Out := orStay (s.emitMerged quad pool) s

/-- A launch has ended, and everything its harts handed on has too (R225, R247). -/
def State.launchDone (s : State) (l : Launch) : Bool :=
  l.admitted && l.ended = l.total && (l.total = l.created || l.total = 0) && l.mergedOut = 0
    && !s.pools.any (fun p => p.launch = l.id && !p.elems.isEmpty)
    && !s.mergedHarts.any (fun m => m.pool.launch = l.id)
    && !s.cmds.any (fun c => c.launch = l.id)

/-- The completion word (R225). -/
def Launch.word (l : Launch) : Nat :=
  (if l.code = 0 then 1 else 2) + l.code.toNat * 2 ^ 8 + l.nexit * 2 ^ 32

/-- COMPLETION_WORD_WRITE: the word is written once, and the launch leaves the device, with its pools, which have held their places up to
then. Every hart's stores are performed before it ends (R225, R226).
DESIGN CHOICE for how long a pool holds its place, log entry 58: unsafe. -/
def State.writeCompletion (s : State) (id : Nat) : Option State := do
  let l ← (s.launchOf id).filter fun l => s.launchDone l && !l.cword.any (fun k => s.writeStalls k 8)
  let s := l.cword.foldl (fun s k => s.storeDirect k 8 l.word) s
  return { s with
    launches := s.launches.filter (fun x => x.id != id)
    pools := s.pools.filter (fun p => p.launch != id) }.trimKept
def execCompletionWordWrite (id : Nat) (s : State) : Out := orStay (s.writeCompletion id) s

end Sys2Proof.Machine
end

