-- ==== Sys2Proof/Machine/Fabric.lean ====
section
/-! DEFINITION. Traps as steps of their own, uncorrectable errors, and the fabric: requests performed here in the order of their
streams, responses, notices and links (R178 to R181, R261, R346, R379 to R394). -/
namespace Sys2Proof.Machine
open Sys2Proof

/-! ### Traps and poison (R261, R346) -/

/-- Whether a trap can be taken at a hart's pc now: its instruction is not one that goes on from what it keeps, it answers no one and
offers no batch. -/
def State.mayTrap (s : State) (h : Hart) : Bool :=
  !s.heldStill h && !s.hasAsked h && h.answers.isEmpty && h.offer.isNone && !h.underway

/-- The class of the instruction at the current hart's pc. -/
def State.classHere (s : State) : Option VClass :=
  let of (p : Parcel × Parcel) : Option VClass := match decode p.1 p.2 with
    | .ok i => i.vclass
    | .error _ => none
  match s.hart.parcels, fetchInstr s with
  | some p, _ => of p
  | none, .ok p _ => of p
  | none, .error _ _ => none

/-- The current hart takes a trap that a step names, at its pc (R346). -/
def State.enterTrap (s : State) (t : TrapInfo) : Option State :=
  if s.hart.status = .resident && s.mayTrap s.hart then
    if t.cause = .systemCall && !s.hart.estat.tip then
      let s' := retire 4 s
      some (takeTrap t s'.hart.pc false false s')
    else some (takeTrap t s.hart.pc (s.classHere = some .ldp || s.classHere = some .stp) false s)
  else none

/-- TRAP_ENTRY.
DESIGN CHOICE, log entry 16: safe. -/
def execTrapEntry (c : Cause) (eval : Word) (kind : AccessKind) (s : State) : Out := orStay (s.enterTrap ⟨c, eval, kind⟩) s

/-- The asynchronous fabric error at a hart; the hart that was current stays so. A hart with a trap in progress, halted or not, holds
it pending (R346, R347). -/
def State.asyncAt (s : State) (h : Hart) (addr : Word) : Option State :=
  if h.status = .absent then none
  else if h.estat.tip then some (s.onBorn h.born (·.pendFabric addr))
  else if h.status = .resident && s.mayTrap h then
    (s.turnTo h.place).map fun t =>
      let u := asyncFabricError addr t
      (u.turnTo s.hart.place).getD u
  else none

/-- A request leaves the list of those without a response. -/
def State.closeReq (s : State) (o : OutReq) : State :=
  { s with fabric := { s.fabric with outstanding := s.fabric.outstanding.erase o } }

/-- A store of a hart that has failed: its error is still to be taken (R346, R385). -/
def Fabric.failedStore (f : Fabric) (o : OutReq) : Bool := o.posted && o.cmd.isNone && (o.refused || f.unreachable o.dst)

/-- The error of a failed store is taken at its hart, once for the packets of one message; a hart that has ended takes none. -/
def State.raiseFailed (s : State) (o : OutReq) : Option State :=
  if o.ocls = 3 && o.len = 0 then some (s.closeReq o)
  else match s.harts.find? (fun h => h.born = o.born) with
  | none => some (s.closeReq o)
  | some h => (s.closeReq o).asyncAt h o.eval

/-- ASYNCHRONOUS_FABRIC_ERROR: a store of the hart has failed (R346, R385). -/
def execAsynchronousFabricError (p : Slot) (addr : Word) (s : State) : Out :=
  orStay (do
    let h ← s.hartOn p
    let o ← s.fabric.outstanding.find? fun o => s.fabric.failedStore o && o.born = h.born && o.eval = addr
    s.raiseFailed o) s

/-- UNCORRECTABLE_ERROR: a sector becomes poisoned, in HBM4 too where the error lies there (R261). -/
def execUncorrectableError (sector : Nat) (inHbm : Bool) (s : State) : Out :=
  let s := s.addPoison sector
  .next (if inHbm then { s with hbmPoison := insertNat sector s.hbmPoison } else s)

/-! ### Requests performed here (R384 to R386) -/

/-- The packet that answers a request, echoing its tag; `marks` says which sectors of a read are poisoned. -/
def Packet.answer (p : Packet) (self : Nat) (data : List Byte) (marks : List Bool) : Packet :=
  { p with
    src := self, dst := p.src, mc := false, dt := false, string := 0, data := data, mask := [], marks := marks, tainted := false
    wt := false, len := data.length }

/-- The home of an offset on this device; none at 3 TiB and above. -/
def homeKey (off : Nat) : Option Nat :=
  if localTop ≤ off then none
  else match packageHome off with
    | .cell key _ => some key
    | _ => none

/-- A watch of another device's hart recorded; a full table gives up its oldest entry, with a notice (R386). -/
def State.addWatch (s : State) (w : RemoteWatch) : State :=
  let ws := s.fabric.watches
  if ws.length < 4096 then { s with fabric := { s.fabric with watches := ws ++ [w] } }
  else match ws with
    | old :: rest =>
      ({ s with fabric := { s.fabric with watches := rest ++ [w] } }).emit (s.fabric.notice old)
    | [] => s

/-- The watch that a request with wt = 1 asks for. -/
def State.watchFor (s : State) (p : Packet) (key : Nat) : State :=
  if p.wt then s.addWatch ⟨p.src, p.slot, key / 32, p.off⟩ else s

/-- What performing a request gives: the state, and the response where it does not have to wait. -/
abbrev Performed := State × Option OutMsg

/-- A request refused with an error response. -/
def State.turnedAway (s : State) (p : Packet) : Performed := (s, some (.errorResponse (Packet.answer p s.fabric.self [] [])))
/-- A request performed with nothing to tell but that. -/
def State.performed (s : State) (p : Packet) : Performed := (s, some (.completionResponse (Packet.answer p s.fabric.self [] [])))

/-- A read: the bytes, and the poisoned sectors marked; the directory recalls dirty bytes (R257, R385). -/
def State.performRead (s : State) (p : Packet) : Performed :=
  match homeKey p.off with
  | none => s.turnedAway p
  | some key =>
    if s.readStalls key p.len then (s, none)
    else
      let s := (sectorsOf key p.len).foldl (fun s q => s.drawBack (q * 32)) s
      let marks := (sectorsOf key p.len).map s.poison.contains
      (s.watchFor p key, some (.dataResponse (Packet.answer p s.fabric.self (bytesOf (s.mem.readRange key p.len) p.len) marks)))

/-- The bits of a byte that a mask names, as writes of a place: storage number, bit, width and value. -/
def maskedBits (key : Nat) (val mask : Byte) : List (Nat × Nat × Nat × Nat) :=
  if mask = 0xFF then [(key, 0, 8, val.toNat)]
  else ((rangeFrom 0 8).filter (bitOf mask.toNat)).map fun b => (key, b, 1, val.toNat / 2 ^ b % 2)

/-- A write with its mask (R143, R384); the sectors that take bytes derived from poison become poisoned (R319). -/
def State.performWrite (s : State) (p : Packet) : Performed :=
  match homeKey p.off with
  | none => s.turnedAway p
  | some key =>
    let cells := (p.data.zip p.mask).zipIdx.flatMap fun x => maskedBits (key + x.2) x.1.1 x.1.2
    if cells.any (fun c => s.writeStalls c.1 1) then (s, none)
    else
      let s := s.putCells cells
      let s := if p.tainted then ((cells.map fun c => c.1 / 32).eraseDups).foldl State.addPoison s else s
      s.performed p

/-- The configuration under which a sender's float atomic rounds and flushes (log entry 21).
DESIGN CHOICE, log entry 21: unsafe. -/
def Packet.cfg (p : Packet) : VCfg :=
  { VCfg.reset with rm := ((rmOf p.rm).getD .nearestEven).noStochastic, fzw := p.fz, fzh := p.fz, fz8 := p.fz, fz6 := p.fz }

/-- The operation of a reduction that an atomic packet carries. -/
def ropOfAmo : AmoOp → Rop
  | .max | .maxn => .max
  | .min | .minn => .min
  | .or => .or
  | _ => .add

/-- What an atomic packet writes over the value it finds; none for a CAS that fails. -/
def Packet.effect (p : Packet) (old : Nat) : Option Nat :=
  let n := p.len
  let y := ofBytes (if p.op = .cas then p.data.drop n else p.data) % 256 ^ n
  if p.merges then
    some ((ropOfAmo p.op).apply ⟨(Packet.cfg p).rm, false, 0⟩ p.tag (ropLeaf (Packet.cfg p) p.tag old) (plain y)).bits
  else (amoEffect (Packet.cfg p) p.op n old y (ofBytes p.data % 256 ^ n)).map (·.bits)

/-- The places that the instruction of an atomic packet accesses here; none where one of them has no home here. -/
def Packet.places (p : Packet) : Option (List Nat) := (p.off :: p.lockset).mapM homeKey

/-- The lock of a packet's instruction on all its lines here, taken in its turn at every one of them with its first packet: none where it
has to wait, else whether the instruction is refused, for a poisoned sector that it reads (R153, R293, R295, R384). -/
def State.lockFor (s : State) (p : Packet) (keys : List Nat) : State × Option Bool :=
  match s.locks.find? fun l => l.src = p.src ∧ l.slot = p.slot with
  | some l => (s, some l.refused)
  | none =>
    let who := Waiter.far p.src p.slot
    let lines := linesOf keys p.len
    if keys.any (s.writeStalls · p.len) || !s.firstAt who lines then (s.queueAt who lines, none)
    else
      let refused := !p.merges && keys.any s.poisoned
      let s := s.unqueue who
      ({ s with locks := s.locks ++ [⟨p.src, p.slot, lines, refused⟩] }, some refused)

/-- The last packet of an instruction here releases its lines, as does one whose sender no route reaches any more. -/
def State.unlockFor (s : State) (p : Packet) : State :=
  if p.closing || s.fabric.unreachable p.src then { s with locks := s.locks.filter fun l => !(l.src = p.src ∧ l.slot = p.slot) } else s

/-- An atomic under the lock of its instruction: where that is refused nothing is written, and a poisoned sector is marked (R262, R384). -/
def State.applyAtomic (s : State) (p : Packet) (key : Nat) (refused : Bool) : State × Option OutMsg :=
  let old := s.mem.readRange key p.len
  let reply (bad : Bool) : Option OutMsg := some (.dataResponse (Packet.answer p s.fabric.self (bytesOf old p.len) [bad]))
  if refused then (s.watchFor p key, reply (s.poisoned key))
  else match Packet.effect p old with
    | none => ((s.drawBack key).watchFor p key, reply false)
    | some v => ((s.storeDirect key p.len v).watchFor p key, reply false)

/-- An atomic in the home's line (R152, R295, R384). -/
def State.performAtomic (s : State) (p : Packet) : Performed :=
  match homeKey p.off, Packet.places p with
  | some key, some keys =>
    match s.lockFor p keys with
    | (s, none) => (s, none)
    | (s, some refused) =>
      let r := s.applyAtomic p key refused
      (r.1.unlockFor p, r.2)
  | _, _ => s.turnedAway p

/-- The kind of the values of a message. -/
def FMsg.kind (m : FMsg) : Kind64 := if m.float then .float else if m.signed then .signed else .unsigned

/-- An FSEND message applied to its target's share: how many entries were (R179, R180). -/
def State.applyMessage (s : State) (m : FMsg) : State × Nat :=
  match (s.namedSlot m.core m.slot).bind s.hartOn with
  | none => (s, 0)
  | some h =>
    if h.ctx != m.ctx then (s, 0)
    else
      let r := applyEntries h.parts (combine64 (ropOfField m.op) (FMsg.kind m) .even) h.pigeon m.ascending
      (s.onBorn h.born fun h => { h with pigeon := r.1, ixlive := h.ixlive || r.2.1 != 0 }, r.2.1)

/-- A receipt word may be updated: it is stored here, and `who` stands first at its lines; else it takes its place there (R295). -/
def State.receiptTurn (s : State) (who : Waiter) (code : Nat) : State × Bool :=
  let keys := receiptKeys code
  let lines := linesOf keys 8
  if keys.any (s.writeStalls · 8) || !s.firstAt who lines then (s.queueAt who lines, false) else (s.unqueue who, true)

/-- A message applied, then its receipt: added here, in its turn at the word's line, or sent to the word's home; and whether that could be
done now. -/
def State.deliver (s : State) (m : FMsg) (slot : Slot) (who : Waiter) : State × Bool :=
  let value (a : Nat) : Nat := a + 2 ^ 32 * (m.ascending.length - a)
  if m.rdev = s.fabric.self then
    match s.receiptTurn who m.receipt with
    | (s, false) => (s, false)
    | (s, true) =>
      let r := s.applyMessage m
      (r.1.addReceipt m.receipt (value r.2), true)
  else
    let r := s.applyMessage m
    let p := { s.fabric.packet m.rdev 3 m.receipt slot with data := bytesOf (value r.2) 8, len := 8 }
    (({ r.1 with fabric := { r.1.fabric with nextTxn := r.1.fabric.nextTxn + 1 } }).emit (.receiptAdd p), true)

/-- A request performed, with its response; a message of several packets with the last of them, which its stream brings last. -/
def State.perform (s : State) : OutMsg → Performed
  | .read p => s.performRead p
  | .write p => s.performWrite p
  | .atomic p => s.performAtomic p
  | .fsend p m => if !p.closing then s.performed p else match s.deliver m p.slot (.receipt p.src p.seq) with
    | (s', true) => s'.performed p
    | (s', false) => (s', none)
  | .collData p key es => (s.hearData p.src p.off key es).performed p
  | .announce p key => (if p.closing then s.hearAnnounce p.src key else s).performed p
  | .arrival p ctx core slot w => match s.arrive ctx core slot w with
    | some s' => s'.performed p
    | none => s.turnedAway p
  | .receiptAdd p =>
    match s.receiptTurn (.receipt p.src (2 ^ 32 + p.txn)) p.off with
    | (s', true) => (s'.addReceipt p.off (ofBytes p.data)).performed p
    | (s', false) => (s', none)
  | _ => (s, none)

/-! ### Transit (R377, R387) -/

/-- A packet for another device goes on along its route; a request that no route takes further is answered with an error response.
DESIGN CHOICE, log entry 26: unsafe. -/
def State.forward (s : State) (m : OutMsg) (p : Packet) : State :=
  if s.fabric.reaches p.dst && (s.fabric.route p.dst p.dt).isSome then s.emit m
  else if m.isRequest then s.emit (.errorResponse (Packet.answer p s.fabric.self [] []))
  else s

/-- The copies of a multicast packet that this device's routers send on; a device whose copy no port takes is answered for with an error
response.
DESIGN CHOICE, log entry 26: unsafe. -/
def State.handOn (s : State) (m : OutMsg) (p : Packet) : State :=
  let f := s.fabric
  let rest := p.string &&& ~~~stringOf [f.self]
  let sent := ((f.copies rest).filter fun x => (f.copyDetours x.1 p.dt).isSome).foldl (fun b x => b ||| x.2) 0
  let stuck := stringDevs (rest &&& ~~~sent)
  stuck.foldl (fun s dev => s.emit (.errorResponse (Packet.answer p dev [] []))) ((f.copiesOf m rest).foldl State.emit s)

/-- A message for another device goes on; none where it is for this one. -/
def State.inTransit (s : State) (m : OutMsg) (p : Packet) : Option State :=
  if p.mc || p.dst = s.fabric.self then none else some (s.forward m p)

/-! ### Streams and bursts (R381, R382, R388) -/

/-- The next number expected on a stream. -/
def Fabric.expects (f : Fabric) (dev : Nat) (c : Fin 4) : Nat :=
  match f.expected.find? (fun x => x.dev = dev ∧ x.ocls = c) with
  | some x => x.next
  | none => 0

/-- A request of a stream performed: the stream advances, and the response is kept and sent. -/
def State.finishRequest (s : State) (p : Packet) (resp : OutMsg) : State :=
  let f := s.fabric
  let mine (x : CachedResponse) : Bool := x.src = p.src ∧ x.ocls = p.ocls
  let kept := f.cached.filter mine ++ [⟨p.src, p.ocls, p.seq, resp⟩]
  ({ s with fabric := { f with
      expected := ⟨p.src, p.ocls, (p.seq + 1) % 2 ^ 32⟩ :: f.expected.filter (fun x => !(x.dev = p.src ∧ x.ocls = p.ocls))
      cached := f.cached.filter (fun x => !mine x) ++ kept.drop (kept.length - 512) } }).emit resp

/-- A packet of a burst performed: it is the burst's newest, or one more of its last (R388). -/
def State.finishBurst (s : State) (p : Packet) (resp : OutMsg) : State :=
  let mine (b : Burst) : Bool := b.src = p.src ∧ b.cls = p.ocls
  let done := match s.fabric.bursts.find? mine with
    | some b => if p.seq = b.num then b.done else []
    | none => []
  ({ s with fabric := { s.fabric with
    bursts := ⟨p.src, p.ocls, p.seq, done ++ [p.bidx]⟩ :: s.fabric.bursts.filter (fun b => !mine b) } }).emit resp

/-- A message that has come in may be performed next: a packet of a stream in its turn, a copy of a burst, a forward packet. -/
def Fabric.inTurn (f : Fabric) (m : OutMsg) : Bool :=
  match m.packet with
  | some p => p.mc || !m.isRequest || p.seq = f.expects p.src p.ocls
  | none => false

/-- A message that waits here performed, where it does not have to wait longer. -/
def State.serve (s : State) (m : OutMsg) : Performed :=
  match m.packet, s.perform m with
  | some p, (s', some resp) =>
    let s' := { s' with fabric := { s'.fabric with held := s'.fabric.held.erase m } }
    (if p.mc then s'.finishBurst p resp else if m.isRequest then s'.finishRequest p resp else s'.emit resp, some resp)
  | _, r => r

/-- The first message of a list that can be performed now is; those before it take their places at the lines they wait for. -/
def State.serveFirst (s : State) : List OutMsg → Performed
  | [] => (s, none)
  | m :: t =>
    if s.fabric.inTurn m then match s.serve m with
      | (s', some r) => (s', some r)
      | (s', none) => s'.serveFirst t
    else s.serveFirst t

/-- The messages that wait here performed as far as they can be; `fuel` bounds their number. -/
def State.drainHeld (s : State) : Nat → State
  | 0 => s
  | fuel + 1 => match s.serveFirst s.fabric.held with
    | (s', some _) => s'.drainHeld fuel
    | (s', none) => s'

/-- A message waits here until it can be performed. -/
def State.hold (s : State) (m : OutMsg) : State :=
  let s := { s with fabric := { s.fabric with held := s.fabric.held ++ [m] } }
  s.drainHeld (s.fabric.held.length)

/-- A multicast packet: its copies go on; what is new of it here is performed, the rest acknowledged again (R387, R388). -/
def State.receiveBurst (s : State) (m : OutMsg) (p : Packet) : State :=
  let s := s.handOn m p
  let mine (q : Packet) : Bool := q.mc && q.src = p.src && q.ocls = p.ocls && q.seq = p.seq && q.bidx = p.bidx
  if !bitOf p.string.toNat s.fabric.self then s
  else if s.fabric.held.any (fun x => x.packet.any mine) then s
  else if s.fabric.bursts.any (fun b => b.src = p.src && b.cls = p.ocls && (p.seq < b.num || (p.seq = b.num && b.done.contains p.bidx))) then
    s.emit (.completionResponse (Packet.answer p s.fabric.self [] []))
  else s.hold m

/-- A unicast request of this device handled by its sequence number (R382): performed in its turn, held, or answered again. A buffer that
is full takes none. -/
def State.receiveNext (s : State) (m : OutMsg) (p : Packet) : State :=
  let ahead := (p.seq + 2 ^ 32 - s.fabric.expects p.src p.ocls) % 2 ^ 32
  let mine := s.fabric.held.filter fun x => x.isRequest && x.packet.any fun q => !q.mc && q.src = p.src && q.ocls = p.ocls
  if ahead < 2 ^ 31 then
    if mine.any (fun x => x.packet.any fun q => q.seq = p.seq) || 512 ≤ mine.length then s else s.hold m
  else match s.fabric.cached.find? (fun x => x.src = p.src ∧ x.ocls = p.ocls ∧ x.seq = p.seq) with
    | some x => s.emit x.msg
    | none => s

/-- A request that arrives: none where this device sent it.
DESIGN CHOICE, log entry 26: unsafe. -/
def State.receive (s : State) (m : OutMsg) (p : Packet) : Option State :=
  if p.src = s.fabric.self then none
  else some (((s.inTransit m p).getD (if p.mc then s.receiveBurst m p else s.receiveNext m p)))

def execRead (p : Packet) (s : State) : Out := orStay (s.receive (.read p) p) s
def execWrite (p : Packet) (s : State) : Out := orStay (s.receive (.write p) p) s
def execAtomic (p : Packet) (s : State) : Out := orStay (s.receive (.atomic p) p) s
def execCollectiveData (p : Packet) (key : CollKey) (elems : List CollElem) (s : State) : Out :=
  orStay (s.receive (.collData p key elems) p) s
def execArrivalIncrement (p : Packet) (ctx : Fin 64) (core : Nat) (slot : Fin 8) (w : WIdx) (s : State) : Out :=
  orStay (s.receive (.arrival p ctx core slot w) p) s
def execAnnounce (p : Packet) (key : CollKey) (s : State) : Out := orStay (s.receive (.announce p key) p) s

/-- A message of this device applied, where it is the first of its sender to its target (R181). -/
def State.deliverOwn (s : State) (m : FMsg) (slot : Slot) : Option State :=
  if (s.msgs.find? (fun x => x.born = m.born ∧ x.core = m.core ∧ x.slot = m.slot)) = some m then
    let r := ({ s with msgs := s.msgs.erase m }).deliver m slot (.receipt s.fabric.self m.id)
    some (if r.2 then r.1 else { r.1 with msgs := s.msgs })
  else none

/-- FSEND_MESSAGE: one from another device in its stream's order, or one of this device (R179, R181). -/
def execFsendMessage (p : Packet) (m : FMsg) (s : State) : Out :=
  orStay (if p.src = s.fabric.self then s.deliverOwn m p.slot else s.receive (.fsend p m) p) s

/-- RECEIPT_ADD_PACKET: a receipt add arrives at the receipt word's home (R179, R379). -/
def execReceiptAddPacket (p : Packet) (s : State) : Out :=
  orStay (some ((s.inTransit (.receiptAdd p) p).getD (s.hold (.receiptAdd p)))) s

/-! ### Responses (R382, R385) -/

/-- The request that a response answers: that of its tag, at the device that answers, or at any for an error response, which a router on
the way may send (R377). -/
def State.requestOf (s : State) (p : Packet) (anywhere : Bool) : Option OutReq :=
  let tagged (o : OutReq) : Bool := !o.refused && o.txn = p.txn && o.ocls = p.ocls && o.seq = p.seq
  match s.fabric.outstanding.find? (fun o => tagged o && o.dst = p.src) with
  | some o => some o
  | none => if anywhere then s.fabric.outstanding.find? tagged else none

/-- An answer reaches who asked: the command, or the hart. -/
def State.answerReq (s : State) (o : OutReq) (a : RemoteAnswer) : State :=
  let s := s.closeReq o
  match o.cmd with
  | some id => s.giveAnswer id a
  | none => if o.posted then s else s.onBorn o.born fun h => { h with answers := h.answers ++ [a] }

/-- The offsets of the sectors that a data response marks. -/
def markedSectors (off : Nat) (marks : List Bool) : List Nat :=
  marks.zipIdx.filterMap fun x => if x.1 then some ((off / 32 + x.2) * 32) else none

/-- A response that is not an error reaches its request; a second one is discarded, as is a data response that is not the length its request
asked for. -/
def State.respondTo (s : State) (p : Packet) (data : Bool) : State :=
  match s.requestOf p false with
  | some o =>
    if data && (o.posted || p.data.length != o.len) then s
    else s.answerReq o ⟨o.dst, o.off, o.len, p.data, markedSectors o.off p.marks, false⟩
  | none => s

def execDataResponse (p : Packet) (s : State) : Out := .next ((s.inTransit (.dataResponse p) p).getD (s.respondTo p true))
def execCompletionResponse (p : Packet) (s : State) : Out := .next ((s.inTransit (.completionResponse p) p).getD (s.respondTo p false))

/-- A request ends as a fabric failure: `refused` says that the target itself turned it away (R383, R385, R393). A store of a hart fails
for good, and its error is taken once the hart can. -/
def State.failReq (s : State) (refused : Bool) (o : OutReq) : State :=
  match o.cmd with
  | some id =>
    if refused && o.ocls = 3 then (s.closeReq o).onCmd id (Cmd.failLate 7)
    else (s.answerReq o ⟨o.dst, o.off, o.len, [], [], true⟩).onCmd id (Cmd.failLate 2)
  | none =>
    if o.posted then
      let s := { s with fabric := { s.fabric with outstanding := s.fabric.outstanding.map fun x => if x = o then { x with refused := true } else x } }
      (s.raiseFailed { o with refused := true }).getD s
    else s.answerReq o ⟨o.dst, o.off, o.len, [], [], true⟩

/-- An error response reaches its request. -/
def State.refusalOf (s : State) (p : Packet) : State :=
  match s.requestOf p true with
  | some o => s.failReq (p.src = o.dst) o
  | none => s
def execErrorResponse (p : Packet) (s : State) : Out := .next ((s.inTransit (.errorResponse p) p).getD (s.refusalOf p))

/-! ### Notices and links (R379, R383, R386) -/

/-- The message that carries a request, as it first left. -/
def Fabric.sentAs (f : Fabric) (o : OutReq) : Option OutMsg :=
  f.out.reverse.find? fun m => match m.packet with
    | some p => m.isRequest && p.src = f.self && p.mc = o.mc && p.txn = o.txn && (o.mc || p.dst = o.dst) && p.ocls = o.ocls && p.seq = o.seq
    | none => false

/-- The devices of a burst's packet that have not acknowledged it. -/
def Fabric.unacknowledged (f : Fabric) (o : OutReq) : List Nat :=
  (f.outstanding.filter fun x => x.mc && x.txn = o.txn && x.ocls = o.ocls && x.seq = o.seq).map (·.dst)

/-- Every request without a response leaves again: a burst's packet once, with its string reduced to the devices that have not
acknowledged it (R383, R388). -/
def State.resend (s : State) : State :=
  let f := s.fabric
  let first (o : OutReq) : Bool := !o.mc || (f.unacknowledged o).head? = some o.dst
  let again := (f.outstanding.filter fun o => !o.refused && first o).flatMap fun o => match f.sentAs o with
    | some m => if o.mc then f.copiesOf m (stringOf (f.unacknowledged o)) else [m.mapPacket fun p => { p with dt := false }]
    | none => []
  again.foldl State.emit s

/-- The requests whose device no route reaches end as failures, and its locks here with them (R383, R385). -/
def State.failUnreachable (s : State) : State :=
  let s := { s with locks := s.locks.filter fun l => s.fabric.reaches l.src }
  (s.fabric.outstanding.filter fun o => !o.refused && s.fabric.unreachable o.dst).foldl (fun s o => s.failReq false o) s

/-- A port notice to every other device of the fabric that a route reaches (R383). -/
def State.tellAll (s : State) (news : PortNews) : State :=
  let f := s.fabric
  let devs := ((rangeFrom 0 f.nrow).flatMap fun y => (rangeFrom 0 f.ncol).map fun x => 32 * y + x).filter fun d => d != f.self && f.reaches d
  devs.foldl (fun s d => s.emit (.portNotice (f.packet d 0 0 s.hart.place) news)) s

/-- Whether a device stands in this one's row or column. -/
def Fabric.neighbour (f : Fabric) (dev : Nat) : Bool := dev != f.self && (dev / 32 = f.row.val || dev % 32 = f.col.val)

/-- A port of another device has failed, as a notice says: what has no response leaves again, on routes that avoid it (R383). -/
def State.hearPort (s : State) (port : Nat × Nat) : State :=
  if port.1 = s.fabric.self then s
  else { s with fabric := { s.fabric with farFailed := s.fabric.farFailed.filter (· != port) ++ [port] }.remask }.failUnreachable.resend

/-- A device is lost, as a notice says: requests to it end as failures. A neighbour of it tells every device, once (R383). -/
def State.hearLost (s : State) (dev : Nat) : State :=
  let fresh := !s.fabric.lost.contains dev
  let s := { s with fabric := { s.fabric with lost := insertNat dev s.fabric.lost } }.failUnreachable
  if fresh && s.fabric.neighbour dev then s.tellAll ⟨none, some dev⟩ else s

/-- A port notice reaches this device (R383). -/
def State.hearNews (s : State) (news : PortNews) : State :=
  let s := (news.failed.map s.hearPort).getD s
  (news.lost.map s.hearLost).getD s
/-- PORT_NOTICE: one for another device goes on. -/
def execPortNotice (p : Packet) (news : PortNews) (s : State) : Out :=
  .next ((s.inTransit (.portNotice p news) p).getD (s.hearNews news))

/-- A watch notice reaches its hart: it sets the written bit of a watch that still names the sector (R386). -/
def State.hearNotice (s : State) (p : Packet) (sector : Nat) : State :=
  match s.hartOn p.slot with
  | some h => s.onBorn h.born (·.noteWrite [sector])
  | none => s
/-- WATCH_NOTICE: one for another device goes on. -/
def execWatchNotice (p : Packet) (sector : Nat) (s : State) : Out :=
  .next ((s.inTransit (.watchNotice p sector) p).getD (s.hearNotice p sector))

/-- A port fails, and a port notice reaches every device, this one included (R379, R383). -/
def State.failPort (s : State) (port : Nat) : State :=
  if s.fabric.portUp port then
    let s := { s with fabric := { s.fabric with
      failedPorts := insertNat port s.fabric.failedPorts, retrains := s.fabric.retrains.filter (·.1 != port) }.remask }
    s.failUnreachable.resend.tellAll ⟨some (s.fabric.self, port), none⟩
  else s

/-- A link retrains: nothing is lost; the eighth failure in succession is the port's (R379). -/
def State.retrain (s : State) (port : Nat) (ok : Bool) : State :=
  if !s.fabric.portUp port then s
  else
    let n := ((s.fabric.retrains.find? (·.1 = port)).map (·.2)).getD 0 + 1
    let others := s.fabric.retrains.filter (·.1 != port)
    if ok then { s with fabric := { s.fabric with retrains := others } }
    else if n < 8 then { s with fabric := { s.fabric with retrains := others ++ [(port, n)] } }
    else s.failPort port

/-- LINK_RETRAIN. -/
def execLinkRetrain (r : Retraining) (s : State) : Out := .next (s.retrain r.port r.ok)

/-- LINK_FAILURE. -/
def execLinkFailure (port : Nat) (s : State) : Out := .next (s.failPort port)

end Sys2Proof.Machine
end

