-- ==== Sys2Proof/Machine/Fences.lean ====
section
/-! DEFINITION. FENCE, cache maintenance and FETCHB (R263 to R266, R278, R279). -/
namespace Sys2Proof.Machine
open Sys2Proof

/-- FENCE (R279): accesses of this in-order model are performed when their instruction completes, but for a store to another
device, which waits for its response (R384), and for a message, which waits for its receipt (R179); to the hart itself every
access is performed at once (R270). -/
def execFence (sc : Scope) (_er ew _lr _lw : Bool) (s : State) : Out :=
  if ew && sc != .hart && s.hasPosted then .next (waitHere s) else .next (retire 4 s)

/-- The lines of local memory at a place: every replica of a replicated page (R265). -/
def Loc.lines : Loc → List Nat
  | .cell key _ => [key / 128]
  | .repl q off => (replKeys q off).map (· / 128)
  | _ => []

/-- Whether a place lies in the fabric window. -/
def Loc.isFabric : Loc → Bool
  | .fabric _ _ => true
  | _ => false

/-- The lines of local memory that a cache instruction acts on: none at an address in a window, in device memory or in the fabric window.
The test is on the page, before its rights are checked (R264).
DEDUCED, log entry 34: unsafe. -/
def cacheLines (va : Word) (acc : Access) : M (List Nat) := do
  let s ← get
  let vatp := s.ctx.vatp
  if (findWindow s.ctx.swin va).isSome then return []
  else if vatp.toNat / 2 ^ 60 = 0 then
    if (s.home va.toNat 0 0).any fun l => bareDevice l || l.isFabric then return [] else return (← resolve va acc).loc.lines
  else
    let l ← findLeaf vatp va acc
    if l.device || ((← get).leafHome l vatp va).any Loc.isFabric then return []
    else
      let t ← translateBy vatp s.hart.mode va acc l
      useLeaf vatp acc t
      return t.loc.lines

/-- A cache instruction: its waits, its translation, then its effect on each line (R264). -/
def onLines (a : SReg) (acc : Access) (waits : Bool) (f : State → Nat → State) (s : State) : Out :=
  finish 4 false (do
    waitIf s.storeQueued
    let lines ← cacheLines (s.getS a) acc
    let s ← get
    waitIf (waits && lines.any fun l => s.readStalls (l * 128) 128)
    modify fun s => lines.foldl f s) s

/-- The four sectors of a line. -/
def lineSectors (line : Nat) : List Nat := rangeFrom (line * 4) 4

/-- CLEAN: dirty bytes reach the L2 (R265). -/
def cleanLine (s : State) (line : Nat) : State := s.drawBack (line * 128)
/-- A line leaves the L2 (R165, R259): its class is set anew when it fills again. -/
def State.leavesL2 (s : State) (line : Nat) : State := { s with ptrLines := s.ptrLines.filter (· != line) }
/-- What the L2 holds of a line reaches HBM4, with its poison (R260, R262). -/
def State.writeBack (s : State) (line : Nat) : State :=
  { s with
    hbm := s.hbm.splice s.l2 (line * 128) 128
    hbmPoison := s.hbmPoison.filter (fun q => q / 4 != line) ++ s.poison.filter (fun q => q / 4 == line) }
/-- A replacement gives up a line of the L2, but not an engine-owned one (R260). -/
def State.castOut (s : State) (line : Nat) : State :=
  if isLocal (line * 128) && !s.readStalls (line * 128) 128 then (s.writeBack line).leavesL2 line else s
/-- FLUSH: dirty bytes reach the L2, then HBM4, with their poison (R262, R265). -/
def flushLine (s : State) (line : Nat) : State := ((s.drawBack (line * 128)).writeBack line).leavesL2 line
/-- The L2 slice that caches a line is retired: it allocates nothing, and what reaches it reaches HBM4 (R371). -/
def State.sliceGone (s : State) (line : Nat) : Bool :=
  let die := line * 128 / Config.dieBytes
  2 < (s.mgmt.attic.filter fun a => match a.unit with | .wayPair n => n / 8 == die | _ => false).length
/-- One sector as INVAL leaves it: the copy `from_` of HBM4 (0), of the L2 (1) or of the data L1 (2), which then is HBM4's (R265). -/
def invalSector (s : State) (q from_ : Nat) : State :=
  let src := match from_ with | 0 => s.hbm | 1 => s.l2 | _ => s.mem
  let poison := if from_ = 0 then s.poison.filter (· != q) ++ s.hbmPoison.filter (· == q) else s.poison
  { s.setMem [(q * 32, 32)] (s.mem.splice src (q * 32) 32) with
    l2 := s.l2.splice src (q * 32) 32
    hbm := s.hbm.splice src (q * 32) 32
    poison := poison
    hbmPoison := s.hbmPoison.filter (· != q) ++ poison.filter (· == q) }
/-- INVAL: what had not reached HBM4 is lost (R265). Which of a sector's bytes an eviction has carried there before is the
device's: the copy of HBM4, of the L2 or of the data L1 (log entry 11).
DEDUCED, log entry 11: safe. -/
def invalLine (s : State) (line : Nat) : State :=
  let choice := Config.freeNat s.free
  let from_ (q : Nat) : Nat := Nat.max (choice / 3 ^ (q % 4) % 3) (if s.sliceGone line then 1 else 0)
  ((lineSectors line).foldl (fun s q => invalSector s q (from_ q)) { s with free := s.free + 1 }).leavesL2 line
/-- IINV: the line leaves every instruction L1 of the package (R266). -/
def iinvLine (s : State) (line : Nat) : State :=
  { s with cores := s.cores.map fun c => { c with il1 := c.il1.filter (fun l => l.line != line) } }

def execClean (a : SReg) (s : State) : Out := onLines a .load false cleanLine s
def execFlush (a : SReg) (s : State) : Out := onLines a .load true flushLine s
def execInval (a : SReg) (s : State) : Out := onLines a .store true invalLine s
def execIinv (a : SReg) (s : State) : Out := onLines a .fetch false iinvLine s

/-- FETCHB: parcels fetched beyond it are discarded; a LOOPN body stays (R266). -/
def execFetchb (s : State) : Out := .next (retire 4 { s with hart := { s.hart with covered := none, ahead := [] } })

/-! ### Completion counters (R320, R321) -/

def execEwait (n : WIdx) (a : SReg) (s : State) : Out :=
  finish 4 false (do
    waitIf (!reached (s.hart.counters.get n) (BitVec.ofNat 32 (s.getS a).toNat))
    if s.hart.cerr.get n then
      onHart fun h => { h with cerr := h.cerr.set n false }
      raise .engineError (BitVec.ofNat 64 n.val)
    else pure ()) s

def execEpoll (d : SReg) (n : WIdx) (s : State) : Out :=
  .next (retire 4 (s.setS d (BitVec.ofNat 64 ((s.hart.counters.get n).toNat + bitN (s.hart.cerr.get n) * 2 ^ 32))))

end Sys2Proof.Machine
end

