-- ==== Sys2Proof/Machine/Mailbox.lean ====
section
/-! DEFINITION. The host, the mailbox, the management space, retirement, power and bring-up (R259, R284, R325, R370 to R374,
R403 to R413). -/
namespace Sys2Proof.Machine
open Sys2Proof

/-! ### The mailbox (R405) -/

/-- A vector of MSI-X is raised (R403). -/
def State.raiseMsix (s : State) (v : Fin 64) : State := { s with mgmt := { s.mgmt with msix := s.mgmt.msix ++ [v] } }
/-- The response to a doorbell, with vector 0 (R405). -/
def State.respond (s : State) (seq : BitVec 24) (status : BitVec 8) : State :=
  ({ s with mgmt := { s.mgmt with mboxStatus := status, mboxSeq := seq, mboxTaken := [] } }).raiseMsix 0
/-- Status codes (R405). -/
def mboxDone : BitVec 8 := 0
def mboxBusy : BitVec 8 := 1
def mboxBad : BitVec 8 := 2
def mboxInUse : BitVec 8 := 3
def mboxVerify : BitVec 8 := 4
def mboxNoFirmware : BitVec 8 := 5

/-- The house firmware serves the mailbox once step 8 of bring-up has completed (R413). -/
def State.firmwareRuns (s : State) : Bool := s.mgmt.bstage = 8

/-- A command that the firmware runs: its status and the state it leaves; none while it has to wait. -/
abbrev MboxCmd := State → Option (State × BitVec 8)

/-- A context argument; none where it names no context number. -/
def ctxArg (v : Word) : Option (Fin 64) := if h : v.toNat < 64 then some ⟨v.toNat, h⟩ else none
/-- A context that exists. -/
def State.liveCtx (s : State) (v : Word) : Option (Fin 64) := (ctxArg v).filter fun c => (s.ctxs.get c).live

/-- A context changed. -/
def State.onCtx (s : State) (c : Fin 64) (f : Context → Context) : State := { s with ctxs := s.ctxs.set c (f (s.ctxs.get c)) }

/-! ### Contexts (R250, R341, R342, R406) -/

/-- Bytes of a save region: 1,536 slots of 6 MiB. -/
def saveBytes : Nat := 1536 * 6 * 2 ^ 20

/-- Create context. -/
def createCtx (ctx vatp evec sw0 sw1 sw2 sw3 base : Word) : MboxCmd := fun s =>
  match ctxArg ctx with
  | none => some (s, mboxBad)
  | some c =>
    if !vatpLegal vatp.toNat || base.toNat % 4096 != 0 || localTop < base.toNat + saveBytes then some (s, mboxBad)
    else if (s.ctxs.get c).live then some (s, mboxInUse)
    else some (s.onCtx c fun _ =>
      { live := true, frozen := false, vatp := vatp, evec := evec &&& ~~~3#64
        swin := #v[swinStored 0 sw0, swinStored 1 sw1, swinStored 2 sw2, swinStored 3 sw3], saveBase := base }, mboxDone)

/-- A context's harts, those that a compaction unit still holds among them, images and queued launches (R247, R406). -/
def State.ctxBusy (s : State) (c : Fin 64) : Bool :=
  let mine (launch : Nat) : Bool := (s.launchOf launch).any (·.ctx = c)
  s.harts.any (·.ctx = c) || s.saved.any (·.hart.ctx = c) || s.launches.any (fun l => l.ctx = c && !l.admitted)
    || s.mergedHarts.any (fun m => mine m.pool.launch) || s.pools.any (fun p => !p.elems.isEmpty && mine p.launch)

/-- Destroy context. -/
def destroyCtx (ctx : Word) : MboxCmd := fun s =>
  match s.liveCtx ctx with
  | none => some (s, mboxBad)
  | some c => if s.ctxBusy c then some (s, mboxInUse) else some (s.onCtx c fun _ => Context.reset, mboxDone)

/-- The storage of a root hart's completion word, translated in supervisor mode (R222, R406). -/
def rootCword (c : Context) (core : Fin 192) (va : Word) : M (List Nat) := do
  let t ← resolveAs core c.swin c.vatp .supervisor va .store
  raiseIf (t.device || t.window) .access va .store
  match t.loc with
  | .cell key _ => return [key]
  | .repl q off => return replKeys q off
  | _ => raise .access va .store

/-- The launch that stands for a root hart: a gang of one (R231, R406). -/
def rootLaunch (id : Nat) (c : Fin 64) (plog cls : Fin 4) (entry arg : Word) (cword : List Nat) : Launch where
  id := id
  ctx := c
  cls := cls
  gang := true
  root := true
  plog := plog
  entry := entry
  arg := arg
  nest := 0
  desc := []
  rows := []
  compact := false
  deps := []
  parent := 0
  admitted := true
  total := 1
  created := 1
  ended := 0
  nexit := 0
  code := 0
  cword := cword
  barriers := .replicate 16 (Barrier.start 1)
  binds := []
  mergedOut := 0

/-- Start root hart, its arguments checked (R406); none while the walk of the completion word's address has to wait. -/
def State.startRoot (s : State) (c : Fin 64) (core : Fin 192) (plog cls : Fin 4) (entry arg cword : Word) : Option (State × BitVec 8) :=
  match (if cword = 0 then pure [] else rootCword (s.ctxs.get c) core cword : M (List Nat)) s with
  | .error (.trap _) _ => some (s, mboxBad)
  | .error _ _ => none
  | .ok keys s' =>
    some <| match s'.slotsFree c plog core with
    | [] => (s, mboxInUse)
    | k :: _ =>
      let l := rootLaunch s'.nextId c plog cls entry arg keys
      let s' := { s' with launches := s'.launches ++ [l], nextId := s'.nextId + 1 }
      (s'.addHart (l.hartOf ⟨core, Fin.ofNat 8 k⟩ 0 0 0), mboxDone)

/-- Start root hart. -/
def startRootHart (ctx core flags entry arg cword : Word) : MboxCmd := fun s =>
  match s.liveCtx ctx with
  | none => some (s, mboxBad)
  | some c =>
    if h : core.toNat < 192 then
      if (s.cores[core.toNat]).retired || flags.toNat / 16 != 0 || entry.toNat % 4 != 0 || cword.toNat % 8 != 0 then some (s, mboxBad)
      else s.startRoot c ⟨core.toNat, h⟩ (Fin.ofNat 4 flags.toNat) (Fin.ofNat 4 (flags.toNat / 4)) entry arg cword
    else some (s, mboxBad)

/-- End hart: it waits for the stores of the hart that are not performed, and for the answers it still expects (R226, R290). -/
def endHartCmd (core slot : Word) : MboxCmd := fun s =>
  if h : core.toNat < 192 then
    if slot.toNat < 8 then
      match s.hartOn ⟨⟨core.toNat, h⟩, Fin.ofNat 8 slot.toNat⟩ with
      | none => some (s, mboxBad)
      | some x => if s.quiet x && !x.underway then some (s.endHart x (.failed 2), mboxDone) else none
    else some (s, mboxBad)
  else some (s, mboxBad)

/-! ### Freeze and debug halt (R370, R409) -/

/-- A hart has come to rest: its convoys are complete, its stores performed, and no answer is under way.
DEDUCED, log entry 39: unsafe. -/
def State.atRest (s : State) (h : Hart) : Bool := !h.underway && h.answers.isEmpty && h.covered.isNone && s.quiet h
/-- A hart that is stopped: its watch is cleared, its early loads are discarded (R353), and its progress bit when it goes on (R370). -/
def Hart.rest (h : Hart) : Hart := { h with watch := none, prog := false, early := [] }

/-- The harts that satisfy a test come to rest; none while one of them cannot. -/
def State.restAll (s : State) (p : Hart → Bool) : Option State :=
  if (s.harts.filter p).all s.atRest then some (s.mapHarts fun h => if h.status != .absent && p h then h.rest else h) else none

/-- Freeze context. -/
def freezeCtx (ctx : Word) : MboxCmd := fun s =>
  match s.liveCtx ctx with
  | none => some (s, mboxBad)
  | some c => (s.restAll (·.ctx = c)).map fun s => (s.onCtx c fun x => { x with frozen := true }, mboxDone)

/-- Thaw context. -/
def thawCtx (ctx : Word) : MboxCmd := fun s =>
  match s.liveCtx ctx with
  | none => some (s, mboxBad)
  | some c => some (s.onCtx c fun x => { x with frozen := false }, mboxDone)

/-- A physical quad by its number. -/
def quadArg (v : Word) : Option (Fin 6) := if h : v.toNat < 6 then some ⟨v.toNat, h⟩ else none

/-- Debug halt. -/
def haltQuad (quad : Word) : MboxCmd := fun s =>
  match quadArg quad with
  | none => some (s, mboxBad)
  | some q => (s.restAll (fun h => quadOfCore h.place.core = q)).map fun s =>
      ({ s with haltedQuads := s.haltedQuads.filter (· != q) ++ [q] }, mboxDone)

/-- End halt. -/
def endHalt (quad : Word) : MboxCmd := fun s =>
  match quadArg quad with
  | none => some (s, mboxBad)
  | some q => some ({ s with haltedQuads := s.haltedQuads.filter (· != q) }, mboxDone)

/-! ### Attestation and power (R408, R411) -/

/-- The attic entries as bytes, in order. -/
def atticBytes (l : List Attic) : List Byte :=
  l.zipIdx.flatMap fun a => bytesOf (atticDword a.1 (a.2 + 1) false) 8 ++ bytesOf (atticDword a.1 (a.2 + 1) true) 8

/-- The header bytes that the signatures of an image cover: all that precede them (R407). -/
def FwHeader.signed (h : FwHeader) : List Byte := Config.headerBytes h.magic h.kind h.svn h.length h.digest
/-- The bytes of an image: its header with its signatures, and its body (R407). -/
def FwImage.bytes (x : FwImage) : List Byte := FwHeader.signed x.head ++ bytesOf x.head.ed.toNat 64 ++ bytesOf x.head.ml.toNat 3309 ++ x.body
/-- What a report measures of a running image; zero while none runs (R408). -/
def measure (x : Option FwImage) : Nat := (x.map fun x => (Config.sha384 (FwImage.bytes x)).toNat).getD 0

/-- The 256 bytes that a report signs (R408). -/
def State.reportHead (s : State) (nonce : Nat) : Nat :=
  nonce % 2 ^ 256 + measure s.mgmt.monitor * 2 ^ (8 * 0x20) + measure s.mgmt.firmware * 2 ^ (8 * 0x50)
    + (Config.sha384 (atticBytes s.mgmt.attic)).toNat * 2 ^ (8 * 0x80) + s.statusWord * 2 ^ (8 * 0xB0)
    + Config.serialNumber.toNat * 2 ^ (8 * 0xB8) + (s.mgmt.boots % 2 ^ 32 + s.mgmt.drains % 2 ^ 32 * 2 ^ 32) * 2 ^ (8 * 0xC8)
/-- An attestation report of 4,096 bytes (R408).
DESIGN CHOICE, log entry 13: safe. -/
def State.report (s : State) (nonce : Nat) : Nat :=
  let head := s.reportHead nonce
  let signed := bytesOf head 256
  head + (Config.ed25519 signed).toNat * 2 ^ (8 * 0x100) + (Config.mldsa65 signed).toNat * 2 ^ (8 * 0x140)

/-- Attestation report (R408): the nonce is read and the report written at physical addresses, once no command owns a line of them (R281).
DEDUCED, log entry 33: unsafe. -/
def attest (nonce report : Word) : MboxCmd := fun s =>
  if localTop < nonce.toNat + 32 || localTop < report.toNat + 4096 then some (s, mboxBad)
  else if s.paOwned nonce.toNat 32 || s.paOwned report.toNat 4096 then none
  else some (s.writePa report.toNat 4096 (s.report (s.readPa nonce.toNat 32 3)) 3, mboxDone)

/-- Module power limit. -/
def limitPower (watts : Word) : MboxCmd := fun s =>
  if watts.toNat < 14000 || 22000 < watts.toNat then some (s, mboxBad)
  else some ({ s with mgmt := { s.mgmt with powerLimit := watts.toNat } }, mboxDone)

/-! ### Doorbells (R405) -/

/-- The sixteen dwords of a command area. -/
def cmdArea (l : List Word) : List Word := (l ++ List.replicate 16 0).take 16
/-- A command area with an op, its sequence number and its arguments. -/
def cmdDwords (op : Nat) (seq : BitVec 24) (args : List Word) : List Word :=
  cmdArea (BitVec.ofNat 64 (op + seq.toNat * 2 ^ 8) :: args)

/-- The command that a command area gives: an op that is not in the table, or a non-zero bit 63:32, is a bad argument. -/
def mboxCommand (w : List Word) : MboxCmd :=
  let c := cdw w 0
  let arg (k : Nat) : Word := w[k]?.getD 0
  if c / 2 ^ 32 != 0 then fun s => some (s, mboxBad)
  else match c % 2 ^ 8 with
  | 0x01 => createCtx (arg 1) (arg 2) (arg 3) (arg 4) (arg 5) (arg 6) (arg 7) (arg 8)
  | 0x02 => startRootHart (arg 1) (arg 2) (arg 3) (arg 4) (arg 5) (arg 6)
  | 0x03 => endHartCmd (arg 1) (arg 2)
  | 0x04 => freezeCtx (arg 1)
  | 0x05 => thawCtx (arg 1)
  | 0x06 => haltQuad (arg 1)
  | 0x07 => endHalt (arg 1)
  | 0x08 => attest (arg 1) (arg 2)
  | 0x09 => destroyCtx (arg 1)
  | 0x0A => limitPower (arg 1)
  | _ => fun s => some (s, mboxBad)

/-- seq of a command area. -/
def mboxSeqOf (w : List Word) : BitVec 24 := BitVec.ofNat 24 (cdw w 0 / 2 ^ 8)

/-- A doorbell: ignored while the status is busy, answered 0x05 while no house firmware runs; else its command is taken, and the status
is busy. -/
def State.doorbell (s : State) (w : List Word) : State :=
  if s.mgmt.mboxStatus = mboxBusy then s
  else if !s.firmwareRuns then s.respond (mboxSeqOf w) mboxNoFirmware
  else { s with mgmt := { s.mgmt with mboxStatus := mboxBusy, mboxTaken := w } }

/-- The command that has been taken runs, and is answered; none while there is none, or while it has to wait. -/
def State.runTaken (s : State) : Option State :=
  if s.mgmt.mboxStatus = mboxBusy && !s.mgmt.mboxTaken.isEmpty then
    (mboxCommand s.mgmt.mboxTaken s).map fun r => r.1.respond (mboxSeqOf s.mgmt.mboxTaken) r.2
  else none

/-- The host finds the endpoint once step 3 of bring-up has completed (R413). -/
def State.linkUp (s : State) : Bool := 3 ≤ s.mgmt.bstage.val

/-- A mailbox command as a step: its doorbell is taken and it runs, or it stays busy; where it has been taken already, it runs now. Without a
link no doorbell reaches the device. -/
def mailbox (op : Nat) (seq : BitVec 24) (args : List Word) (s : State) : Out :=
  let w := cmdDwords op seq args
  if !s.linkUp || s.mgmt.mboxStatus = mboxBusy && s.mgmt.mboxTaken != w then .next s
  else
    let s := s.doorbell w
    .next (s.runTaken.getD s)

def execCreateContext (seq : BitVec 24) (ctx vatp evec sw0 sw1 sw2 sw3 base : Word) (s : State) : Out :=
  mailbox 0x01 seq [ctx, vatp, evec, sw0, sw1, sw2, sw3, base] s
def execStartRootHart (seq : BitVec 24) (ctx core flags entry arg cword : Word) (s : State) : Out :=
  mailbox 0x02 seq [ctx, core, flags, entry, arg, cword] s
def execEndHart (seq : BitVec 24) (core slot : Word) (s : State) : Out := mailbox 0x03 seq [core, slot] s
def execFreezeContext (seq : BitVec 24) (ctx : Word) (s : State) : Out := mailbox 0x04 seq [ctx] s
def execThawContext (seq : BitVec 24) (ctx : Word) (s : State) : Out := mailbox 0x05 seq [ctx] s
def execDebugHalt (seq : BitVec 24) (quad : Word) (s : State) : Out := mailbox 0x06 seq [quad] s
def execEndHalt (seq : BitVec 24) (quad : Word) (s : State) : Out := mailbox 0x07 seq [quad] s
def execAttestationReport (seq : BitVec 24) (nonce report : Word) (s : State) : Out := mailbox 0x08 seq [nonce, report] s
def execDestroyContext (seq : BitVec 24) (ctx : Word) (s : State) : Out := mailbox 0x09 seq [ctx] s
def execModulePowerLimit (seq : BitVec 24) (watts : Word) (s : State) : Out := mailbox 0x0A seq [watts] s

/-! ### Words of the management space (R259, R404, R410) -/

/-- A management word written by one who owns it. -/
def Mgmt.writeWord (m : Mgmt) (who : MgmtWriter) (off : Nat) (v : Nat) : Mgmt :=
  let firmware := who = .firmware
  let hostOrFirmware := who = .host || firmware
  if off = 0x10 && firmware then { m with detour := BitVec.ofNat 8 v }
  else if h : 0x100 ≤ off ∧ off < 0x130 then
    if firmware && off % 8 = 0 then
      { m with escalation := m.escalation.set ((off - 0x100) / 8) (BitVec.ofNat 32 v, BitVec.ofNat 32 (v / 2 ^ 32)) (by omega) }
    else m
  else if h : 0x200 ≤ off ∧ off < 0x2C0 then
    if firmware && off % 8 = 0 then
      { m with pshare := m.pshare.set ((off - 0x200) / 8) (Fin.ofNat 13 (Nat.min (v % 32) 12)) (by omega) }
    else m
  else if off = 0x400 && hostOrFirmware then { m with selector := BitVec.ofNat 19 v }
  else if 0x10000 ≤ off && off < 0x10080 && off % 8 = 0 && who = .host then
    { m with mboxCmd := m.mboxCmd.set ((off - 0x10000) / 8) (BitVec.ofNat 64 v) }
  else if off = 0x10800 && firmware then { m with mboxStatus := BitVec.ofNat 8 v, mboxSeq := BitVec.ofNat 24 (v / 2 ^ 8) }
  else m

/-- The fabric identity word as the monitor sets it (R376). -/
def Fabric.setIdentity (f : Fabric) (v : Nat) : Fabric :=
  { f with
    col := Fin.ofNat 32 v, row := Fin.ofNat 32 (v / 2 ^ 5), ncol := fld v 10 5 + 1, nrow := fld v 15 5 + 1
    rsw := bitOf v 20, csw := bitOf v 21 }.cable

/-- A word of the management space is written: its owner's write has effect, any other writer's is discarded (R404); the host's write of
the mailbox's doorbell rings it (R405). -/
def State.writeMgmt (s : State) (who : MgmtWriter) (off v : Nat) : State :=
  if off = 8 && who = .monitor then { s with fabric := s.fabric.setIdentity v }
  else if off = 0x107F8 && who = .host then s.doorbell s.mgmt.mboxCmd
  else { s with mgmt := s.mgmt.writeWord who off v }

/-- MANAGEMENT_WORD_WRITE. -/
def execManagementWordWrite (who : MgmtWriter) (off : Nat) (v : Word) (s : State) : Out := .next (s.writeMgmt who off v.toNat)

/-! ### The endpoint (R284, R403) -/

/-- BAR2 of 4 TiB; the host's addresses above it name BAR0, of 4 GiB (R403).
DESIGN CHOICE, log entry 33: safe. -/
def bar2 : Nat := 2 ^ 42
def bar0 : Nat := 2 ^ 32
/-- The host's write of one aligned dword of BAR0, of which `cells` are the bytes it writes. -/
def State.hostDword (s : State) (cells : List (Nat × Byte)) (d : Nat) : State :=
  let byte (k : Nat) : Byte := match cells.find? (·.1 = 8 * d + k) with
    | some c => c.2
    | none => BitVec.ofNat 8 ((s.mgmtByte (8 * d + k)).getD 0)
  s.writeMgmt .host (8 * d) (ofBytes ((rangeFrom 0 8).map byte))

/-- HOST_WRITE: through BAR2 what lies at 3 TiB and above is discarded; a write through BAR0 reaches the management space. It waits while
a command owns a line of it: none (R281, R403). -/
def State.hostStore (s : State) (addr : Nat) (data : List Byte) : Option State :=
  let n := Nat.min data.length (localTop - addr)
  if !s.linkUp then none
  else if bar2 ≤ addr then
    if bar0 < addr - bar2 + data.length then none
    else
      let cells := data.zipIdx.map fun x => (addr - bar2 + x.2, x.1)
      some (((cells.map fun c => c.1 / 8).eraseDups).foldl (fun s d => s.hostDword cells d) s)
  else if bar2 < addr + data.length || s.paOwned addr n then none
  else some (s.writePa addr n (ofBytes (data.take n)) (pagesOf n))
def execHostWrite (addr : Nat) (data : List Byte) (s : State) : Out := orStay (s.hostStore addr data) s

/-- HOST_READ: through BAR2 what lies at 3 TiB and above reads all ones, and the directory recalls dirty bytes; through BAR0 the management
space is read (R257, R281, R403). -/
def State.hostLoad (s : State) (addr len : Nat) : Option State :=
  let n := Nat.min len (localTop - addr)
  if !s.linkUp then none
  else if bar2 ≤ addr then
    if bar0 < addr - bar2 + len then none
    else match mgmtRead (addr - bar2) len s with
      | .ok bytes s' => some { s' with hostReads := s'.hostReads ++ [bytes] }
      | .error _ _ => none
  else if bar2 < addr + len || s.paOwned addr n then none
  else
    let s' := ((rangeFrom addr n).filterMap homeKey).foldl (fun s k => s.drawBack k) s
    let bytes := bytesOf (s.readPa addr n (pagesOf n)) n ++ List.replicate (len - n) 255
    some { s' with hostReads := s'.hostReads ++ [bytes] }
def execHostRead (addr len : Nat) (s : State) : Out := orStay (s.hostLoad addr len) s

/-- ATOMICOP: it completes with Unsupported Request (R403). -/
def execAtomicop (_addr : Nat) (s : State) : Out := .next { s with unsupported := s.unsupported + 1 }

/-! ### Retirement (R371 to R374) -/

/-- Every core a test names closed to placement. -/
def State.closeCores (s : State) (p : Fin 192 → Bool) : State :=
  { s with cores := Vector.ofFn fun c => if p c then { s.cores.get c with part := .closed } else s.cores.get c }

/-- The monitor raises vector 1 where a step has changed the device status word, once there is a link (R411, R413). -/
def State.statusFrom (before s : State) : State := if s.linkUp && before.statusWord != s.statusWord then s.raiseMsix 1 else s

/-- RETIREMENT_PROPOSE: the monitor accepts the proposal, and the affected core is closed (R372). -/
def execRetirementPropose (u : Retired) (errs : Nat) (s : State) : Out :=
  if s.mgmt.proposed.any (fun p => p.1 = u) || s.mgmt.attic.any (fun a => a.unit = u) then .next s
  else
    let t := s.closeCores fun c => match u with | .core n => c = n | _ => false
    .next (State.statusFrom s { t with mgmt := { t.mgmt with proposed := t.mgmt.proposed ++ [(u, errs)] } })

/-- A unit leaves service (R371): a core, or a port as if it had failed. What way pairs take from the L2 follows from the attic
(`State.sliceGone`), and links change timing only. -/
def State.retire (s : State) : Retired → State
  | .core n => { s with cores := s.cores.set n { s.cores.get n with retired := true } }
  | .port n =>
    let s := s.failPort n
    { s with fabric := { s.fabric with failedPorts := insertNat n s.fabric.failedPorts } }
  | _ => s

/-- What a retirement leaves of launches and resumption entries: harts of retired cores are lost, and gangs that no longer fit
end with code 0x01 (R224, R372). -/
def State.afterRetirement (s : State) : State :=
  let s := (s.saved.filter (fun x => (s.cores.get x.hart.place.core).retired)).foldl (fun s x => s.lose x 3) s
  { s with launches := s.launches.map fun l =>
      if l.gang && !l.admitted && !s.gangFits l then { l with admitted := true, total := 0, code := 1 } else l }

/-- After a context drain the monitor writes the attic and applies what was proposed (R372, R374).
DEDUCED, log entry 30: unsafe. -/
def State.applyRetirements (s : State) : Option State :=
  if s.mgmt.proposed.isEmpty || !s.harts.isEmpty || !s.cmds.isEmpty then none
  else
    let m := s.mgmt
    let s1 := m.proposed.foldl (fun s p => s.retire p.1) s
    let entries := m.proposed.map fun p => (⟨p.1, p.2, m.boots, m.drains + 1⟩ : Attic)
    some (State.statusFrom s { s1 with
      mgmt := { m with attic := m.attic ++ entries, proposed := [], drains := m.drains + 1 }
      head := none }.afterRetirement)
/-- RETIREMENT_APPLY. -/
def execRetirementApply (s : State) : Out := orStay s.applyRetirements s

/-- A command is lost with its engine: whatever it has moved, it ends with code 0x04 (R325). -/
def Cmd.lostEngine (c : Cmd) : Cmd := { c with stage := .moved 4 0, owned := [], sends := [] }

/-- QUAD_RESET: the commands that the quad's engines hold end with code 0x04 (R325). -/
def execQuadReset (quad : Fin 6) (s : State) : Out :=
  let mine := (s.cmds.filter (fun c => c.quad = quad)).map (·.id)
  let work : M Unit := (s.cmds.filter (fun c => c.quad = quad)).forM (stopCommand 4)
  let s' := match work s with
    | .ok _ t | .error _ t => t
  let s' := { s' with
    cmds := s'.cmds.map fun (c : Cmd) => if mine.contains c.id then c.lostEngine else c
    fabric := { s'.fabric with outstanding := s'.fabric.outstanding.filter fun o => !(o.cmd.any mine.contains) } }
  .next (s'.endThese mine)

/-! ### Power, reset and bring-up (R407, R411, R413) -/

/-- THERMAL_THROTTLE: timing only (R411). -/
def execThermalThrottle (die : Fin 24) (s : State) : Out :=
  .next { s with mgmt := { s.mgmt with throttled := s.mgmt.throttled.filter (· != die) ++ [die] } }

/-- THERMAL_RESET: the device resets; the attic and the cabling stay (R374, R376, R407, R411).
DEDUCED, log entry 29: unsafe. -/
def execThermalReset (s : State) : Out :=
  let m := s.mgmt
  .next { State.reset with
    mgmt := { Mgmt.reset with
      attic := m.attic, svn := m.svn, boots := m.boots, resets := m.resets + 1, fuseEd := m.fuseEd, fuseMl := m.fuseMl }
    fabric := { Fabric.reset with row := s.fabric.row, col := s.fabric.col, nrow := s.fabric.nrow, ncol := s.fabric.ncol,
                                  rsw := s.fabric.rsw, csw := s.fabric.csw }.cable
    schedule := s.schedule, free := s.free, hostReads := s.hostReads, unsupported := s.unsupported, nextId := s.nextId }

/-- The least security version the attic records for an image kind (R407). -/
def Mgmt.minSvn (m : Mgmt) (kind : Nat) : Nat := ((m.svn.find? (fun p => p.1 = kind)).map (·.2)).getD 0

/-- An image is accepted: its fields are whole, both its signatures verify, its keys match the fuse slots, and its version is not below the
minimum (R407). -/
def Mgmt.accepts (m : Mgmt) (x : FwImage) : Bool :=
  let h := x.head
  h.magic = 0x4E595A46 && h.length = x.body.length && h.digest = Config.sha384 x.body
    && Config.ed25519Verifies x.keys.ed (FwHeader.signed h) h.ed && Config.mldsa65Verifies x.keys.ml (FwHeader.signed h) h.ml
    && Config.sha384 x.keys.ed = m.fuseEd && Config.sha384 x.keys.ml = m.fuseMl && m.minSvn h.kind ≤ h.svn

/-- An accepted image raises the minimum of its kind (R407). -/
def Mgmt.raiseSvn (m : Mgmt) (x : FwImage) : Mgmt :=
  { m with svn := (x.head.kind, x.head.svn) :: m.svn.filter (fun p => p.1 != x.head.kind) }

/-- BRING_UP: the next step of R413 completes, or fails and ends the sequence: the monitor's image and the house firmware's are verified at
steps 2 and 6, the retirements of the attic applied at step 4, and the fabric identity word set at step 7. -/
def execBringUp (r : BringStep) (s : State) : Out :=
  let m := s.mgmt
  let verifies := m.bstage = 1 || m.bstage = 5
  if m.bfail || 8 ≤ m.bstage.val then .next s
  else if r.ok && (!verifies || m.accepts r.image) then
    let m' := if verifies then m.raiseSvn r.image else m
    let m' := { m' with
      bstage := m.bstage + 1
      boots := if m.bstage = 1 then m.boots + 1 else m.boots
      monitor := if m.bstage = 1 then some r.image else m.monitor
      firmware := if m.bstage = 5 then some r.image else m.firmware }
    let t := { s with mgmt := m', fabric := if m.bstage = 6 then s.fabric.setIdentity r.identity.toNat else s.fabric }
    .next (State.statusFrom s (if m.bstage = 3 then m.attic.foldl (fun t a => t.retire a.unit) t else t))
  else .next (State.statusFrom s { s with mgmt := { m with bfail := true } })

/-- An accepted image raises its minimum and runs: one of the monitor's kind as the monitor, any other as the house firmware (R407).
DEDUCED, log entry 60: unsafe. -/
def updateFirmware (x : FwImage) (s : State) : State × BitVec 8 :=
  if s.mgmt.accepts x then
    let m := s.mgmt.raiseSvn x
    let ours := s.mgmt.monitor.any fun y => y.head.kind = x.head.kind
    ({ s with mgmt := { m with monitor := if ours then some x else m.monitor, firmware := if ours then m.firmware else some x } }, mboxDone)
  else (s, mboxVerify)

/-- FIRMWARE_UPDATE: answered as a mailbox command is, and ignored while one is busy or without a link (R405, R407, R413). -/
def execFirmwareUpdate (seq : BitVec 24) (head : FwHeader) (body : List Byte) (keys : FwKeys) (s : State) : Out :=
  if !s.linkUp || s.mgmt.mboxStatus = mboxBusy then .next s
  else if !s.firmwareRuns then .next (s.respond seq mboxNoFirmware)
  else
    let r := updateFirmware ⟨head, body, keys⟩ s
    .next (r.1.respond seq r.2)

end Sys2Proof.Machine
end

