-- ==== Sys2Proof/Machine/Matrix.lean ====
section
/-! DEFINITION. Tiles and the matrix unit: moves, fills, outer products and TMMA (R183 to R198, R50). -/
namespace Sys2Proof.Machine
open Sys2Proof

/-! ### Tiles (R20) -/

/-- Word `c` of row `r` of a tile. -/
def tileWord (t r c : Nat) : Nat := getBits t ((r * 256 + c) * 32) 32
/-- A row of a tile. -/
def tileRow (t r : Nat) : Nat := getBits t (r * 8192) 8192
/-- A tile from its rows. -/
def tileOf (row : Nat → Nat) : BitVec Config.tileBits := BitVec.ofNat _ (packWords 8192 ((rangeFrom 0 256).map row))

/-- The tile read as a number. -/
def Hart.tile (h : Hart) (t : TIdx) : Nat := (h.tiles.get t).toNat
/-- A tile written. -/
def Hart.setTile (h : Hart) (t : TIdx) (v : BitVec Config.tileBits) : Hart := { h with tiles := h.tiles.set t v }

/-- The operand checks of R185 but those of vstart and the tags: the tile is the hart's, and vl fits every named register. -/
def Hart.mtxOk (h : Hart) (tiles : List TIdx) (regs : List VIdx) : Bool :=
  tiles.all (fun t => t.val < 8 / h.parts) && h.vlFits (regs.map h.tag)

/-- The checks of R185 for an instruction that is not of the OPA family. -/
def mtxStart (tiles : List TIdx) (regs : List VIdx) : M Hart := do
  touch regs
  let h := (← get).hart
  operandIf (!h.mtxOk tiles regs || h.vst != 0)
  return h

/-! ### Moves (R186 to R189) -/

def execTzero (t : TIdx) (s : State) : Out :=
  finish 8 false (do
    let _ ← mtxStart [t] []
    onHart fun h => (h.setTile t (BitVec.ofNat _ 0)).vdone) s

/-- Address of row `r` (R186). -/
def rowAddr (base stride : Word) (r : Nat) : Word := base + BitVec.ofNat 64 r * stride

/-- The misaligned-access trap of the lowest misaligned row start. -/
def alignRows (kind : AccessKind) (n : Nat) (as : List Word) : M Unit :=
  match as.find? (fun a => a.toNat % n != 0) with
  | some a => raise .misaligned a kind
  | none => pure ()

/-- The accesses of a tile's rows, probed (R186). -/
def tileAccs (acc : Access) (base stride : Word) : M (List VAcc) := do
  let as := (rangeFrom 0 256).map (rowAddr base stride)
  alignRows acc.kind 4 as
  let reqs := as.zipIdx.flatMap fun p => cutRun p.2 (p.2 / 64) p.1 1024 2
  refuseShelf acc.kind reqs
  reqs.mapM (probe .noShelf acc 32)

def execTld (t : TIdx) (base stride : SReg) (s : State) : Out :=
  finish 8 false (do
    let h ← mtxStart [t] []
    let accs ← tileAccs .load (h.getS base) (h.getS stride)
    countRequests false accs
    let got ← readPieces accs
    onHart fun h => (h.setTile t (BitVec.ofNat _ (joinPieces got))).vdone) s

/-- The bytes a piece of a row takes from a tile: `skip` bytes of the row stand before it. -/
def tilePieces (t : Nat) : List VAcc → Nat → List (VAcc × Nat)
  | [], _ => []
  | a :: l, pos => (a, getBits t (8 * pos) a.w) :: tilePieces t l (pos + a.bytes)

def execTst (t : TIdx) (base stride : SReg) (s : State) : Out :=
  finish 8 false (do
    let h ← mtxStart [t] []
    let accs ← tileAccs .store (h.getS base) (h.getS stride)
    countRequests true accs
    writeAccs 1 (tilePieces (h.tile t) accs 0)
    onHart Hart.vdone) s

/-- The tags of a row in a vector register (R187). -/
def rowTag (t : Tag) : Bool := t = .f32 || t = .i32 || t = .n32

def execTmvTileToVector (vd : VIdx) (t : TIdx) (row : SReg) (s : State) : Out :=
  finish 8 false (do
    let h ← mtxStart [t] [vd]
    let r := (h.getS row).toNat
    operandIf (!rowTag (h.tag vd) || 256 ≤ r)
    onHart fun h => (h.setElems vd (h.tag vd) ((rangeFrom 0 256).map fun j => (j, tileWord (h.tile t) r j))).vdone) s

def execTmvVectorToTile (t : TIdx) (vd : VIdx) (row : SReg) (s : State) : Out :=
  finish 8 false (do
    let h ← mtxStart [t] [vd]
    let r := (h.getS row).toNat
    operandIf (!rowTag (h.tag vd) || 256 ≤ r)
    let w := packWords 32 ((rangeFrom 0 256).map (h.elem vd (h.tag vd)))
    onHart fun h => (h.setTile t (BitVec.ofNat _ (setBits (h.tile t) (r * 8192) 8192 w))).vdone) s

/-- Whether a keep mask takes the block of a word (R20, R191). -/
def keptAt (mask : Option Word) (r c : Nat) : Bool :=
  match mask with
  | none => true
  | some k => bitOf k.toNat (8 * (r / 32) + c / 32)

/-- The tile with the kept words of rows `take` given by `f`; other rows and words are kept. -/
def updateTile (t : Nat) (take : Nat → Bool) (mask : Option Word) (f : Nat → Nat → Nat) : BitVec Config.tileBits :=
  tileOf fun r =>
    if take r && (rangeFrom 0 8).any (fun b => keptAt mask r (32 * b)) then
      packWords 32 ((rangeFrom 0 256).map fun c => if keptAt mask r c then f r c else tileWord t r c)
    else tileRow t r

def execTfill (t : TIdx) (k : KIdx) (s : State) : Out :=
  finish 8 false (do
    let h ← mtxStart [t] []
    let unkept := some (~~~(h.keep.get k))
    onHart fun h => (h.setTile t (updateTile (h.tile t) (fun _ => true) unkept fun _ _ => 0xFF800000)).vdone) s

/-- The maximum of FP32 words by R49. -/
def maxWords (vs : List FVal) : Nat :=
  let x := vs.foldl fMax .nan
  if x.isNan then (fmtOf .f32).nan else ((fmtOf .f32).rnd .even x).bits

def execTredmax (vd : VIdx) (t : TIdx) (s : State) : Out :=
  finish 8 false (do
    let h ← mtxStart [t] [vd]
    let v := h.tile t
    let rows := (rangeFrom 0 256).map fun r =>
      (r, maxWords ((rangeFrom 0 256).map fun c => readFloat h.vcfg .f32 (tileWord v r c)))
    onHart fun h => ((h.setElems vd .f32 rows).setTag vd .f32).vdone) s

/-! ### Outer products (R190 to R195) -/

/-- The pair classes of R190. -/
inductive PairClass where
  | i2 | i4 | f4 | i8 | f8 | f16 | f32
deriving DecidableEq, Repr

/-- The class of one tag. -/
def pairClassOf : Tag → Option PairClass
  | .i2 => some .i2 | .i4 => some .i4 | .e2m1 => some .f4 | .i8 | .n8 => some .i8
  | .e5m2 | .e4m3 | .e3m2 | .e2m3 => some .f8 | .bf16 | .f16 => some .f16 | .f32 => some .f32
  | _ => none
/-- A pair that R190 lists. -/
def pairOk (a b : Tag) : Bool :=
  match pairClassOf a, pairClassOf b with
  | some x, some y => x = y
  | _, _ => false

/-- An exact sum under way (R50): a NaN operand, an invalid product or sum, the infinities, the finite part, and whether
every term is −0. -/
structure Sum where
  nan : Bool
  bad : Bool
  pinf : Bool
  ninf : Bool
  q : Rat
  negZero : Bool

def Sum.start : Sum := ⟨false, false, false, false, 0, true⟩

/-- One term joins a sum. -/
def Sum.add (x : Sum) : FVal → Sum
  | .nan => { x with nan := true, negZero := false }
  | .inf false => { x with pinf := true, negZero := false }
  | .inf true => { x with ninf := true, negZero := false }
  | .zero s => { x with negZero := x.negZero && s }
  | .fin q => { x with q := x.q + q, negZero := false }

/-- The exact product of factors, none of which is a NaN; an invalid product marks the sum. -/
def Sum.addProduct (x : Sum) (fs : List FVal) : Sum :=
  if fs.any FVal.isNan then { x with nan := true }
  else
    let p := fs.foldl (fun (p : Exact) f => let r := fMul p.1 f; (r.1, p.2.or r.2)) (.fin 1, .zero)
    if p.2.nv then { x with bad := true } else x.add p.1

/-- The value of a sum (R50). -/
def Sum.value (x : Sum) : Exact :=
  if x.nan then (.nan, .zero)
  else if x.bad || (x.pinf && x.ninf) then (.nan, .NV)
  else if x.pinf then (.inf false, .zero)
  else if x.ninf then (.inf true, .zero)
  else if x.q = 0 then (.zero x.negZero, .zero)
  else (.fin x.q, .zero)

/-- acc of R191 for a float pair: the old word and the products, rounded once. -/
def accFloat (c : VCfg) (old : Nat) (terms : List (List FVal)) : Res :=
  (fmtOf .f32).rndExact .even ((terms.foldl Sum.addProduct (Sum.start.add (readFloat c .f32 old))).value)

/-- acc of R191 for an integer pair. -/
def accInt (sat : Bool) (old : Nat) (terms : List (Int × Int)) : Nat :=
  let x := terms.foldl (fun (a : Int) p => a + p.1 * p.2) (toSigned 32 old)
  ofInt 32 (if sat then clampInt .i32 x else x)

/-- One accumulator: `a` and `b` give the bits of the two operands for k below `K`, none for a term left out, with the
scales that multiply them. -/
def accumulate (c : VCfg) (sat : Bool) (ta tb : Tag) (old K : Nat) (a b : Nat → Option (Nat × List FVal)) : Res :=
  let ps := (rangeFrom 0 K).filterMap fun k =>
    match a k, b k with
    | some x, some y => some (x, y)
    | _, _ => none
  if isInt ta then plain (accInt sat old (ps.map fun p => (readInt ta p.1.1, readInt tb p.2.1)))
  else accFloat c old (ps.map fun p => readFloat c ta p.1.1 :: readFloat c tb p.2.1 :: (p.1.2 ++ p.2.2))

/-- The tile and the flags after the passes from `first` of every die (R191, R195): `a` and `b` give an operand by row and
k. -/
def outerProduct (c : VCfg) (sat : Bool) (ta tb : Tag) (t : Nat) (first last : Nat) (mask : Option Word) (K : Nat)
    (a b : Nat → Nat → Option (Nat × List FVal)) : BitVec Config.tileBits × FFlags :=
  let take (r : Nat) : Bool := first ≤ r % 64 && r % 64 < last
  let res (r c' : Nat) : Res := accumulate c sat ta tb (tileWord t r c') K (a r) (b c')
  let rows := (rangeFrom 0 256).filter take
  let flags := if isInt ta then .zero else flagsOf (rows.flatMap fun r =>
    ((rangeFrom 0 256).filter (keptAt mask r)).map fun c' => (res r c').fl)
  (updateTile t take mask (fun r c' => (res r c').bits), flags)

/-- The keep mask an instruction reads (R194). -/
def Hart.mask (h : Hart) (k : Option KIdx) : Option Word := k.map h.keep.get

/-- The common count at which the dies stop: 64, or one that a pre-emption chose (R195, R352). -/
def stopCount (first : Nat) : M Nat := do
  if first < 63 && (← stopsHere) then return first + 1 + Config.freeNat (← takeFree) % (63 - first) else return 64
/-- The instruction stops at a count below 64, or completes (R195). -/
def stopOrDone (last : Nat) : M Unit := do
  if last < 64 then
    setVstart last
    onHart fun h => { h with answers := [], held := [], underway := false }
    throw .pause
  else onHart Hart.vdone

/-- The OPA family on registers: `ok` are its own operand checks, `a` and `b` its operands. -/
def outer (sat : Bool) (t : TIdx) (va vb : VIdx) (more : List VIdx) (k : Option KIdx) (ok : Hart → Bool)
    (a b : Hart → Nat → Nat → Nat → Option (Nat × List FVal)) (s : State) : Out :=
  finish 8 false (do
    touch ([va, vb] ++ more)
    let h := (← get).hart
    let ta := h.tag va
    let tb := h.tag vb
    operandIf (!h.mtxOk [t] ([va, vb] ++ more) || 64 < h.vst || !pairOk ta tb || (sat && !isInt ta) || !ok h)
    let K := h.vlmax ta / 256
    let last ← stopCount h.vst
    let r := outerProduct h.vcfg sat ta tb (h.tile t) h.vst last (h.mask k) K (a h K) (b h K)
    onHart fun h => (h.setTile t r.1).raiseFlags r.2
    stopOrDone last) s

/-- Operand B, and A where it is not gathered (R183). -/
def flatOperand (r : VIdx) (h : Hart) (K i k : Nat) : Option (Nat × List FVal) := some (h.elem r (h.tag r) (i * K + k), [])

def execOpa (sat : Bool) (t : TIdx) (va vb : VIdx) (k : Option KIdx) (s : State) : Out :=
  outer sat t va vb [] k (fun _ => true) (flatOperand va) (flatOperand vb) s

/-- The scale of R192 for row `i`, element `k`, from the half of v1 that begins at scale `lo`. -/
def Hart.opaScale (h : Hart) (lo K i k : Nat) : FVal :=
  let n := if h.vcfg.blk = 3 then i else scaleBlock h.vcfg.blk (i * K + k)
  readFloat h.vcfg (h.tag 1) (h.elem 1 (h.tag 1) (lo + n))
/-- Scales of one operand (R192). -/
def Hart.opaScales (h : Hart) (K : Nat) : Nat := if h.vcfg.blk = 3 then 256 else 256 * K / (16 * 2 ^ h.vcfg.blk.val)
/-- An operand of OPAS. -/
def scaledOperand (r : VIdx) (second : Bool) (h : Hart) (K i k : Nat) : Option (Nat × List FVal) :=
  some (h.elem r (h.tag r) (i * K + k), [h.opaScale (if second then h.opaScales K else 0) K i k])

def execOpas (t : TIdx) (va vb : VIdx) (k : Option KIdx) (s : State) : Out :=
  outer false t va vb [1] k
    (fun h => (h.tag 1 = .e8m0 || h.tag 1 = .f32) && isFloat (h.tag va)
      && 2 * h.opaScales (h.vlmax (h.tag va) / 256) ≤ h.vlmax (h.tag 1))
    (scaledOperand va false) (scaledOperand vb true) s

/-- Operand A gathered (R193). -/
def gatheredOperand (va vx : VIdx) (h : Hart) (K i k : Nat) : Option (Nat × List FVal) :=
  let j := readInt (h.tag vx) (h.elem vx (h.tag vx) (i * K + k))
  if 0 ≤ j ∧ j < 256 * K then some (h.elem va (h.tag va) j.toNat, []) else none

def execOpag (sat : Bool) (t : TIdx) (va vb vx : VIdx) (k : Option KIdx) (s : State) : Out :=
  outer sat t va vb [vx] k
    (fun h => (h.tag vx = .n16 || h.tag vx = .n32 || h.tag vx = .i16 || h.tag vx = .i32)
      && width (h.tag vx) ≤ width (h.tag va))
    (gatheredOperand va vx) (flatOperand vb) s

/-! ### TMMA (R196, R197) -/

/-- The descriptor of TMMA (R196). -/
structure TmmaDesc where
  aadr : Word
  badr : Word
  astr : Word
  bstr : Word
  kt : Nat
  atag : Tag
  btag : Tag
deriving DecidableEq, Repr

/-- The descriptor that five dwords hold; none where an operand trap is due (R196). -/
def tmmaDesc (sat : Bool) (d : List Nat) : Option TmmaDesc :=
  let d4 := d[4]?.getD 0
  match tagOf (fld d4 20 5), tagOf (fld d4 25 5) with
  | some ta, some tb =>
    let kt := fld d4 0 20
    if kt = 0 || d4 / 2 ^ 30 != 0 || !pairOk ta tb || kt * width ta % 8 != 0 || (sat && !isInt ta) then none
    else some ⟨BitVec.ofNat 64 (d[0]?.getD 0), BitVec.ofNat 64 (d[1]?.getD 0), BitVec.ofNat 64 (d[2]?.getD 0),
      BitVec.ofNat 64 (d[3]?.getD 0), kt, ta, tb⟩
  | _, _ => none

/-- Refusal of addresses in any scratch window before any page is probed, with the lowest of them, over both operands (R197); the spec says
so of the shelf alone (R253).
DESIGN CHOICE, log entry 54: unsafe. -/
def refuseWindows (kind : AccessKind) (l : List VReq) : M Unit := do
  let swin := (← get).ctx.swin
  match (l.filter fun q => (findWindow swin q.va).isSome).map (·.va.toNat) with
  | [] => pure ()
  | x :: t => raise .access (BitVec.ofNat 64 (t.foldl Nat.min x)) kind

/-- The rows of A that pass `v` uses, and the rows of B it needs with them. -/
def passRows (mask : Option Word) (v : Nat) : List Nat × List Nat :=
  let rs := [v, 64 + v, 128 + v, 192 + v].filter fun r => (rangeFrom 0 8).any fun b => keptAt mask r (32 * b)
  (rs, (rangeFrom 0 256).filter fun c => rs.any fun r => keptAt mask r c)

/-- The first poisoned sector that pass `v` meets. -/
def passPoison (mask : Option Word) (a b : List (List (Option Word))) (v : Nat) : Option Word :=
  let p := passRows mask v
  ((p.1.flatMap fun r => a[r]?.getD []) ++ (p.2.flatMap fun c => b[c]?.getD [])).findSome? id

/-- The first pass from `v` that meets a poisoned sector, with its address.
DEDUCED, log entry 37: unsafe. -/
def firstBadPass (mask : Option Word) (a b : List (List (Option Word))) (v : Nat) : Nat → Option (Nat × Word)
  | 0 => none
  | n + 1 =>
    match passPoison mask a b v with
    | some e => some (v, e)
    | none => firstBadPass mask a b (v + 1) n

/-- For each piece of an operand row the address of the first poisoned sector it meets. -/
def rowPoison (got : List (VAcc × Option Nat)) (ans : List RemoteAnswer) (s : State) (row : List VAcc) : List (Option Word) :=
  row.map fun a => if ((got.find? fun p => p.1 = a).bind (·.2)).isNone then some ((firstPoison s ans a).getD a.va) else none

/-- The rows of a TMMA, from its descriptor (R196, R197): the lane group of row div 64 issues the requests of a row, of A and of B alike.
Rows at other devices are read whole before a count is chosen.
DESIGN CHOICE for the lane group, log entry 55: unsafe. -/
def tmmaRows (sat : Bool) (t : TIdx) (k : Option KIdx) (x : TmmaDesc) : M Unit := do
  let h := (← get).hart
  let bytes := x.kt * width x.atag / 8
  let n := Nat.max (width x.atag / 8) 1
  let rowsA := (rangeFrom 0 256).map (rowAddr x.aadr x.astr)
  let rowsB := (rangeFrom 0 256).map (rowAddr x.badr x.bstr)
  alignRows .load n (rowsA ++ rowsB)
  let cut (l : List Word) : List (List VReq) := l.zipIdx.map fun p => cutRun p.2 (p.2 / 64) p.1 bytes (bytes / 4096 + 2)
  refuseWindows .load ((cut rowsA).flatten ++ (cut rowsB).flatten)
  let accA ← (cut rowsA).mapM (·.mapM (probe .noShelf .load 8))
  let accB ← (cut rowsB).mapM (·.mapM (probe .noShelf .load 8))
  let far := (accA ++ accB).any (·.any VAcc.far)
  let upto ← if far then pure 64 else stopCount h.vst
  let mask := h.mask k
  let passes := (rangeFrom h.vst (upto - h.vst)).map (passRows mask)
  let pick (use : Nat → Bool) (l : List (List VAcc)) : List (List VAcc) := l.zipIdx.map fun p => if use p.2 then p.1 else []
  let usedA := pick (fun r => passes.any fun p => p.1.contains r) accA
  let usedB := pick (fun r => passes.any fun p => p.2.contains r) accB
  countRequests false (usedA.flatten ++ usedB.flatten)
  let got ← readAccs 1 (usedA.flatten ++ usedB.flatten)
  let upto ← if far then stopCount h.vst else pure upto
  let s ← get
  let bad (l : List (List VAcc)) : List (List (Option Word)) := l.map (rowPoison got s.hart.answers s)
  let stop := firstBadPass mask (bad usedA) (bad usedB) h.vst (upto - h.vst)
  let value (a : VAcc) : Nat := ((got.find? fun p => p.1 = a).bind (·.2)).getD 0
  let rowBits (l : List (List VAcc)) : List Nat := l.map fun row => joinPieces (row.map fun a => (a, value a))
  let elem (l : List Nat) (w r j : Nat) : Option (Nat × List FVal) := some (getBits (l[r]?.getD 0) (j * w) w, [])
  let r := outerProduct h.vcfg sat x.atag x.btag (h.tile t) h.vst ((stop.map (·.1)).getD upto) mask x.kt
    (elem (rowBits usedA) (width x.atag)) (elem (rowBits usedB) (width x.btag))
  onHart fun h => (h.setTile t r.1).raiseFlags r.2
  match stop with
  | some (v, e) => do
    setVstart v
    raise .poison e .load
  | none => stopOrDone upto

/-- TMMA: at vstart = 64 it completes at once; else its descriptor, which lane group 0 requests, then its rows (R195 to R197).
DESIGN CHOICE for the lane group, log entry 55: unsafe. -/
def execTmma (sat : Bool) (t : TIdx) (base : SReg) (k : Option KIdx) (s : State) : Out :=
  finish 8 false (do
    let h := (← get).hart
    operandIf (!h.mtxOk [t] [] || 64 < h.vst)
    if h.vst = 64 then onHart Hart.vdone
    else do
      let d := h.getS base
      aligned d 8 .load
      let heads := (rangeFrom 0 5).map fun j => (⟨j, d + BitVec.ofNat 64 (8 * j), 0, 64, 0, 0⟩ : VReq)
      refuseShelf .load heads
      let head ← heads.mapM (probe .noShelf .load 64)
      countRequests false head
      match tmmaDesc sat ((← readPieces head).map (·.2)) with
      | none => raise .operand
      | some x => tmmaRows sat t k x) s

end Sys2Proof.Machine
end

