-- ==== Sys2Proof/Machine/SaveRestore.lean ====
section
/-! DEFINITION. SAVEV and RESTV (R357 to R360). -/
namespace Sys2Proof.Machine
open Sys2Proof

/-- The base of an image, and the waits of R360. -/
def imageBase (i : Instr) (r : SReg) (kind : AccessKind) : M Word := do
  let s ← get
  illegalIf (s.hart.mode = .user) i
  let a := s.getS r
  raiseIf (a.toNat % 4096 != 0) .misaligned a kind
  waitIf s.storeQueued
  return a

/-- The pieces of a run of an image, each within a page; `k` numbers the run. -/
def imagePieces (a : Word) (k off n : Nat) : List VReq := cutRun k 0 (a + BitVec.ofNat 64 off) n (n / 4096 + 2)

/-- The pieces probed: device memory, the windows of the host and the management space, and the shelf window are refused. -/
def probeImage (acc : Access) (l : List VReq) : M (List VAcc) := do
  refuseShelf acc.kind l
  l.mapM (probe .atomic acc 8)

/-- Every page of a pigeonhole section that is present (R359, R360). -/
def probePigeon (acc : Access) (a : Word) (P : Nat) (present : Bool) : M Unit := do
  let _ ← probeImage acc (if present then imagePieces a 0 (pigeonAt P) (16 + 16 * (65536 / P)) else [])
  pure ()

/-- The value of each piece of a blob. -/
def slices (v : Nat) : List VAcc → List (VAcc × Nat)
  | [] => []
  | a :: t => (a, v % 2 ^ a.w) :: slices (v / 2 ^ a.w) t

/-- The sectors at some offsets of an image become poisoned, where its pieces are stored here. -/
def taintPieces (a : Word) (offs : List Nat) (accs : List VAcc) : M Unit :=
  offs.forM fun o => accs.forM fun x => do
    let d := (a + BitVec.ofNat 64 o - x.va).toNat
    if d < x.bytes then x.writeKeys.forM fun k => modify (·.addPoison ((k + d) / 32))

/-- SAVEV (R360): the poison of the shelves goes with their bytes (R262).
DEDUCED, log entry 56: unsafe. -/
def execSavev (r : SReg) (s : State) : Out :=
  finish 8 false (do
    let a ← imageBase (.savev r) r .store
    let s ← get
    let shs := bitOf s.ctx.swin[0].toNat 0
    let blobs := savevBlobs s s.hart shs
    let accs ← probeImage .store (blobs.zipIdx.flatMap fun b => imagePieces a b.2 b.1.off b.1.len)
    probePigeon .store a s.hart.parts s.hart.ixlive
    writeAccs 1 (blobs.zipIdx.flatMap fun b => slices b.1.val (accs.filter (·.i = b.2)))
    taintPieces a (if shs then s.shelfPoison s.hart else []) accs
    onHart Hart.vdone) s

/-- The runs of an image probed, numbered. -/
def probeRuns (a : Word) (runs : List (Nat × Nat)) : M (List VAcc) :=
  probeImage .load (runs.zipIdx.flatMap fun b => imagePieces a b.2 b.1.1 b.1.2)
/-- Each probed run's bytes read as one number. -/
def readRuns (n : Nat) (accs : List VAcc) : M (List Nat) := do
  let got ← readPieces accs
  return (rangeFrom 0 n).map fun k => joinPieces (got.filter (·.1.i = k))

/-- estat after a RESTV (R360). -/
def EStat.restored (old : EStat) (hdr image : Nat) : EStat :=
  { EStat.ofWord image with tip := old.tip, lps := bitOf hdr 29, rqs := Fin.ofNat 32 (fld hdr 30 5) }

def execRestv (r : SReg) (s : State) : Out :=
  finish 8 false (do
    let a ← imageBase (.restv r) r .load
    let h := (← get).hart
    let P := h.parts
    let head ← probeRuns a [(0, 8)]
    let _ ← probeRuns a [(0, 4096)]
    let hdr := (← readRuns 1 head).headD 0
    let fixed : List (Nat × Nat) := [(0x200, 0xE00)]
      ++ (rangeFrom 0 64).map (fun k => (0x1000 + k * regBytes P, regBytes P))
      ++ (rangeFrom 0 8).map (fun t => (tilesAt P + 262144 * t, if t < 8 / P && bitOf hdr (15 + t) then 262144 else 0))
      ++ (rangeFrom 0 32).map (fun k => (shelvesAt P + 65536 * k, if k < 32 / P && bitOf hdr 14 then 65536 else 0))
      ++ [(pigeonAt P, if bitOf hdr 13 then 16 else 0)]
    let accs ← probeRuns a fixed
    probePigeon .load a P (bitOf hdr 13)
    let vs ← readRuns fixed.length accs
    let at_ (k : Nat) : Nat := vs[k]?.getD 0
    let n := Nat.min (at_ 105 % 2 ^ 64) (65536 / P)
    let entries := (← readRuns 1 (← probeRuns a [(pigeonAt P + 16, if bitOf hdr 13 then 16 * n else 0)])).headD 0
    let small := at_ 0
    operandIf (!imageLegal h.vcfg.plog hdr small)
    onHart fun h =>
      let h1 := restoreLarge (restoreSmall h hdr small) hdr (unpack small 32 8) (fun k => at_ (1 + k)) (fun t => at_ (65 + t))
        (n + entries * 2 ^ 128)
      { h1 with estat := h.estat.restored hdr (unpack small 112 8), watch := h.watch }
    if bitOf hdr 14 then modify fun s => (s.zeroShelves s.hart.place P).putShelves s.hart.place P (fun k => at_ (73 + k))) s

end Sys2Proof.Machine
end

