-- ==== Sys2Proof/Machine/Scout.lean ====
section
/-! DEFINITION. The scout pass and the keep masks (R199 to R203). -/
namespace Sys2Proof.Machine
open Sys2Proof

/-- The block exponent of a list of values (R200). -/
def blockExponent (vs : List FVal) : Int :=
  let mags : List Rat := vs.filterMap fun v => match v with | .fin q => some (if q < 0 then -q else q) | _ => none
  let amax := mags.foldl (fun (a b : Rat) => if a < b then b else a) 0
  if amax = 0 then -127 else max (-127) (min 127 (ratLog2 amax.num.natAbs amax.den - 2))

/-- A value quantised under a block exponent (R200). -/
def quantise (e : Int) : FVal → FVal
  | .nan => .zero false
  | .inf s => .fin (if s then -6 * pow2 e else 6 * pow2 e)
  | .zero s => .zero s
  | .fin q =>
    match (fmtOf .e2m1).value ((fmtOf .e2m1).rnd ⟨.nearestEven, true, 0⟩ (.fin (q / pow2 e))).bits with
    | .fin x => .fin (x * pow2 e)
    | v => v

/-- The quantised elements of a register, by flat index. -/
def Hart.quantised (h : Hart) (r : VIdx) (n : Nat) : List FVal :=
  let t := h.tag r
  (rangeFrom 0 (n / 32)).flatMap fun j =>
    let vs := (rangeFrom (32 * j) 32).map fun i => readFloat h.vcfg t (h.elem r t i)
    vs.map (quantise (blockExponent vs))

/-- The tags of SCOUT.A (R201). -/
def scoutTag (t : Tag) : Bool := t = .f32 || t = .bf16 || t = .f16 || t = .e5m2 || t = .e4m3

def execScoutA (vd : VIdx) (t : TIdx) (va vb : VIdx) (s : State) : Out :=
  finish 8 false (do
    let h ← mtxStart [t] [vd, va, vb]
    let ta := h.tag va
    let tb := h.tag vb
    operandIf (!scoutTag ta || !scoutTag tb || width ta != width tb)
    let K := h.vlmax ta / 256
    let qa := h.quantised va (256 * K)
    let qb := h.quantised vb (256 * K)
    let word (r c : Nat) : Nat :=
      let terms := (rangeFrom 0 K).map fun k => [qa[r * K + k]?.getD (.zero false), qb[c * K + k]?.getD (.zero false)]
      (accFloat h.vcfg (tileWord (h.tile t) r c) terms).bits
    let new := updateTile (h.tile t) (fun _ => true) none word
    let maxima := (rangeFrom 0 64).map fun b =>
      (b, maxWords ((rangeFrom 0 32).flatMap fun r => (rangeFrom 0 32).map fun c =>
        (fmtOf .f32).value (tileWord new.toNat (b / 8 * 32 + r) (b % 8 * 32 + c))))
    onHart fun h => (((h.setTile t new).setElems vd .f32 maxima).setTag vd .f32).vdone) s

/-- At least, −0 equal to +0; a NaN is at least nothing (R202). -/
def FVal.atLeast (a b : FVal) : Bool := !a.isNan && !b.isNan && (!a.ltNum b)

/-- The keep byte of one row group, as the list of its eight decisions (R202). kthr.tau is compared as it stands: a flush bit flushes
maxima and floors alone (R43 does not say whether tau is such an input).
DESIGN CHOICE, log entry 47: unsafe. -/
def keepGroup (k : Kthr) (top : FVal) (m : List FVal) : List Bool :=
  let tau := (fmtOf .f32).value k.tau.toNat
  let reaches (th : FVal) : List Bool := m.map fun x => if th.isNan then !x.isNan else x.atLeast th
  match k.mode with
  | .relative => reaches ((fmtOf .f32).value ((fmtOf .f32).rnd .even (fAdd .nearestEven top tau.negate).1).bits)
  | .absolute => reaches tau
  | .topm => m.zipIdx.map fun p =>
    let before := m.zipIdx.filter fun q => p.1.ltNum q.1 || (!(q.1.ltNum p.1) && !q.1.isNan && q.2 < p.2)
    !p.1.isNan && before.length ≤ k.topm.val

def execScoutT (k : KIdx) (vd va : VIdx) (s : State) : Out :=
  finish 8 false (do
    let h ← mtxStart [] [vd, va]
    operandIf (!(h.tag vd = .f32 && h.tag va = .f32))
    let read (r : VIdx) (i : Nat) : FVal := readFloat h.vcfg .f32 (h.elem r .f32 i)
    let groups : List (Nat × Nat × List Bool) := (rangeFrom 0 8).map fun br =>
      let m := (rangeFrom 0 8).map fun bc => read va (8 * br + bc)
      let top := maxWords (read vd br :: m)
      (br, top, keepGroup h.kthr ((fmtOf .f32).value top) m)
    let bits := packBits (groups.flatMap fun g => g.2.2)
    let tops := groups.map fun g => (g.1, g.2.1)
    onHart fun h => ({ h with keep := h.keep.set k (BitVec.ofNat 64 bits) }.setElems vd .f32 tops).vdone) s

/-- KAND and KOR (R203). -/
def keepOp (f : Word → Word → Word) (k a b : KIdx) (s : State) : Out :=
  finish 8 false (do
    let h ← mtxStart [] []
    onHart fun h' => { h' with keep := h'.keep.set k (f (h.keep.get a) (h.keep.get b)) }.vdone) s

def execKand (k a b : KIdx) (s : State) : Out := keepOp (· &&& ·) k a b s
def execKor (k a b : KIdx) (s : State) : Out := keepOp (· ||| ·) k a b s

def execKpop (k : KIdx) (s : State) : Out :=
  finish 8 false (do
    needReturn (.kpop k)
    let h ← mtxStart [] []
    onHart Hart.vdone
    pushReturn (popCount (h.keep.get k).toNat 64)) s

end Sys2Proof.Machine
end

