-- ==== Sys2Proof/Machine/VConfig.lean ====
section
/-! DEFINITION. VSETVL, VCFG and VTAG (R102 to R104). -/
namespace Sys2Proof.Machine
open Sys2Proof

/-- vl for a requested length (R102). -/
def Hart.newVl (h : Hart) (avl : Nat) (t : Tag) : Nat := min avl (h.vlmax t)

def execVsetvl (d a : SReg) (tag : Tag) (s : State) : Out :=
  let n := s.hart.newVl (s.getS a).toNat tag
  let s := { s with hart := { s.hart with vl := BitVec.ofNat 16 n, vstart := 0 } }
  .next (retire 8 (s.setS d (BitVec.ofNat 64 n)))

/-- The value of vcfg that VCFG writes, s0 leaving it as it is; a reserved code is an illegal instruction (R103). -/
def newVcfg (i : Instr) (a : SReg) : M VCfg := do
  let s ← get
  if a = 0 then return s.hart.vcfg
  else match s.hart.vcfg.write (s.getS a).toNat with
    | some c => return c
    | none => illegal i

def execVcfg (a : SReg) (s : State) : Out :=
  finish 8 false (do
    let c ← newVcfg (.vcfg a) a
    onHart fun h => { h.vdone with vcfg := c }) s

/-- Tags of a range of registers. -/
def Hart.setTags (h : Hart) (lo hi : VIdx) (t : Tag) : Hart :=
  { h with vtags := Vector.ofFn fun n => if lo ≤ n ∧ n ≤ hi then t else h.vtags.get n }

def execVcfgTag (a : SReg) (lo hi : VIdx) (tag : Tag) (s : State) : Out :=
  finish 8 false (do
    let i := Instr.vcfgTag a lo hi tag
    illegalIf (hi < lo) i
    let c ← newVcfg i a
    touch ((List.finRange 64).filter (fun n => lo ≤ n ∧ n ≤ hi))
    operandIf (tag == .e8m0 && !(lo == 1 && hi == 1))
    onHart fun h => { (h.setTags lo hi tag).vdone with vcfg := c }) s

def execVtag (vd : VIdx) (tag : Tag) (s : State) : Out :=
  finish 8 false (do
    touch [vd]
    operandIf (!e8m0Ok vd tag)
    onHart fun h => (h.setTag vd tag).vdone) s

end Sys2Proof.Machine
end

