-- ==== Sys2Proof/Machine/Dispatch.lean ====
section
/-! DEFINITION. The dispatch of an instruction, or of another agent's step, to its meaning: one arm a constructor. -/
namespace Sys2Proof.Machine
open Sys2Proof

def exec (i : Instr) (s : State) : Host.Outcome State Fault Refusal :=
  match i with
  | .add d a b => Sys2Proof.Machine.execAdd d a b s
  | .sub d a b => Sys2Proof.Machine.execSub d a b s
  | .and d a b => Sys2Proof.Machine.execAnd d a b s
  | .or d a b => Sys2Proof.Machine.execOr d a b s
  | .xor d a b => Sys2Proof.Machine.execXor d a b s
  | .sll d a b => Sys2Proof.Machine.execSll d a b s
  | .srl d a b => Sys2Proof.Machine.execSrl d a b s
  | .sra d a b => Sys2Proof.Machine.execSra d a b s
  | .slt d a b => Sys2Proof.Machine.execSlt d a b s
  | .sltu d a b => Sys2Proof.Machine.execSltu d a b s
  | .min d a b => Sys2Proof.Machine.execMin d a b s
  | .max d a b => Sys2Proof.Machine.execMax d a b s
  | .mul d a b => Sys2Proof.Machine.execMul d a b s
  | .mulh d a b => Sys2Proof.Machine.execMulh d a b s
  | .mulhu d a b => Sys2Proof.Machine.execMulhu d a b s
  | .div d a b => Sys2Proof.Machine.execDiv d a b s
  | .divu d a b => Sys2Proof.Machine.execDivu d a b s
  | .rem d a b => Sys2Proof.Machine.execRem d a b s
  | .remu d a b => Sys2Proof.Machine.execRemu d a b s
  | .clz d a => Sys2Proof.Machine.execClz d a s
  | .ctz d a => Sys2Proof.Machine.execCtz d a s
  | .popc d a => Sys2Proof.Machine.execPopc d a s
  | .addi d a imm => Sys2Proof.Machine.execAddi d a imm s
  | .andi d a imm => Sys2Proof.Machine.execAndi d a imm s
  | .ori d a imm => Sys2Proof.Machine.execOri d a imm s
  | .xori d a imm => Sys2Proof.Machine.execXori d a imm s
  | .slti d a imm => Sys2Proof.Machine.execSlti d a imm s
  | .slli d a sh => Sys2Proof.Machine.execSlli d a sh s
  | .srli d a sh => Sys2Proof.Machine.execSrli d a sh s
  | .srai d a sh => Sys2Proof.Machine.execSrai d a sh s
  | .lih d imm => Sys2Proof.Machine.execLih d imm s
  | .addpc d imm => Sys2Proof.Machine.execAddpc d imm s
  | .ld sz d a off => Sys2Proof.Machine.execLd sz d a off s
  | .ldz sz d a off => Sys2Proof.Machine.execLdz sz d a off s
  | .st sz b a off => Sys2Proof.Machine.execSt sz b a off s
  | .beq a b off => Sys2Proof.Machine.execBeq a b off s
  | .bne a b off => Sys2Proof.Machine.execBne a b off s
  | .blt a b off => Sys2Proof.Machine.execBlt a b off s
  | .bge a b off => Sys2Proof.Machine.execBge a b off s
  | .bltu a b off => Sys2Proof.Machine.execBltu a b off s
  | .bgeu a b off => Sys2Proof.Machine.execBgeu a b off s
  | .jal d off => Sys2Proof.Machine.execJal d off s
  | .jalr d a imm => Sys2Proof.Machine.execJalr d a imm s
  | .amoAdd sc sz d a b => Sys2Proof.Machine.execAmoAdd sc sz d a b s
  | .amoAnd sc sz d a b => Sys2Proof.Machine.execAmoAnd sc sz d a b s
  | .amoOr sc sz d a b => Sys2Proof.Machine.execAmoOr sc sz d a b s
  | .amoXor sc sz d a b => Sys2Proof.Machine.execAmoXor sc sz d a b s
  | .amoMin sc sz d a b => Sys2Proof.Machine.execAmoMin sc sz d a b s
  | .amoMax sc sz d a b => Sys2Proof.Machine.execAmoMax sc sz d a b s
  | .amoMinn sc sz d a b => Sys2Proof.Machine.execAmoMinn sc sz d a b s
  | .amoMaxn sc sz d a b => Sys2Proof.Machine.execAmoMaxn sc sz d a b s
  | .amoSwap sc sz d a b => Sys2Proof.Machine.execAmoSwap sc sz d a b s
  | .amoCas sc sz d a b => Sys2Proof.Machine.execAmoCas sc sz d a b s
  | .amoFadd sc sz d a b => Sys2Proof.Machine.execAmoFadd sc sz d a b s
  | .csrr d c => Sys2Proof.Machine.execCsrr d c s
  | .csrw c a => Sys2Proof.Machine.execCsrw c a s
  | .csrs c a => Sys2Proof.Machine.execCsrs c a s
  | .csrc c a => Sys2Proof.Machine.execCsrc c a s
  | .vatpWrite v => Sys2Proof.Machine.execVatpWrite v s
  | .vgateWrite v => Sys2Proof.Machine.execVgateWrite v s
  | .contextRegisterWrite r v => Sys2Proof.Machine.execContextRegisterWrite r v s
  | .loopn a len => Sys2Proof.Machine.execLoopn a len s
  | .qrd d => Sys2Proof.Machine.execQrd d s
  | .drain dispatch ret store engine => Sys2Proof.Machine.execDrain dispatch ret store engine s
  | .trap code => Sys2Proof.Machine.execTrap code s
  | .eret => Sys2Proof.Machine.execEret s
  | .ebreak code => Sys2Proof.Machine.execEbreak code s
  | .part a => Sys2Proof.Machine.execPart a s
  | .launch a => Sys2Proof.Machine.execLaunch a s
  | .hyield => Sys2Proof.Machine.execHyield s
  | .hwait a => Sys2Proof.Machine.execHwait a s
  | .hexit => Sys2Proof.Machine.execHexit s
  | .fenceArrive sc b => Sys2Proof.Machine.execFenceArrive sc b s
  | .bwait b => Sys2Proof.Machine.execBwait b s
  | .ppt mask => Sys2Proof.Machine.execPpt mask s
  | .fence sc er ew lr lw => Sys2Proof.Machine.execFence sc er ew lr lw s
  | .clean a => Sys2Proof.Machine.execClean a s
  | .flush a => Sys2Proof.Machine.execFlush a s
  | .inval a => Sys2Proof.Machine.execInval a s
  | .iinv a => Sys2Proof.Machine.execIinv a s
  | .fetchb => Sys2Proof.Machine.execFetchb s
  | .ewait n a => Sys2Proof.Machine.execEwait n a s
  | .epoll d n => Sys2Proof.Machine.execEpoll d n s
  | .ecancel d n => Sys2Proof.Machine.execEcancel d n s
  | .convoyHeader units => Sys2Proof.Machine.execConvoyHeader units s
  | .vsetvl d a tag => Sys2Proof.Machine.execVsetvl d a tag s
  | .vcfg a => Sys2Proof.Machine.execVcfg a s
  | .vcfgTag a lo hi tag => Sys2Proof.Machine.execVcfgTag a lo hi tag s
  | .vtag vd tag => Sys2Proof.Machine.execVtag vd tag s
  | .vadd sat o => Sys2Proof.Machine.execVadd sat o s
  | .vsub sat o => Sys2Proof.Machine.execVsub sat o s
  | .vrsub sat o => Sys2Proof.Machine.execVrsub sat o s
  | .vmul o => Sys2Proof.Machine.execVmul o s
  | .vmulh o => Sys2Proof.Machine.execVmulh o s
  | .vdiv o => Sys2Proof.Machine.execVdiv o s
  | .vrem o => Sys2Proof.Machine.execVrem o s
  | .vmin o => Sys2Proof.Machine.execVmin o s
  | .vmax o => Sys2Proof.Machine.execVmax o s
  | .vand o => Sys2Proof.Machine.execVand o s
  | .vor o => Sys2Proof.Machine.execVor o s
  | .vxor o => Sys2Proof.Machine.execVxor o s
  | .vsll o => Sys2Proof.Machine.execVsll o s
  | .vsrl o => Sys2Proof.Machine.execVsrl o s
  | .vsra o => Sys2Proof.Machine.execVsra o s
  | .vfma o => Sys2Proof.Machine.execVfma o s
  | .vfms o => Sys2Proof.Machine.execVfms o s
  | .vfnma o => Sys2Proof.Machine.execVfnma o s
  | .vabs o => Sys2Proof.Machine.execVabs o s
  | .vneg o => Sys2Proof.Machine.execVneg o s
  | .vsqrt o => Sys2Proof.Machine.execVsqrt o s
  | .vrsqrte o => Sys2Proof.Machine.execVrsqrte o s
  | .vrcpe o => Sys2Proof.Machine.execVrcpe o s
  | .vexp2 o => Sys2Proof.Machine.execVexp2 o s
  | .vmv o => Sys2Proof.Machine.execVmv o s
  | .vid vd m => Sys2Proof.Machine.execVid vd m s
  | .vcmpEq o => Sys2Proof.Machine.execVcmpEq o s
  | .vcmpNe o => Sys2Proof.Machine.execVcmpNe o s
  | .vcmpLt o => Sys2Proof.Machine.execVcmpLt o s
  | .vcmpLe o => Sys2Proof.Machine.execVcmpLe o s
  | .vcmpGt o => Sys2Proof.Machine.execVcmpGt o s
  | .vcmpGe o => Sys2Proof.Machine.execVcmpGe o s
  | .vcmpUo o => Sys2Proof.Machine.execVcmpUo o s
  | .mand o => Sys2Proof.Machine.execMand o s
  | .mor o => Sys2Proof.Machine.execMor o s
  | .mxor o => Sys2Proof.Machine.execMxor o s
  | .mnot o => Sys2Proof.Machine.execMnot o s
  | .vmerge o => Sys2Proof.Machine.execVmerge o s
  | .vcvt sat adv tag o => Sys2Proof.Machine.execVcvt sat adv tag o s
  | .vcvts sat adv tag o => Sys2Proof.Machine.execVcvts sat adv tag o s
  | .vslideup o => Sys2Proof.Machine.execVslideup o s
  | .vslidedn o => Sys2Proof.Machine.execVslidedn o s
  | .vrgather o => Sys2Proof.Machine.execVrgather o s
  | .vcompress o => Sys2Proof.Machine.execVcompress o s
  | .vzip hi o => Sys2Proof.Machine.execVzip hi o s
  | .vunzip hi o => Sys2Proof.Machine.execVunzip hi o s
  | .vtrn hi o => Sys2Proof.Machine.execVtrn hi o s
  | .vredsum o => Sys2Proof.Machine.execVredsum o s
  | .vredmax o => Sys2Proof.Machine.execVredmax o s
  | .vredmin o => Sys2Proof.Machine.execVredmin o s
  | .vredand o => Sys2Proof.Machine.execVredand o s
  | .vredor o => Sys2Proof.Machine.execVredor o s
  | .vredxor o => Sys2Proof.Machine.execVredxor o s
  | .vscanAdd o => Sys2Proof.Machine.execVscanAdd o s
  | .vscanMax o => Sys2Proof.Machine.execVscanMax o s
  | .vscanMin o => Sys2Proof.Machine.execVscanMin o s
  | .vmvxs va src m => Sys2Proof.Machine.execVmvxs va src m s
  | .vmvsx vd s' m => Sys2Proof.Machine.execVmvsx vd s' m s
  | .mpop va m => Sys2Proof.Machine.execMpop va m s
  | .mfirst va m => Sys2Proof.Machine.execMfirst va m s
  | .vtopk o => Sys2Proof.Machine.execVtopk o s
  | .vbkt o => Sys2Proof.Machine.execVbkt o s
  | .vselge o => Sys2Proof.Machine.execVselge o s
  | .vdec n vd va vb => Sys2Proof.Machine.execVdec n vd va vb s
  | .vlut n vd va m => Sys2Proof.Machine.execVlut n vd va m s
  | .ctblW n va => Sys2Proof.Machine.execCtblW n va s
  | .ctblSwap n => Sys2Proof.Machine.execCtblSwap n s
  | .vld o => Sys2Proof.Machine.execVld o s
  | .vst o => Sys2Proof.Machine.execVst o s
  | .vldq o s' => Sys2Proof.Machine.execVldq o s' s
  | .vstq o s' => Sys2Proof.Machine.execVstq o s' s
  | .vlds o s' => Sys2Proof.Machine.execVlds o s' s
  | .vsts o s' => Sys2Proof.Machine.execVsts o s' s
  | .vldx o vb => Sys2Proof.Machine.execVldx o vb s
  | .vldxo o vb => Sys2Proof.Machine.execVldxo o vb s
  | .vstx o vb => Sys2Proof.Machine.execVstx o vb s
  | .vstxo o vb => Sys2Proof.Machine.execVstxo o vb s
  | .vldff o => Sys2Proof.Machine.execVldff o s
  | .vsredAdd o vb => Sys2Proof.Machine.execVsredAdd o vb s
  | .vsredMax o vb => Sys2Proof.Machine.execVsredMax o vb s
  | .vsredMin o vb => Sys2Proof.Machine.execVsredMin o vb s
  | .vsredOr o vb => Sys2Proof.Machine.execVsredOr o vb s
  | .vpref base off vb m => Sys2Proof.Machine.execVpref base off vb m s
  | .vmstore o vb => Sys2Proof.Machine.execVmstore o vb s
  | .vamoAdd o => Sys2Proof.Machine.execVamoAdd o s
  | .vamoAnd o => Sys2Proof.Machine.execVamoAnd o s
  | .vamoOr o => Sys2Proof.Machine.execVamoOr o s
  | .vamoXor o => Sys2Proof.Machine.execVamoXor o s
  | .vamoMin o => Sys2Proof.Machine.execVamoMin o s
  | .vamoMax o => Sys2Proof.Machine.execVamoMax o s
  | .vamoMinn o => Sys2Proof.Machine.execVamoMinn o s
  | .vamoMaxn o => Sys2Proof.Machine.execVamoMaxn o s
  | .vamoSwap o => Sys2Proof.Machine.execVamoSwap o s
  | .vamoFadd o => Sys2Proof.Machine.execVamoFadd o s
  | .vamooAdd o => Sys2Proof.Machine.execVamooAdd o s
  | .vamooAnd o => Sys2Proof.Machine.execVamooAnd o s
  | .vamooOr o => Sys2Proof.Machine.execVamooOr o s
  | .vamooXor o => Sys2Proof.Machine.execVamooXor o s
  | .vamooMin o => Sys2Proof.Machine.execVamooMin o s
  | .vamooMax o => Sys2Proof.Machine.execVamooMax o s
  | .vamooMinn o => Sys2Proof.Machine.execVamooMinn o s
  | .vamooMaxn o => Sys2Proof.Machine.execVamooMaxn o s
  | .vamooSwap o => Sys2Proof.Machine.execVamooSwap o s
  | .vamooFadd o => Sys2Proof.Machine.execVamooFadd o s
  | .fld f base off => Sys2Proof.Machine.execFld f base off s
  | .fst f base off => Sys2Proof.Machine.execFst f base off s
  | .fldlvl f base off va => Sys2Proof.Machine.execFldlvl f base off va s
  | .flen f s' => Sys2Proof.Machine.execFlen f s' s
  | .finterMul fd fa fb => Sys2Proof.Machine.execFinterMul fd fa fb s
  | .finterAdd fd fa fb => Sys2Proof.Machine.execFinterAdd fd fa fb s
  | .funionAdd fd fa fb => Sys2Proof.Machine.execFunionAdd fd fa fb s
  | .funionMax fd fa fb => Sys2Proof.Machine.execFunionMax fd fa fb s
  | .funionOr fd fa fb => Sys2Proof.Machine.execFunionOr fd fa fb s
  | .fmerge fd fa fb => Sys2Proof.Machine.execFmerge fd fa fb s
  | .fsort fd fa => Sys2Proof.Machine.execFsort fd fa s
  | .fcompact fd fa => Sys2Proof.Machine.execFcompact fd fa s
  | .fexpand vd fa => Sys2Proof.Machine.execFexpand vd fa s
  | .fpos fd fa fb => Sys2Proof.Machine.execFpos fd fa fb s
  | .fsend f base off tgt => Sys2Proof.Machine.execFsend f base off tgt s
  | .ixclr => Sys2Proof.Machine.execIxclr s
  | .ixins va vb => Sys2Proof.Machine.execIxins va vb s
  | .ixlook vd va vb => Sys2Proof.Machine.execIxlook vd va vb s
  | .ixaccAdd va vb => Sys2Proof.Machine.execIxaccAdd va vb s
  | .ixaccMax va vb => Sys2Proof.Machine.execIxaccMax va vb s
  | .ixaccMin va vb => Sys2Proof.Machine.execIxaccMin va vb s
  | .ixaccOr va vb => Sys2Proof.Machine.execIxaccOr va vb s
  | .ixdrain f => Sys2Proof.Machine.execIxdrain f s
  | .ixcnt => Sys2Proof.Machine.execIxcnt s
  | .tzero t => Sys2Proof.Machine.execTzero t s
  | .tld t base stride => Sys2Proof.Machine.execTld t base stride s
  | .tst t base stride => Sys2Proof.Machine.execTst t base stride s
  | .tmvTileToVector vd t row => Sys2Proof.Machine.execTmvTileToVector vd t row s
  | .tmvVectorToTile t vd row => Sys2Proof.Machine.execTmvVectorToTile t vd row s
  | .tfill t k => Sys2Proof.Machine.execTfill t k s
  | .tredmax vd t => Sys2Proof.Machine.execTredmax vd t s
  | .opa sat t va vb k => Sys2Proof.Machine.execOpa sat t va vb k s
  | .opas t va vb k => Sys2Proof.Machine.execOpas t va vb k s
  | .opag sat t va vb vx k => Sys2Proof.Machine.execOpag sat t va vb vx k s
  | .tmma sat t base k => Sys2Proof.Machine.execTmma sat t base k s
  | .scoutA vd t va vb => Sys2Proof.Machine.execScoutA vd t va vb s
  | .scoutT k vd va => Sys2Proof.Machine.execScoutT k vd va s
  | .kand k a b => Sys2Proof.Machine.execKand k a b s
  | .kor k a b => Sys2Proof.Machine.execKor k a b s
  | .kpop k => Sys2Proof.Machine.execKpop k s
  | .ecmdCpe vd va m => Sys2Proof.Machine.execEcmdCpe vd va m s
  | .ecmdSte vd va m => Sys2Proof.Machine.execEcmdSte vd va m s
  | .ecmdCoe vd va m => Sys2Proof.Machine.execEcmdCoe vd va m s
  | .savev s' => Sys2Proof.Machine.execSavev s' s
  | .restv s' => Sys2Proof.Machine.execRestv s' s
  | .commandAccept e dwords => Sys2Proof.Machine.execCommandAccept e dwords s
  | .copy id => Sys2Proof.Machine.execCopy id s
  | .levelWalk id => Sys2Proof.Machine.execLevelWalk id s
  | .allReduce id => Sys2Proof.Machine.execAllReduce id s
  | .reduceScatter id => Sys2Proof.Machine.execReduceScatter id s
  | .allGather id => Sys2Proof.Machine.execAllGather id s
  | .broadcast id => Sys2Proof.Machine.execBroadcast id s
  | .xa2a id => Sys2Proof.Machine.execXa2a id s
  | .commandComplete id => Sys2Proof.Machine.execCommandComplete id s
  | .commandFail id code => Sys2Proof.Machine.execCommandFail id code s
  | .trapEntry c eval kind => Sys2Proof.Machine.execTrapEntry c eval kind s
  | .asynchronousFabricError h addr => Sys2Proof.Machine.execAsynchronousFabricError h addr s
  | .issueOpportunity core => Sys2Proof.Machine.execIssueOpportunity core s
  | .admitLaunch => Sys2Proof.Machine.execAdmitLaunch s
  | .createHart => Sys2Proof.Machine.execCreateHart s
  | .preEmption h => Sys2Proof.Machine.execPreEmption h s
  | .escalation h => Sys2Proof.Machine.execEscalation h s
  | .resumption => Sys2Proof.Machine.execResumption s
  | .completionWordWrite id => Sys2Proof.Machine.execCompletionWordWrite id s
  | .arrivalRegister h b => Sys2Proof.Machine.execArrivalRegister h b s
  | .mergedHartEmit quad pool => Sys2Proof.Machine.execMergedHartEmit quad pool s
  | .hwaitWake h => Sys2Proof.Machine.execHwaitWake h s
  | .uncorrectableError sector inHbm => Sys2Proof.Machine.execUncorrectableError sector inHbm s
  | .read p => Sys2Proof.Machine.execRead p s
  | .write p => Sys2Proof.Machine.execWrite p s
  | .atomic p => Sys2Proof.Machine.execAtomic p s
  | .fsendMessage p m => Sys2Proof.Machine.execFsendMessage p m s
  | .collectiveData p key elems => Sys2Proof.Machine.execCollectiveData p key elems s
  | .arrivalIncrement p ctx core slot w => Sys2Proof.Machine.execArrivalIncrement p ctx core slot w s
  | .announce p key => Sys2Proof.Machine.execAnnounce p key s
  | .dataResponse p => Sys2Proof.Machine.execDataResponse p s
  | .completionResponse p => Sys2Proof.Machine.execCompletionResponse p s
  | .errorResponse p => Sys2Proof.Machine.execErrorResponse p s
  | .portNotice p news => Sys2Proof.Machine.execPortNotice p news s
  | .watchNotice p sector => Sys2Proof.Machine.execWatchNotice p sector s
  | .linkRetrain r => Sys2Proof.Machine.execLinkRetrain r s
  | .linkFailure port => Sys2Proof.Machine.execLinkFailure port s
  | .createContext seq ctx vatp evec sw0 sw1 sw2 sw3 base => Sys2Proof.Machine.execCreateContext seq ctx vatp evec sw0 sw1 sw2 sw3 base s
  | .startRootHart seq ctx core flags entry arg cword => Sys2Proof.Machine.execStartRootHart seq ctx core flags entry arg cword s
  | .endHart seq core slot => Sys2Proof.Machine.execEndHart seq core slot s
  | .freezeContext seq ctx => Sys2Proof.Machine.execFreezeContext seq ctx s
  | .thawContext seq ctx => Sys2Proof.Machine.execThawContext seq ctx s
  | .debugHalt seq quad => Sys2Proof.Machine.execDebugHalt seq quad s
  | .endHalt seq quad => Sys2Proof.Machine.execEndHalt seq quad s
  | .attestationReport seq nonce report => Sys2Proof.Machine.execAttestationReport seq nonce report s
  | .destroyContext seq ctx => Sys2Proof.Machine.execDestroyContext seq ctx s
  | .modulePowerLimit seq watts => Sys2Proof.Machine.execModulePowerLimit seq watts s
  | .managementWordWrite who off v => Sys2Proof.Machine.execManagementWordWrite who off v s
  | .hostWrite addr data => Sys2Proof.Machine.execHostWrite addr data s
  | .hostRead addr len => Sys2Proof.Machine.execHostRead addr len s
  | .atomicop addr => Sys2Proof.Machine.execAtomicop addr s
  | .retirementPropose u errs => Sys2Proof.Machine.execRetirementPropose u errs s
  | .retirementApply => Sys2Proof.Machine.execRetirementApply s
  | .thermalThrottle die => Sys2Proof.Machine.execThermalThrottle die s
  | .thermalReset => Sys2Proof.Machine.execThermalReset s
  | .bringUp r => Sys2Proof.Machine.execBringUp r s
  | .receiptAddPacket p => Sys2Proof.Machine.execReceiptAddPacket p s
  | .firmwareUpdate seq head body keys => Sys2Proof.Machine.execFirmwareUpdate seq head body keys s
  | .quadReset quad => Sys2Proof.Machine.execQuadReset quad s

end Sys2Proof.Machine
end

