-- ==== Sys2Proof/Machine/Early.lean ====
section
/-! DEFINITION. Scalar loads that the AP performs while vector instructions before them stand in the dispatch queue (R25, R26, R29): when
one is performed, what it may still pass, and its place in program order. -/
namespace Sys2Proof

/-- A scalar instruction that accesses no memory: the register it writes and those its result depends on (R275). -/
def Instr.flow : Instr → Option (SReg × List SReg)
  | .add d a b | .sub d a b | .and d a b | .or d a b | .xor d a b | .sll d a b | .srl d a b | .sra d a b | .slt d a b | .sltu d a b
  | .min d a b | .max d a b | .mul d a b | .mulh d a b | .mulhu d a b | .div d a b | .divu d a b | .rem d a b | .remu d a b =>
    some (d, [a, b])
  | .clz d a | .ctz d a | .popc d a | .addi d a _ | .andi d a _ | .ori d a _ | .xori d a _ | .slti d a _
  | .slli d a _ | .srli d a _ | .srai d a _ | .jalr d a _ | .vsetvl d a _ => some (d, [a])
  | .lih d _ => some (d, [d])
  | .addpc d _ | .jal d _ | .epoll d _ => some (d, [])
  | .beq _ _ _ | .bne _ _ _ | .blt _ _ _ | .bge _ _ _ | .bltu _ _ _ | .bgeu _ _ _ | .convoyHeader _ | .hyield | .fenceArrive _ _
  | .fetchb => some (0, [])
  | _ => none

/-- Vector instructions that access memory (R29, R283). -/
def Instr.vectorAccess : Instr → Bool
  | .fld _ _ _ | .fst _ _ _ | .fldlvl _ _ _ _ | .fsend _ _ _ _ | .tld _ _ _ | .tst _ _ _ | .tmma _ _ _ _
  | .ecmdCpe _ _ _ | .ecmdSte _ _ _ | .ecmdCoe _ _ _ => true
  | i => i.vclass = some .ldp || i.vclass = some .stp

end Sys2Proof
namespace Sys2Proof.Machine
open Sys2Proof

/-- Vector instructions that the dispatch queue holds (R26). -/
def dispatchDepth : Nat := 64

/-- A scalar load of this device's storage performed now: its value and what its address reaches; no other load is performed early.
DEDUCED, log entry 49: unsafe. -/
def earlyRead (va : Word) (n : Nat) : M EarlyLoad := do
  aligned va n .load
  let s ← get
  let t ← lookupAs s.hart.place.core s.ctx.swin s.ctx.vatp s.hart.mode va .load
  let key ← match s.served t.loc with
    | .cell key _ => pure key
    | .repl q off => pure (replKey q s.scalarDie off)
    | _ => throw .wait
  waitIf (t.uncached || s.readStalls key n || s.poisoned key)
  return ⟨va, n, s.mem.read key n, t, (s.served t.loc).place / 32, false, 0, none, false, s.hasPosted, false, false, []⟩

/-- The current hart performs a load of `n` bytes ahead of its pc (R29). -/
def State.loadEarly (s : State) (va : Word) (n : Nat) : Option State :=
  if s.runnable s.hart ∧ n ∈ [1, 2, 4, 8] then
    match earlyRead va n s with
    | .ok e t => some { t with hart := { t.hart with early := t.hart.early ++ [e] } }
    | .error _ _ => none
  else none

/-- The registers of a list whose value depends on a return, after a write of `d` from `src`. -/
def flowDeps (deps : List SReg) (d : SReg) (src : List SReg) : List SReg :=
  if d != 0 && src.any deps.contains then d :: deps else deps.filter (· != d)

/-- The AP goes on past a vector instruction without waiting for it; it waits for SAVEV and RESTV, and VSETVL and VCFG wait for an
earlier VLDFF (R25, R151, R360). -/
def EarlyLoad.passes (e : EarlyLoad) : Instr → Bool
  | .savev _ | .restv _ => false
  | .vsetvl _ _ _ | .vcfg _ | .vcfgTag _ _ _ _ => !e.trimmed
  | i => i.vclass.isSome && e.passed < dispatchDepth

/-- An early load when the hart completes a vector instruction after it: `begins` says whether that starts a convoy, `owed` how
many returns are owed then. -/
def EarlyLoad.past (e : EarlyLoad) (i : Instr) (begins : Bool) (owed : Nat) : EarlyLoad :=
  let same := match e.behind with
    | none => i.vectorAccess
    | some _ => e.same && !begins
  { e with
    passed := e.passed + 1
    same := same
    behind := if same then some owed else e.behind
    trimmed := e.trimmed || (match i with | .vldff _ => true | _ => false) }

/-- An early load when the hart reads a return into `d`: the return shows an access that the load passed complete where it was
produced in a later convoy (R26, R29). -/
def EarlyLoad.afterQrd (e : EarlyLoad) (d : SReg) : EarlyLoad :=
  match e.behind with
  | none => { e with deps := e.deps.filter (· != d) }
  | some 0 => { e with known := true, deps := if d = 0 then e.deps else d :: e.deps }
  | some (n + 1) => { e with behind := some n, deps := e.deps.filter (· != d) }

/-- Whether a scalar store of `n` bytes writes a byte of an early load. -/
def State.storesOver (s : State) (va : Word) (n : Nat) (e : EarlyLoad) : Bool :=
  match lookupAs s.hart.place.core s.ctx.swin s.ctx.vatp s.hart.mode va .store s with
  | .ok t _ =>
    let k := (s.served t.loc).place
    let l := (s.served e.target.loc).place
    k < l + e.n && l < k + n
  | .error _ _ => true

/-- An early load when the hart completes instruction `i`, which stood before it in program order; none where a load is no longer early:
`i` orders it after what it passed, or after a later access. `s` is the state before `i`. -/
def EarlyLoad.after (i : Instr) (s : State) (e : EarlyLoad) : Option EarlyLoad :=
  match i with
  | .qrd d => some (e.afterQrd d)
  | .st sz _ a off => if s.storesOver (s.scalarAddr a off) (Size.bytes sz) e then none else some { e with stored := true }
  | .csrr d c => if csrAwaits c || c = .vatp then none else some { e with deps := e.deps.filter (· != d) }
  | .csrw c _ => match c with
    | .vatp | .swin _ => none
    | _ => some e
  | .drain dispatch _ _ _ => if dispatch then none else some e
  | .fence sc er ew lr _ =>
    if lr && ((e.known && (er || ew)) || (e.stored && ew && sc != .hart)) then none else some e
  | i =>
    if i.vclass.isSome then
      if e.passes i then
        let e := e.past i (s.startsConvoy i) (s.hart.retq.length + (if i.producesReturn then 1 else 0))
        some (match i.flow with | some (d, src) => { e with deps := flowDeps e.deps d src } | none => e)
      else none
    else i.flow.map fun f => { e with deps := flowDeps e.deps f.1 f.2 }

/-- The early loads of the current hart once it has performed an instruction: as they were while it still waits in it. -/
def State.followEarly (i : Instr) (s s' : State) : State :=
  if s'.hart.early.isEmpty || s'.hart.waiting then s'
  else { s' with hart := { s'.hart with early := s'.hart.early.filterMap (EarlyLoad.after i s) } }

/-- The scalar load at the pc as one that has been performed early: address, register, bytes, and what it makes of its value; none for any
other instruction. -/
def State.loadHere (s : State) : Instr → Option (SReg × Word × SReg × Nat × (Nat → Word))
  | .ld sz d a off => some (a, s.scalarAddr a off, d, Size.bytes sz, signLoaded (Size.bytes sz))
  | .ldz sz d a off => some (a, s.scalarAddr a off, d, Size.bytes sz, BitVec.ofNat 64)
  | _ => none

/-- The early load that the instruction at the pc is, with those performed after it; a load whose address depends on a return that shows
what it passed complete is none (R29). -/
def State.earlyHere (s : State) (i : Instr) : Option (EarlyLoad × List EarlyLoad) :=
  (s.loadHere i).bind fun x =>
    match s.hart.early.dropWhile (fun e => !(e.va = x.2.1 ∧ e.n = x.2.2.2.1)) with
    | e :: rest => if e.deps.contains x.1 then none else some (e, rest)
    | [] => none

/-- The load at the pc takes the value that it was performed with; its watch has seen what was written since (R229). -/
def takeEarly (e : EarlyLoad) (rest : List EarlyLoad) (d : SReg) (ext : Nat → Word) (s : State) : Out :=
  finish 4 false (do
    useLeaf s.ctx.vatp .load e.target
    onHart fun h => { h with watch := some ⟨e.sector, e.written⟩, early := rest.map fun x => { x with deps := x.deps.filter (· != d) } }
    modify fun s => s.setS d (ext e.v)) s

/-- The current hart executes an instruction: one on the code tables in start order (R133, R244); a load that has been performed early takes its value (R29); any other acts now. -/
def execHere (i : Instr) (run : State → Out) (s : State) : Out :=
  if usesTables i && s.tablesBusy then .next (waitHere s)
  else match s.loadHere i, s.earlyHere i with
  | some x, some (e, rest) => takeEarly e rest x.2.2.1 x.2.2.2.2 s
  | _, _ => match run s with
    | .next t => .next (s.followEarly i t)
    | o => o

end Sys2Proof.Machine
end

