-- ==== Sys2Proof/Machine/Turn.lean ====
section
/-! DEFINITION. What moves when the schedule names no one: the device's own steps, and the next hart in turn; and the placing of an
instruction where the next step fetches it. -/
namespace Sys2Proof.Machine
open Sys2Proof

/-! ### The next hart (R241) -/

/-- The number of a slot among all slots: harts of a core ascend by hartid (R241). -/
def Slot.rank (p : Slot) : Nat := 8 * p.core.val + p.slot.val
/-- The hart of the lowest slot among some. -/
def lowestHart (l : List Hart) : Option Hart :=
  l.foldl (fun best h => match best with
    | none => some h
    | some b => if Slot.rank h.place < Slot.rank b.place then some h else some b) none
/-- The next hart that may execute, in turn by ascending slot; it tries again what it waits at. -/
def State.rotate (s : State) : State :=
  let able := s.harts.filter s.runnable
  let above := able.filter fun h => Slot.rank s.hart.place < Slot.rank h.place
  let t := (((lowestHart above).orElse fun _ => lowestHart able).bind fun h => s.turnTo h.place).getD s
  { t with hart := { t.hart with waiting := false } }

/-- The AP of the current hart's core serves its harts one instruction each, in turn by ascending hartid among those that have one ready
(R241). -/
def State.apTurn (s : State) : State :=
  let ready := (s.onCore s.hart.place.core.val).filter fun h => s.runnable h && !h.waiting
  let above := ready.filter fun h => Slot.rank s.hart.place < Slot.rank h.place
  (((lowestHart above).orElse fun _ => lowestHart ready).bind fun h => s.turnTo h.place).getD s
/-- What follows an instruction of a hart: the next hart of its core. -/
def thenNext : Out → Out
  | .next t => .next t.apTurn
  | o => o

/-! ### The device's own steps -/

/-- A step that the device may take of itself; none where it cannot. -/
abbrev Move := State → Option State

/-- The step of an engine on a command whose data is still to be moved. -/
def commandMove (c : Cmd) : Move :=
  match c.engine, c.job.op with
  | .coe, 0 => engineStep c.id (Cmd.isColl 0) moveColl
  | .coe, 1 => engineStep c.id (Cmd.isColl 1) moveColl
  | .coe, 2 => engineStep c.id (Cmd.isColl 2) moveColl
  | .coe, 3 => engineStep c.id (Cmd.isColl 3) moveColl
  | .coe, _ => engineStep c.id Cmd.isExchange moveXa2a
  | .ste, 1 => engineStep c.id Cmd.isLevelWalk moveWalk
  | _, _ => engineStep c.id Cmd.isCopy moveCopy

/-- The end of a command whose data has moved. -/
def commandEnd (c : Cmd) : Move := fun s => s.endWith c.id fun _ => true

/-- The arrivals of a hart that have not registered. -/
def arrivalMoves (h : Hart) : List Move :=
  (List.finRange 16).filterMap fun b =>
    match h.arrivals.get b with
    | some a => if a.registered then none else some (fun s => s.registerArrival h.place b)
    | none => none

/-- A pre-emption that has been requested. -/
def preemptMoves (h : Hart) : List Move :=
  if h.preempt then [fun s => s.preempted h.place, fun s => s.escalated h.place] else []

/-- A message that has come in and waits is performed. -/
def heldMove : Move := fun s =>
  match s.serveFirst s.fabric.held with
  | (t, some _) => some t
  | _ => none

/-- The steps that the device may take of itself, in the order in which this model takes them. -/
def State.moves (s : State) : List Move :=
  s.cmds.flatMap (fun c => [commandMove c, commandEnd c])
    ++ s.msgs.map (fun m s => s.deliverOwn m s.hart.place)
    ++ s.fabric.held.map (fun _ => heldMove)
    ++ (s.fabric.outstanding.filter s.fabric.failedStore).map (fun o s => if s.fabric.outstanding.contains o then s.raiseFailed o else none)
    ++ (s.harts ++ s.saved.map (·.hart)).flatMap arrivalMoves
    ++ s.launches.map (fun l s => s.writeCompletion l.id)
    ++ s.harts.flatMap preemptMoves
    ++ (List.finRange 6).flatMap (fun q => (rangeFrom 0 4).map (fun n s => s.emitMerged q n))
    ++ [dispatch resuming, dispatch begunLaunch, dispatch freshLaunch, State.runTaken, State.applyRetirements]

/-- A turn of the device: each step that it may take of itself, once, and then the next hart. No step that can be taken is passed
over for ever, and no hart that can execute (R236).
DESIGN CHOICE, log entry 2: unsafe with the empty schedule. -/
def State.deviceTurn (s : State) : State :=
  State.rotate { s.moves.foldl (fun s f => (f s).getD s) s with ran := 0 }

/-! ### Placing an instruction where the next step fetches it -/

/-- The current hart fetches the parcel at an address ahead of its pc, along any path; it holds up to 64 (R267). -/
def State.fetchAhead (s : State) (va : Word) : Option State :=
  if s.runnable s.hart ∧ va.toNat % 4 = 0 then
    match fetchParcel va s with
    | .ok p t => some { t with hart := { t.hart with ahead := ((va, p) :: t.hart.ahead.filter (fun e => e.1 != va)).take 64 } }
    | .error _ _ => none
  else none

/-- The storage of a byte range of local memory holds these bytes in memory and in the L2. -/
def State.placeBytes (s : State) (pa : Nat) : List Byte → State
  | [] => s
  | b :: t =>
    let key := localKey pa
    State.placeBytes { s with mem := s.mem.set key b, l2 := s.l2.set key b, poison := s.poison.filter (· != key / 32) } (pa + 1) t

/-- A hart that is ready to fetch at a local address in bare mode, and to start a convoy: what a loader sets so that a placed program
runs.
DEDUCED, log entry 15: safe. -/
def State.ready (s : State) : State :=
  let h := s.hart
  let pc := if h.pc.toNat + 64 < Config.localBytes then h.pc &&& ~~~3#64 else 0
  { s with
    hart := { h.settled with status := .resident, pc := pc, loop := none, covered := none, ahead := [], early := [], issue := true }
    ctxs := s.ctxs.set h.ctx { s.ctxs.get h.ctx with live := true, frozen := false, vatp := 0, swin := .replicate 4 0 }
    cores := s.cores.set h.place.core { s.cores.get h.place.core with il1 := [] }
    tlb := []
    locks := []
    cmds := s.cmds.map (fun c => { c with owned := [], rsbSrc := none, rsbDst := none })
    haltedQuads := s.haltedQuads.filter (· != quadOfCore h.place.core)
    fabric := { s.fabric with outstanding := s.fabric.outstanding.filter (fun o => o.posted || o.born != h.born || o.cmd != none) }
    schedule := []
    ran := 0 }

end Sys2Proof.Machine
end

