-- ==== Sys2Proof/Machine/Step.lean ====
section
/-! DEFINITION. One step of the device. -/
namespace Sys2Proof.Machine
open Sys2Proof

/-- The current hart executes the instruction of two parcels; words that decode to none take the illegal-instruction trap with the first
parcel in eval (R72, R73). -/
def runParcels (p : Parcel × Parcel) (begins : Bool) (s : State) : Out :=
  match decode p.1 p.2 with
  | .error _ => trapNow .illegal (BitVec.ofNat 64 p.1.toNat) .none s
  | .ok i =>
    if begins && s.startsConvoy i && !s.hart.issue then .next ((s.opportunity s.hart.place.core).getD s.deviceTurn)
    else execHere i (exec i) (if begins then s.begin p i else s)

/-- The current hart goes on with the instruction that it has begun, or fetches its next one: a convoy starts at an issue opportunity of
the core at which this hart is chosen (R241, R302). -/
def runHart (s : State) : Out :=
  match s.hart.parcels with
  | some p => runParcels p false s
  | none =>
    match fetchInstr s with
    | .error e s' => .next (leave e false s s')
    | .ok p s' => runParcels p true s'

/-- Instructions of a core after which the device and the other cores have their turn, where the schedule names no one. -/
def turnLength : Nat := 15

/-- One step: the schedule's next move, or the current hart's next instruction, after which the next hart of its core is served (R241); where
the hart waits, or its core has run for a turn, the device and the next hart have theirs. -/
def step (s : State) : Host.Outcome State Fault Refusal :=
  match s.schedule with
  | .event i :: rest => if i.isEvent then exec i { s with schedule := rest } else .fault .notAnEvent
  | .turn h :: rest =>
    let t := { s with schedule := rest }
    .next (((t.turnTo h).map fun t => { t with hart := { t.hart with waiting := false } }).getD t)
  | .ahead va :: rest =>
    let t := { s with schedule := rest }
    .next ((t.fetchAhead va).getD t)
  | .early va n :: rest =>
    let t := { s with schedule := rest }
    .next ((t.loadEarly va n).getD t)
  | .evict line :: rest => .next ({ s with schedule := rest }.drawBack (line * 128))
  | .castOut line :: rest => .next ({ s with schedule := rest }.castOut line)
  | [] =>
    if s.runnable s.hart && !s.hart.waiting && s.ran < turnLength then thenNext (runHart { s with ran := s.ran + 1 })
    else .next s.deviceTurn

/-- `s` with an instruction stored where `step` fetches its next one. -/
def State.withFetchWord (s : State) (nbits w : Nat) : State :=
  let r := s.ready
  r.placeBytes r.hart.pc.toNat (bytesOf (w % 2 ^ nbits) 8)

end Sys2Proof.Machine
end

