-- ==== Sys2Proof/Safety.lean ====
section
/-! DEFINITION. The terms that claims use: safe runs, what a step leaves as it was, and the states in which an access goes
straight to local memory. -/
namespace Sys2Proof.Safety
open Sys2Proof Sys2Proof.Machine

/-- A step that gives a next state. -/
def Goes (s : State) : Prop := ∃ t, step s = .next t

/-- `n` steps from a state, all giving a next state. -/
def SafeRun (n : Nat) (s : State) : Prop := ∃ t, Sys2Proof.core.run n s = .next t

/-! ### What is left as it was -/

/-- Nothing outside the current hart changes. -/
def OnlyHart (s t : State) : Prop := t = { s with hart := t.hart }
/-- Every byte of memory reads as before. -/
def BytesKept (s t : State) : Prop := ∀ a, t.mem.get a = s.mem.get a
/-- Every byte of memory that is not one of those named reads as before. -/
def BytesKeptBut (p : Nat → Prop) (s t : State) : Prop := ∀ a, ¬ p a → t.mem.get a = s.mem.get a
/-- A storage number lies in the `n` bytes from `k`. -/
def In (k n a : Nat) : Prop := k ≤ a ∧ a < k + n
/-- Every scalar register but those of the list reads as before. -/
def ScalarsKept (rs : List SReg) (h k : Hart) : Prop := ∀ r, r ∉ rs → k.getS r = h.getS r
/-- Every vector register but those of the list keeps its bits and its tag. -/
def VectorsKept (rs : List VIdx) (h k : Hart) : Prop :=
  ∀ r, r ∉ rs → k.vregs.get r = h.vregs.get r ∧ k.vtags.get r = h.vtags.get r

/-- `h` at the pc of `k`, with `k`'s loop state and its account of the instruction under way: what every instruction may move. -/
def moved (h k : Hart) : Hart :=
  { h with pc := k.pc, loop := k.loop, covered := k.covered, prog := k.prog, waiting := k.waiting, answers := k.answers,
           begun := k.begun, underway := k.underway, parcels := k.parcels, held := k.held, counted := k.counted, issue := k.issue,
           offer := k.offer, locking := k.locking, cancelling := k.cancelling, canCount := k.canCount }

/-- The instruction at the pc has not begun: nothing is kept of it (R17, R290, R336). -/
def Unbegun (h : Hart) : Prop :=
  h.answers = [] ∧ h.begun = none ∧ h.underway = false ∧ h.held = [] ∧ h.counted = [] ∧ h.offer = none ∧ h.locking = none
    ∧ h.cancelling = none

/-- `h` with the vector registers, their tags and the flags of `k`, and vstart 0: what a register instruction of the vector
unit may write. -/
def vectorMoved (h k : Hart) : Hart :=
  { h with vregs := k.vregs, vtags := k.vtags, fflags := k.fflags, vstart := 0 }

/-- The memory, the L2's copy and that of HBM4 are in canonical form. -/
def Canonical (s : State) : Prop := s.mem.wf = true ∧ s.l2.wf = true ∧ s.hbm.wf = true

/-! ### States in which nothing stands in the way of an access -/

/-- Every register bank of a hart is on. -/
def BanksOn (h : Hart) : Prop := ∀ b, (h.vgate.get b).st = .on

/-- The current hart translates nothing: its context is in bare mode and no scratch window holds the address. -/
def Bare (s : State) (va : Word) : Prop := s.ctx.vatp.toNat / 2 ^ 60 = 0 ∧ findWindow s.ctx.swin va = none

/-- `n` bytes from an address are plain local memory in one page: bare mode, below 3 TiB, no sector of them poisoned, and memory in its
canonical form (which every step keeps: CanonicalMemoryIsKept). -/
def Plain (s : State) (va : Word) (n : Nat) : Prop :=
  s.mem.wf = true ∧ Bare s va ∧ va.toNat + n ≤ localTop ∧ va.toNat % 4096 + n ≤ 4096
    ∧ ∀ j < n, s.poisoned (localKey va.toNat + j) = false

end Sys2Proof.Safety
end

