-- ==== Sys2Proof/Certificates/Slice0/Obligations.lean ====
section
/-! DEFINITION. The statements: what the rules of spec/ say an instruction, or the machine, does. -/
open Sys2Proof Sys2Proof.Machine Sys2Proof.Safety

/-! ### Integer instructions -/

/-- `i` writes `d` with a word of which `p` holds, writes nothing else, and goes on at the next parcel. -/
def Sys2Proof.Safety.Yields (i : Instr) (s : State) (d : SReg) (p : Word → Prop) : Prop :=
  ∃ v, p v ∧ exec i s = .next (retire 4 (s.setS d v))

/-- The integer instructions, branches and jumps, with the register each may write. -/
def Sys2Proof.Safety.scalarTarget : Instr → Option SReg
  | .add d _ _ | .sub d _ _ | .and d _ _ | .or d _ _ | .xor d _ _ | .sll d _ _ | .srl d _ _ | .sra d _ _ | .slt d _ _
  | .sltu d _ _ | .min d _ _ | .max d _ _ | .mul d _ _ | .mulh d _ _ | .mulhu d _ _ | .div d _ _ | .divu d _ _ | .rem d _ _
  | .remu d _ _ | .clz d _ | .ctz d _ | .popc d _ | .addi d _ _ | .andi d _ _ | .ori d _ _ | .xori d _ _ | .slti d _ _
  | .slli d _ _ | .srli d _ _ | .srai d _ _ | .lih d _ | .addpc d _ | .jal d _ | .jalr d _ _ => some d
  | .beq _ _ _ | .bne _ _ _ | .blt _ _ _ | .bge _ _ _ | .bltu _ _ _ | .bgeu _ _ _ => some 0
  | _ => none

/-- R79, R80. The register-register operations: each writes s[sd] as the tables say, with no trap and no flag, for every pair of
operands; a write to s0 is discarded by `setS`, and nothing but s[sd] and what `retire` moves is written.

R81, R82. The immediate operations, LIH and ADDPC: each writes s[sd] as the tables say, for every operand.

Frame of the integer instructions, the branches and the jumps outside a loop: nothing outside the hart changes, every byte of
memory reads as before, and of the hart only s[sd], the pc and the account of the instruction under way; where JALR traps, the
registers of R346 instead. -/
def Obligations.IntegerResults : Prop :=
  ((∀ (s : State) (d a b : SReg), let x := s.getS a; let y := s.getS b
        Yields (.add d a b) s d (fun v => v.toNat = (x.toNat + y.toNat) % 2 ^ 64)
        ∧ Yields (.sub d a b) s d (fun v => (v.toNat + y.toNat) % 2 ^ 64 = x.toNat)
        ∧ Yields (.and d a b) s d (fun v => ∀ k, v.getLsbD k = (x.getLsbD k && y.getLsbD k))
        ∧ Yields (.or d a b) s d (fun v => ∀ k, v.getLsbD k = (x.getLsbD k || y.getLsbD k))
        ∧ Yields (.xor d a b) s d (fun v => ∀ k, v.getLsbD k = (x.getLsbD k != y.getLsbD k))
        ∧ Yields (.sll d a b) s d (fun v => v.toNat = x.toNat * 2 ^ (y.toNat % 64) % 2 ^ 64)
        ∧ Yields (.srl d a b) s d (fun v => v.toNat = x.toNat / 2 ^ (y.toNat % 64))
        ∧ Yields (.sra d a b) s d (fun v => v.toInt = x.toInt / 2 ^ (y.toNat % 64))
        ∧ Yields (.slt d a b) s d (fun v => v = if x.toInt < y.toInt then 1 else 0)
        ∧ Yields (.sltu d a b) s d (fun v => v = if x.toNat < y.toNat then 1 else 0)
        ∧ Yields (.min d a b) s d (fun v => v.toInt = min x.toInt y.toInt)
        ∧ Yields (.max d a b) s d (fun v => v.toInt = max x.toInt y.toInt)
        ∧ Yields (.mul d a b) s d (fun v => v.toNat = x.toNat * y.toNat % 2 ^ 64)
        ∧ Yields (.mulh d a b) s d (fun v => v.toInt = x.toInt * y.toInt / 2 ^ 64)
        ∧ Yields (.mulhu d a b) s d (fun v => v.toNat = x.toNat * y.toNat / 2 ^ 64)
        ∧ Yields (.div d a b) s d (fun v => if y = 0 then v = 0xFFFFFFFFFFFFFFFF
            else if x.toInt = -2 ^ 63 ∧ y.toInt = -1 then v = 0x8000000000000000 else v.toInt = x.toInt.tdiv y.toInt)
        ∧ Yields (.divu d a b) s d (fun v => if y = 0 then v = 0xFFFFFFFFFFFFFFFF else v.toNat = x.toNat / y.toNat)
        ∧ Yields (.rem d a b) s d (fun v => if y = 0 then v = x
            else if x.toInt = -2 ^ 63 ∧ y.toInt = -1 then v = 0 else v.toInt = x.toInt - y.toInt * x.toInt.tdiv y.toInt)
        ∧ Yields (.remu d a b) s d (fun v => if y = 0 then v = x else v.toNat = x.toNat - y.toNat * (x.toNat / y.toNat))
        ∧ Yields (.clz d a) s d (fun v => v.toNat ≤ 64 ∧ (∀ k < 64, 64 - v.toNat ≤ k → x.getLsbD k = false)
            ∧ (v.toNat < 64 → x.getLsbD (63 - v.toNat) = true))
        ∧ Yields (.ctz d a) s d (fun v => v.toNat ≤ 64 ∧ (∀ k < v.toNat, x.getLsbD k = false)
            ∧ (v.toNat < 64 → x.getLsbD v.toNat = true))
        ∧ Yields (.popc d a) s d (fun v => v.toNat = ((List.range 64).filter x.getLsbD).length))
    ∧ (∀ (s : State) (d a : SReg) (imm : BitVec 15) (sh : Fin 64) (u : BitVec 20),
        let x := s.getS a; let c : Word := imm.signExtend 64
        Yields (.addi d a imm) s d (fun v => v.toNat = (x.toNat + c.toNat) % 2 ^ 64)
        ∧ Yields (.andi d a imm) s d (fun v => ∀ k, v.getLsbD k = (x.getLsbD k && c.getLsbD k))
        ∧ Yields (.ori d a imm) s d (fun v => ∀ k, v.getLsbD k = (x.getLsbD k || c.getLsbD k))
        ∧ Yields (.xori d a imm) s d (fun v => ∀ k, v.getLsbD k = (x.getLsbD k != c.getLsbD k))
        ∧ Yields (.slti d a imm) s d (fun v => v = if x.toInt < imm.toInt then 1 else 0)
        ∧ Yields (.slli d a sh) s d (fun v => v.toNat = x.toNat * 2 ^ sh.val % 2 ^ 64)
        ∧ Yields (.srli d a sh) s d (fun v => v.toNat = x.toNat / 2 ^ sh.val)
        ∧ Yields (.srai d a sh) s d (fun v => v.toInt = x.toInt / 2 ^ sh.val)
        ∧ Yields (.lih d u) s d (fun v => v.toNat = u.toNat * 2 ^ 12)
        ∧ Yields (.addpc d u) s d (fun v => v = BitVec.ofInt 64 (s.hart.pc.toInt + u.toInt * 2 ^ 12))))
  ∧ (∀ (i : Instr) (d : SReg) (s t : State), scalarTarget i = some d → s.hart.loop = none → exec i s = .next t →
      OnlyHart s t ∧ BytesKept s t ∧ VectorsKept [] s.hart t.hart
      ∧ (t.hart = { moved s.hart t.hart with sregs := t.hart.sregs } ∧ ScalarsKept [d] s.hart t.hart
        ∨ ∃ a imm, i = .jalr d a imm ∧ t = takeTrap ⟨.misaligned, s.getS a + imm.signExtend 64, .fetch⟩ s.hart.pc false false s))

/-- R86. A conditional branch goes to pc + 4 × sext(imm12) where its condition holds, else to pc + 4, for every pair of operands.

R87. JAL links and jumps; JALR links and jumps to T, or takes a misaligned-access trap of kind fetch with eval T and writes
neither s[sd] nor the pc before it. -/
def Obligations.BranchesAndJumps : Prop :=
  (∀ (s : State) (a b : SReg) (off : BitVec 12), let x := s.getS a; let y := s.getS b
      let dest (c : Prop) [Decidable c] : Word := BitVec.ofInt 64 (s.hart.pc.toInt + if c then 4 * off.toInt else 4)
      exec (.beq a b off) s = .next (retireTo (dest (x = y)) s)
      ∧ exec (.bne a b off) s = .next (retireTo (dest (x ≠ y)) s)
      ∧ exec (.blt a b off) s = .next (retireTo (dest (x.toInt < y.toInt)) s)
      ∧ exec (.bge a b off) s = .next (retireTo (dest (y.toInt ≤ x.toInt)) s)
      ∧ exec (.bltu a b off) s = .next (retireTo (dest (x.toNat < y.toNat)) s)
      ∧ exec (.bgeu a b off) s = .next (retireTo (dest (y.toNat ≤ x.toNat)) s))
  ∧ (∀ (s : State) (d a : SReg) (off : BitVec 20) (imm : BitVec 15),
      let T : Word := BitVec.ofInt 64 ((s.getS a).toInt + imm.toInt)
      exec (.jal d off) s = .next (retireTo (BitVec.ofInt 64 (s.hart.pc.toInt + 4 * off.toInt)) (s.setS d (s.hart.pc + 4)))
      ∧ (T.toNat % 4 = 0 → exec (.jalr d a imm) s = .next (retireTo T (s.setS d (s.hart.pc + 4))))
      ∧ (T.toNat % 4 ≠ 0 → exec (.jalr d a imm) s = .next (takeTrap ⟨.misaligned, T, .fetch⟩ s.hart.pc false false s)))
/-! ### Scalar memory -/

/-- The `n` bytes of storage from `k` hold `v`, little-endian (R83). -/
def Sys2Proof.Safety.Holds (s : State) (k n v : Nat) : Prop :=
  v < 256 ^ n ∧ ∀ j < n, (s.mem.get (k + j)).toNat = v / 256 ^ j % 256

/-- A number of `n` bytes read as two's complement. -/
def Sys2Proof.Safety.signedOf (n v : Nat) : Int := if 2 * v < 256 ^ n then v else (v : Int) - 256 ^ n

/-- Outside the current hart only memory, its L2 copy, the record of what page-table walks may still read (R269), and the watches
that see a write of these sectors differ. -/
def Sys2Proof.Safety.WritesOnly (qs : List Nat) (s t : State) : Prop :=
  t = { s with hart := t.hart, others := s.others.map (·.noteWrite qs), mem := t.mem, l2 := t.l2, oldEntries := t.oldEntries,
               fabric := (s.noteWrites qs).fabric }

/-- R83. A scalar load of plain memory reads the little-endian bytes at x + sext(imm12) and writes s[sd] sign-extended (LD) or
zero-extended (LDZ); it sets the watch to their sector (R229); nothing else changes. (A load that was performed while vector
instructions before it stood in the dispatch queue, R29, is a matter of the step: StepRunsTheDecodedInstruction.)

R83. A scalar store writes the low bytes of s[sb], little-endian, at x + sext(imm12), and no other byte; every watch on the
sector sees it; the L2 keeps its old bytes (R256); no register changes. -/
def Obligations.ScalarLoadsAndStores : Prop :=
  (∀ (s : State) (sz : Size) (d a : SReg) (off : BitVec 12) (v : Nat),
      let va : Word := BitVec.ofInt 64 ((s.getS a).toInt + off.toInt); let n := Size.bytes sz; let k := localKey va.toNat
      Plain s va n → va.toNat % n = 0 → Unbegun s.hart → s.readStalls k n = false → Holds s k n v →
      let u := { s with hart := { s.hart with watch := some ⟨k / 32, false⟩ } }
      exec (.ld sz d a off) s = .next (retire 4 (u.setS d (BitVec.ofInt 64 (signedOf n v))))
      ∧ exec (.ldz sz d a off) s = .next (retire 4 (u.setS d (BitVec.ofNat 64 v))))
  ∧ (∀ (s : State) (sz : Size) (b a : SReg) (off : BitVec 12),
      let va : Word := BitVec.ofInt 64 ((s.getS a).toInt + off.toInt); let n := Size.bytes sz; let k := localKey va.toNat
      Plain s va n → va.toNat % n = 0 → Unbegun s.hart → s.writeStalls k n = false →
      ∃ u, exec (.st sz b a off) s = .next (retire 4 u)
        ∧ u = { s with hart := { s.hart with held := u.hart.held }, mem := u.mem, oldEntries := u.oldEntries }.noteWrites [k / 32]
        ∧ Holds u k n ((s.getS b).toNat % 256 ^ n) ∧ BytesKeptBut (In k n) s u)

/-- The scalar atomic of an operation. -/
def Sys2Proof.Safety.amoInstr (sc : Scope) (sz : AmoSize) (d a b : SReg) : AmoOp → Instr
  | .add => .amoAdd sc sz d a b | .and => .amoAnd sc sz d a b | .or => .amoOr sc sz d a b | .xor => .amoXor sc sz d a b
  | .min => .amoMin sc sz d a b | .max => .amoMax sc sz d a b | .minn => .amoMinn sc sz d a b | .maxn => .amoMaxn sc sz d a b
  | .swap => .amoSwap sc sz d a b | .cas => .amoCas sc sz d a b | .fadd => .amoFadd sc sz d a b

/-- No atomic waits at a line of those that `p` names, and the current hart's waits nowhere (R295). -/
def Sys2Proof.Safety.NoneWaits (s : State) (p : Nat → Prop) : Prop :=
  ∀ w ∈ s.lineWaits, w.who ≠ .hart s.hart.born ∧ ¬ p w.line

/-- R83, R262, R289, R327, R368. What a scalar load, store or atomic in bare mode takes as a trap, with the address in eval: an
address that is no multiple of the size; one that names nothing; one in a poisoned sector, but for a store.

Readings of the model that it rests on: log entry 19. -/
def Obligations.ScalarAccessTraps : Prop :=
  ∀ (s : State) (sz : Size) (op : AmoOp) (sc : Scope) (az : AmoSize) (d a b : SReg) (off : BitVec 12),
    let va : Word := BitVec.ofInt 64 ((s.getS a).toInt + off.toInt); let n := Size.bytes sz
    let traps (i : Instr) (v : Word) (c : Cause) (k : AccessKind) :=
      exec i s = .next (takeTrap ⟨c, v, k⟩ s.hart.pc false false s)
    (va.toNat % n ≠ 0 → traps (.ld sz d a off) va .misaligned .load ∧ traps (.ldz sz d a off) va .misaligned .load
      ∧ traps (.st sz b a off) va .misaligned .store)
    ∧ (va.toNat % n = 0 → Unbegun s.hart → Bare s va → s.home va.toNat 0 0 = none → traps (.ld sz d a off) va .access .load
      ∧ traps (.ldz sz d a off) va .access .load ∧ traps (.st sz b a off) va .access .store)
    ∧ (va.toNat % n = 0 → Unbegun s.hart → Bare s va → va.toNat < localTop → s.readStalls (localKey va.toNat) n = false →
      s.poisoned (localKey va.toNat) = true →
      traps (.ld sz d a off) va .poison .load ∧ traps (.ldz sz d a off) va .poison .load)
    ∧ (Unbegun s.hart → sc = .hart ∨ s.hasPosted = false →
      let x := s.getS a; let i := amoInstr sc az d a b op
      (x.toNat % AmoSize.bytes az ≠ 0 → traps i x .misaligned .store)
      ∧ (x.toNat % AmoSize.bytes az = 0 → Bare s x → s.home x.toNat 0 0 = none → traps i x .access .store)
      ∧ (x.toNat % AmoSize.bytes az = 0 → Bare s x → hostWindow ≤ x.toNat → x.toNat < hostWindow + 2 ^ 48 → traps i x .access .store)
      ∧ (x.toNat % AmoSize.bytes az = 0 → Bare s x → x.toNat < localTop → s.writeStalls (localKey x.toNat) (AmoSize.bytes az) = false →
        NoneWaits s (· = localKey x.toNat / 128) → s.poisoned (localKey x.toNat) = true → traps i x .poison .store))

/-- What an integer atomic writes over `old`, by the table of R287; none for a CAS whose compare fails. -/
def Sys2Proof.Safety.amoWrites (n old y cmp : Nat) : AmoOp → Option Nat
  | .add => some ((old + y) % 256 ^ n)
  | .and => some (old &&& y)
  | .or => some (old ||| y)
  | .xor => some (old ^^^ y)
  | .min => some (if signedOf n old ≤ signedOf n y then old else y)
  | .max => some (if signedOf n old ≤ signedOf n y then y else old)
  | .minn => some (if old ≤ y then old else y)
  | .maxn => some (if old ≤ y then y else old)
  | .swap | .fadd => some y
  | .cas => if old = cmp then some y else none

/-- The number in a register, or for 16 bytes in the pair that it names (R288). -/
def Sys2Proof.Safety.operandOf (s : State) (r : SReg) (n : Nat) : Nat :=
  if n = 16 then (s.getS r).toNat + 2 ^ 64 * (s.getS (r + 1)).toNat else (s.getS r).toNat % 256 ^ n

/-- R287, R288. A scalar atomic of plain memory, of hart scope or with no earlier store of its hart on its way, in its turn at the
line (R276, R295): the old value goes to s[sd] (or the pair) as the table of sizes says,
the new value to memory and to no other byte; a CAS that fails writes nothing. FADD writes the
rounded sum of R287 and joins its flags; no other operation raises one. The watch is set to the sector, with its written bit clear: the
atomic's own write is no later write to it (the model's reading of R229, log entry 41). -/
def Obligations.AtomicsReturnTheOldValue : Prop :=
  ∀ (s : State) (op : AmoOp) (sc : Scope) (sz : AmoSize) (d a b : SReg) (old : Nat),
    let i := amoInstr sc sz d a b op; let n := AmoSize.bytes sz; let va := s.getS a; let k := localKey va.toNat
    let y := operandOf s b n; let sum := amoApply s.hart.vcfg .fadd (8 * n) old y
    i.wf = true → Plain s va n → va.toNat % n = 0 → s.writeStalls k n = false → NoneWaits s (· = k / 128) → Unbegun s.hart →
    sc = .hart ∨ s.hasPosted = false → Holds s k n old →
    let wrote := if op = .fadd then some (sum.bits % 256 ^ n) else amoWrites n old y (operandOf s d n) op
    let qs := if wrote.isSome then [k / 32] else []
    ∃ u, exec i s = .next (retire 4 u) ∧ WritesOnly qs s u
      ∧ (match wrote with
        | some new => Holds u k n new ∧ BytesKeptBut (In k n) s u
        | none => BytesKept s u)
      ∧ u.hart = { s.hart with sregs := u.hart.sregs, fflags := u.hart.fflags, held := u.hart.held, watch := some ⟨k / 32, false⟩,
                               early := (s.hart.noteWrite qs).early }
      ∧ u.hart.fflags = (if op = .fadd then s.hart.fflags.or sum.fl else s.hart.fflags)
      ∧ ScalarsKept (if n = 16 then [d, d + 1] else [d]) s.hart u.hart
      ∧ (d ≠ 0 → u.getS d = match sz with
        | .w => if op = .minn ∨ op = .maxn ∨ op = .fadd then BitVec.ofNat 64 old else BitVec.ofInt 64 (signedOf 4 old)
        | _ => BitVec.ofNat 64 old)
      ∧ (n = 16 → u.getS (d + 1) = BitVec.ofNat 64 (old / 2 ^ 64))
/-! ### CSRs -/

/-- The fields of a CSR by the maps of R21, R41, R93, R199, R220, R250, R327 and R342: first bit, width, value. -/
def Sys2Proof.Safety.csrFields (s : State) : Csr → List (Nat × Nat × Nat)
  | .vl => [(0, 16, s.hart.vl.toNat)]
  | .vstart => [(0, 16, s.hart.vstart.toNat)]
  | .vprog => [(0, 32, s.hart.cura.toNat), (32, 32, s.hart.curb.toNat)]
  | .vcfg => let c := s.hart.vcfg
    [(0, 2, c.plog.val), (2, 2, edgeCode c.edge), (4, 3, rmCode c.rm), (8, 1, c.fzw.toNat), (9, 1, c.fzh.toNat),
      (10, 1, c.fz8.toNat), (11, 1, c.fz6.toNat), (12, 2, c.blk.val), (16, 8, c.cthr.toNat)]
  | .vgate => ([0, 1, 2, 3, 4, 5, 6, 7] : List (Fin 8)).flatMap fun b =>
    [(4 * b.val, 2, gateCode (s.hart.vgate.get b).st), (4 * b.val + 2, 1, (s.hart.vgate.get b).dead.toNat)]
  | .fflags => let f := s.hart.fflags
    [(0, 1, f.nx.toNat), (1, 1, f.uf.toNat), (2, 1, f.ovf.toNat), (3, 1, f.dz.toNat), (4, 1, f.nv.toNat)]
  | .srseed => [(0, 64, s.hart.srseed.toNat)]
  | .sroff => [(0, 64, s.hart.sroff.toNat)]
  | .kthr => [(0, 32, s.hart.kthr.tau.toNat), (32, 2, kmodeCode s.hart.kthr.mode), (34, 3, s.hart.kthr.topm.val)]
  | .flen n => [(0, 16, (s.hart.flen.get n).toNat)]
  | .vtag n => [(0, 5, tagCode (s.hart.vtags.get n))]
  | .vatp => [(0, 64, s.ctx.vatp.toNat)]
  | .hartid => [(0, 64, s.hart.place.slot.val)]
  | .coreid => [(0, 64, s.coreId s.hart.place.core.val)]
  | .quadid => [(0, 64, s.quadId (s.hart.place.core.val / 32))]
  | .ncores => [(0, 64, s.coreMap.length)]
  | .nquads => [(0, 64, s.quadMap.length)]
  | .ckcount => [(0, 64, s.core.ckcount.toNat)]
  | .swin n => let w := (s.ctx.swin.get n).toNat
    [(0, 1, w % 2), (5, 5, winLog n), (10, 6, s.winLim s.hart.place.core n), (winLog n, 64 - winLog n, w / 2 ^ winLog n)]
  | .evec => [(2, 62, s.ctx.evec.toNat / 4)]
  | .ecause => [(0, 8, s.hart.ecause.toNat)]
  | .epc => [(2, 62, s.hart.epc.toNat / 4)]
  | .eval => [(0, 64, s.hart.eval.toNat)]
  | .estat => let e := s.hart.estat
    [(0, 1, e.tip.toNat), (1, 1, modeN e.pmode), (2, 1, e.async.toNat), (3, 2, kindCode e.kind), (5, 1, e.prog.toNat),
      (6, 1, e.lps.toNat), (7, 5, e.rqs.val), (12, 1, e.fpend.toNat)]
  | .pclass => [(0, 2, s.hart.pclass.val)]
  | .ltmask => [(0, 8, s.hart.ltmask.toNat)]
  | .ctrloc => [(0, 64, s.core.ctrloc.toNat)]
  | .ctrrem => [(0, 64, s.core.ctrrem.toNat)]
  | .ixlive => [(0, 1, s.hart.ixlive.toNat)]

/-- The word of a CSR: its fields in place, every reserved bit zero (R92). -/
def Sys2Proof.Safety.csrWord (s : State) (c : Csr) : Word :=
  BitVec.ofNat 64 ((csrFields s c).foldr (fun f n => f.2.2 * 2 ^ f.1 + n) 0)

/-- The access column of R93 for a read: supervisor mode alone reads vatp and the trap CSRs. -/
def Sys2Proof.Safety.MayRead (m : Mode) : Csr → Prop
  | .vatp | .evec | .ecause | .epc | .eval | .estat => m = .supervisor
  | _ => True

/-- The access column of R93 for a write. -/
def Sys2Proof.Safety.MayWrite (m : Mode) : Csr → Prop
  | .hartid | .coreid | .quadid | .ncores | .nquads | .ckcount => False
  | .vatp | .evec | .ecause | .epc | .eval | .estat | .swin _ | .pclass | .ctrloc | .ctrrem => m = .supervisor
  | _ => True

/-- A value that would place a reserved code in a field (R21, R199, R327), or E8M0 in the tag of a register but v1 (R12). -/
def Sys2Proof.Safety.Reserved (c : Csr) (x : Word) : Prop :=
  match c with
  | .vcfg => x.toNat / 2 ^ 2 % 4 = 3 ∨ 6 ≤ x.toNat / 2 ^ 4 % 8
  | .vgate => ∃ b < 8, x.toNat / 2 ^ (4 * b) % 4 = 3
  | .kthr => x.toNat / 2 ^ 32 % 4 = 3
  | .vtag _ => 20 ≤ x.toNat % 32
  | .vatp => x.toNat / 2 ^ 60 ≠ 0 ∧ x.toNat / 2 ^ 60 ≠ 10
  | _ => False

/-- The three writes of a CSR, each with the value it writes (R92). -/
def Sys2Proof.Safety.csrWritesOf (s : State) (c : Csr) (a : SReg) : List (Instr × Word) :=
  [(.csrw c a, s.getS a), (.csrs c a, csrWord s c ||| s.getS a), (.csrc c a, csrWord s c &&& ~~~s.getS a)]

/-- A field that a write leaves as it is: plog, lsz, lim, and the read-only fields of estat. -/
def Sys2Proof.Safety.readOnlyField : Csr → Nat → Bool
  | .vcfg, lo => lo == 0
  | .swin _, lo => lo == 5 || lo == 10
  | .estat, lo => lo != 1 && lo != 5
  | _, _ => false

/-- R62, R92, R93. CSRR writes s[sd] with the CSR, its reserved bits zero, and changes nothing else; ckcount alone moves on first,
by an amount the model leaves free (the spec fixes no clock). ctrloc and ctrrem read the count after every vector instruction before the
read: R93 does not order them, and that is the model's choice (log entry 46).

R62, R73, R92, R93. A CSR access that the hart's mode does not allow, and a write of a reserved code, by CSRW, CSRS or CSRC, take the
illegal-instruction trap with the first parcel in eval and change nothing; E8M0 in another tag than vtag1 is an operand trap.

Readings of the model that it rests on: log entries 4, 46. -/
def Obligations.CsrReadsOrTraps : Prop :=
  (∀ (s : State) (d : SReg) (c : Csr), MayRead s.hart.mode c →
      (c ≠ .ckcount → exec (.csrr d c) s = .next (retire 4 (s.setS d (csrWord s c))))
      ∧ (∃ v : Word, let u := { s.setCore { s.core with ckcount := v } with free := s.free + 1 }
          exec (.csrr d .ckcount) s = .next (retire 4 (u.setS d v))))
  ∧ (∀ (s : State) (d a : SReg) (c : Csr),
      let traps (i : Instr) (cause : Cause) (eval : Word) := exec i s = .next (takeTrap ⟨cause, eval, .none⟩ s.hart.pc false false s)
      (¬ MayRead s.hart.mode c → traps (.csrr d c) .illegal (firstParcel (.csrr d c)))
      ∧ (¬ MayWrite s.hart.mode c → traps (.csrw c a) .illegal (firstParcel (.csrw c a))
        ∧ traps (.csrs c a) .illegal (firstParcel (.csrs c a)) ∧ traps (.csrc c a) .illegal (firstParcel (.csrc c a)))
      ∧ (MayWrite s.hart.mode c → ∀ i x, (i, x) ∈ csrWritesOf s c a →
        (Reserved c x → traps i .illegal (firstParcel i))
        ∧ (∀ n, c = .vtag n → n ≠ 1 → x.toNat % 32 = 19 → traps i .operand 0)))

/-- What a write of vgate makes of bank `b` by R23: its state and dead bit, and whether its eight registers become zero. -/
def Sys2Proof.Safety.BankWritten (b : Fin 8) (x : Word) (h k : Hart) : Prop :=
  let old := h.vgate.get b; let new := k.vgate.get b; let code := x.toNat / 2 ^ (4 * b.val) % 4
  gateCode new.st = code
  ∧ new.dead = (x.getLsbD (4 * b.val + 2) && !(decide (old.st = .gated) && decide (code ≠ 2)))
  ∧ ∀ r : VIdx, r.val / 8 = b.val → k.vregs.get r = if (old.st = .gated) ↔ code = 2 then h.vregs.get r else 0

/-- R92, R93. CSRW, CSRS and CSRC: the CSR's writable fields take their bits of sa, of the old word or sa, and of the old word and
not sa; its read-only fields keep theirs; no other CSR, register or byte of memory changes. vgate follows.

R22, R23, R93. A write of vgate, by CSRW or as the step of a write that waited, changes each bank as the table says: contents
zero on gating and on leaving the gated state, where dead.b becomes 0, no tag changed and nothing else.

R250, R337, R341, R342. The writes of vatp, evec and swin as steps of their own, in supervisor mode: the register of the
context takes the value, evec without its low two bits, swin its en and its base above lsz; a write of vatp keeps no translation
that is global or tagged with the old or the new asid, no pointer entry tagged with either, and no walk under either reads an entry that
was replaced before; it waits for the stores and accesses that R337 names, and for more (log entry 8); nothing else changes. -/
def Obligations.CsrWrites : Prop :=
  (∀ (s : State) (c : Csr) (a : SReg) (i : Instr) (x : Word),
      (i, x) ∈ csrWritesOf s c a →
      MayWrite s.hart.mode c → ¬ Reserved c x → c ≠ .vgate →
      (c = .vatp → s.inFlight = false) → (∀ n, c = .vtag n → x.toNat % 32 = 19 → n = 1) →
      ∃ u, exec i s = .next (retire 4 u)
        ∧ csrFields u c = (csrFields s c).map (fun f =>
            (f.1, f.2.1, if readOnlyField c f.1 then f.2.2 else x.toNat / 2 ^ f.1 % 2 ^ f.2.1))
        ∧ (∀ c', c' ≠ c → csrFields u c' = csrFields s c')
        ∧ u.hart.sregs = s.hart.sregs ∧ u.hart.vregs = s.hart.vregs ∧ u.hart.pc = s.hart.pc ∧ u.hart.retq = s.hart.retq
        ∧ BytesKept s u ∧ u.l2 = s.l2 ∧ u.others = s.others)
  ∧ ((∀ (s : State) (a : SReg) (v : Word), (∀ b < 8, (s.getS a).toNat / 2 ^ (4 * b) % 4 ≠ 3) → (∀ b < 8, v.toNat / 2 ^ (4 * b) % 4 ≠ 3) →
        (∃ h, exec (.csrw .vgate a) s = .next (retire 4 { s with hart := h })
          ∧ h = { s.hart with vgate := h.vgate, vregs := h.vregs } ∧ ∀ b, BankWritten b (s.getS a) s.hart h)
        ∧ (s.hart.status = .resident → ∃ h, exec (.vgateWrite v) s = .next { s with hart := h }
          ∧ h = { s.hart with vgate := h.vgate, vregs := h.vregs } ∧ ∀ b, BankWritten b v s.hart h))
    ∧ (∀ (s : State) (v : Word) (n : Fin 4), s.hart.status = .resident → s.hart.mode = .supervisor →
        (v.toNat / 2 ^ 60 = 0 ∨ v.toNat / 2 ^ 60 = 10 → s.inFlight = false → ∃ tlb ws old,
          exec (.vatpWrite v) s = .next { s.setCtx { s.ctx with vatp := v } with tlb := tlb, walks := ws, oldEntries := old }
          ∧ (∀ t, t ∈ tlb ↔ t ∈ s.tlb ∧ t.global = false ∧ t.asid.toNat ≠ s.ctx.vatp.toNat / 2 ^ 44 % 2 ^ 15
            ∧ t.asid.toNat ≠ v.toNat / 2 ^ 44 % 2 ^ 15)
          ∧ (∀ w, w ∈ ws ↔ w ∈ s.walks ∧ w.asid.toNat ≠ s.ctx.vatp.toNat / 2 ^ 44 % 2 ^ 15 ∧ w.asid.toNat ≠ v.toNat / 2 ^ 44 % 2 ^ 15)
          ∧ ∀ o ∈ old, ∀ a : BitVec 15,
            a.toNat = s.ctx.vatp.toNat / 2 ^ 44 % 2 ^ 15 ∨ a.toNat = v.toNat / 2 ^ 44 % 2 ^ 15 → a ∈ o.gone)
        ∧ (∃ w : Word, exec (.contextRegisterWrite .evec v) s = .next (s.setCtx { s.ctx with evec := w }) ∧ w.toNat = v.toNat / 4 * 4)
        ∧ (∃ w : Word, exec (.contextRegisterWrite (.swin n) v) s = .next (s.setCtx { s.ctx with swin := s.ctx.swin.set n w })
          ∧ w.toNat = v.toNat % 2 + v.toNat / 2 ^ winLog n * 2 ^ winLog n)))
/-! ### Control -/

/-- The increments of the levels from `m` of a loop to its innermost one, for one register (R90). -/
def Sys2Proof.Safety.incsOf (l : LoopState) (m : Nat) (r : SReg) : Int :=
  ((List.finRange 6).filter (fun k => m ≤ k.val ∧ k.val < l.levels)).foldr
    (fun k n => (l.records.get k).incs.toList.foldr (fun e n => if e.reg = r then e.inc.toInt + n else n) n) 0

/-- A level has no further pass: its count, one more, reaches its trips (R90). -/
def Sys2Proof.Safety.Spent (l : LoopState) (k : Fin 6) : Prop := (l.records.get k).trips.toNat ≤ (l.counters.get k + 1).toNat

/-- R90, R91. When the instruction at the body's last parcel completes with its next pc at bodyend, the innermost level that still has a
pass and every level inside it are applied, that one is counted and those inside it start from zero, and the body runs again; when every
level is spent, all increments are applied, loop mode ends and the pc is bodyend. s0 stays zero.

R86, R91. Otherwise the next pc is where the instruction says. Loop mode goes on as it was where the instruction falls through or
goes to an address inside the body, and ends, with no increment applied, where a branch is taken to an address outside it. Nothing but the
pc, the loop state and the account of the instruction under way changes. It is stated of every pc, inside the body or not: RESTV may
restore an active loop whose body does not hold the pc (R360). -/
def Obligations.WhereExecutionGoesOn : Prop :=
  (∀ (h : Hart) (l : LoopState) (len : Nat), h.loop = some l → l.levels ≤ 6 → h.pc + BitVec.ofNat 64 len = l.stop →
      let k := h.advance len l.stop
      let stepped (m : Nat) := ∀ r, r ≠ 0 → k.getS r = h.getS r + BitVec.ofInt 64 (incsOf l m r)
      (∀ m : Fin 6, m.val < l.levels → ¬ Spent l m → (∀ j : Fin 6, m < j → j.val < l.levels → Spent l j) →
        (∃ cs, k.loop = some { l with counters := cs }
          ∧ ∀ j : Fin 6, cs.get j = if j = m then l.counters.get j + 1
              else if m < j ∧ j.val < l.levels then 0 else l.counters.get j)
        ∧ k.pc = l.start ∧ stepped m ∧ k = { moved h k with sregs := k.sregs })
      ∧ ((∀ j : Fin 6, j.val < l.levels → Spent l j) →
        k.loop = none ∧ k.pc = l.stop ∧ stepped 0 ∧ k = { moved h k with sregs := k.sregs }))
  ∧ (∀ (h : Hart) (len : Nat) (npc : Word), let k := h.advance len npc
      (h.loop = none → k.pc = npc ∧ k.loop = none ∧ k = moved h k)
      ∧ (∀ l, h.loop = some l → ¬ (npc = l.stop ∧ h.pc + BitVec.ofNat 64 len = l.stop) →
        k.pc = npc ∧ k = moved h k
        ∧ k.loop = (if npc = h.pc + BitVec.ofNat 64 len ∨ l.start.toNat ≤ npc.toNat ∧ npc.toNat < l.stop.toNat then some l else none)))

/-- R89, R90, R91. LOOPN with a legal descriptor and body that read without a trap: with every trip count above zero the body is
buffered, the counters start at zero and the body begins; with a zero trip count the body is skipped. `s3` is the state once the
descriptor and the body have been read.

R89, R90. LOOPN takes a misaligned-access trap with D in eval where D is no multiple of 8, and an operand trap where the header
names no levels, more than six, or has a bit set above them. -/
def Obligations.LoopnBuffersItsBodyOrTraps : Prop :=
  (∀ (s s1 s2 s3 : State) (a : SReg) (len : Fin 64) (hdr : Nat) (ds : List Nat) (body : List Parcel),
      let D := s.getS a; let n := hdr % 8; let recs := (List.range n).map fun j => (ds.drop (4 * j)).take 4
      D.toNat % 8 = 0 → readDwords D 1 s = .ok [hdr] s1 → readDwords (D + 8) (4 * n) s1 = .ok ds s2 →
      fetchRun (s.hart.pc + 4) (len.val + 1) s2 = .ok body s3 →
      1 ≤ n → n ≤ 6 → hdr < 8 → (∀ r ∈ recs, levelLegal r = true) → badParcel 64 body = none →
      let stop := s.hart.pc + 4 + BitVec.ofNat 64 (4 * (len.val + 1))
      (0 ∈ recs.map (fun r => r.headD 0 % 2 ^ 32) → exec (.loopn a len) s = .next (retireTo stop s3))
      ∧ (0 ∉ recs.map (fun r => r.headD 0 % 2 ^ 32) → ∃ l : LoopState,
        exec (.loopn a len) s = .next (let t := retireTo (s.hart.pc + 4) s3; { t with hart := { t.hart with loop := some l } })
        ∧ l.levels = n ∧ l.start = s.hart.pc + 4 ∧ l.stop = stop ∧ l.body = body ∧ l.counters = .replicate 6 0
        ∧ ∀ j : Fin 6, j.val < n → ∀ r, recs[j.val]? = some r →
          (l.records.get j).trips.toNat = r.headD 0 % 2 ^ 32
          ∧ ∀ e : Fin 3, ((l.records.get j).incs.get e).reg.val = r.getD (e.val + 1) 0 % 32
            ∧ ((l.records.get j).incs.get e).inc.toNat = r.getD (e.val + 1) 0 / 2 ^ 16 % 2 ^ 48))
  ∧ (∀ (s s1 s2 : State) (a : SReg) (len : Fin 64) (hdr : Nat) (ds : List Nat), let D := s.getS a
      (D.toNat % 8 ≠ 0 → exec (.loopn a len) s = .next (takeTrap ⟨.misaligned, D, .load⟩ s.hart.pc false false s))
      ∧ (D.toNat % 8 = 0 → readDwords D 1 s = .ok [hdr] s1 → readDwords (D + 8) (4 * (hdr % 8)) s1 = .ok ds s2 →
        (hdr % 8 = 0 ∨ 6 < hdr % 8 ∨ 8 ≤ hdr) →
        exec (.loopn a len) s = .next (takeTrap ⟨.operand, 0, .none⟩ s.hart.pc false false
          { s2 with hart := { s2.hart with vregs := s.hart.vregs, vgate := s.hart.vgate } })))

/-- R346. Taking a trap with none in progress: ecause, epc, eval and estat record it, the loop state and the owed returns are set
aside, the watch is cleared, and the hart goes on in supervisor mode at evec; no other register and no memory changes. R347: with
one in progress the hart halts, with the new cause and its registers kept. Loads that it has performed early (log entry 49) are performed anew.

R348. ERET in supervisor mode with a trap in progress and no return owed: the set-aside returns and, where epc lies in its
body, the loop state come back; the watch is cleared, the progress bit, the mode and the pc are those recorded, and no trap is in
progress; a pending fabric error is then taken at that pc. In user mode, with no trap in progress, or with a return owed, it is
illegal.

Readings of the model that it rests on: log entries 9, 49. -/
def Obligations.TakingATrapAndReturning : Prop :=
  (∀ (t : TrapInfo) (epc : Word) (ldst async : Bool) (s : State), let u := takeTrap t epc ldst async s; let h := s.hart; let k := u.hart
      OnlyHart s u
      ∧ (h.estat.tip = false →
        k.ecause = causeCode t.cause ∧ k.epc.toNat = epc.toNat / 4 * 4 ∧ k.eval = t.eval
        ∧ k.estat = { h.estat with
            tip := true, pmode := h.mode, async := async
            kind := if 3 ≤ (causeCode t.cause).toNat ∧ (causeCode t.cause).toNat ≤ 10 ∨ causeCode t.cause = 14 then t.kind else .none
            prog := ldst && decide (causeCode t.cause = 4 ∨ causeCode t.cause = 5 ∨ causeCode t.cause = 6 ∨ causeCode t.cause = 8
              ∨ causeCode t.cause = 10)
            lps := h.loop.isSome, rqs := Fin.ofNat 32 h.retq.length }
        ∧ k.asideLoop = h.loop ∧ k.loop = none ∧ k.asideRet = h.retq ∧ k.retq = [] ∧ k.watch = none
        ∧ k.mode = .supervisor ∧ k.pc.toNat = s.ctx.evec.toNat / 4 * 4
        ∧ k.early = []
        ∧ k = { moved h k with early := k.early, ecause := k.ecause, epc := k.epc, eval := k.eval, estat := k.estat, asideLoop := k.asideLoop,
                               asideRet := k.asideRet, retq := k.retq, watch := k.watch, mode := k.mode })
      ∧ (h.estat.tip = true → k.status = .halted ∧ k.ecause = causeCode t.cause ∧ k.pc = h.pc ∧ k.loop = h.loop
        ∧ k.early = [] ∧ k = { moved h k with early := k.early, status := k.status, ecause := k.ecause }))
  ∧ (∀ (s : State), let h := s.hart
      (h.mode = .supervisor → h.estat.tip = true → h.retq = [] → ∃ k,
        exec .eret s = .next (let t := { s with hart := k }
          if h.estat.fpend then takeTrap ⟨.fabricError, h.fpEval, .store⟩ h.epc false true t else t)
        ∧ k.retq = h.asideRet ∧ k.asideRet = [] ∧ k.asideLoop = none
        ∧ k.loop = (if h.estat.lps then h.asideLoop.filter (fun l => l.start.toNat ≤ h.epc.toNat ∧ h.epc.toNat < l.stop.toNat) else none)
        ∧ k.watch = none ∧ k.prog = h.estat.prog ∧ k.mode = h.estat.pmode ∧ k.pc = h.epc
        ∧ k.estat = { h.estat with tip := false, lps := false, rqs := 0, fpend := false }
        ∧ k = { moved h k with retq := k.retq, asideRet := k.asideRet, asideLoop := k.asideLoop, watch := k.watch, mode := k.mode,
                               estat := k.estat })
      ∧ (h.mode = .user ∨ h.estat.tip = false ∨ h.retq ≠ [] →
        exec .eret s = .next (takeTrap ⟨.illegal, firstParcel .eret, .none⟩ h.pc false false s)))

/-- R343, R346, R349. TRAP takes a system call with imm8 in eval and the next parcel in epc, after the back-edge where it stands
last in a loop body; EBREAK a breakpoint at itself. TRAP_ENTRY takes the trap that it names, at the pc, of a resident hart that may
be stopped; a system call, at the parcel after it.

R346, R347, R385. The asynchronous fabric error of a failed store enters the handler at the pc where no trap is in progress, and
is held pending, with the first address kept, where one is, halted or not. The store leaves the list of those without a response.

Readings of the model that it rests on: log entry 16. -/
def Obligations.TrapInstructionsAndEvents : Prop :=
  (∀ (s : State) (code : BitVec 8) (c : Cause) (eval : Word) (kind : AccessKind),
      let call : TrapInfo := ⟨.systemCall, BitVec.ofNat 64 code.toNat, .none⟩
      (s.hart.estat.tip = false → exec (.trap code) s = .next (takeTrap call (retire 4 s).hart.pc false false (retire 4 s)))
      ∧ (s.hart.estat.tip = true → exec (.trap code) s = .next (takeTrap call s.hart.pc false false s))
      ∧ exec (.ebreak code) s = .next (takeTrap ⟨.breakpoint, BitVec.ofNat 64 code.toNat, .none⟩ s.hart.pc false false s)
      ∧ (s.hart.status = .resident → s.mayTrap s.hart = true →
        exec (.trapEntry c eval kind) s = .next (if c = .systemCall ∧ s.hart.estat.tip = false
          then takeTrap ⟨c, eval, kind⟩ (retire 4 s).hart.pc false false (retire 4 s)
          else takeTrap ⟨c, eval, kind⟩ s.hart.pc (decide (s.classHere = some .ldp ∨ s.classHere = some .stp)) false s)))
  ∧ (∀ (s : State) (addr : Word) (o : OutReq), let h := s.hart
      let r := { s with fabric := { s.fabric with outstanding := s.fabric.outstanding.erase o } }
      (∀ x ∈ s.others, x.place ≠ h.place ∧ x.born ≠ h.born) →
      s.fabric.outstanding.find? (fun x => s.fabric.failedStore x && decide (x.born = h.born) && decide (x.eval = addr)) = some o →
      (h.estat.tip = false → h.status = .resident → r.mayTrap h = true →
        exec (.asynchronousFabricError h.place addr) s = .next (takeTrap ⟨.fabricError, addr, .store⟩ h.pc false true r))
      ∧ (h.estat.tip = true → h.status ≠ .absent → exec (.asynchronousFabricError h.place addr) s = .next { r with hart := { h with
          estat := { h.estat with fpend := true }, fpEval := if h.estat.fpend then h.fpEval else addr } }))

/-! ### Accesses that are translated, or reach scratch or another device -/

/-- An element is active: in [vstart, vl), and taken by the mask in v0 where there is one (R15, R99). -/
def Sys2Proof.Safety.Takes (h : Hart) (m : Bool) (e : Nat) : Prop := h.vst ≤ e ∧ e < h.vln ∧ (m = false ∨ h.bit 0 e = true)

/-- The address of element `e` by R138, for a base `A`. -/
def Sys2Proof.Safety.elemAddr (h : Hart) (t : Tag) (A : Word) (m : Addressing) (e : Nat) : Word :=
  let w := width t; let Q := h.vlmax t / 4
  match m with
  | .unit => A + BitVec.ofNat 64 (e * w / 8)
  | .quarter stride => A + BitVec.ofNat 64 (e / Q) * stride + BitVec.ofNat 64 (e % Q * w / 8)
  | .strided stride => A + BitVec.ofNat 64 e * stride
  | .indexed vb => A + BitVec.ofInt 64 (readInt (h.tag vb) (h.elem vb (h.tag vb) e) * (w / 8 : Nat))

/-- The bit of its first byte at which element `e` begins: not 0 for the tags narrower than a byte alone (R138). -/
def Sys2Proof.Safety.elemBit (h : Hart) (t : Tag) (m : Addressing) (e : Nat) : Nat :=
  match m with
  | .unit => e * width t % 8
  | .quarter _ => e % (h.vlmax t / 4) * width t % 8
  | _ => 0

/-- The base of a memory operand (R138). -/
def Sys2Proof.Safety.memoryBase (s : State) (base : SReg) (off : BitVec 14) : Word := BitVec.ofInt 64 ((s.getS base).toInt + off.toInt)

/-- Bit `n` of storage, counted from bit 0 of the byte at storage number 0. -/
def Sys2Proof.Safety.bitAt (s : State) (n : Nat) : Bool := (s.mem.get (n / 8)).getLsbD (n % 8)

/-- A hart with the account of the instruction under way that `k` keeps, which its completion forgets. -/
def Sys2Proof.Safety.keeping (h k : Hart) : Hart :=
  { h with begun := k.begun, underway := k.underway, held := k.held, counted := k.counted, answers := k.answers }

/-- What a memory instruction that begins passes the checks of R140, R141 and R149 with, in plain memory that no engine holds, with no
progress bit set and no pre-emption that may stop it between elements: `addr` gives the elements' addresses and `bytes` what each touches. -/
def Sys2Proof.Safety.PlainElements (s : State) (o : VMem) (addr : Nat → Word) (bytes : Nat → Nat) : Prop :=
  let h := s.hart; let t := h.tag o.vd
  BanksOn h ∧ h.vln ≤ h.vlmax t ∧ h.prog = false ∧ Unbegun h ∧ (h.preempt = false ∨ h.covered.isSome = true)
  ∧ ∀ e, Takes h o.m e → Plain s (addr e) (bytes e) ∧ (8 ≤ width t → (addr e).toNat % (width t / 8) = 0)
    ∧ s.writeStalls (localKey (addr e).toNat) (bytes e) = false

/-- The form that addresses as `m` has legal tags for it (R140). -/
def Sys2Proof.Safety.LegalForm (h : Hart) (t : Tag) : Addressing → Prop
  | .unit | .quarter _ => True
  | .strided _ => 8 ≤ width t
  | .indexed vb => 8 ≤ width t ∧ isInt (h.tag vb) = true ∧ 8 ≤ width (h.tag vb) ∧ h.vln ≤ h.vlmax (h.tag vb)

/-- Only memory, its L2 copy, the poison it loses, the record of what page-table walks may still read (R269), the watches that see it,
the request counters of the core, and the hart differ. -/
def Sys2Proof.Safety.MemoryEffects (s u : State) : Prop :=
  u = { s with hart := u.hart, others := u.others, cores := u.cores, mem := u.mem, l2 := u.l2, poison := u.poison,
               oldEntries := u.oldEntries, fabric := u.fabric }
  ∧ (∃ qs, u.others = s.others.map (·.noteWrite qs) ∧ u.hart.watch = (s.hart.noteWrite qs).watch ∧ u.hart.early = (s.hart.noteWrite qs).early)
  ∧ u.fabric = { s.fabric with watches := u.fabric.watches, out := u.fabric.out }
  ∧ (∃ near far, u.cores = (s.setCore { s.core with ctrloc := near, ctrrem := far }).cores)
  ∧ ∀ q ∈ u.poison, q ∈ s.poison

/-- The page of a leaf at level `L` whose group has 2^k entries (R330). -/
def Sys2Proof.Safety.SizeOk (e L k : Nat) : Prop :=
  let ppn := e / 2 ^ 10 % 2 ^ 44
  if e.testBit 63 then (L = 0 ∧ 1 ≤ k ∧ k ≤ 8 ∧ ppn % 2 ^ k = 2 ^ (k - 1))
    ∨ (L = 1 ∧ 1 ≤ k ∧ k ≤ 5 ∧ ppn % 2 ^ 9 = 0 ∧ ppn / 2 ^ 9 % 2 ^ k = 2 ^ (k - 1))
  else k = 0 ∧ (L = 1 → ppn % 2 ^ 9 = 0) ∧ (L = 2 → ppn % 2 ^ 18 = 0)

/-- Where the entry of an address at level `L` stands in a table, given by its page number (R328). -/
def Sys2Proof.Safety.entryKey (T L va : Nat) : Nat := localKey (T * 4096) + 8 * (va / 2 ^ (12 + 9 * L) % 512)

/-- The table at page `T` lies in local memory and holds the entry `e` for an address at level `L`, no engine at work on it: every entry of its
group of 2^k is the same, and around it no other entry claims a group (R328, R331, R333). -/
def Sys2Proof.Safety.EntryIs (s : State) (T L va k e : Nat) : Prop :=
  let at_ (j : Nat) := localKey (T * 4096) + 8 * j; let i := va / 2 ^ (12 + 9 * L) % 512; let around := if L = 0 then 256 else 32
  T * 4096 < localTop ∧ Holds s (at_ i) 8 e ∧ s.readStalls (at_ i) 8 = false ∧ (SizeOk e L k ∨ (k = 0 ∧ ∀ k', ¬ SizeOk e L k'))
  ∧ (L ≤ 1 → ∀ j < 512, j / around = i / around → if j / 2 ^ k = i / 2 ^ k then Holds s (at_ j) 8 e else (s.mem.get (at_ j + 7)).toNat < 128)

/-- An entry that points to the next table (R329, R333). -/
def Sys2Proof.Safety.Pointer (e : Nat) : Prop := e % 2 = 1 ∧ e / 2 % 2 ^ 4 = 0 ∧ e / 2 ^ 6 % 4 = 0 ∧ e / 2 ^ 54 = 0

/-- A valid entry that is a leaf (R328, R329). -/
def Sys2Proof.Safety.IsLeaf (e : Nat) : Prop :=
  e % 2 = 1 ∧ (e.testBit 1 = true ∨ e.testBit 3 = true) ∧ (e.testBit 2 = true → e.testBit 1 = true)

/-- What an Sv57 walk of an address meets with nothing cached before it comes to level `L`: pointers, of which `E` are the entries and `T` the
pages of the tables (R327, R328). -/
def Sys2Proof.Safety.Reaches (s : State) (va : Word) (T E : Nat → Nat) (L : Nat) : Prop :=
  s.ctx.vatp.toNat / 2 ^ 60 = 10 ∧ findWindow s.ctx.swin va = none ∧ s.mem.wf = true ∧ s.tlb = [] ∧ s.walks = [] ∧ s.oldEntries = [] ∧ Unbegun s.hart
  ∧ L ≤ 4 ∧ (va.toNat / 2 ^ 56 = 0 ∨ va.toNat / 2 ^ 56 = 255) ∧ T 4 = s.ctx.vatp.toNat % 2 ^ 44
  ∧ ∀ l, L < l → l ≤ 4 → EntryIs s (T l) l va.toNat 0 (E l) ∧ Pointer (E l) ∧ s.poisoned (entryKey (T l) l va.toNat) = false
    ∧ T (l - 1) = E l / 2 ^ 10 % 2 ^ 44

/-- Orders 5 to 7 of R333 let a leaf pass (R329, R330, R332). -/
def Sys2Proof.Safety.Legal (s : State) (e L k : Nat) : Prop :=
  let quads := s.quadMap.length; let target := e / 2 ^ 54 % 2 ^ 5
  SizeOk e L k ∧ e / 2 ^ 61 % 4 ≠ 3
  ∧ if s.ctx.vatp.getLsbD 59 then (if e / 2 ^ 59 % 4 = 0 then target = 0 else if e / 2 ^ 59 % 4 = 2 then target < 4 * quads else target < quads)
    else e / 2 ^ 54 % 2 ^ 7 = 0 ∧ (e.testBit 63 = true → L = 0 ∧ k = 4)

/-- Order 8 of R333 lets a load, or a store, pass. -/
def Sys2Proof.Safety.Right (s : State) (e : Nat) (writes : Bool) : Prop :=
  (e.testBit 4 = true ↔ s.hart.mode = .user) ∧ e.testBit (if writes then 2 else 1) = true

/-- What an address reaches by a leaf (R330, R332, R366). -/
def Sys2Proof.Safety.reached (s : State) (va : Word) (e L k : Nat) : Option Loc :=
  let b := 12 + 9 * L + k
  s.home (e / 2 ^ 10 % 2 ^ 44 * 4096 / 2 ^ b * 2 ^ b + va.toNat % 2 ^ b) (if s.ctx.vatp.getLsbD 59 then e / 2 ^ 59 % 4 else 0) (e / 2 ^ 54 % 2 ^ 5)

/-- An entry with A set, and D for a write (R334). -/
def Sys2Proof.Safety.used (e : Nat) (writes : Bool) : Nat := e ||| 0x40 ||| if writes then 0x80 else 0

/-- Where offset `o` of a scratch window is stored, for an element `e` of tag `t` of the current hart (R249, R252). -/
def Sys2Proof.Safety.scratchKey (s : State) (t : Tag) (e : Nat) (n : Fin 4) (o : Nat) : Nat :=
  let h := s.hart; let core := h.place.core.val; let P := 2 ^ h.vcfg.plog.val; let lanes := 32 / P; let Q := h.vlmax t / 4
  match n with
  | 0 => shelfBase + (core * 32 + e / Q * 8 + h.place.slot.val * (8 / P) + e % Q % (lanes / 4)) * 65536 + o
  | 1 => cupboardBase + core * 2 ^ 22 + o
  | 2 => larderBase + core / 8 * 2 ^ 24 + o
  | 3 => cellarBase + core / 32 * 2 ^ 27 + o

/-- An address lies in a scratch window, of the size of its level (R249 to R251). -/
def Sys2Proof.Safety.inWindow (s : State) (va : Word) (n : Fin 4) : Prop :=
  let hit (m : Fin 4) := let w := (s.ctx.swin.get m).toNat; let size := 2 ^ (match m with | 0 => 16 | 1 => 22 | 2 => 24 | 3 => 27 : Nat)
    w % 2 = 1 ∧ w / size = va.toNat / size
  hit n ∧ ∀ m < n, ¬ hit m

/-- The offset of an address in a window of a size, and how much of that is in service (R250). -/
def Sys2Proof.Safety.offsetOf (va : Word) (n : Fin 4) : Nat := va.toNat % 2 ^ (match n with | 0 => 16 | 1 => 22 | 2 => 24 | 3 => 27 : Nat)
def Sys2Proof.Safety.inService (s : State) (n : Fin 4) : Nat :=
  let lim := if n = 2 then 8 * ((List.range 8).filter fun j => s.inService (s.hart.place.core.val / 8 * 8 + j)).length - 1 else 63
  (lim + 1) * 2 ^ (match n with | 0 => 16 | 1 => 22 | 2 => 24 | 3 => 27 : Nat) / 64

/-- The elements of a vector access all lie in scratch windows, in service, and nothing stands in their way, as for PlainElements. -/
def Sys2Proof.Safety.ScratchElements (s : State) (o : VMem) (addr : Nat → Word) (win : Nat → Fin 4) (bytes : Nat → Nat) : Prop :=
  let h := s.hart; let t := h.tag o.vd; let key e := scratchKey s t e (win e) (offsetOf (addr e) (win e))
  BanksOn h ∧ h.vln ≤ h.vlmax t ∧ h.prog = false ∧ Unbegun h ∧ (h.preempt = false ∨ h.covered.isSome = true) ∧ s.mem.wf = true
  ∧ ∀ e, Takes h o.m e → inWindow s (addr e) (win e) ∧ (8 ≤ width t → (addr e).toNat % (width t / 8) = 0)
    ∧ (offsetOf (addr e) (win e) < inService s (win e) → s.writeStalls (key e) (bytes e) = false ∧ ∀ j < bytes e, s.poisoned (key e + j) = false)

/-- R269, R327 to R334. A scalar access that is translated: the walk goes down through pointers to a leaf; the leaf's entry takes A, and D for a store; the
access is then performed where the leaf says, under its size and placement. Where the walk ends before, in the order of R333, the trap of its row is taken, with the address in
eval, and nothing is written.

R249 to R254. Scratch windows: a scalar access reaches the cupboard, larder or cellar byte of its offset, a vector element that of its own lane's shelf too; a
scalar access to the shelf, and any access past what is in service, takes an access fault.

R368, R384, R385, R386. The fabric window: this device's own bytes are served here; a load of another device's sends a read and waits, and completes, or traps, with the
answer; a store sends a write and goes on; without a route both take a fabric error.

Readings of the model that it rests on: log entries 8, 19, 21. -/
def Obligations.TranslatedAndWindowAccesses : Prop :=
  (∀ (s : State) (sz : Size) (d b a : SReg) (off : BitVec 12) (T E : Nat → Nat) (L k : Nat),
      let va : Word := BitVec.ofInt 64 ((s.getS a).toInt + off.toInt); let n := Size.bytes sz; let e := E L; let ek := entryKey (T L) L va.toNat
      let walked (u : State) (c : Hart) := u = { s with hart := u.hart, l2 := u.l2, walks := u.walks, free := u.free } ∧ u.hart = { c with held := u.hart.held, afresh := u.hart.afresh }
      let falls (c : Bool → Cause) (writes : Bool) := ∀ i ∈ (if writes then [Instr.st sz b a off] else [.ld sz d a off, .ldz sz d a off]),
        ∃ u, exec i s = .next (takeTrap ⟨c writes, va, if writes then .store else .load⟩ s.hart.pc false false u) ∧ walked u s.hart
      let page (writes : Bool) : Cause := if writes then .pageStore else .pageLoad
      va.toNat % n = 0 →
      (s.ctx.vatp.toNat / 2 ^ 60 = 10 → findWindow s.ctx.swin va = none → s.tlb = [] → Unbegun s.hart →
        va.toNat / 2 ^ 56 ≠ 0 → va.toNat / 2 ^ 56 ≠ 255 → ∀ w, falls page w)
      ∧ (Reaches s va T E L →
        (localTop ≤ T L * 4096 → ∀ w, falls (fun _ => .access) w)
        ∧ (EntryIs s (T L) L va.toNat k e → s.poisoned ek = true → ∀ w, falls (fun _ => .poison) w)
        ∧ (EntryIs s (T L) L va.toNat k e → s.poisoned ek = false →
          (e % 2 = 0 ∨ (e.testBit 2 = true ∧ e.testBit 1 = false) → ∀ w, falls page w)
          ∧ (IsLeaf e → 3 ≤ L → ∀ w, falls (fun _ => .unsupportedLeaf) w)
          ∧ (e % 2 = 1 → e / 2 % 8 = 0 → L = 0 ∨ ¬ Pointer e → ∀ w, falls page w)
          ∧ (IsLeaf e → L ≤ 2 → (¬ Legal s e L k → ∀ w, falls page w)
            ∧ (Legal s e L k → ∀ w, (¬ Right s e w → falls page w) ∧ (Right s e w → reached s va e L k = none → falls (fun _ => .access) w)
              ∧ (∀ key die v, Right s e w → reached s va e L k = some (.cell key die) → e / 2 ^ 61 % 4 ≠ 2 → key + n ≤ ek ∨ ek + 8 ≤ key →
                let e' := used e w; let m := s.noteWrites (if e' = e then [] else [ek / 32])
                (w = false → s.readStalls key n = false → s.poisoned key = false → Holds s key n v → ∃ u,
                  exec (.ld sz d a off) s = .next (retire 4 (u.setS d (BitVec.ofInt 64 (signedOf n v))))
                  ∧ exec (.ldz sz d a off) s = .next (retire 4 (u.setS d (BitVec.ofNat 64 v)))
                  ∧ u = { m with hart := u.hart, mem := u.mem, l2 := u.l2, oldEntries := u.oldEntries, tlb := u.tlb, walks := u.walks,
                                  free := u.free }
                  ∧ u.hart = { m.hart with held := u.hart.held, afresh := u.hart.afresh, watch := some ⟨key / 32, false⟩ }
                  ∧ Holds u ek 8 e' ∧ BytesKeptBut (In ek 8) s u)
                ∧ (w = true → s.writeStalls key n = false → ∃ u, exec (.st sz b a off) s = .next (retire 4 u)
                  ∧ u = { m with hart := { m.hart with held := u.hart.held, afresh := u.hart.afresh }, mem := u.mem, l2 := u.l2, oldEntries := u.oldEntries,
                                 tlb := u.tlb, walks := u.walks, free := u.free }.noteWrites [key / 32]
                  ∧ Holds u ek 8 e' ∧ Holds u key n ((s.getS b).toNat % 256 ^ n) ∧ BytesKeptBut (fun x => In ek 8 x ∨ In key n x) s u)))))))
  ∧ (∀ (s : State) (sz : Size) (op : AmoOp) (sc : Scope) (az : AmoSize) (d b a : SReg) (off : BitVec 12) (w : Fin 4) (v : Nat),
      let va : Word := BitVec.ofInt 64 ((s.getS a).toInt + off.toInt); let n := Size.bytes sz; let o := offsetOf va w; let k := scratchKey s .n8 0 w o
      let traps (i : Instr) (va : Word) (k : AccessKind) := exec i s = .next (takeTrap ⟨.access, va, k⟩ s.hart.pc false false s)
      Unbegun s.hart →
      (inWindow s va w → va.toNat % n = 0 →
        (w = 0 ∨ inService s w ≤ o → traps (.ld sz d a off) va .load ∧ traps (.ldz sz d a off) va .load ∧ traps (.st sz b a off) va .store)
        ∧ (w ≠ 0 → o < inService s w → s.mem.wf = true →
          (s.readStalls k n = false → s.poisoned k = false → Holds s k n v →
            let u := { s with hart := { s.hart with watch := some ⟨k / 32, false⟩ } }
            exec (.ld sz d a off) s = .next (retire 4 (u.setS d (BitVec.ofInt 64 (signedOf n v))))
            ∧ exec (.ldz sz d a off) s = .next (retire 4 (u.setS d (BitVec.ofNat 64 v))))
          ∧ (s.writeStalls k n = false → ∃ u, exec (.st sz b a off) s = .next (retire 4 u)
            ∧ u = { s with hart := { s.hart with held := u.hart.held }, mem := u.mem }.noteWrites [k / 32]
            ∧ Holds u k n ((s.getS b).toNat % 256 ^ n) ∧ BytesKeptBut (In k n) s u)))
      ∧ (let x := s.getS a; inWindow s x w → x.toNat % AmoSize.bytes az = 0 → sc = .hart ∨ s.hasPosted = false →
        w = 0 ∨ inService s w ≤ offsetOf x w → traps (amoInstr sc az d a b op) x .store))
  ∧ (∀ (s : State) (o : VMem) (r : SReg) (vb : VIdx) (win : Nat → Fin 4), let h := s.hart; let t := h.tag o.vd; let w := width t
      ∀ (i : Instr) (m : Addressing) (store : Bool), (i, m, store) ∈ [(Instr.vld o, Addressing.unit, false), (.vldq o r, .quarter (s.getS r), false),
        (.vlds o r, .strided (s.getS r), false), (.vldx o vb, .indexed vb, false), (.vldxo o vb, .indexed vb, false), (.vldff o, .unit, false),
        (.vst o, .unit, true), (.vstq o r, .quarter (s.getS r), true), (.vsts o r, .strided (s.getS r), true), (.vstx o vb, .indexed vb, true),
        (.vstxo o vb, .indexed vb, true)] →
      let addr := elemAddr h t (memoryBase s o.base o.off) m; let bit := elemBit h t m
      let past e := Takes h o.m e ∧ inService s (win e) ≤ offsetOf (addr e) (win e)
      let pos e := 8 * scratchKey s t e (win e) (offsetOf (addr e) (win e)) + bit e
      let at_ (e n : Nat) := Takes h o.m e ∧ pos e ≤ n ∧ n < pos e + w
      LegalForm h t m → ScratchElements s o addr win (fun e => (bit e + w + 7) / 8) →
      (∀ e, past e → (∀ e' < e, ¬ past e') → i ≠ .vldff o →
        exec i s = .next (takeTrap ⟨.access, addr e, if store then .store else .load⟩ h.pc true false s))
      ∧ ((∀ e, ¬ past e) → ∃ u, exec i s = .next (retire 8 u) ∧ MemoryEffects s u ∧ ((∀ e, Takes h o.m e → win e = 0) → u.cores = s.cores)
        ∧ (store = false → BytesKept s u ∧ u.hart = keeping { h with vregs := u.hart.vregs, vstart := 0 } u.hart ∧ VectorsKept [o.vd] h u.hart
          ∧ ∀ e, e < h.vlmax t → (Takes h o.m e → ∀ q < w, (u.hart.elem o.vd t e).testBit q = (decide (q < valBits t) && bitAt s (pos e + q)))
            ∧ (¬ Takes h o.m e → u.hart.elem o.vd t e = h.elem o.vd t e))
        ∧ (store = true → u.hart = keeping { h with vstart := 0, watch := u.hart.watch, early := u.hart.early } u.hart
          ∧ (∀ e n, at_ e n → (∀ e', e < e' → ¬ at_ e' n) → bitAt u n = (h.elem o.vd t e).testBit (n - pos e))
          ∧ (∀ n, (∀ e, ¬ at_ e n) → bitAt u n = bitAt s n))))
  ∧ (∀ (s : State) (sz : Size) (d b a : SReg) (imm : BitVec 12) (dev off v : Nat) (data : List Byte) (bad : List Nat),
      let va : Word := BitVec.ofInt 64 ((s.getS a).toInt + imm.toInt); let n := Size.bytes sz; let f := s.fabric; let k := localKey off; let h := s.hart
      let ld := Instr.ld sz d a imm; let ldz := Instr.ldz sz d a imm; let st := Instr.st sz b a imm
      let traps (i : Instr) (c : Cause) (v : Nat) (k : AccessKind) := exec i s = .next (takeTrap ⟨c, BitVec.ofNat 64 v, k⟩ h.pc false false s)
      let loads (u : State) (v : Nat) := exec ld s = .next (retire 4 (u.setS d (BitVec.ofInt 64 (signedOf n v))))
        ∧ exec ldz s = .next (retire 4 (u.setS d (BitVec.ofNat 64 v)))
      let room := s.farStalls dev off n = false ∧ f.full dev 0 = false
      Bare s va → va.toNat % n = 0 → va.toNat = 2 ^ 55 + dev * 2 ^ 45 + off → dev / 32 < f.nrow → dev % 32 < f.ncol → dev < 1024 → off < localTop →
      (dev = f.self → Unbegun h → s.mem.wf = true →
        (s.readStalls k n = false → s.poisoned k = false → Holds s k n v →
          ∃ m, loads { s with l2 := m, hart := { h with watch := some ⟨k / 32, false⟩ } } v)
        ∧ (s.writeStalls k n = false → ∃ u, exec st s = .next (retire 4 u)
          ∧ u = { s with hart := { h with held := u.hart.held }, mem := u.mem, l2 := u.l2, oldEntries := u.oldEntries }.noteWrites [k / 32]
          ∧ Holds u k n ((s.getS b).toNat % 256 ^ n) ∧ BytesKeptBut (In k n) s u))
      ∧ (dev ≠ f.self → Unbegun h → (f.reaches dev = false → traps st .fabricError va.toNat .store ∧ ∀ i ∈ [ld, ldz],
          exec i s = .next (takeTrap ⟨.fabricError, va, .load⟩ h.pc false false { s with hart := { h with watch := some ⟨va.toNat / 32, false⟩ } }))
        ∧ (f.reaches dev = true → room →
          (s.storeQueued = true → ∀ i ∈ [ld, ldz], exec i s = .next { s with hart := { h with waiting := true } })
          ∧ (s.storeQueued = false → s.hasAsked h = false → ∃ u : State, (∀ i ∈ [ld, ldz], exec i s = .next u)
            ∧ u = { s with fabric := u.fabric,
                           hart := { h with waiting := true, underway := true, held := u.hart.held, watch := some ⟨va.toNat / 32, false⟩ } }
            ∧ u.fabric.outstanding = f.outstanding ++ [⟨f.nextTxn % 2 ^ 16, dev, 0, f.nextSeq dev 0, h.born, off, n, false, false, va, none, false⟩]
            ∧ u.fabric.out = f.out ++ [.read { f.packet dev 0 off h.place with wt := true, len := n }]
            ∧ u.fabric.nextSeq dev 0 = (f.nextSeq dev 0 + 1) % 2 ^ 32)
          ∧ ((s.posted.filter fun o => o.ocls = 0).length < 32 → ∃ u p, exec st s = .next (retire 4 u)
            ∧ u = { s with fabric := u.fabric, hart := { h with held := u.hart.held } }
            ∧ u.fabric.outstanding = f.outstanding ++ [⟨f.nextTxn % 2 ^ 16, dev, 0, f.nextSeq dev 0, h.born, off, n, true, false, va, none, false⟩]
            ∧ u.fabric.out = f.out ++ [.write p] ∧ p = { f.packet dev 0 off h.place with data := p.data, mask := List.replicate n 0xFF }
            ∧ p.data.length = n ∧ (∀ j < n, p.data[j]? = some (BitVec.ofNat 8 ((s.getS b).toNat / 256 ^ j)))
            ∧ u.fabric.nextSeq dev 0 = (f.nextSeq dev 0 + 1) % 2 ^ 32)))
      ∧ (∀ failed, dev ≠ f.self → h.begun = none → h.underway = true → h.answers = [⟨dev, off, n, data, bad, failed⟩] → data.length = n →
        (∀ x ∈ h.held, x.target = ⟨va, .fabric dev off, false, false, va.toNat, 0, none⟩) →
        (failed = true → traps ld .fabricError va.toNat .load ∧ traps ldz .fabricError va.toNat .load)
        ∧ (failed = false → bad ≠ [] → traps ld .poison (va.toNat / 32 * 32) .load ∧ traps ldz .poison (va.toNat / 32 * 32) .load)
        ∧ (failed = false → bad = [] → loads s (data.foldr (fun x v => x.toNat + 256 * v) 0))))
/-! ### Launches, waits, barriers, fences -/

/-- R216, R222. LAUNCH with a descriptor that reads without a trap and passes its checks, room in its class's queue and no earlier
store of its hart on its way: one launch is accepted with the descriptor's values and the next number; no register and no other state changes.
`s2` is the state once the descriptor is read; the completion word is 0 or lies in plain local memory.

R216, R218, R222. LAUNCH traps: D no multiple of 8; a descriptor that breaks a check; a class above pclass in user mode.

R226, R227, R229, R230, R246. HYIELD that holds no strip back gives up the hart's turn and goes on; one that does hands over an
element for each mask bit set, and its hart ends. HWAIT completes with nothing
changed where there is no watch, the watch is on another sector, or its written bit is set, and waits otherwise. HEXIT with no
return owed and no store on its way ends the hart: its slot is empty, its launch counts one more end and one more exit, and
no byte of memory changes; with a return owed it is illegal.

Readings of the model that it rests on: log entry 28. -/
def Obligations.HartInstructions : Prop :=
  ((∀ (s s1 s2 : State) (a : SReg) (d flat : List Nat), let D := s.getS a; let n := dw d 3 % 8; let t := dw d 8 % 8
        let rows := (List.range n).map fun k => (flat.drop (4 * k)).take 4; let cw : Word := BitVec.ofNat 64 (dw d 2)
        s.storeQueued = false → D.toNat % 8 = 0 → readDwords D 9 s = .ok d s1 → readDwords (D + 72) (4 * n) s1 = .ok flat s2 →
        s2.hasPosted = false → descLegal d rows (s.hart.mode == .user) s.hart.pclass = true →
        (dw d 2 = 0 ∨ Plain s2 cw 8 ∧ Unbegun s2.hart) →
        (s2.launches.filter (fun x => x.cls.val = dw d 3 / 2 ^ 8 % 4 ∧ !x.admitted ∧ !x.root)).length < 64 →
        ∃ l : Launch, exec (.launch a) s = .next (retire 4 { s2 with launches := s2.launches ++ [l], nextId := s2.nextId + 1 })
          ∧ l.id = s2.nextId ∧ l.ctx = s2.hart.ctx ∧ l.parent = s2.hart.born ∧ l.root = false
          ∧ l.entry = BitVec.ofNat 64 (dw d 0) ∧ l.arg = BitVec.ofNat 64 (dw d 1) ∧ l.nest = D + 64
          ∧ l.plog.val = dw d 3 / 2 ^ 4 % 4 ∧ l.cls.val = dw d 3 / 2 ^ 8 % 4 ∧ l.gang = (dw d 3).testBit 10
          ∧ l.cword = (if dw d 2 = 0 then [] else [localKey cw.toNat])
          ∧ l.total = ((rows.drop t).map (fun r => r.headD 0 % 2 ^ 32)).prod
          ∧ l.rows = (rows.drop t).map (fun r => ⟨r.headD 0 % 2 ^ 32, decide (r.headD 0 / 2 ^ 32 % 4 = 2)⟩)
          ∧ l.deps = ([4, 5, 6, 7].filter (fun k => (dw d k).testBit 36)).map
              (fun k => ⟨BitVec.ofNat 32 (dw d k), Fin.ofNat 16 (dw d k / 2 ^ 32)⟩)
          ∧ l.admitted = false ∧ l.created = 0 ∧ l.ended = 0 ∧ l.nexit = 0 ∧ l.code = 0
          ∧ (∀ b, l.barriers.get b = ⟨0, 0, l.total, 0⟩))
    ∧ (∀ (s s1 s2 : State) (a : SReg) (d flat : List Nat), let D := s.getS a; let n := dw d 3 % 8
        s.storeQueued = false →
        (D.toNat % 8 ≠ 0 → exec (.launch a) s = .next (takeTrap ⟨.misaligned, D, .load⟩ s.hart.pc false false s))
        ∧ (D.toNat % 8 = 0 → readDwords D 9 s = .ok d s1 → readDwords (D + 72) (4 * n) s1 = .ok flat s2 →
          (n = 7 ∨ dw d 0 % 4 ≠ 0 ∨ dw d 2 % 8 ≠ 0 ∨ 2 ^ 11 ≤ dw d 3 ∨ 2 ^ 3 ≤ dw d 8 ∨ n < dw d 8 % 8
            ∨ (∃ k ∈ [4, 5, 6, 7], 2 ^ 37 ≤ dw d k) ∨ (s.hart.mode = .user ∧ s.hart.pclass.val < dw d 3 / 2 ^ 8 % 4)) →
          exec (.launch a) s = .next (takeTrap ⟨.operand, 0, .none⟩ s.hart.pc false false
            { s2 with hart := { s2.hart with vregs := s.hart.vregs, vgate := s.hart.vgate } }))))
  ∧ (∀ (s : State) (a : SReg), let va := s.getS a; let k := localKey va.toNat; let h := s.hart
      let holds := s.compactionPoint = true ∧ s.poolOpen = true ∧ h.maskOn.length * 256 < h.vcfg.cthr.toNat * h.vl.toNat
      (¬ holds → exec .hyield s = .next (retire 4 { s with hart := { h with
        credit := 0, yielded := if (s.onCore h.place.core.val).length ≤ 1 then 0 else 15 } }))
      ∧ (holds → h.retq = [] → s.hasPosted = false → ∃ (es : List PoolElem) (f : Nat),
        es.map (fun e => (e.index, e.linear)) = h.maskOn.map (fun i => (i, h.linear))
        ∧ exec .hyield s = .next (({ s with free := f }.holdStrip es).endHart h .exit))
      ∧ (Unbegun s.hart → Bare s va → va.toNat < localTop → (h.watch = none ∨ ∃ w, h.watch = some w ∧ (w.sector ≠ k / 32 ∨ w.written = true)) →
        exec (.hwait a) s = .next (retire 4 s))
      ∧ (Unbegun s.hart → Bare s va → va.toNat < localTop → h.watch = some ⟨k / 32, false⟩ →
        exec (.hwait a) s = .next { s with hart := { h with waiting := true } })
      ∧ (h.retq = [] → s.hasPosted = false → h.status = .resident → h.merged = false → ∃ t, exec .hexit s = .next t
        ∧ t.hart = .fresh ∧ t.others = s.others.filter (fun x => x.born ≠ h.born) ∧ BytesKept s t
        ∧ t.launches.length = s.launches.length
        ∧ ∀ (i : Nat) (l : Launch), s.launches[i]? = some l → ∃ l' : Launch, t.launches[i]? = some l'
          ∧ (if l.id = h.launch then l'.ended = l.ended + 1 ∧ l'.nexit = l.nexit + 1 ∧ l'.code = l.code else l' = l))
      ∧ (h.retq ≠ [] → exec .hexit s = .next (takeTrap ⟨.illegal, firstParcel .hexit, .none⟩ h.pc false false s)))

/-- R231, R232, R233. In a gang launch: FENCE.ARRIVE marks the hart as arriving at the barrier's phase, after the stores that are on
their way then, but for hart scope, and goes on; it waits where
its last arrival belongs to a phase that is not complete; BWAIT goes on with nothing changed but in that case, where it waits. In
any other launch both are operand traps.

R263, R278, R279, R266, R354. FENCE of every scope and both access sets, with no store on its way, of hart scope or not ordering
writes, and FETCHB, which forgets the parcels a header has fetched, go on with nothing else changed; so does PPT with no request pending
at a hart of class 2 or 3: it writes ltmask. With one pending PPT saves the hart's unit at its next instruction, once that can be saved; at
the hart's escalation limit (R355) the unit is saved full, before the PPT.

Readings of the model that it rests on: log entries 1, 28. -/
def Obligations.BarriersFencesAndPpt : Prop :=
  (∀ (s : State) (sc : Scope) (b : Fin 16) (l : Launch), let h := s.hart
      (s.launchOf h.launch = some l → l.gang = true →
        let phase := (l.barriers.get b).phase
        let x : Arrival := if sc = .hart then ⟨phase, false, [], []⟩
          else ⟨phase, false, s.posted.map (fun o => (o.dst, o.ocls, o.seq)), s.ownMsgs.map FMsg.id⟩
        (h.arrivals.get b = none ∨ (∃ x, h.arrivals.get b = some x ∧ x.phase < phase) →
          exec (.fenceArrive sc b) s = .next (retire 4 { s with hart := { h with arrivals := h.arrivals.set b (some x) } })
          ∧ exec (.bwait b) s = .next (retire 4 s))
        ∧ (∀ x, h.arrivals.get b = some x → phase ≤ x.phase →
          exec (.fenceArrive sc b) s = .next { s with hart := { h with waiting := true } }
          ∧ exec (.bwait b) s = .next { s with hart := { h with waiting := true } }))
      ∧ (s.launchOf h.launch = none ∨ (s.launchOf h.launch = some l ∧ l.gang = false) →
        exec (.fenceArrive sc b) s = .next (takeTrap ⟨.operand, 0, .none⟩ h.pc false false s)
        ∧ exec (.bwait b) s = .next (takeTrap ⟨.operand, 0, .none⟩ h.pc false false s)))
  ∧ (∀ (s : State) (sc : Scope) (er ew lr lw : Bool) (mask : BitVec 8), let h := s.hart
      (ew = false ∨ sc = .hart ∨ s.hasPosted = false → exec (.fence sc er ew lr lw) s = .next (retire 4 s))
      ∧ (ew = true → sc ≠ .hart → s.hasPosted = true → exec (.fence sc er ew lr lw) s = .next { s with hart := { h with waiting := true } })
      ∧ exec .fetchb s = .next (retire 4 { s with hart := { h with covered := none, ahead := [] } })
      ∧ (let u := retire 4 { s with hart := { h with ltmask := mask } }
        (h.preempt = false ∨ h.pclass.val < 2 → exec (.ppt mask) s = .next u)
        ∧ (h.preempt = true → 2 ≤ h.pclass.val →
          let saved := if s.escalationLimit (quadOfCore h.place.core) h.pclass ≤ h.convoys then s.saveUnit h false else u.saveUnit u.hart true
          (∀ t, saved = some t → exec (.ppt mask) s = .next t)
          ∧ (saved = none → exec (.ppt mask) s = .next { s with hart := { h with waiting := true } }))))

/-- R262, R264, R265, R266. The cache instructions on a line of local memory in bare mode, of any address in it: CLEAN brings the
L2 to what memory holds; FLUSH brings the L2 and HBM4 there, with the line's poison; INVAL leaves in each sector, and in HBM4, what HBM4, the L2 or
memory held (which, the device chooses); the last two forget the line's class; IINV takes the line out of every instruction L1. No other line, register or state changes.
On a window address they go on with no effect.

R223, R320, R321. EWAIT goes on with nothing changed once (w[N] − s[A]) mod 2^32 < 2^31 and no error is marked; with one marked it
clears the mark and takes an engine-error trap with N in eval; before, it waits. EPOLL writes w[N] + err[N] × 2^32.

Readings of the model that it rests on: log entries 11, 28, 34. -/
def Obligations.CacheAndCounterInstructions : Prop :=
  (∀ (s : State) (a : SReg), let va := s.getS a; let line := localKey va.toNat / 128; let inLine (x : Nat) := x / 128 = line
    ((findWindow s.ctx.swin va).isSome → s.storeQueued = false →
      ∀ i ∈ [Instr.clean a, .flush a, .inval a, .iinv a], exec i s = .next (retire 4 s))
    ∧ (Unbegun s.hart → Bare s va → va.toNat < localTop → s.storeQueued = false → s.l2.wf = true → s.hbm.wf = true → s.mem.wf = true →
    (∃ m, exec (.clean a) s = .next (retire 4 { s with l2 := m })
      ∧ ∀ x, m.get x = if inLine x then s.mem.get x else s.l2.get x)
    ∧ (s.readStalls (line * 128) 128 = false →
      (∃ m v p, exec (.flush a) s = .next (retire 4
          { s with l2 := m, hbm := v, hbmPoison := p, ptrLines := s.ptrLines.filter (fun l => l != line) })
        ∧ (∀ x, m.get x = if inLine x then s.mem.get x else s.l2.get x)
        ∧ (∀ x, v.get x = if inLine x then s.mem.get x else s.hbm.get x)
        ∧ (∀ q, q ∈ p ↔ if q / 4 = line then q ∈ s.poison else q ∈ s.hbmPoison))
      ∧ (∃ m v w p hp old, exec (.inval a) s = .next (retire 4
          { s with mem := m, l2 := v, hbm := w, poison := p, hbmPoison := hp, oldEntries := old, free := s.free + 1,
                   ptrLines := s.ptrLines.filter (fun l => l != line) })
        ∧ (∀ x, ¬ inLine x → m.get x = s.mem.get x ∧ v.get x = s.l2.get x ∧ w.get x = s.hbm.get x)
        ∧ (∀ q, q / 4 = line → (q ∈ p ↔ q ∈ hp) ∧ ∃ from_ ∈ [s.hbm, s.l2, s.mem], ∀ x, x / 32 = q →
          m.get x = from_.get x ∧ v.get x = from_.get x ∧ w.get x = from_.get x)
        ∧ (∀ q, q / 4 ≠ line → (q ∈ p ↔ q ∈ s.poison) ∧ (q ∈ hp ↔ q ∈ s.hbmPoison))))
    ∧ (∃ cs, exec (.iinv a) s = .next (retire 4 { s with cores := cs })
      ∧ ∀ c : Fin 192, cs.get c = { s.cores.get c with il1 := (cs.get c).il1 }
        ∧ ∀ l, l ∈ (cs.get c).il1 ↔ l ∈ (s.cores.get c).il1 ∧ l.line ≠ line)))
  ∧ (∀ (s : State) (n : WIdx) (a d : SReg), let h := s.hart
    let reached := ((h.counters.get n).toNat + 2 ^ 32 - (s.getS a).toNat % 2 ^ 32) % 2 ^ 32 < 2 ^ 31
    (reached → h.cerr.get n = false → exec (.ewait n a) s = .next (retire 4 s))
    ∧ (reached → h.cerr.get n = true → exec (.ewait n a) s
      = .next (takeTrap ⟨.engineError, BitVec.ofNat 64 n.val, .none⟩ h.pc false false { s with hart := { h with cerr := h.cerr.set n false } }))
    ∧ (¬ reached → exec (.ewait n a) s = .next { s with hart := { h with waiting := true } })
    ∧ (∃ v : Word, exec (.epoll d n) s = .next (retire 4 (s.setS d v))
      ∧ v.toNat = (h.counters.get n).toNat + if h.cerr.get n then 2 ^ 32 else 0))

/-- An integer modulo the width of a tag, as a result without flags. -/
def Sys2Proof.Safety.intRes (t : Tag) (x : Int) : Res := ⟨(x % (2 ^ width t : Nat)).toNat, .zero⟩

/-- The mantissa and exponent widths and the bias of a float tag (R32). -/
def Sys2Proof.Safety.layout : Tag → Nat × Nat × Int
  | .f64 => (52, 11, 1023) | .f32 => (23, 8, 127) | .bf16 => (7, 8, 127) | .f16 => (10, 5, 15) | .e5m2 => (2, 5, 15) | .e4m3 => (3, 4, 7)
  | .e3m2 => (2, 3, 3) | .e2m3 => (3, 2, 1) | _ => (1, 2, 1)

/-- The bits of the largest finite value and of the canonical NaN, or of +0 where a format has none (R32, R33, R38). -/
def Sys2Proof.Safety.largestAndNan : Tag → Nat × Nat
  | .f64 => (0x7FEFFFFFFFFFFFFF, 0x7FF8000000000000) | .f32 => (0x7F7FFFFF, 0x7FC00000) | .bf16 => (0x7F7F, 0x7FC0)
  | .f16 => (0x7BFF, 0x7E00) | .e5m2 => (0x7B, 0x7E) | .e4m3 => (0x7E, 0x7F) | .e3m2 | .e2m3 => (0x1F, 0) | _ => (0x7, 0)

/-- The formats with infinities, and those with neither infinity nor NaN (R32). -/
def Sys2Proof.Safety.hasInf (t : Tag) : Bool := [Tag.f64, .f32, .bf16, .f16, .e5m2].contains t
def Sys2Proof.Safety.bare (t : Tag) : Bool := [Tag.e3m2, .e2m3, .e2m1].contains t

/-- A magnitude's bits with a sign (R32). -/
def Sys2Proof.Safety.signed (t : Tag) (neg : Bool) (mag : Nat) : Nat := if neg then 2 ^ ((layout t).1 + (layout t).2.1) + mag else mag

/-- The magnitude of a number. -/
def Sys2Proof.Safety.size (x : Rat) : Rat := if x < 0 then -x else x

/-- The discarded fraction `f` of a number whose kept part is `n` rounds it up (R36). -/
def Sys2Proof.Safety.Up (r : Rnd) (neg : Prop) (n : Nat) (f : Rat) : Prop :=
  match r.rm with
  | .nearestEven => 1 / 2 < f ∨ (f = 1 / 2 ∧ n % 2 = 1)
  | .towardZero => False
  | .down => 0 < f ∧ neg
  | .up => 0 < f ∧ ¬ neg
  | .nearestAway => 1 / 2 ≤ f
  | .stochastic => 1 ≤ f + r.word / 2 ^ 32

/-- R32, R34, R43. What the bits of an element stand for, by the table of formats, and the flush of a subnormal source.

R33, R36, R37, R38. The rounding function of every format: NaN, zeros and infinities; a number by its mode, one unit in the last place at a
time, with NX, and UF where it is below the least normal; overflow. Numbers rounded to an integer tag, out of range to its nearest end. -/
def Obligations.RoundingOfResults : Prop :=
  (pow2 0 = 1 ∧ ∀ k : Int, pow2 (k + 1) = 2 * pow2 k)
  ∧ (∀ (t : Tag) (x : Nat) (c : VCfg), let (m, e, b) := layout t; let S := x.testBit (e + m); let E := x / 2 ^ m % 2 ^ e; let M := x % 2 ^ m
      let flush := match t with | .f64 | .f32 => c.fzw | .bf16 | .f16 => c.fzh | .e5m2 | .e4m3 => c.fz8 | _ => c.fz6
      (t = .e8m0 → readFloat c t x = if x % 256 = 255 then .nan else .fin (pow2 ((x % 256 : Nat) - 127)))
      ∧ (isFloat t = true → (fmtOf t).value x = (if hasInf t = true ∧ E = 2 ^ e - 1 then (if M = 0 then .inf S else .nan)
          else if t = .e4m3 ∧ E = 15 ∧ M = 7 then .nan
          else if E = 0 ∧ M = 0 then .zero S
          else .fin ((if S then -1 else 1) * (if E = 0 then pow2 (1 - b) * (M / 2 ^ m) else pow2 (E - b) * (1 + M / 2 ^ m))))
        ∧ readFloat c t x = if flush = true ∧ E = 0 ∧ M ≠ 0 then .zero S else (fmtOf t).value x))
  ∧ (∀ (t : Tag) (r : Rnd) (s : Bool), let (m, e, _) := layout t; let rnd := (fmtOf t).rnd r; let (big, nan) := largestAndNan t
      isFloat t = true → rnd .nan = ⟨nan, if bare t then .NV else .zero⟩ ∧ rnd (.zero s) = ⟨signed t s 0, .zero⟩
      ∧ rnd (.inf s) = if hasInf t then ⟨signed t s (if r.sat then big else (2 ^ e - 1) * 2 ^ m), .zero⟩
        else if t = .e4m3 ∧ r.sat = false then ⟨nan, .NV⟩ else ⟨signed t s big, .NV⟩)
  ∧ (∀ (t : Tag) (r : Rnd) (x : Rat) (lg : Int) (n k : Nat) (most : Rat), let (m, e, b) := layout t; let (big, nan) := largestAndNan t
      let emin := 1 - b; let u := pow2 (max lg emin - m); let f := size x / u - n; let y := k * u; let got := (fmtOf t).rnd r (.fin x)
      isFloat t = true → r.word < 2 ^ 32 → x ≠ 0 → pow2 lg ≤ size x → size x < pow2 (lg + 1) → 0 ≤ f → f < 1 →
      (Up r (x < 0) n f → k = n + 1) → (¬ Up r (x < 0) n f → k = n) → (fmtOf t).value big = .fin most →
      (y ≤ most → got.bits < 2 ^ (1 + e + m) ∧ (fmtOf t).value got.bits = (if y = 0 then .zero (x < 0) else .fin (if x < 0 then -y else y))
        ∧ got.fl = if y = size x then .zero else if size x < pow2 emin then .UFNX else .NX)
      ∧ (most < y → got.fl = .OFNX ∧ got.bits =
        if r.sat = true ∨ r.rm = .towardZero ∨ (r.rm = .down ∧ 0 < x) ∨ (r.rm = .up ∧ x < 0) ∨ bare t = true then signed t (x < 0) big
        else if t = .e4m3 then nan else signed t (x < 0) ((2 ^ e - 1) * 2 ^ m)))
  ∧ (∀ (t : Tag) (r : Rnd) (x : Rat) (n k : Nat) (s : Bool), let f := size x - n; let v : Int := if x < 0 then -k else k
      let lo : Int := if isI t then -2 ^ (width t - 1) else 0; let hi : Int := if isI t then 2 ^ (width t - 1) - 1 else 2 ^ width t - 1
      isInt t = true → r.word < 2 ^ 32 →
      rndInt t r .nan = ⟨0, .NV⟩ ∧ rndInt t r (.zero s) = ⟨0, .zero⟩ ∧ rndInt t r (.inf s) = ⟨(intRes t (if s then lo else hi)).bits, .NV⟩
      ∧ (x ≠ 0 → 0 ≤ f → f < 1 → (Up r (x < 0) n f → k = n + 1) → (¬ Up r (x < 0) n f → k = n) →
        rndInt t r (.fin x) = if v < lo then ⟨(intRes t lo).bits, .NV⟩ else if hi < v then ⟨(intRes t hi).bits, .NV⟩
          else ⟨(intRes t v).bits, if f = 0 then .zero else .NX⟩))

/-! ### Vector configuration and element-wise instructions -/

/-- vl fits VLMAX of each tag, and a mask holds vl bits (R100). -/
def Sys2Proof.Safety.Fits (h : Hart) (ts : List Tag) (m : Bool) : Prop :=
  (∀ t ∈ ts, h.vln ≤ h.vlmax t) ∧ (m = true → h.vln ≤ 8 * h.vlmax .n8)

/-- The effect of R99: each active element of vd takes the result `f` gives it, every other element and every other register keeps
its bits, vd takes the tag, the flags of the active elements are joined, vstart becomes 0, and nothing else changes. -/
def Sys2Proof.Safety.WritesElements (i : Instr) (s : State) (vd : VIdx) (t : Tag) (m : Bool) (f : Nat → Res) : Prop :=
  ∃ h, exec i s = .next (retire 8 { s with hart := h }) ∧ h = vectorMoved s.hart h ∧ VectorsKept [vd] s.hart h ∧ h.tag vd = t
    ∧ (∀ e, e < s.hart.vlmax t → (Takes s.hart m e → h.elem vd t e = (f e).bits % 2 ^ valBits t)
      ∧ (¬ Takes s.hart m e → h.elem vd t e = s.hart.elem vd t e))
    ∧ h.fflags = s.hart.fflags.or (flagsOf ((s.hart.active m).map fun e => (f e).fl))

/-- Element `e` of a source with its neighbour modifier and the edge mode (R18). -/
def Sys2Proof.Safety.sourceElem (h : Hart) (r : VIdx) (t : Tag) (nb : Nbr) (e : Nat) : Nat :=
  let last := h.vln - 1
  match nb with
  | .none => h.elem r t e
  | .l => if e ≠ 0 then h.elem r t (e - 1)
    else match h.vcfg.edge with | .zero => 0 | .wrap => h.elem r t last | .clamp => h.elem r t 0
  | .r => if e < last then h.elem r t (e + 1)
    else match h.vcfg.edge with | .zero => 0 | .wrap => h.elem r t 0 | .clamp => h.elem r t last

/-- The tag of the second source: its register's, or for a scalar or an immediate the source tag (R101). -/
def Sys2Proof.Safety.secondTag (h : Hart) (t : Tag) : VSrc → Tag
  | .vv vb _ => h.tag vb
  | _ => t

/-- Element `e` of the second source (R101). -/
def Sys2Proof.Safety.secondElem (h : Hart) (t : Tag) (unsigned : Bool) (src : VSrc) (e : Nat) : Nat :=
  match src with
  | .vv vb nb => sourceElem h vb (h.tag vb) nb e
  | .vx r => (h.getS r).toNat % 2 ^ width t
  | .vi imm =>
    if isInt t then (if unsigned then imm.toNat % 2 ^ width t else (imm.toInt % (2 ^ width t : Nat)).toNat)
    else if t = .e8m0 then imm.toNat % 256
    else ((fmtOf t).rnd ⟨.nearestEven, false, 0⟩ ((fmtOf .f32).value (imm.toNat * 2 ^ 8))).bits

/-- An integer clamped to the range of a tag where `sat` is set (R31, R106). -/
def Sys2Proof.Safety.satTo (t : Tag) (sat : Bool) (x : Int) : Int := if sat then max (intMin t) (min (intMax t) x) else x

/-- R13, R102, R103, R104. VSETVL sets vl and s[sd] to min(AVL, VLMAX); VCFG and VCFG.TAG write vcfg, s0 leaving it as it is, plog
never changing; VCFG.TAG and VTAG write the tags of their registers and no bit of them. Each sets vstart to 0. -/
def Obligations.VectorConfiguration : Prop :=
  ∀ (s : State) (d a : SReg) (tag : Tag) (lo hi vd : VIdx), let h := s.hart
    let x := (s.getS a).toNat
    let newVl := min x (32 / 2 ^ h.vcfg.plog.val * 2048 / width tag)
    let good := a = 0 ∨ (x / 2 ^ 2 % 4 ≠ 3 ∧ x / 2 ^ 4 % 8 < 6)
    let Configured (c : VCfg) := if a = 0 then c = h.vcfg else
      c.plog = h.vcfg.plog ∧ edgeCode c.edge = x / 2 ^ 2 % 4 ∧ rmCode c.rm = x / 2 ^ 4 % 8 ∧ c.fzw = x.testBit 8 ∧ c.fzh = x.testBit 9
        ∧ c.fz8 = x.testBit 10 ∧ c.fz6 = x.testBit 11 ∧ c.blk.val = x / 2 ^ 12 % 4 ∧ c.cthr.toNat = x / 2 ^ 16 % 256
    exec (.vsetvl d a tag) s
      = .next (retire 8 ({ s with hart := { h with vl := BitVec.ofNat 16 newVl, vstart := 0 } }.setS d (BitVec.ofNat 64 newVl)))
    ∧ (good → ∃ c, exec (.vcfg a) s = .next (retire 8 { s with hart := { h with vstart := 0, vcfg := c } }) ∧ Configured c)
    ∧ (good → BanksOn h → lo ≤ hi → (tag = .e8m0 → lo = 1 ∧ hi = 1) → ∃ c ts,
      exec (.vcfgTag a lo hi tag) s = .next (retire 8 { s with hart := { h with vstart := 0, vcfg := c, vtags := ts } })
      ∧ Configured c ∧ ∀ r, ts.get r = if lo ≤ r ∧ r ≤ hi then tag else h.vtags.get r)
    ∧ (BanksOn h → (tag = .e8m0 → vd = 1) →
      exec (.vtag vd tag) s = .next (retire 8 { s with hart := { h with vstart := 0, vtags := h.vtags.set vd tag } }))

/-- R99, R101, R105, R106, R107, R108. The two-source arithmetic, for every form, neighbour, mask and tag pair: integers extended from
their own tags, computed exactly and reduced modulo 2^w (or clamped first), the quotients truncated; floats computed exactly and rounded
once with vcfg.rm.

R46, R99, R106, R108. VFMA, VFMS and VFNMA: a × b + c, a × b − c and −a × b + c, with vd the addend under its own tag, exactly and
then reduced modulo 2^w or rounded once. -/
def Obligations.VectorArithmeticResults : Prop :=
  (∀ (s : State) (o : VOps) (sat : Bool) (t : Tag), let h := s.hart; let ta := h.tag o.va; let tb := secondTag h ta o.src
      let a := sourceElem h o.va ta o.na; let b := secondElem h ta false o.src
      BanksOn h → pairTag ta tb = some t → Fits h [ta, tb, t] o.m →
      (isInt t = true → ∀ (i : Instr) (g : Int → Int → Int), (i, g) ∈ ([(.vadd sat o, fun x y => satTo t sat (x + y)),
          (.vsub sat o, fun x y => satTo t sat (x - y)), (.vrsub sat o, fun x y => satTo t sat (y - x)), (.vmul o, fun x y => x * y),
          (.vmulh o, fun x y => x * y / (2 ^ width t : Nat)), (.vdiv o, fun x y => if y = 0 then -1 else x.tdiv y),
          (.vrem o, fun x y => if y = 0 then x else x - y * x.tdiv y), (.vmin o, fun x y => min x y), (.vmax o, fun x y => max x y)]
          : List (Instr × (Int → Int → Int))) →
        WritesElements i s o.vd t o.m fun e => intRes t (g (readInt ta (a e)) (readInt tb (b e))))
      ∧ (isFloat t = true → ∀ (i : Instr) (st : Bool) (g : FVal → FVal → Exact), (i, st, g) ∈ ([(.vadd sat o, sat, fun x y => fAdd h.vcfg.rm x y),
          (.vsub sat o, sat, fun x y => fAdd h.vcfg.rm x y.negate), (.vrsub sat o, sat, fun x y => fAdd h.vcfg.rm y x.negate),
          (.vmul o, false, fMul), (.vdiv o, false, fDiv), (.vmin o, false, fun x y => (fMin x y, .zero)),
          (.vmax o, false, fun x y => (fMax x y, .zero))] : List (Instr × Bool × (FVal → FVal → Exact))) →
        WritesElements i s o.vd t o.m fun e =>
          (fmtOf t).rndExact (h.rndAt st e) (g (readFloat h.vcfg ta (a e)) (readFloat h.vcfg tb (b e)))))
  ∧ (∀ (s : State) (o : VOps) (t1 t : Tag), let h := s.hart; let ta := h.tag o.va; let tb := secondTag h ta o.src; let tc := h.tag o.vd
      let a := sourceElem h o.va ta o.na; let b := secondElem h ta false o.src; let c := h.elem o.vd tc
      BanksOn h → pairTag ta tb = some t1 → pairTag t1 tc = some t → Fits h [ta, tb, tc, t] o.m →
      ∀ (i : Instr) (p n : Bool), (i, p, n) ∈ ([(.vfma o, false, false), (.vfms o, false, true), (.vfnma o, true, false)]
        : List (Instr × Bool × Bool)) →
      (isInt t = true → WritesElements i s o.vd t o.m fun e =>
        let x := readInt ta (a e) * readInt tb (b e); let z := readInt tc (c e)
        intRes t ((if p then -x else x) + if n then -z else z))
      ∧ (isFloat t = true → WritesElements i s o.vd t o.m fun e =>
        let x := readFloat h.vcfg ta (a e); let z := readFloat h.vcfg tc (c e)
        (fmtOf t).rndExact (h.rndAt false e)
          (fFma h.vcfg.rm (if p then x.negate else x) (readFloat h.vcfg tb (b e)) (if n then z.negate else z))))

/-- R35, R46. The exact results of sum, product, quotient, fused product and square root where an operand or the result is no finite number, with
their flags, and elsewhere the numbers themselves, an exact sum of zero being +0 but for rounding down; the square root as near as any rounding
to a format can tell.

R40. The stochastic word of an element: ten rounds of Philox4x32 on srseed and sroff + i.

R52, R53, R54. The estimates of reciprocal, reciprocal square root and power of two, by their tables, with their special inputs. -/
def Obligations.SpecialOperandsAndEstimates : Prop :=
  (∀ (rm : RMode) (x y z : FVal) (p q : Rat) (s u : Bool), let ok (v : FVal) : Exact := (v, .zero); let bad : Exact := (.nan, .NV); let nan := ok .nan
      (fAdd rm .nan x = nan ∧ fAdd rm x .nan = nan ∧ fMul .nan x = nan ∧ fMul x .nan = nan ∧ fDiv .nan x = nan ∧ fDiv x .nan = nan
        ∧ fFma rm .nan x y = nan ∧ fFma rm x .nan y = nan ∧ fFma rm x y .nan = nan ∧ fSqrt .nan = nan)
      ∧ (x.isNan = false → y.isNan = false → z.isNan = false →
        fFma rm x y z = (if (fMul x y).1 = .nan then bad else fAdd rm (fMul x y).1 z)
        ∧ (x.isInf = false → fAdd rm (.inf s) x = ok (.inf s) ∧ fAdd rm x (.inf s) = ok (.inf s)
          ∧ fDiv (.inf s) x = ok (.inf (s != x.neg)) ∧ fDiv x (.inf s) = ok (.zero (x.neg != s)))
        ∧ (x.isZero = false → fMul (.inf s) x = ok (.inf (s != x.neg)) ∧ fMul x (.inf s) = ok (.inf (x.neg != s))))
      ∧ (fAdd rm (.inf s) (.inf s) = ok (.inf s) ∧ fAdd rm (.inf s) (.inf !s) = bad ∧ fMul (.inf s) (.zero u) = bad ∧ fMul (.zero u) (.inf s) = bad
        ∧ fDiv (.inf s) (.inf u) = bad ∧ fDiv (.zero s) (.zero u) = bad)
      ∧ (fAdd rm (.zero s) (.zero u) = ok (.zero (if s = u then s else rm = .down)) ∧ fMul (.zero s) (.zero u) = ok (.zero (s != u)))
      ∧ (p ≠ 0 → q ≠ 0 → fAdd rm (.zero s) (.fin q) = ok (.fin q) ∧ fAdd rm (.fin q) (.zero s) = ok (.fin q)
        ∧ fAdd rm (.fin p) (.fin q) = ok (if p + q = 0 then .zero (rm = .down) else .fin (p + q)) ∧ fMul (.fin p) (.fin q) = ok (.fin (p * q))
        ∧ fMul (.zero s) (.fin q) = ok (.zero (s != decide (q < 0))) ∧ fMul (.fin q) (.zero s) = ok (.zero (decide (q < 0) != s))
        ∧ fDiv (.fin p) (.fin q) = ok (.fin (p / q)) ∧ fDiv (.zero s) (.fin q) = ok (.zero (s != decide (q < 0)))
        ∧ fDiv (.fin p) (.zero s) = (.inf (decide (p < 0) != s), .DZ))
      ∧ (fSqrt (.zero s) = ok (.zero s) ∧ fSqrt (.inf false) = ok (.inf false) ∧ fSqrt (.inf true) = bad ∧ (q < 0 → fSqrt (.fin q) = bad)
        ∧ (0 < q → ∃ v, fSqrt (.fin q) = ok (.fin v) ∧ ∀ (a : Nat) (j : Int), a < 2 ^ 60 → let c := a * pow2 j
          (c * c < q → c < v) ∧ (q < c * c → v < c) ∧ (c * c = q → v = c))))
  ∧ (∀ (h : Hart) (sat : Bool) (key idx i : Nat), ∃ k0 k1 c0 c1 c2 c3 : Nat → Nat,
      k0 0 = key % 2 ^ 32 ∧ k1 0 = key / 2 ^ 32 % 2 ^ 32 ∧ c0 0 = idx % 2 ^ 32 ∧ c1 0 = idx / 2 ^ 32 % 2 ^ 32 ∧ c2 0 = 0 ∧ c3 0 = 0
      ∧ (∀ n, let p0 := 0xD2511F53 * c0 n; let p1 := 0xCD9E8D57 * c2 n
        k0 (n + 1) = (k0 n + 0x9E3779B9) % 2 ^ 32 ∧ k1 (n + 1) = (k1 n + 0xBB67AE85) % 2 ^ 32
        ∧ c0 (n + 1) = p1 / 2 ^ 32 ^^^ c1 n ^^^ k0 n ∧ c1 (n + 1) = p1 % 2 ^ 32
        ∧ c2 (n + 1) = p0 / 2 ^ 32 ^^^ c3 n ^^^ k1 n ∧ c3 (n + 1) = p0 % 2 ^ 32)
      ∧ philox key idx = c0 10 ∧ c0 10 < 2 ^ 32
      ∧ h.rndAt sat i = ⟨h.vcfg.rm, sat, if h.vcfg.rm = .stochastic then philox h.srseed.toNat ((h.sroff.toNat + i) % 2 ^ 64) else 0⟩)
  ∧ (∃ T : Nat → Nat, (∀ k ≤ 64, (2 * T k - 1) ^ 64 < 2 ^ (k + 1536) ∧ 2 ^ (k + 1536) < (2 * T k + 1) ^ 64) ∧
    ∀ (t : Tag) (s : Bool) (q : Rat) (e : Int) (j : Nat), let f := fmtOf t; let (m, w, b) := layout t; let (_, nan) := largestAndNan t
      let inf := (2 ^ w - 1) * 2 ^ m; let frac := size q / pow2 e
      t ∈ [.f32, .f16, .bf16, .f64] →
      rcpe f .nan = ⟨nan, .zero⟩ ∧ rcpe f (.zero s) = ⟨signed t s inf, .DZ⟩ ∧ rcpe f (.inf s) = ⟨signed t s 0, .zero⟩
      ∧ rsqrte f .nan = ⟨nan, .zero⟩ ∧ rsqrte f (.zero s) = ⟨signed t s inf, .DZ⟩ ∧ rsqrte f (.inf s) = (if s then ⟨nan, .NV⟩ else ⟨0, .zero⟩)
      ∧ (t ≠ .f64 → exp2e f .nan = ⟨nan, .zero⟩ ∧ exp2e f (.inf s) = (if s then ⟨0, .zero⟩ else ⟨inf, .zero⟩)
        ∧ exp2e f (.zero s) = ⟨b.toNat * 2 ^ m, .zero⟩
        ∧ (q ≠ 0 → ∀ F : Nat, (e : Rat) ≤ q → q < e + 1 → (F : Rat) ≤ (q - e) * 65536 → (q - e) * 65536 < F + 1 →
          let g := T (F / 1024) + (T (F / 1024 + 1) - T (F / 1024)) * (F % 1024) / 1024
          exp2e f (.fin q) = f.rnd ⟨.nearestEven, false, 0⟩ (.fin (g * pow2 (e - 23)))))
      ∧ (q ≠ 0 → 1 + (j : Rat) / 128 ≤ frac → frac < 1 + ((j : Rat) + 1) / 128 → j < 128 →
        let d := 257 + 2 * j; let est := pow2 (-e - 1) * ((131072 + d) / (2 * d) : Nat) / 128; let r := rcpe f (.fin q)
        (b < -e - 1 → r = ⟨signed t (q < 0) inf, .OFNX⟩)
        ∧ (1 - b ≤ -e - 1 → -e - 1 ≤ b → f.value r.bits = .fin (if q < 0 then -est else est) ∧ r.bits < 2 ^ (1 + w + m) ∧ r.fl = .zero)
        ∧ (-e - 1 < 1 - b → ∀ n : Nat, let u := pow2 (1 - b - m)
          n * u ≤ est → est < n * u + u → r = ⟨signed t (q < 0) n, .UFNX⟩))
      ∧ (q < 0 → rsqrte f (.fin q) = ⟨nan, .NV⟩)
      ∧ (0 < q → (∃ x, f.value x = .fin q) → 1 + (j : Rat) / 64 ≤ frac → frac < 1 + ((j : Rat) + 1) / 64 → j < 64 →
        let D := 2 ^ (e % 2).toNat * (129 + 2 * j); let r := rsqrte f (.fin q)
        ∃ n : Nat, (2 * n - 1) ^ 2 * D ≤ 33554432 ∧ 33554432 < (2 * n + 1) ^ 2 * D ∧ 128 ≤ n ∧ n < 256
          ∧ f.value r.bits = .fin (pow2 (-(e - e % 2) / 2 - 1) * n / 128) ∧ r.bits < 2 ^ (1 + w + m) ∧ r.fl = .zero))

/-- R109, R110. Shifts of an integer tag by an amount taken modulo w (an amount of a narrower signed tag sign-extends first: a reading of
the model, log entry 20), zeros or copies of bit w − 1 entering; and, or, xor of the bits of two tags of one width. The result has va's
tag, and no flag is raised.

R51 to R54, R105, R106, R108, R111, R112, R113. The one-source instructions: absolute value, negation, square root, the estimates;
VMV, which copies bits under va's tag or writes one element under vd's; VID; and VMERGE, which writes every element of [vstart, vl)
from one source or the other by its mask bit.

Readings of the model that it rests on: log entry 36. -/
def Obligations.ShiftBitwiseAndOneSourceResults : Prop :=
  (∀ (s : State) (o : VOps), let h := s.hart; let ta := h.tag o.va; let tb := secondTag h ta o.src; let w := width ta
      let a := sourceElem h o.va ta o.na
      BanksOn h → Fits h [ta, tb] o.m →
      (isInt ta = true → isInt tb = true →
        let n (e : Nat) : Nat := (readInt tb (secondElem h ta true o.src e) % (w : Nat)).toNat
        WritesElements (.vsll o) s o.vd ta o.m (fun e => ⟨a e * 2 ^ n e % 2 ^ w, .zero⟩)
        ∧ WritesElements (.vsrl o) s o.vd ta o.m (fun e => ⟨a e / 2 ^ n e, .zero⟩)
        ∧ WritesElements (.vsra o) s o.vd ta o.m (fun e => intRes ta ((if 2 * a e < 2 ^ w then (a e : Int) else a e - (2 ^ w : Nat)) / (2 ^ n e : Nat))))
      ∧ (w = width tb → (ta = .e8m0 → o.vd = 1) → let b := secondElem h ta false o.src
        WritesElements (.vand o) s o.vd ta o.m (fun e => ⟨a e &&& b e, .zero⟩)
        ∧ WritesElements (.vor o) s o.vd ta o.m (fun e => ⟨a e ||| b e, .zero⟩)
        ∧ WritesElements (.vxor o) s o.vd ta o.m (fun e => ⟨a e ^^^ b e, .zero⟩)))
  ∧ (∀ (s : State) (o : VUn) (q : VOps) (src : VSrc), let h := s.hart; let ta := h.tag o.va; let a := sourceElem h o.va ta o.na
      let root := floatPair ta ta
      BanksOn h →
      (ta ≠ .e8m0 → Fits h [ta] o.m →
        (isInt ta = true → WritesElements (.vabs o) s o.vd ta o.m (fun e => intRes ta (readInt ta (a e)).natAbs)
          ∧ WritesElements (.vneg o) s o.vd ta o.m (fun e => intRes ta (-readInt ta (a e))))
        ∧ (isFloat ta = true → WritesElements (.vabs o) s o.vd ta o.m (fun e => ⟨signOf h.vcfg ta false (a e), .zero⟩)
          ∧ WritesElements (.vneg o) s o.vd ta o.m (fun e => ⟨signOf h.vcfg ta true (a e), .zero⟩)
          ∧ (Fits h [root] o.m → WritesElements (.vsqrt o) s o.vd root o.m
            (fun e => (fmtOf root).rndExact (h.rndAt false e) (fSqrt (readFloat h.vcfg ta (a e))))))
        ∧ (ta ∈ [.f32, .f16, .bf16, .f64] → WritesElements (.vrsqrte o) s o.vd ta o.m (fun e => rsqrte (fmtOf ta) (readFloat h.vcfg ta (a e)))
          ∧ WritesElements (.vrcpe o) s o.vd ta o.m (fun e => rcpe (fmtOf ta) (readFloat h.vcfg ta (a e))))
        ∧ (ta ∈ [.f32, .f16, .bf16] → WritesElements (.vexp2 o) s o.vd ta o.m (fun e => exp2e (fmtOf ta) (readFloat h.vcfg ta (a e)))))
      ∧ (Fits h [ta] o.m → (ta = .e8m0 → o.vd = 1) →
        WritesElements (.vmv ⟨o.vd, o.va, o.na, .vv 0 .none, o.m⟩) s o.vd ta o.m (fun e => ⟨a e, .zero⟩))
      ∧ (let td := h.tag o.vd; Fits h [td] o.m →
        (src.isVV = false → (td = .e8m0 → o.vd = 1) → WritesElements (.vmv ⟨o.vd, 0, .none, src, o.m⟩) s o.vd td o.m
          (fun e => ⟨secondElem h td false src e, .zero⟩))
        ∧ (isInt td = true → WritesElements (.vid o.vd o.m) s o.vd td o.m (fun e => intRes td e)))
      ∧ (let tq := h.tag q.va; Fits h [tq] true → secondTag h tq q.src = tq → (tq = .e8m0 → q.vd = 1) →
        WritesElements (.vmerge q) s q.vd tq false
          (fun e => ⟨if h.bit 0 e then secondElem h tq false q.src e else sourceElem h q.va tq q.na e, .zero⟩)))

/-- The vector registers that a vector, fibre, matrix, scout or engine instruction names, for the check of R22. -/
def Sys2Proof.Safety.namedRegs : Instr → List VIdx :=
  let mask (m : Bool) : List VIdx := if m then [0] else []
  let second : VSrc → List VIdx := fun | .vv vb _ => [vb] | _ => []
  let two (o : VOps) := o.vd :: o.va :: second o.src ++ mask o.m
  let one (o : VUn) := o.vd :: o.va :: mask o.m
  let fibres (fs : List FIdx) := fs.flatMap fun f => [coordReg f, valueReg f]
  let after (o : VOps) : List VIdx := if o.vd = 63 then [] else [o.vd + 1]
  let memory (o : VMem) (more : List VIdx) := o.vd :: more ++ mask o.m
  let atomic (o : VAmoOps) := o.vd :: o.vb :: (if o.va = 0 then [] else [o.va]) ++ mask o.m
  fun
  | .vtag vd _ => [vd]
  | .vadd _ o | .vsub _ o | .vrsub _ o | .vmul o | .vmulh o | .vdiv o | .vrem o | .vmin o | .vmax o | .vand o | .vor o | .vxor o
  | .vsll o | .vsrl o | .vsra o | .vfma o | .vfms o | .vfnma o | .vcmpEq o | .vcmpNe o | .vcmpLt o | .vcmpLe o | .vcmpGt o | .vcmpGe o
  | .vcmpUo o | .mand o | .mor o | .mxor o | .vslideup o | .vslidedn o | .vrgather o | .vzip _ o | .vunzip _ o | .vtrn _ o
  | .vbkt o => two o
  | .vabs o | .vneg o | .vsqrt o | .vrsqrte o | .vrcpe o | .vexp2 o | .mnot o | .vcvt _ _ _ o | .vredsum o | .vredmax o | .vredmin o
  | .vredand o | .vredor o | .vredxor o | .vscanAdd o | .vscanMax o | .vscanMin o => one o
  | .vmv o => o.vd :: (if o.src.isVV then [o.va] else []) ++ mask o.m
  | .vid vd m | .vmvsx vd _ m => vd :: mask m
  | .vmerge o => 0 :: two o
  | .vcvts _ _ _ o => 1 :: one o
  | .vcompress o => 0 :: one o
  | .vmvxs va _ m | .mpop va m | .mfirst va m => va :: mask m
  | .vtopk o | .vselge o => two o ++ after o
  | .vdec _ vd va vb => [vd, va, vb]
  | .vlut _ vd va m => vd :: va :: mask m
  | .ctblW _ va => [va]
  | .vld o | .vst o | .vldq o _ | .vstq o _ | .vlds o _ | .vsts o _ | .vldff o => memory o []
  | .vldx o vb | .vldxo o vb | .vstx o vb | .vstxo o vb | .vsredAdd o vb | .vsredMax o vb | .vsredMin o vb | .vsredOr o vb
  | .vmstore o vb => memory o [vb]
  | .vpref _ _ vb _ => [0, vb]
  | .vamoAdd o | .vamoAnd o | .vamoOr o | .vamoXor o | .vamoMin o | .vamoMax o | .vamoMinn o | .vamoMaxn o | .vamoSwap o | .vamoFadd o
  | .vamooAdd o | .vamooAnd o | .vamooOr o | .vamooXor o | .vamooMin o | .vamooMax o | .vamooMinn o | .vamooMaxn o | .vamooSwap o
  | .vamooFadd o => atomic o
  | .fld f _ _ | .fst f _ _ | .flen f _ | .fsend f _ _ _ | .ixdrain f => fibres [f]
  | .fldlvl f _ _ va | .fexpand va f => va :: fibres [f]
  | .finterMul d a b | .finterAdd d a b | .funionAdd d a b | .funionMax d a b | .funionOr d a b | .fmerge d a b | .fpos d a b =>
    fibres [d, a, b]
  | .fsort d a | .fcompact d a => fibres [d, a]
  | .ixins va vb | .ixaccAdd va vb | .ixaccMax va vb | .ixaccMin va vb | .ixaccOr va vb => [va, vb]
  | .ixlook vd va vb => [vd, va, vb]
  | .tmvTileToVector vd _ _ | .tmvVectorToTile _ vd _ | .tredmax vd _ => [vd]
  | .opa _ _ va vb _ => [va, vb]
  | .opas _ va vb _ => [va, vb, 1]
  | .opag _ _ va vb vx _ => [va, vb, vx]
  | .scoutA vd _ va vb => [vd, va, vb]
  | .scoutT _ vd va => [vd, va]
  | .ecmdCpe vd va m | .ecmdSte vd va m | .ecmdCoe vd va m =>
    vd :: ((List.finRange 64).filter fun r => va.val ≤ r.val ∧ r.val < va.val + 16) ++ mask m
  | _ => []

/-- The gate of the bank that holds a register (R21, R22). -/
def Sys2Proof.Safety.gateOf (h : Hart) (r : VIdx) : Bank := h.vgate.get ⟨r.val / 8, by omega⟩

/-- A hart whose banks that hold registers of a list are on: one that was gated reads as zero, one in retention as before (R22). -/
def Sys2Proof.Safety.awake (h : Hart) (rs : List VIdx) : Hart :=
  let woken (b : Nat) : Bool := rs.any fun r => r.val / 8 = b
  { h with
    vgate := Vector.ofFn fun b => let g := h.vgate.get b; if woken b then (match g.st with
      | .on => g
      | .retention => { g with st := .on }
      | .gated => ⟨.on, false⟩) else g
    vregs := Vector.ofFn fun r => if woken (r.val / 8) = true ∧ (gateOf h r).st = .gated then BitVec.ofNat _ 0 else h.vregs.get r }

/-- R22, R343. What the banks of the registers that an instruction names do to it: with one gated and not declared dead it takes a
gated-register trap with the least such register in eval, and changes nothing before it; with none, it does what it does with those banks on, one
that was gated reading as zero. (`t` is a state in which it has completed: it neither waits nor has trapped.)

R12, R54, R100, R105, R109 to R117, R119 to R131, R133 to R135, R343. What the vector instructions take as an operand trap before they change anything: a
tag or pair of tags that is not legal for them, a vl above VLMAX of a source or the result, a mask of fewer than vl bits, E8M0 as the result's tag in another register than v1, a
vstart that is not 0 where they need it, and the checks of their own.

Readings of the model that it rests on: log entries 17, 62. -/
def Obligations.VectorOperandTraps : Prop :=
  (∀ (s : State) (i : Instr), let h := s.hart
      let barred (r : VIdx) := r ∈ namedRegs i ∧ (gateOf h r).st = .gated ∧ (gateOf h r).dead = false
      h.begun = none → h.retq.length < 16 →
      (∀ r, barred r → (∀ q, barred q → r.val ≤ q.val) →
        exec i s = .next (takeTrap ⟨.gated, BitVec.ofNat 64 r.val, .none⟩ h.pc false false s))
      ∧ ((∀ r, ¬ barred r) → h.status = .resident → ∀ t, exec i { s with hart := awake h (namedRegs i) } = .next t →
        t.hart.waiting = false → t.hart.status = .resident → t.hart.estat.tip = h.estat.tip → exec i s = .next t))
  ∧ (∀ (s : State) (o : VOps) (u : VUn) (sat adv hi : Bool) (tag : Tag) (n : Fin 8) (vb : VIdx), let h := s.hart
      let ta := h.tag o.va; let tb := secondTag h ta o.src; let tc := h.tag o.vd; let tu := h.tag u.va; let td := h.tag u.vd; let t1 := h.tag 1
      let root := floatPair tu tu
      let pairless := pairTag ta tb = none
      let alu (P : Tag → Prop) := pairless ∨ ∃ t, pairTag ta tb = some t ∧ (P t ∨ ¬ Fits h [ta, tb, t] o.m)
      let fma := pairless ∨ ∃ t', pairTag ta tb = some t' ∧ (pairTag t' tc = none
        ∨ ∃ t, pairTag t' tc = some t ∧ ¬ Fits h [ta, tb, tc, t] o.m)
      let shift := isInt ta = false ∨ isInt tb = false ∨ ¬ Fits h [ta, tb] o.m
      let moved := ¬ Fits h [ta] o.m ∨ (ta = .e8m0 ∧ o.vd ≠ 1)
      let bits := width ta ≠ width tb ∨ ¬ Fits h [tb] o.m ∨ moved
      let compared := pairless ∨ ¬ Fits h [ta, tb] true
      let masks := ¬ Fits h [] true
      let single := tu = .e8m0 ∨ ¬ Fits h [tu] u.m
      let other (P : Tag → Prop) := ∃ r nb, o.src = .vv r nb ∧ P (h.tag r)
      let woven := moved ∨ h.vln % 2 = 1 ∨ other fun t => t ≠ ta
      let k := match o.src with | .vx r => (h.getS r).toNat | .vi imm => imm.toNat | .vv _ _ => 0
      let chosen := h.vstart ≠ 0 ∨ ta = .e8m0 ∨ ¬ Fits h [ta] o.m
      BanksOn h → h.retq.length < 16 → ∀ (i : Instr) (bad : Prop), (i, bad) ∈ ([
        (.vtag u.vd tag, tag = .e8m0 ∧ u.vd ≠ 1),
        (.vadd sat o, alu fun _ => False), (.vsub sat o, alu fun _ => False), (.vrsub sat o, alu fun _ => False), (.vmul o, alu fun _ => False),
        (.vmulh o, alu fun t => isFloat t = true), (.vdiv o, alu fun _ => False), (.vrem o, alu fun t => isFloat t = true),
        (.vmin o, alu fun _ => False), (.vmax o, alu fun _ => False), (.vfma o, fma), (.vfms o, fma), (.vfnma o, fma),
        (.vsll o, shift), (.vsrl o, shift), (.vsra o, shift), (.vand o, bits), (.vor o, bits), (.vxor o, bits),
        (.vabs u, single), (.vneg u, single), (.vsqrt u, isFloat tu = false ∨ ¬ Fits h [tu, root] u.m),
        (.vrsqrte u, tu ∉ [.f32, .f16, .bf16, .f64] ∨ ¬ Fits h [tu] u.m), (.vrcpe u, tu ∉ [.f32, .f16, .bf16, .f64] ∨ ¬ Fits h [tu] u.m),
        (.vexp2 u, tu ∉ [.f32, .f16, .bf16] ∨ ¬ Fits h [tu] u.m),
        (.vmv o, if o.src.isVV then moved else ¬ Fits h [tc] o.m ∨ (tc = .e8m0 ∧ o.vd ≠ 1)),
        (.vid u.vd u.m, isInt td = false ∨ ¬ Fits h [td] u.m), (.vmerge o, tb ≠ ta ∨ masks ∨ moved),
        (.vcmpEq o, compared), (.vcmpNe o, compared), (.vcmpLt o, compared), (.vcmpLe o, compared), (.vcmpGt o, compared),
        (.vcmpGe o, compared), (.vcmpUo o, compared), (.mand o, masks), (.mor o, masks), (.mxor o, masks), (.mnot u, masks),
        (.vcvt sat adv tag u, tag = .e8m0 ∨ ¬ Fits h [tu, tag] u.m),
        (.vcvts sat adv tag u, tag = .e8m0 ∨ t1 ∉ [.e8m0, .f32] ∨ u.va = 1 ∨ u.vd = 1 ∨ ¬ Fits h [tag] u.m ∨ single),
        (.vslideup o, moved), (.vslidedn o, moved), (.vrgather o, moved ∨ other fun t => isInt t = false ∨ h.vlmax t < h.vln),
        (.vcompress u, h.vstart ≠ 0 ∨ ¬ Fits h [tu] true ∨ (tu = .e8m0 ∧ u.vd ≠ 1)),
        (.vzip hi o, woven), (.vunzip hi o, woven), (.vtrn hi o, woven),
        (.vredsum u, single), (.vredmax u, single), (.vredmin u, single), (.vredand u, single), (.vredor u, single), (.vredxor u, single),
        (.vscanAdd u, h.vstart ≠ 0 ∨ single ∨ (isFloat tu = true ∧ h.vlmax root < h.vln)), (.vscanMax u, h.vstart ≠ 0 ∨ single),
        (.vscanMin u, h.vstart ≠ 0 ∨ single), (.mpop u.va u.m, masks), (.mfirst u.va u.m, masks),
        (.vtopk o, chosen ∨ k = 0 ∨ h.vln < k ∨ h.vlmax .i32 < k ∨ o.vd = 63),
        (.vbkt o, chosen ∨ tc ≠ .n32 ∨ other fun t => t ≠ .n32),
        (.vselge o, chosen ∨ h.vlmax .i32 < h.vln ∨ o.vd = 63 ∨ 2 ^ 24 < k / 2 ^ 8 % 2 ^ 24 + h.vln),
        (.vlut n u.vd u.va u.m, ¬ Fits h [tu, td] u.m ∨ (td = .e8m0 ∧ u.vd ≠ 1)), (.ctblW n u.va, tu ≠ .n32),
        (.vdec n u.vd u.va vb, h.vstart ≠ 0 ∨ h.tag vb ≠ .n32 ∨ 8 * h.vlmax .n8 < h.elem vb .n32 0 ∨ h.elem vb .n32 0 < h.cura.toNat
          ∨ h.vlmax td < h.vln)] : List (Instr × Prop)) →
      bad → exec i s = .next (takeTrap ⟨.operand, 0, .none⟩ h.pc false false s))
/-! ### Masks, conversions, permutes, reductions, returns, selection, code tables -/

/-- `Takes` as a Boolean. -/
def Sys2Proof.Safety.takes (h : Hart) (m : Bool) (e : Nat) : Bool := decide (h.vst ≤ e ∧ e < h.vln) && (!m || h.bit 0 e)

/-- An instruction that writes element `e` of vd under tag `t` where `f e` is a value, and no other bit of it; vd takes the tag, the
flags `fl` are joined, vstart becomes 0, and nothing else changes (R99, R119). -/
def Sys2Proof.Safety.WritesPlaces (i : Instr) (s : State) (vd : VIdx) (t : Tag) (fl : FFlags) (f : Nat → Option Nat) : Prop :=
  ∃ h, exec i s = .next (retire 8 { s with hart := h }) ∧ h = vectorMoved s.hart h ∧ VectorsKept [vd] s.hart h ∧ h.tag vd = t
    ∧ h.fflags = s.hart.fflags.or fl
    ∧ ∀ e, e < s.hart.vlmax t → h.elem vd t e = match f e with
      | some v => v % 2 ^ valBits t
      | none => s.hart.elem vd t e

/-- An instruction that writes bit `e` of vd, read as a bit string, to `f e` where `e` is active, and no other bit; vd becomes N8 (R15,
R114, R115). -/
def Sys2Proof.Safety.WritesBits (i : Instr) (s : State) (vd : VIdx) (m : Bool) (fl : FFlags) (f : Nat → Bool) : Prop :=
  ∃ h, exec i s = .next (retire 8 { s with hart := h }) ∧ h = vectorMoved s.hart h ∧ VectorsKept [vd] s.hart h ∧ h.tag vd = .n8
    ∧ h.fflags = s.hart.fflags.or fl
    ∧ ∀ e, e < 8 * s.hart.vlmax .n8 → h.bit vd e = if takes s.hart m e then f e else s.hart.bit vd e

/-- An instruction that owes one more return, the value `v`; vstart becomes 0 and nothing else changes (R26). -/
def Sys2Proof.Safety.Returns (i : Instr) (s : State) (v : Nat) : Prop :=
  exec i s = .next (retire 8 { s with hart := { s.hart with vstart := 0, retq := s.hart.retq ++ [BitVec.ofNat 64 v] } })

/-- Bit `e` of a source with its neighbour modifier (R15, R18; that the modifier moves by bits here is a reading, log entry 10). -/
def Sys2Proof.Safety.sourceBit (h : Hart) (r : VIdx) (nb : Nbr) (e : Nat) : Bool :=
  let last := h.vln - 1
  match nb with
  | .none => h.bit r e
  | .l => if e ≠ 0 then h.bit r (e - 1)
    else match h.vcfg.edge with | .zero => false | .wrap => h.bit r last | .clamp => h.bit r 0
  | .r => if e < last then h.bit r (e + 1)
    else match h.vcfg.edge with | .zero => false | .wrap => h.bit r 0 | .clamp => h.bit r last

/-- R43, R114. VCMP writes, for each active element, the bit that its condition gives on the values of the two sources, and raises NV where
an ordering condition meets a NaN. `P` is the condition by its name.

R115. MAND, MOR, MXOR and MNOT combine bit strings, whatever the tags, at the active positions; a neighbour modifier moves them by bits
(the model's reading, log entry 10).

Readings of the model that it rests on: log entry 10. -/
def Obligations.CompareAndMaskResults : Prop :=
  (∀ (s : State) (o : VOps) (t : Tag), let h := s.hart; let ta := h.tag o.va; let tb := secondTag h ta o.src
      let a := sourceElem h o.va ta o.na; let b := secondElem h ta false o.src
      BanksOn h → pairTag ta tb = some t → Fits h [ta, tb] true →
      (isInt t = true → let x e := readInt ta (a e); let y e := readInt tb (b e)
        WritesBits (.vcmpEq o) s o.vd o.m .zero (fun e => decide (x e = y e)) ∧ WritesBits (.vcmpNe o) s o.vd o.m .zero (fun e => decide (x e ≠ y e))
        ∧ WritesBits (.vcmpLt o) s o.vd o.m .zero (fun e => decide (x e < y e)) ∧ WritesBits (.vcmpLe o) s o.vd o.m .zero (fun e => decide (x e ≤ y e))
        ∧ WritesBits (.vcmpGt o) s o.vd o.m .zero (fun e => decide (y e < x e)) ∧ WritesBits (.vcmpGe o) s o.vd o.m .zero (fun e => decide (y e ≤ x e))
        ∧ WritesBits (.vcmpUo o) s o.vd o.m .zero (fun _ => false))
      ∧ (isFloat t = true → let x e := readFloat h.vcfg ta (a e); let y e := readFloat h.vcfg tb (b e)
        let nan e := (x e).isNan || (y e).isNan; let nv := FFlags.nvIf ((h.active o.m).any nan)
        WritesBits (.vcmpEq o) s o.vd o.m .zero (fun e => (x e).eqNum (y e)) ∧ WritesBits (.vcmpNe o) s o.vd o.m .zero (fun e => !(x e).eqNum (y e))
        ∧ WritesBits (.vcmpLt o) s o.vd o.m nv (fun e => (x e).ltNum (y e))
        ∧ WritesBits (.vcmpLe o) s o.vd o.m nv (fun e => (x e).ltNum (y e) || (x e).eqNum (y e))
        ∧ WritesBits (.vcmpGt o) s o.vd o.m nv (fun e => (y e).ltNum (x e))
        ∧ WritesBits (.vcmpGe o) s o.vd o.m nv (fun e => (y e).ltNum (x e) || (x e).eqNum (y e))
        ∧ WritesBits (.vcmpUo o) s o.vd o.m .zero nan))
  ∧ (∀ (s : State) (o : VOps) (vb : VIdx) (nb : Nbr) (u : VUn), let h := s.hart
      let a := sourceBit h o.va o.na; let b := sourceBit h vb nb
      BanksOn h → Fits h [] true → o.src = .vv vb nb →
      WritesBits (.mand o) s o.vd o.m .zero (fun e => a e && b e) ∧ WritesBits (.mor o) s o.vd o.m .zero (fun e => a e || b e)
      ∧ WritesBits (.mxor o) s o.vd o.m .zero (fun e => a e != b e)
      ∧ WritesBits (.mnot u) s u.vd u.m .zero (fun e => !sourceBit h u.va u.na e))

/-- R40, R43 to R45, R116, R117. VCVT converts each active element from va's tag to TAG: integers by value, reduced or clamped, without
flags; anything else through its value, rounded once with the counter index sroff + i. VCVTS divides by, or multiplies with, the scale
of the element's block in v1 first. With adv, sroff advances by vl. An infinity that VCVT with sat converts to its own tag is rounded as any
other value, to the largest finite one, where R116 may be read to keep its bits (the model's choice, log entry 50).

Readings of the model that it rests on: log entry 50. -/
def Obligations.ConversionResults : Prop :=
  ∀ (s : State) (o : VUn) (sat adv : Bool) (td : Tag), let h := s.hart; let ta := h.tag o.va; let t1 := h.tag 1
    let a := sourceElem h o.va ta o.na; let off := if adv then h.sroff + BitVec.ofNat 64 h.vln else h.sroff
    let into (e : Nat) (x : Exact) : Res := if isInt td then ⟨(rndInt td (h.rndAt sat e) x.1).bits, (rndInt td (h.rndAt sat e) x.1).fl.or x.2⟩
      else (fmtOf td).rndExact (h.rndAt sat e) x
    let block e := match h.vcfg.blk with | 0 => e / 16 | 1 => e / 32 | 2 => e / 64 | 3 => 0
    let scaled e := let x := readValue h.vcfg ta (a e); let y := readFloat h.vcfg t1 (h.elem 1 t1 (block e))
      if width td < width ta then fDiv x y else fMul x y
    -- the effect of R99, with sroff written too
    let Converts (i : Instr) (f : Nat → Res) := ∃ h' : Hart, exec i s = .next (retire 8 { s with hart := h' })
      ∧ h' = { vectorMoved h h' with sroff := off } ∧ VectorsKept [o.vd] h h' ∧ h'.tag o.vd = td
      ∧ (∀ e, e < h.vlmax td → h'.elem o.vd td e = if takes h o.m e then (f e).bits % 2 ^ valBits td else h.elem o.vd td e)
      ∧ h'.fflags = h.fflags.or (flagsOf ((h.active o.m).map fun e => (f e).fl))
    BanksOn h → td ≠ .e8m0 → Fits h [ta, td] o.m →
    Converts (.vcvt sat adv td o) (fun e =>
      if isInt ta && isInt td then intRes td (satTo td sat (readInt ta (a e))) else into e (readValue h.vcfg ta (a e), .zero))
    ∧ ((t1 = .e8m0 ∨ t1 = .f32) → o.va ≠ 1 → o.vd ≠ 1 → ta ≠ .e8m0 → Converts (.vcvts sat adv td o) (fun e => into e (scaled e)))

/-- R119 to R123. Slides, gather, compress and the interleaves write each active position of vd from the element that the rule names, under
va's tag, and no other position; VCOMPRESS packs the elements whose mask bit is set. R126: VMVSX writes element 0 alone. An E8M0 source is
legal here (the model's choice, log entry 62).

Readings of the model that it rests on: log entry 62. -/
def Obligations.PermuteResults : Prop :=
  ∀ (s : State) (o : VOps) (u : VUn) (vb vd : VIdx) (r : SReg) (m hi : Bool), let h := s.hart; let t := h.tag o.va; let el := h.elem o.va t
    let k : Int := match o.src with | .vx r => (h.getS r).toNat | .vi imm => imm.toNat | .vv _ _ => 0
    let slid (j : Int) : Nat := if 0 ≤ j ∧ j < h.vln then el j.toNat else match h.vcfg.edge with
      | .zero => 0
      | .wrap => el (j % (h.vln : Int)).toNat
      | .clamp => if j < 0 then el 0 else el (h.vln - 1)
    let at_ (f : Nat → Nat) (e : Nat) : Option Nat := if takes h o.m e then some (f e) else none
    BanksOn h →
    WritesPlaces (.vmvsx vd r m) s vd (h.tag vd) .zero (fun e => if e = 0 ∧ (m = false ∨ h.bit 0 0 = true) then some (h.getS r).toNat else none)
    ∧ (Fits h [t] o.m → (t = .e8m0 → o.vd = 1) → o.src.isVV = false → WritesPlaces (.vslideup o) s o.vd t .zero (at_ fun e => slid (e - k))
      ∧ WritesPlaces (.vslidedn o) s o.vd t .zero (at_ fun e => slid (e + k))
      ∧ WritesPlaces (.vrgather o) s o.vd t .zero (at_ fun _ => if k < h.vln then el k.toNat else 0))
    ∧ (Fits h [t] o.m → (t = .e8m0 → o.vd = 1) → o.src = .vv vb .none → isInt (h.tag vb) = true → Fits h [h.tag vb] false →
      WritesPlaces (.vrgather o) s o.vd t .zero (at_ fun e =>
        let j := readInt (h.tag vb) (h.elem vb (h.tag vb) e); if 0 ≤ j ∧ j < h.vln then el j.toNat else 0))
    ∧ (Fits h [t] o.m → (t = .e8m0 → o.vd = 1) → o.src = .vv vb .none → h.tag vb = t → h.vln % 2 = 0 → let half := h.vln / 2; let two := h.elem vb t; let up := if hi then 1 else 0
      WritesPlaces (.vzip hi o) s o.vd t .zero (at_ fun e => let j := (if hi then half else 0) + e / 2; if e % 2 = 0 then el j else two j)
      ∧ WritesPlaces (.vunzip hi o) s o.vd t .zero (at_ fun e => if e < half then el (2 * e + up) else two (2 * (e - half) + up))
      ∧ WritesPlaces (.vtrn hi o) s o.vd t .zero (at_ fun e => let j := e / 2 * 2 + up; if e % 2 = 0 then el j else two j))
    ∧ (let tu := h.tag u.va; let packed := (List.range h.vln).filter (h.bit 0)
      h.vstart = 0 → Fits h [tu] true → (tu = .e8m0 → u.vd = 1) →
      WritesPlaces (.vcompress u) s u.vd tu .zero (fun e => packed[e]?.map (h.elem u.va tu)))

/-- R47, R49, R124. A reduction writes element 0 of vd alone, from the active elements of va: the sum (modulo 2^w, or in the pairwise tree
of R47 in the format of va with itself), the largest or smallest, or the bitwise combination; with no leaf, the value the table gives;
with vl = 0 it only retags.

R48, R124, R125. A scan writes every position of [0, vl), whatever the mask: integers the sum modulo 2^w, the largest or the smallest of
the elements up to there that the mask takes, or the no-leaf value; floats the running result of R48, each step rounded once.

Readings of the model that it rests on: log entry 36. -/
def Obligations.ReductionAndScanResults : Prop :=
  (∀ (s : State) (o : VUn), let h := s.hart; let t := h.tag o.va; let leaves := h.active o.m; let el := h.elem o.va t
      let ints := leaves.map (fun e => readInt t (el e)); let sumT := if isInt t then t else floatPair t t
      let Puts (i : Instr) (rt : Tag) (r : Res) := WritesPlaces i s o.vd rt (if h.vln = 0 then .zero else r.fl)
        (fun e => if e = 0 ∧ h.vln ≠ 0 then some r.bits else none)
      BanksOn h → Fits h [t] o.m → t ≠ .e8m0 →
      (isInt t = true → Puts (.vredsum o) t (intRes t ints.sum)
        ∧ Puts (.vredmax o) t (intRes t (ints.foldl max (intMin t))) ∧ Puts (.vredmin o) t (intRes t (ints.foldl min (intMax t))))
      ∧ (isFloat t = true → Puts (.vredsum o) sumT ((treeSum (sumRes (fmtOf sumT) h.rndPlain)
          (fun e => if leaves.contains e then some ⟨((fmtOf sumT).rnd .even (readFloat h.vcfg t (el e))).bits, .zero⟩ else none)
          0 (clog2 h.vln)).getD ⟨0, .zero⟩)
        ∧ (let best (f : FVal → FVal → FVal) := (leaves.map fun e => readFloat h.vcfg t (el e)).foldl f .nan
          let res (x : FVal) : Res := if x.isNan then ⟨(fmtOf t).nan, .zero⟩ else ⟨((fmtOf t).rnd .even x).bits, .zero⟩
          Puts (.vredmax o) t (res (best fMax)) ∧ Puts (.vredmin o) t (res (best fMin))))
      ∧ Puts (.vredand o) t ⟨(leaves.map el).foldl (· &&& ·) (2 ^ width t - 1), .zero⟩
      ∧ Puts (.vredor o) t ⟨(leaves.map el).foldl (· ||| ·) 0, .zero⟩ ∧ Puts (.vredxor o) t ⟨(leaves.map el).foldl (· ^^^ ·) 0, .zero⟩)
  ∧ (∀ (s : State) (o : VUn), let h := s.hart; let t := h.tag o.va; let el := h.elem o.va t
      let upto e := ((List.range (e + 1)).filter (h.masked o.m)).map (fun j => readInt t (el j)); let sumT := if isInt t then t else floatPair t t
      let Fills (i : Instr) (rt : Tag) (f : Nat → Nat) := ∃ fl, WritesPlaces i s o.vd rt fl (fun e => if e < h.vln then some (f e) else none)
      BanksOn h → Fits h [t] o.m → h.vstart = 0 →
      (isInt t = true → Fills (.vscanAdd o) t (fun e => (intRes t (upto e).sum).bits)
        ∧ Fills (.vscanMax o) t (fun e => (intRes t ((upto e).foldl max (intMin t))).bits)
        ∧ Fills (.vscanMin o) t (fun e => (intRes t ((upto e).foldl min (intMax t))).bits))
      ∧ (isFloat t = true →
        (Fits h [sumT] false → ∃ acc : Nat → Option Nat, acc 0 = none
          ∧ (∀ e, acc (e + 1) = if h.masked o.m e then
              let x := ((fmtOf sumT).rnd .even (readFloat h.vcfg t (el e))).bits
              some (match acc e with
                | none => x
                | some a => ((fmtOf sumT).rnd h.rndPlain (fAdd h.rndPlain.rm ((fmtOf sumT).value a) ((fmtOf sumT).value x)).1).bits) else acc e)
          ∧ Fills (.vscanAdd o) sumT (fun e => (acc (e + 1)).getD 0))
        ∧ ∀ (i : Instr) (f : FVal → FVal → FVal), (i, f) ∈ ([(.vscanMax o, fMax), (.vscanMin o, fMin)] : List (Instr × (FVal → FVal → FVal))) →
          ∃ acc : Nat → Option Nat, acc 0 = none
          ∧ (∀ e, acc (e + 1) = if h.masked o.m e then
              let x := readFloat h.vcfg t (el e)
              some (match acc e with
                | none => ((fmtOf t).rnd .even x).bits
                | some a => let y := f ((fmtOf t).value a) x
                  if y.isNan then (fmtOf t).nan else ((fmtOf t).rnd .even y).bits) else acc e)
          ∧ Fills i t (fun e => (acc (e + 1)).getD (fmtOf t).nan)))

/-- R27, R95. QRD takes the oldest owed value into s[sd]; with none owed it is illegal. R96: DRAIN completes with nothing changed
where it does not name the store queue or no store waits for its response, and, if it names the return queue, no return is owed; it is illegal where one is.

R228. PART in supervisor mode sets the policy of the core that the word names by its coreid, and nothing else; a core number at
or above ncores, mode 0b11 or a reserved bit is an operand trap, and in user mode PART is illegal.

R26, R27, R126, R127. VMVXS, MPOP and MFIRST owe one return each: the element widened, or 0 where the index or the mask excludes it; the
number of set bits at the active positions; the lowest such position, or all ones. With sixteen returns owed they are illegal.

Readings of the model that it rests on: log entry 1. -/
def Obligations.ReturnQueueInstructions : Prop :=
  (∀ (s : State) (d : SReg) (v : Word) (rest : List Word) (a b c e : Bool),
      (s.hart.retq = v :: rest → exec (.qrd d) s = .next (retire 4 ({ s with hart := { s.hart with retq := rest } }.setS d v)))
      ∧ (s.hart.retq = [] → exec (.qrd d) s = .next (takeTrap ⟨.illegal, firstParcel (.qrd d), .none⟩ s.hart.pc false false s))
      ∧ ((b = true → s.hart.retq = []) → (c = true → s.storeQueued = false) → exec (.drain a b c e) s = .next (retire 4 s))
      ∧ (b = true → s.hart.retq ≠ [] →
        exec (.drain a b c e) s = .next (takeTrap ⟨.illegal, firstParcel (.drain a b c e), .none⟩ s.hart.pc false false s)))
  ∧ (∀ (s : State) (a : SReg), let v := (s.getS a).toNat; let trap (c : Cause) (e : Word) := takeTrap ⟨c, e, .none⟩ s.hart.pc false false s
      (s.hart.mode = .user → exec (.part a) s = .next (trap .illegal (firstParcel (.part a))))
      ∧ (s.hart.mode = .supervisor → s.coreMap.length ≤ v % 256 ∨ v / 2 ^ 10 % 4 = 3 ∨ 2 ^ 12 ≤ v →
        exec (.part a) s = .next (trap .operand 0))
      ∧ (s.hart.mode = .supervisor → v % 256 < s.coreMap.length → v / 2 ^ 10 % 4 ≠ 3 → v < 2 ^ 12 → ∃ c : Fin 192,
        s.coreMap[v % 256]? = some c.val ∧ exec (.part a) s = .next (retire 4 { s with cores := s.cores.set c.val { s.cores.get c with
          part := if v / 2 ^ 10 % 4 = 0 then .free else if v / 2 ^ 10 % 4 = 1 then .pinned else .closed
          partPlog := Fin.ofNat 4 (v / 2 ^ 8) } })))
  ∧ (∀ (s : State) (va : VIdx) (src : VSrc) (m : Bool), let h := s.hart; let t := h.tag va
    let k := match src with | .vx r => (h.getS r).toNat | .vi imm => imm.toNat | .vv _ _ => 0
    let hits := (List.range h.vln).filter (fun e => takes h m e && h.bit va e)
    (BanksOn h → h.retq.length < 16 →
      Returns (.vmvxs va src m) s (if k < h.vlmax t ∧ (m = false ∨ h.bit 0 k = true)
        then (if isI t then (readInt t (h.elem va t k) % 2 ^ 64).toNat else h.elem va t k) else 0)
      ∧ (Fits h [] true → Returns (.mpop va m) s hits.length ∧ Returns (.mfirst va m) s (hits.headD (2 ^ 64 - 1))))
    ∧ (h.retq.length = 16 → ∀ i ∈ [Instr.vmvxs va src m, .mpop va m, .mfirst va m],
      exec i s = .next (takeTrap ⟨.illegal, firstParcel i, .none⟩ h.pc false false s)))

/-- R128 to R131. VTOPK writes the k best candidates of va, by descending order key and then ascending index, with their indices in the next
register, and pads what is left; VBKT adds the candidates of each bucket to its 256 counts; VSELGE packs the candidates at or above a
bucket, with their indices from a base, and owes their number. NaNs are no candidates. Under a flush bit a subnormal ranks as the zero that
replaces it and is written with its own bits (the model's choice, log entry 61).

Readings of the model that it rests on: log entry 61. -/
def Obligations.SelectionResults : Prop :=
  ∀ (s : State) (o : VOps) (vb : VIdx), let h := s.hart; let t := h.tag o.va; let el := h.elem o.va t
    let key e := orderKey h.vcfg t (el e)
    let cands := (List.range h.vln).filter fun e => (!o.m || h.bit 0 e) && (isInt t || !((fmtOf t).value (el e)).isNan)
    let k := match o.src with | .vx r => (h.getS r).toNat | .vi imm => imm.toNat | .vv _ _ => 0
    let pad := if isFloat t then (fmtOf t).nan else 0
    let v1 := o.vd + 1
    BanksOn h → t ≠ .e8m0 → Fits h [t] o.m → h.vstart = 0 →
    (1 ≤ k → k ≤ h.vln → k ≤ h.vlmax .i32 → o.vd.val < 63 → ∃ (best : List Nat) (h' : Hart),
      exec (.vtopk o) s = .next (retire 8 { s with hart := h' }) ∧ h' = vectorMoved h h' ∧ VectorsKept [o.vd, v1] h h'
      ∧ h'.fflags = h.fflags ∧ h'.tag o.vd = t ∧ h'.tag v1 = .i32
      ∧ best.length = min k cands.length ∧ best.Nodup ∧ (∀ e ∈ best, e ∈ cands)
      ∧ best.Pairwise (fun x y => key y < key x ∨ (key x = key y ∧ x < y))
      ∧ (∀ x ∈ best, ∀ y ∈ cands, y ∉ best → key y < key x ∨ (key x = key y ∧ x < y))
      ∧ (∀ r < k, h'.elem o.vd t r = (match best[r]? with | some e => el e | none => pad) % 2 ^ valBits t
        ∧ h'.elem v1 .i32 r = (match best[r]? with | some e => e | none => 2 ^ 32 - 1) % 2 ^ 32)
      ∧ (∀ r, k ≤ r → (r < h.vlmax t → h'.elem o.vd t r = h.elem o.vd t r) ∧ (r < h.vlmax .i32 → h'.elem v1 .i32 r = h.elem v1 .i32 r)))
    ∧ (o.src = .vv vb .none → h.tag o.vd = .n32 → h.tag vb = .n32 → WritesPlaces (.vbkt o) s o.vd .n32 .zero fun c =>
      if c < 256 then some (h.elem vb .n32 c + (cands.filter fun e => bucketOf h.vcfg t (el e) = c).length) else none)
    ∧ (let base := k / 2 ^ 8 % 2 ^ 24; let hits := cands.filter fun e => k % 256 ≤ bucketOf h.vcfg t (el e)
      h.retq.length < 16 → h.vln ≤ h.vlmax .i32 → o.vd.val < 63 → base + h.vln ≤ 2 ^ 24 → ∃ h' : Hart,
      exec (.vselge o) s = .next (retire 8 { s with hart := h' })
      ∧ h' = { vectorMoved h h' with retq := h.retq ++ [BitVec.ofNat 64 hits.length] } ∧ VectorsKept [o.vd, v1] h h'
      ∧ h'.fflags = h.fflags ∧ h'.tag o.vd = t ∧ h'.tag v1 = .i32
      ∧ ∀ j, (∀ e, hits[j]? = some e → h'.elem o.vd t j = el e ∧ h'.elem v1 .i32 j = base + e)
        ∧ (hits[j]? = none → (j < h.vlmax t → h'.elem o.vd t j = h.elem o.vd t j)
          ∧ (j < h.vlmax .i32 → h'.elem v1 .i32 j = h.elem v1 .i32 j)))

/-- R132 to R135. VLUT writes, for each active element, the low bits of the entry that the element's low byte names in the active bank; CTBL.W
writes the 256 entries of the inactive bank, once no accepted command reads it; CTBL.SWAP flips the selector; VDEC writes the symbols that the loop of R135 delivers and owes
their count with the status, the cursors at zero when it ends without an early stop and at the place it reached otherwise. VLUT takes an
E8M0 source (the model's choice, log entry 62).

Readings of the model that it rests on: log entry 62. -/
def Obligations.CodeTableResults : Prop :=
  ∀ (s : State) (n : Fin 8) (vd va vb : VIdx) (m : Bool), let h := s.hart; let t := h.tag vd; let tab := s.core.tables.get n
    let active := if tab.sel then tab.bank1 else tab.bank0
    let entry (x : Nat) := active.toNat / 2 ^ (32 * x) % 2 ^ 32
    (BanksOn h → Fits h [h.tag va, t] m → (t = .e8m0 → vd = 1) →
      WritesElements (.vlut n vd va m) s vd t m fun e => ⟨entry (h.elem va (h.tag va) e % 256) % 2 ^ width t, .zero⟩)
    ∧ (BanksOn h → h.tag va = .n32 → s.bankRead n = false → ∃ b : BitVec Config.bankBits, let u := { s with hart := { h with vstart := 0 } }
      let filled := if tab.sel then { tab with bank0 := b } else { tab with bank1 := b }
      exec (.ctblW n va) s = .next (retire 8 (u.setCore { s.core with tables := s.core.tables.set n filled }))
      ∧ ∀ x < 256, b.toNat / 2 ^ (32 * x) % 2 ^ 32 = h.elem va .n32 x)
    ∧ (let u := { s with hart := { h with vstart := 0 } }
      exec (.ctblSwap n) s = .next (retire 8 (u.setCore { s.core with tables := s.core.tables.set n { tab with sel := !tab.sel } })))
    ∧ (BanksOn h → h.retq.length < 16 → h.vstart = 0 → h.tag vb = .n32 → let B := h.elem vb .n32 0
      B ≤ 8 * h.vlmax .n8 → h.cura.toNat ≤ B → Fits h [t] false →
      let r := decodeBits active (h.bitString va) B (width t) h.cura.toNat h.vln
      ∃ h' : Hart, exec (.vdec n vd va vb) s = .next (retire 8 { s with hart := h' })
      ∧ h' = { vectorMoved h h' with cura := h'.cura, curb := h'.curb, retq := h.retq ++ [BitVec.ofNat 64 (r.syms.length + r.status * 2 ^ 32)] }
      ∧ VectorsKept [vd] h h' ∧ h'.fflags = h.fflags ∧ h'.tag vd = t
      ∧ (∀ e, e < h.vlmax t → h'.elem vd t e = match r.syms[e]? with | some v => v % 2 ^ valBits t | none => h.elem vd t e)
      ∧ (if r.status = 0 then h'.cura = 0 ∧ h'.curb = 0
        else h'.cura = BitVec.ofNat 32 r.pos ∧ h'.curb = h.curb + BitVec.ofNat 32 r.syms.length))
/-! ### Vector memory -/

/-- R138, R139, R144, R148, R151. The vector loads of every form, in plain memory: each active element of vd takes the w bits at its
address (of an E3M2 or E2M3 the six that carry its value, R12), every other element, register and tag keeps its bits, vl stays, vstart becomes 0, and no byte of memory changes. -/
def Obligations.VectorLoadsReadTheirElements : Prop :=
  ∀ (s : State) (o : VMem) (r : SReg) (vb : VIdx), let h := s.hart; let t := h.tag o.vd; let w := width t
    ∀ (i : Instr) (m : Addressing), (i, m) ∈ [(Instr.vld o, Addressing.unit), (.vldq o r, .quarter (s.getS r)),
      (.vlds o r, .strided (s.getS r)), (.vldx o vb, .indexed vb), (.vldxo o vb, .indexed vb), (.vldff o, .unit)] →
    let addr := elemAddr h t (memoryBase s o.base o.off) m; let bit := elemBit h t m
    LegalForm h t m → PlainElements s o addr (fun e => (bit e + w + 7) / 8) →
    ∃ u, exec i s = .next (retire 8 u) ∧ MemoryEffects s u ∧ BytesKept s u ∧ u.poison = s.poison
      ∧ u.hart = keeping { h with vregs := u.hart.vregs, vstart := 0 } u.hart ∧ VectorsKept [o.vd] h u.hart
      ∧ ∀ e, e < h.vlmax t → (Takes h o.m e → ∀ q < w, (u.hart.elem o.vd t e).testBit q
          = (decide (q < valBits t) && bitAt s (8 * localKey (addr e).toNat + bit e + q)))
        ∧ (¬ Takes h o.m e → u.hart.elem o.vd t e = h.elem o.vd t e)

/-- R138, R139, R143, R147, R148. The vector stores of every form, in plain memory: each bit that an active element covers takes that
element's bit, of the highest such element; every other bit of memory keeps its value; no register changes but vstart, which becomes 0. -/
def Obligations.VectorStoresWriteTheirElements : Prop :=
  ∀ (s : State) (o : VMem) (r : SReg) (vb : VIdx), let h := s.hart; let t := h.tag o.vd; let w := width t
    ∀ (i : Instr) (m : Addressing), (i, m) ∈ [(Instr.vst o, Addressing.unit), (.vstq o r, .quarter (s.getS r)),
      (.vsts o r, .strided (s.getS r)), (.vstx o vb, .indexed vb), (.vstxo o vb, .indexed vb)] →
    let addr := elemAddr h t (memoryBase s o.base o.off) m; let bit := elemBit h t m
    let pos (e : Nat) := 8 * localKey (addr e).toNat + bit e
    let at_ (e n : Nat) := Takes h o.m e ∧ pos e ≤ n ∧ n < pos e + w
    LegalForm h t m → PlainElements s o addr (fun e => (bit e + w + 7) / 8) →
    ∃ u, exec i s = .next (retire 8 u) ∧ MemoryEffects s u
      ∧ u.hart = keeping { h with vstart := 0, watch := u.hart.watch, early := u.hart.early } u.hart
      ∧ (∀ e n, at_ e n → (∀ e', e < e' → ¬ at_ e' n) → bitAt u n = (h.elem o.vd t e).testBit (n - pos e))
      ∧ (∀ n, (∀ e, ¬ at_ e n) → bitAt u n = bitAt s n)

/-- R30, R140, R141, R149, R343. What a vector load or store takes as a trap with nothing accessed: an operand trap for an illegal form; a
misaligned-access trap with the address of the lowest active element that is misaligned; in bare mode, when every element is aligned,
an access fault with the address of the lowest active element whose address names nothing. VLDFF, VLDXO and VSTXO take that fault here
where the element is the lowest active one (VLDXO and VSTXO with vstart at it, R148); past one that is not, VLDFF goes on.

R144, R148, R151, R262. A poisoned sector in plain memory: VLD, VLDQ, VLDS, VLDX and VLDXO load the active elements below the first poisoned
one, set vstart to it and take a poison trap with its address; VLDFF, where that is not its lowest active element, loads those below it and sets vl to it
instead, and where it is, takes the trap with no register changed.

R143, R262. A poisoned sector that a vector store writes: its bytes are written, and it loses its poison where the instruction's active elements cover it
whole, and only there.

Readings of the model that it rests on: log entries 18, 19. -/
def Obligations.VectorMemoryTrapsAndPoison : Prop :=
  (∀ (s : State) (o : VMem) (r : SReg) (vb : VIdx), let h := s.hart; let t := h.tag o.vd
      ∀ (i : Instr) (m : Addressing) (k : AccessKind), (i, m, k) ∈ [(Instr.vld o, Addressing.unit, AccessKind.load),
        (.vldq o r, .quarter (s.getS r), .load), (.vlds o r, .strided (s.getS r), .load), (.vldx o vb, .indexed vb, .load),
        (.vst o, .unit, .store), (.vstq o r, .quarter (s.getS r), .store), (.vsts o r, .strided (s.getS r), .store),
        (.vstx o vb, .indexed vb, .store), (.vldff o, .unit, .load), (.vldxo o vb, .indexed vb, .load), (.vstxo o vb, .indexed vb, .store)] →
      let addr := elemAddr h t (memoryBase s o.base o.off) m
      let mis (e : Nat) := Takes h o.m e ∧ 8 ≤ width t ∧ (addr e).toNat % (width t / 8) ≠ 0
      let lost (e : Nat) := Takes h o.m e ∧ s.home (addr e).toNat 0 0 = none
      let trap (c : Cause) (v : Word) (k : AccessKind) := exec i s = .next (takeTrap ⟨c, v, k⟩ h.pc true false s)
      BanksOn h → Unbegun h →
      ((¬ LegalForm h t m ∨ h.vlmax t < h.vln) → trap .operand 0 .none)
      ∧ (LegalForm h t m → h.vln ≤ h.vlmax t →
        (∀ e, mis e → (∀ e' < e, ¬ mis e') → trap .misaligned (addr e) k)
        ∧ ((∀ e, ¬ mis e) → h.prog = false → (∀ e, Takes h o.m e → Bare s (addr e) ∧ (lost e ∨ (addr e).toNat < localTop)) →
          ∀ e, lost e → (∀ e' < e, ¬ lost e') →
            let first := ∀ e', Takes h o.m e' → e ≤ e'
            (i ∉ [.vldff o, .vldxo o vb, .vstxo o vb] → trap .access (addr e) k) ∧ (i = .vldff o → first → trap .access (addr e) k)
            ∧ (i ∈ [.vldxo o vb, .vstxo o vb] → first → exec i s = .next (takeTrap ⟨.access, addr e, k⟩ h.pc true false
              { s with hart := { h with vstart := BitVec.ofNat 16 e } })))))
  ∧ (∀ (s : State) (o : VMem) (r : SReg) (vb : VIdx) (f : Nat), let h := s.hart; let t := h.tag o.vd; let w := width t
      ∀ (i : Instr) (m : Addressing), (i, m) ∈ [(Instr.vld o, Addressing.unit), (.vldq o r, .quarter (s.getS r)),
        (.vlds o r, .strided (s.getS r)), (.vldx o vb, .indexed vb), (.vldxo o vb, .indexed vb), (.vldff o, .unit)] →
      let addr := elemAddr h t (memoryBase s o.base o.off) m; let bit := elemBit h t m
      let key e := localKey (addr e).toNat; let n e := (bit e + w + 7) / 8
      let bad e := ∃ j < n e, s.poisoned (key e + j) = true
      let clean := { s with poison := [] }
      LegalForm h t m → PlainElements clean o addr n → Takes h o.m f → bad f → (∀ e, Takes h o.m e → e < f → ¬ bad e) →
      let Loaded (k : Hart) (vl : BitVec 16) (vstart : BitVec 16) := k = keeping { h with vregs := k.vregs, vl := vl, vstart := vstart } k
        ∧ VectorsKept [o.vd] h k
        ∧ ∀ e, e < h.vlmax t → (Takes h o.m e ∧ e < f → ∀ q < w, (k.elem o.vd t e).testBit q
            = (decide (q < valBits t) && bitAt s (8 * key e + bit e + q)))
          ∧ (¬ (Takes h o.m e ∧ e < f) → k.elem o.vd t e = h.elem o.vd t e)
      (i ≠ .vldff o → ∃ u, exec i s = .next (takeTrap ⟨.poison, addr f, .load⟩ h.pc true false u) ∧ MemoryEffects s u ∧ BytesKept s u
        ∧ Loaded u.hart h.vl (BitVec.ofNat 16 f))
      ∧ (i = .vldff o → (∃ e < f, Takes h o.m e) → ∃ u, exec (.vldff o) s = .next (retire 8 u) ∧ MemoryEffects s u ∧ BytesKept s u
        ∧ Loaded u.hart (BitVec.ofNat 16 f) 0)
      ∧ (i = .vldff o → (∀ e < f, ¬ Takes h o.m e) → ∃ u, exec (.vldff o) s = .next (takeTrap ⟨.poison, addr f, .load⟩ h.pc true false u)
        ∧ MemoryEffects s u ∧ BytesKept s u ∧ u.hart = keeping h u.hart))
  ∧ (∀ (s : State) (o : VMem) (r : SReg) (vb : VIdx), let h := s.hart; let t := h.tag o.vd; let w := width t
      ∀ (i : Instr) (m : Addressing), (i, m) ∈ [(Instr.vst o, Addressing.unit), (.vstq o r, .quarter (s.getS r)),
        (.vsts o r, .strided (s.getS r)), (.vstx o vb, .indexed vb), (.vstxo o vb, .indexed vb)] →
      let addr := elemAddr h t (memoryBase s o.base o.off) m; let bit := elemBit h t m
      let pos (e : Nat) := 8 * localKey (addr e).toNat + bit e
      let at_ (e n : Nat) := Takes h o.m e ∧ pos e ≤ n ∧ n < pos e + w
      LegalForm h t m → PlainElements { s with poison := [] } o addr (fun e => (bit e + w + 7) / 8) →
      ∃ u, exec i s = .next (retire 8 u) ∧ MemoryEffects s u
        ∧ (∀ e n, at_ e n → (∀ e', e < e' → ¬ at_ e' n) → bitAt u n = (h.elem o.vd t e).testBit (n - pos e))
        ∧ (∀ n, (∀ e, ¬ at_ e n) → bitAt u n = bitAt s n)
        ∧ ∀ q, q ∈ u.poison ↔ q ∈ s.poison ∧ ∃ n, n / 256 = q ∧ ∀ e, ¬ at_ e n)

/-- R137, R154, R389. VPREF in bare mode completes whatever its addresses, and changes nothing but vstart and the request counters (by which
elements it counts, the model chooses: log entry 38). VMSTORE with
no destination or no active element only sets vstart to 0; with this device alone as destination it writes as VST does; with an
unassigned device it is an operand trap.

Readings of the model that it rests on: log entries 26, 38. -/
def Obligations.PrefetchAndMulticast : Prop :=
  ∀ (s : State) (o : VMem) (base : SReg) (off : BitVec 14) (vb : VIdx) (m : Bool), let h := s.hart; let t := h.tag o.vd; let w := width t
    let addr := elemAddr h t (memoryBase s o.base o.off) .unit; let bit := elemBit h t .unit
    let pos (e : Nat) := 8 * localKey (addr e).toNat + bit e
    let at_ (e n : Nat) := Takes h o.m e ∧ pos e ≤ n ∧ n < pos e + w
    let named (d : Nat) := d < 1024 ∧ h.bit vb d = true
    BanksOn h →
    (s.ctx.vatp.toNat / 2 ^ 60 = 0 → (vb = 0 → h.vln ≤ h.vlmax .n8) →
      (vb ≠ 0 → isInt (h.tag vb) = true ∧ 8 ≤ width (h.tag vb) ∧ h.vln ≤ h.vlmax (h.tag vb)) → ∃ near far,
      exec (.vpref base off vb m) s
        = .next (retire 8 ({ s with hart := { h with vstart := 0 } }.setCore { s.core with ctrloc := near, ctrrem := far })))
    ∧ ((∀ d, ¬ named d) ∨ ((∀ d, named d → d / 32 < s.fabric.nrow ∧ d % 32 < s.fabric.ncol) ∧ ∀ e, ¬ Takes h o.m e) →
      exec (.vmstore o vb) s = .next (retire 8 { s with hart := { h with vstart := 0 } }))
    ∧ ((∃ d, named d ∧ (s.fabric.nrow ≤ d / 32 ∨ s.fabric.ncol ≤ d % 32)) →
      exec (.vmstore o vb) s = .next (takeTrap ⟨.operand, 0, .none⟩ h.pc true false s))
    ∧ ((∀ d, named d ↔ d = s.fabric.self) → s.fabric.self / 32 < s.fabric.nrow → s.fabric.self % 32 < s.fabric.ncol →
      (∃ e, Takes h o.m e) → PlainElements s o addr (fun e => (bit e + w + 7) / 8) →
      ∃ u, exec (.vmstore o vb) s = .next (retire 8 u) ∧ MemoryEffects s u
        ∧ u.hart = keeping { h with vstart := 0, watch := u.hart.watch, early := u.hart.early } u.hart
        ∧ (∀ e n, at_ e n → (∀ e', e < e' → ¬ at_ e' n) → bitAt u n = (h.elem o.vd t e).testBit (n - pos e))
        ∧ (∀ n, (∀ e, ¬ at_ e n) → bitAt u n = bitAt s n))

/-- R152, R153, R262. VSRED in plain memory, poisoned or not, vstart 0: the values of the active elements at one address are combined in ascending index, and their
combination is applied once to what memory holds there; no other byte changes, and no register but vstart and the flags; a poisoned
sector stays poisoned.

Readings of the model that it rests on: log entry 22. -/
def Obligations.ScatterReduceResults : Prop :=
  ∀ (s : State) (o : VMem) (vb : VIdx), let h := s.hart; let t := h.tag o.vd; let n := width t / 8
    let addr := elemAddr h t (memoryBase s o.base o.off) (.indexed vb); let key e := localKey (addr e).toNat
    ∀ (i : Instr) (op : Rop), (i, op) ∈ [(Instr.vsredAdd o vb, Rop.add), (.vsredMax o vb, .max), (.vsredMin o vb, .min), (.vsredOr o vb, .or)] →
    (8 ≤ width t ∧ isInt t = true ∨ (op ≠ .or ∧ t ∈ [.f64, .f32, .f16, .bf16])) →
    LegalForm h t (.indexed vb) → PlainElements { s with poison := [] } o addr (fun _ => n) → h.vstart = 0 →
    NoneWaits s (fun l => ∃ e, Takes h o.m e ∧ l = key e / 128) →
    ∃ u, exec i s = .next (retire 8 u) ∧ MemoryEffects s u ∧ u.poison = s.poison
      ∧ u.hart = keeping { h with vstart := 0, fflags := u.hart.fflags, watch := u.hart.watch, early := u.hart.early } u.hart
      ∧ (∀ e old, Takes h o.m e → Holds s (key e) n old →
        let group := (h.active o.m).filter (fun e' => key e' = key e)
        let sum := op.merge h.rndPlain t (group.map fun e' => ropLeaf h.vcfg t (h.elem o.vd t e'))
        Holds u (key e) n ((op.apply h.rndPlain t (ropLeaf h.vcfg t old) sum).bits % 2 ^ width t))
      ∧ ∀ a, (∀ e, Takes h o.m e → ¬ In (key e) n a) → u.mem.get a = s.mem.get a

/-- The tags that an atomic accepts (R291). -/
def Sys2Proof.Safety.AmoTag (t : Tag) : AmoOp → Prop
  | .swap => (width t = 32 ∨ width t = 64) ∧ t ≠ .e8m0
  | .fadd => t = .f32 ∨ t = .f64
  | .cas => False
  | _ => t = .i32 ∨ t = .i64 ∨ t = .n32 ∨ t = .n64

/-- R287, R291, R292, R293. VAMO in plain memory, vstart 0: at each address, memory takes op(old, P) with P the combination of the active elements
there in ascending index, and with va ≠ v0 each of those elements of va takes old, or op(old, P) with P the combination of the ones before
it, under vd's tag, which va takes as the instruction completes (log entry 53); no other byte changes, and no other register but the flags
and vstart.

R287, R291, R294. VAMOO in plain memory applies the active elements one after another in ascending index: at each address memory takes the
result of applying each of them to what the one before left, and with va ≠ v0 each of those elements of va takes what it found.

R293, R294. Where an active element lies in a poisoned sector they take a poison trap with that sector's address: VAMO with nothing written; VAMOO at the lowest such
element, with those below it applied and vstart at it.

Readings of the model that it rests on: log entries 22, 53, 64. -/
def Obligations.VectorAtomicsCombineOrApplyInOrder : Prop :=
  (∀ (s : State) (o : VAmoOps), let h := s.hart; let t := h.tag o.vd; let n := width t / 8; let o' : VMem := ⟨o.vd, o.base, 0, o.m⟩
      let addr := elemAddr h t (memoryBase s o.base 0) (.indexed o.vb); let key e := localKey (addr e).toNat
      ∀ (i : Instr) (op : AmoOp), (i, op) ∈ [(Instr.vamoAdd o, AmoOp.add), (.vamoAnd o, .and), (.vamoOr o, .or), (.vamoXor o, .xor),
        (.vamoMin o, .min), (.vamoMax o, .max), (.vamoMinn o, .minn), (.vamoMaxn o, .maxn), (.vamoSwap o, .swap), (.vamoFadd o, .fadd)] →
      let join := amoJoin h.vcfg op (width t); let val e : Res := ⟨h.elem o.vd t e, .zero⟩
      AmoTag t op → LegalForm h t (.indexed o.vb) → PlainElements s o' addr (fun _ => n) → h.vstart = 0 →
      NoneWaits s (fun l => ∃ e, Takes h o.m e ∧ l = key e / 128) →
      ∃ u, exec i s = .next (retire 8 u) ∧ MemoryEffects s u
        ∧ u.hart = keeping { h with
            vstart := 0, fflags := u.hart.fflags, watch := u.hart.watch, early := u.hart.early, vregs := u.hart.vregs, vtags := u.hart.vtags } u.hart
        ∧ VectorsKept (if o.va = 0 then [] else [o.va]) h u.hart ∧ (o.va ≠ 0 → u.hart.tag o.va = t)
        ∧ (∀ e old, Takes h o.m e → Holds s (key e) n old →
          let group := (h.active o.m).filter (fun e' => key e' = key e)
          let total (l : List Nat) : Option Res := l.foldl (fun p e' => some (match p with | none => val e' | some p => join p (val e'))) none
          Holds u (key e) n (((total group).elim old fun p => (join ⟨old, .zero⟩ p).bits) % 2 ^ width t)
          ∧ (o.va ≠ 0 → u.hart.elem o.va t e
            = ((total (group.filter (· < e))).elim old fun p => (join ⟨old, .zero⟩ p).bits) % 2 ^ width t))
        ∧ (∀ e, o.va ≠ 0 → e < h.vlmax t → ¬ Takes h o.m e → u.hart.elem o.va t e = h.elem o.va t e)
        ∧ ∀ a, (∀ e, Takes h o.m e → ¬ In (key e) n a) → u.mem.get a = s.mem.get a)
  ∧ (∀ (s : State) (o : VAmoOps), let h := s.hart; let t := h.tag o.vd; let n := width t / 8; let o' : VMem := ⟨o.vd, o.base, 0, o.m⟩
      let addr := elemAddr h t (memoryBase s o.base 0) (.indexed o.vb); let key e := localKey (addr e).toNat
      ∀ (i : Instr) (op : AmoOp), (i, op) ∈ [(Instr.vamooAdd o, AmoOp.add), (.vamooAnd o, .and), (.vamooOr o, .or), (.vamooXor o, .xor),
        (.vamooMin o, .min), (.vamooMax o, .max), (.vamooMinn o, .minn), (.vamooMaxn o, .maxn), (.vamooSwap o, .swap), (.vamooFadd o, .fadd)] →
      let join := amoJoin h.vcfg op (width t)
      AmoTag t op → LegalForm h t (.indexed o.vb) → PlainElements s o' addr (fun _ => n) →
      NoneWaits s (fun l => ∃ e, Takes h o.m e ∧ l = key e / 128) →
      ∃ u, exec i s = .next (retire 8 u) ∧ MemoryEffects s u
        ∧ u.hart = keeping { h with
            vstart := 0, fflags := u.hart.fflags, watch := u.hart.watch, early := u.hart.early, vregs := u.hart.vregs, vtags := u.hart.vtags } u.hart
        ∧ VectorsKept (if o.va = 0 then [] else [o.va]) h u.hart ∧ (o.va ≠ 0 → u.hart.tag o.va = t)
        ∧ (∀ e old, Takes h o.m e → Holds s (key e) n old →
          let group := (h.active o.m).filter (fun e' => key e' = key e)
          let after (l : List Nat) : Nat := l.foldl (fun x e' => (join ⟨x, .zero⟩ ⟨h.elem o.vd t e', .zero⟩).bits % 2 ^ width t) old
          Holds u (key e) n (after group) ∧ (o.va ≠ 0 → u.hart.elem o.va t e = after (group.filter (· < e))))
        ∧ (∀ e, o.va ≠ 0 → e < h.vlmax t → ¬ Takes h o.m e → u.hart.elem o.va t e = h.elem o.va t e)
        ∧ ∀ a, (∀ e, Takes h o.m e → ¬ In (key e) n a) → u.mem.get a = s.mem.get a)
  ∧ (∀ (s : State) (o : VAmoOps) (f : Nat), let h := s.hart; let t := h.tag o.vd; let n := width t / 8; let o' : VMem := ⟨o.vd, o.base, 0, o.m⟩
      let addr := elemAddr h t (memoryBase s o.base 0) (.indexed o.vb); let key e := localKey (addr e).toNat
      ∀ (i j : Instr) (op : AmoOp), (i, j, op) ∈ [(Instr.vamoAdd o, Instr.vamooAdd o, AmoOp.add), (.vamoAnd o, .vamooAnd o, .and),
        (.vamoOr o, .vamooOr o, .or), (.vamoXor o, .vamooXor o, .xor), (.vamoMin o, .vamooMin o, .min), (.vamoMax o, .vamooMax o, .max),
        (.vamoMinn o, .vamooMinn o, .minn), (.vamoMaxn o, .vamooMaxn o, .maxn), (.vamoSwap o, .vamooSwap o, .swap), (.vamoFadd o, .vamooFadd o, .fadd)] →
      let join := amoJoin h.vcfg op (width t); let bad e := Takes h o.m e ∧ s.poisoned (key e) = true
      let trap : TrapInfo := ⟨.poison, addr f - BitVec.ofNat 64 ((addr f).toNat % 32), .store⟩
      AmoTag t op → LegalForm h t (.indexed o.vb) → PlainElements { s with poison := [] } o' addr (fun _ => n) →
      NoneWaits s (fun l => ∃ e, Takes h o.m e ∧ l = key e / 128) → bad f → (∀ e < f, ¬ bad e) →
      (h.vstart = 0 → ∃ near far, exec i s = .next (takeTrap trap h.pc true false (s.setCore { s.core with ctrloc := near, ctrrem := far })))
      ∧ ∃ u, exec j s = .next (takeTrap trap h.pc true false u) ∧ MemoryEffects s u ∧ u.poison = s.poison
        ∧ u.hart = keeping { h with
            vstart := BitVec.ofNat 16 f, fflags := u.hart.fflags, watch := u.hart.watch, early := u.hart.early, vregs := u.hart.vregs } u.hart
        ∧ VectorsKept (if o.va = 0 then [] else [o.va]) h u.hart
        ∧ (∀ e old, Takes h o.m e → e < f → Holds s (key e) n old →
          let group := (h.active o.m).filter (fun e' => key e' = key e ∧ e' < f)
          let after (l : List Nat) : Nat := l.foldl (fun x e' => (join ⟨x, .zero⟩ ⟨h.elem o.vd t e', .zero⟩).bits % 2 ^ width t) old
          Holds u (key e) n (after group) ∧ (o.va ≠ 0 → u.hart.elem o.va t e = after (group.filter (· < e))))
        ∧ ∀ a, (∀ e < f, Takes h o.m e → ¬ In (key e) n a) → u.mem.get a = s.mem.get a)
/-! ### Fibres and the pigeonhole -/

/-- What the fibre and pigeonhole instructions ask of the fibres that they name (R19, R22, R158). -/
def Sys2Proof.Safety.FibresReady (h : Hart) (fs : List FIdx) : Prop :=
  BanksOn h ∧ h.vstart = 0
  ∧ ∀ f ∈ fs, h.tag (coordReg f) = .n32 ∧ (h.flen.get f).toNat ≤ min (h.vlmax .n32) (h.vlmax (h.tag (valueReg f)))

/-- Entry `e` of a fibre: its coordinate and its value (R19). -/
def Sys2Proof.Safety.entryOf (h : Hart) (f : FIdx) (e : Nat) : Nat × Nat :=
  (h.elem (coordReg f) .n32 e, h.elem (valueReg f) (h.tag (valueReg f)) e)

/-- The first `n` entries of a fibre. -/
def Sys2Proof.Safety.entriesOf (h : Hart) (f : FIdx) (n : Nat) : List (Nat × Nat) := (List.range n).map (entryOf h f)

/-- Coordinates in strictly ascending order (R158). -/
def Sys2Proof.Safety.Ascending (l : List (Nat × Nat)) : Prop := l.Pairwise (fun x y => x.1 < y.1)

/-- Only the vector registers and tags named, lengths, the cursors, vstart, which is 0, and the flags of a hart differ. -/
def Sys2Proof.Safety.FibreMoved (h k : Hart) (rs : List VIdx) : Prop :=
  k = keeping { h with
    vregs := k.vregs, vtags := k.vtags, flen := k.flen, cura := k.cura, curb := k.curb, vstart := 0, fflags := k.fflags } k
  ∧ VectorsKept rs h k

/-- A fibre is written: its two registers hold the entries `l` from position 0, under N32 and the value tag `t`, every position above
keeps its bits, its length is `n`, and no other register, tag or length changes (R158). -/
def Sys2Proof.Safety.FibreWritten (h k : Hart) (f : FIdx) (t : Tag) (l : List (Nat × Nat)) (n : Nat) : Prop :=
  FibreMoved h k [coordReg f, valueReg f] ∧ k.tag (coordReg f) = .n32 ∧ k.tag (valueReg f) = t
  ∧ (∀ g, k.flen.get g = if g = f then BitVec.ofNat 16 n else h.flen.get g)
  ∧ (∀ e x, l[e]? = some x → k.elem (coordReg f) .n32 e = x.1 % 2 ^ 32 ∧ k.elem (valueReg f) t e = x.2 % 2 ^ valBits t)
  ∧ (∀ e, l.length ≤ e → (e < h.vlmax .n32 → k.elem (coordReg f) .n32 e = h.elem (coordReg f) .n32 e)
    ∧ (e < h.vlmax t → k.elem (valueReg f) t e = h.elem (valueReg f) t e))

/-- The cursors of vprog (R20). -/
def Sys2Proof.Safety.CursorsAt (k : Hart) (a b : Nat) : Prop := k.cura.toNat = a ∧ k.curb.toNat = b

/-- R170: the joint walk from the cursors, over all coordinates that are left in both fibres (`inter`) or in either. As many entries as
fit are written, in ascending order, and the cursors name the first that is not, or are zero. `entry` is what stands in the
result for a coordinate. -/
def Sys2Proof.Safety.Combines (i : Instr) (s : State) (inter : Bool) (fd fa fb : FIdx) (t : Tag) (entry : Nat → Nat × Res) : Prop :=
  let h := s.hart; let cap := min (h.vlmax .n32) (h.vlmax t)
  let A := (entriesOf h fa (h.flen.get fa).toNat).drop h.cura.toNat; let B := (entriesOf h fb (h.flen.get fb).toNat).drop h.curb.toNat
  let isIn (c : Nat) (l : List (Nat × Nat)) := ∃ x ∈ l, x.1 = c
  ∃ (k : Hart) (cs : List Nat), cs.Pairwise (· < ·)
    ∧ (∀ c, c ∈ cs ↔ if inter then isIn c A ∧ isIn c B else isIn c A ∨ isIn c B)
    ∧ (let u := (cs.take cap).map entry
      exec i s = .next (retire 8 { s with hart := k }) ∧ FibreWritten h k fd t (u.map fun x => (x.1, x.2.bits)) u.length
      ∧ k.fflags = h.fflags.or (flagsOf (u.map fun x => x.2.fl)))
    ∧ match cs[cap]? with
      | none => CursorsAt k 0 0
      | some c => CursorsAt k (h.cura.toNat + (A.filter fun x => x.1 < c).length) (h.curb.toNat + (B.filter fun x => x.1 < c).length)

/-- The value of a coordinate in a list of entries. -/
def Sys2Proof.Safety.valueAt (l : List (Nat × Nat)) (c : Nat) : Option Nat := (l.find? (fun x => x.1 = c)).map (·.2)

/-- R105, R158, R170, R171. FINTER, FUNION, FMERGE and FPOS on ordered fibres, from any cursors: the entries of the walk with the values of
R171, integers modulo 2^w, floats rounded once with vcfg.rm (stochastic acting as nearest even), a value alone converted exactly.

R19, R100, R105, R158, R170, R171. What they take as an operand trap before they change anything: a vstart that is not 0, a fibre whose
coordinates are not N32 or that is longer than its registers, fd equal to a source; a source out of order, with the first position out of order in
eval; a pair of value tags that is not legal; a cursor past its fibre. -/
def Obligations.FibreCombinations : Prop :=
  (∀ (s : State) (fd fa fb : FIdx), let h := s.hart; let ta := h.tag (valueReg fa); let tb := h.tag (valueReg fb)
      let a := entriesOf h fa (h.flen.get fa).toNat; let b := entriesOf h fb (h.flen.get fb).toNat; let r := h.rndPlain
      let left := a.drop h.cura.toNat; let right := b.drop h.curb.toNat
      FibresReady h [fd, fa, fb] → fd ≠ fa → fd ≠ fb → Ascending a → Ascending b → h.cura.toNat ≤ a.length → h.curb.toNat ≤ b.length →
      (∀ t, pairTag ta tb = some t → isInt t = true → ∀ (i : Instr) (inter : Bool) (g : Int → Int → Int), (i, inter, g) ∈
          ([(.finterMul fd fa fb, true, fun x y => x * y), (.finterAdd fd fa fb, true, fun x y => x + y),
            (.funionAdd fd fa fb, false, fun x y => x + y), (.funionMax fd fa fb, false, fun x y => max x y),
            (.funionOr fd fa fb, false, fun x y => ((x % (2 ^ width t : Nat)).toNat ||| (y % (2 ^ width t : Nat)).toNat : Nat))]
            : List (Instr × Bool × (Int → Int → Int))) →
        Combines i s inter fd fa fb t fun c => (c, match valueAt left c, valueAt right c with
          | some x, some y => intRes t (g (readInt ta x) (readInt tb y))
          | some x, none => intRes t (readInt ta x)
          | none, some y => intRes t (readInt tb y)
          | none, none => ⟨0, .zero⟩))
      ∧ (∀ t, pairTag ta tb = some t → isFloat t = true → ∀ (i : Instr) (inter : Bool) (g : FVal → FVal → Exact), (i, inter, g) ∈
          ([(.finterMul fd fa fb, true, fMul), (.finterAdd fd fa fb, true, fAdd r.rm), (.funionAdd fd fa fb, false, fAdd r.rm),
            (.funionMax fd fa fb, false, fun x y => (fMax x y, .zero))] : List (Instr × Bool × (FVal → FVal → Exact))) →
        let alone (u : Tag) (x : Nat) : Res := ⟨((fmtOf t).rnd ⟨.nearestEven, false, 0⟩ (readFloat h.vcfg u x)).bits, .zero⟩
        Combines i s inter fd fa fb t fun c => (c, match valueAt left c, valueAt right c with
          | some x, some y => (fmtOf t).rndExact r (g (readFloat h.vcfg ta x) (readFloat h.vcfg tb y))
          | some x, none => alone ta x
          | none, some y => alone tb y
          | none, none => ⟨0, .zero⟩))
      ∧ (ta = tb → Combines (.fmerge fd fa fb) s false fd fa fb ta fun c => (c, ⟨((valueAt left c).orElse fun _ => valueAt right c).getD 0, .zero⟩))
      ∧ (isInt ta = isInt tb → Combines (.fpos fd fa fb) s true fd fa fb .n32 fun c =>
          ((a.filter fun x => x.1 < c).length, ⟨(b.filter fun x => x.1 < c).length, .zero⟩)))
  ∧ (∀ (s : State) (fd fa fb : FIdx), let h := s.hart; let na := (h.flen.get fa).toNat; let nb := (h.flen.get fb).toNat
      let int (t : Tag) := isInt t = true
      ∀ (i : Instr) (legal : Tag → Tag → Prop), (i, legal) ∈ ([
        (.finterMul fd fa fb, fun x y => pairTag x y ≠ none), (.finterAdd fd fa fb, fun x y => pairTag x y ≠ none),
        (.funionAdd fd fa fb, fun x y => pairTag x y ≠ none), (.funionMax fd fa fb, fun x y => pairTag x y ≠ none),
        (.funionOr fd fa fb, fun x y => pairTag x y ≠ none ∧ int x), (.fmerge fd fa fb, fun x y => x = y),
        (.fpos fd fa fb, fun x y => int x ↔ int y)] : List (Instr × (Tag → Tag → Prop))) →
      let trap (p : Nat) := exec i s = .next (takeTrap ⟨.operand, BitVec.ofNat 64 p, .none⟩ h.pc false false s)
      let falls (f : FIdx) (p : Nat) := 1 ≤ p ∧ (entryOf h f p).1 ≤ (entryOf h f (p - 1)).1 ∧ Ascending (entriesOf h f p)
      BanksOn h →
      (¬ FibresReady h [fd, fa, fb] ∨ fd = fa ∨ fd = fb → trap 0)
      ∧ (FibresReady h [fd, fa, fb] → fd ≠ fa → fd ≠ fb →
        (∀ p < na, falls fa p → trap p) ∧ (Ascending (entriesOf h fa na) → (∀ p < nb, falls fb p → trap p)
          ∧ (Ascending (entriesOf h fb nb) →
            ¬ legal (h.tag (valueReg fa)) (h.tag (valueReg fb)) ∨ na < h.cura.toNat ∨ nb < h.curb.toNat → trap 0))))

/-- R158, R166, R167, R168, R169. FLEN sets the length of a fibre whose coordinates ascend; FEXPAND writes zero and the values of fa to the
vl first elements of vd; FCOMPACT keeps the entries whose value is not zero; FSORT sorts stably, with length 0 where a key occurs
twice. A source out of order is an operand trap with the first position out of order in eval, for FST too, and vstart ≠ 0 an operand trap. -/
def Obligations.FibreLengthsAndOrder : Prop :=
  ∀ (s : State) (fd fa : FIdx) (sn : SReg) (vd : VIdx) (base : SReg) (off : BitVec 14), let h := s.hart; let t := h.tag (valueReg fa)
    let n := (h.flen.get fa).toNat; let a := entriesOf h fa n; let len := (s.getS sn).toNat
    let ends (k : Hart) : Prop := k.flen = h.flen ∧ CursorsAt k 0 0
    BanksOn h →
    (h.vstart = 0 → FibresReady h [fa] →
      (len ≤ min (h.vlmax .n32) (h.vlmax t) → Ascending (entriesOf h fa len) → ∃ k, exec (.flen fa sn) s = .next (retire 8 { s with hart := k })
        ∧ FibreMoved h k [] ∧ k.fflags = h.fflags ∧ CursorsAt k 0 0
        ∧ ∀ g, k.flen.get g = if g = fa then BitVec.ofNat 16 len else h.flen.get g)
      ∧ (Ascending a → h.vln ≤ h.vlmax t → ∃ k, exec (.fexpand vd fa) s = .next (retire 8 { s with hart := k })
        ∧ FibreMoved h k [vd] ∧ ends k ∧ k.fflags = h.fflags ∧ k.tag vd = t
        ∧ ∀ e, e < h.vlmax t → k.elem vd t e = if e < h.vln then (valueAt a e).getD 0 else h.elem vd t e)
      ∧ (FibresReady h [fd] → (Ascending a → ∃ k l, exec (.fcompact fd fa) s = .next (retire 8 { s with hart := k })
          ∧ FibreWritten h k fd t l l.length ∧ k.fflags = h.fflags ∧ CursorsAt k 0 0
          ∧ l = a.filter fun x => if isInt t then x.2 ≠ 0 else (readFloat h.vcfg t x.2).isZero = false)
        ∧ ∃ k l, exec (.fsort fd fa) s = .next (retire 8 { s with hart := k }) ∧ k.fflags = h.fflags ∧ CursorsAt k 0 0
          ∧ l.Pairwise (fun x y => x.1 ≤ y.1) ∧ (∀ c, l.filter (fun x => x.1 = c) = a.filter (fun x => x.1 = c))
          ∧ (Ascending l → FibreWritten h k fd t l n) ∧ (¬ Ascending l → FibreWritten h k fd t l 0))
      ∧ (∀ p, 1 ≤ p → p < n → (entryOf h fa p).1 ≤ (entryOf h fa (p - 1)).1 → Ascending (entriesOf h fa p) →
        ∀ i ∈ [Instr.fexpand vd fa, .fcompact fa fa, .fst fa base off],
          exec i s = .next (takeTrap ⟨.operand, BitVec.ofNat 64 p, .none⟩ h.pc false false s)))
    ∧ (h.vstart ≠ 0 → ∀ i ∈ [Instr.flen fa sn, .fexpand vd fa, .fcompact fd fa, .fsort fd fa, .finterMul fd fa fa, .fst fa base off,
        .fld fa base off, .ixclr, .ixdrain fa], exec i s = .next (takeTrap ⟨.operand, 0, .none⟩ h.pc false false s))

/-- R158, R160, R164: `n` entries in memory, those from the cursor on loaded as far as they fit: coordinates of 4 bytes from `crd`, values packed
under fd's value tag from `val`, both counted from `first`. -/
def Sys2Proof.Safety.LoadsFibre (s u : State) (f : FIdx) (crd val : Word) (first n : Nat) : Prop :=
  let h := s.hart; let t := h.tag (valueReg f); let w := width t; let m := min (n - h.cura.toNat) (min (h.vlmax .n32) (h.vlmax t))
  let cell (e : Nat) := localKey (crd + BitVec.ofNat 64 (4 * (first + h.cura.toNat + e))).toNat
  let item (e : Nat) := first + h.cura.toNat + e
  let bitsAt (e : Nat) := 8 * localKey (val + BitVec.ofNat 64 (item e * w / 8)).toNat + item e * w % 8
  ∃ l, l.length = m ∧ FibreWritten h u.hart f t l m
    ∧ (∀ e x, l[e]? = some x → x.2 < 2 ^ w ∧ Holds s (cell e) 4 x.1 ∧ ∀ q < w, x.2.testBit q = bitAt s (bitsAt e + q))
    ∧ if h.cura.toNat + m < n then CursorsAt u.hart (h.cura.toNat + m) h.curb.toNat else CursorsAt u.hart 0 0

/-- The memory that a pass of such a load reads: plain, held by no engine, its coordinates in order (R158, R162). -/
def Sys2Proof.Safety.LoadableFibre (s : State) (f : FIdx) (crd val : Word) (first n : Nat) : Prop :=
  let h := s.hart; let t := h.tag (valueReg f); let w := width t; let m := min (n - h.cura.toNat) (min (h.vlmax .n32) (h.vlmax t))
  let item (e : Nat) := first + h.cura.toNat + e
  let cell (e : Nat) := crd + BitVec.ofNat 64 (4 * item e); let place (e : Nat) := val + BitVec.ofNat 64 (item e * w / 8)
  let bytes (e : Nat) := (item e * w % 8 + w + 7) / 8
  h.cura.toNat ≤ n
  ∧ (∀ e < m, Plain s (cell e) 4 ∧ Plain s (place e) (bytes e) ∧ s.readStalls (localKey (cell e).toNat) 4 = false
    ∧ s.readStalls (localKey (place e).toNat) (bytes e) = false)
  ∧ ∀ e x y, e + 1 < m → Holds s (localKey (cell e).toNat) 4 x → Holds s (localKey (cell (e + 1)).toNat) 4 y → x < y

/-- The number under a key in a share (R172). -/
def Sys2Proof.Safety.stored (l : Share) (k : BitVec 32) : Option Word := (l.find? (fun e => e.1 = k)).map (·.2)

/-- R172: a key whose set holds 16 other keys has no way. -/
def Sys2Proof.Safety.HasWay (P : Nat) (l : Share) (k : BitVec 32) : Prop :=
  let set_ (k : BitVec 32) := k.toNat * 0x9E3779B1 % 2 ^ 32 / 2 ^ (32 - Nat.log2 (4096 / P))
  (l.filter fun e => set_ e.1 = set_ k).length < 16

/-- R175: one entry applied to a share: the value under its key becomes `f` of the value there, or of none where a way is free; no other
key changes, and the keys stay in ascending order. -/
def Sys2Proof.Safety.Applied (P : Nat) (f : Option Word → Word) (k : BitVec 32) (l l' : Share) : Prop :=
  ((stored l k).isSome ∨ HasWay P l k) ∧ (∀ j, stored l' j = if j = k then some (f (stored l k)) else stored l j)
    ∧ l'.Pairwise (fun x y => x.1.toNat < y.1.toNat)

/-- The sum of two numbers in a 64-bit kind: it wraps, or is rounded once to F64 (R175). -/
def Sys2Proof.Safety.addInto (kind : Kind64) (r : Rnd) (a x : Word) : Res :=
  if kind = .float then (fmtOf .f64).rndExact r (fAdd r.rm ((fmtOf .f64).value a.toNat) ((fmtOf .f64).value x.toNat))
  else ⟨(a.toNat + x.toNat) % 2 ^ 64, .zero⟩

/-- R172, R173, R174, R175. IXINS and IXACC on a share in its order: from cura on the elements are applied one after another, each to what the
one before left, until one has no way, where the cursor stops and the return says so, or to the end, with the cursors zero. Nothing else changes.

R172, R173, R174, R176, R177. IXLOOK writes what the share holds under each key, converted to vd's tag, or zero, and the found bits;
IXDRAIN moves the smallest keys to a fibre, as many as fit; IXCLR empties the share; IXCNT returns its count. ixlive is set by any applied
entry, also one that leaves the share as it was (the model's reading, log entry 37), and a value that the share holds is not flushed (the
model's choice, log entry 63).

Readings of the model that it rests on: log entries 37, 63. -/
def Obligations.PigeonholeInstructions : Prop :=
  (∀ (s : State) (va vb : VIdx) (kind : Kind64), let h := s.hart; let tk := h.tag va; let tv := h.tag vb; let first := h.cura.toNat
      let key (e : Nat) := BitVec.ofNat 32 (h.elem va tk e)
      let x (e : Nat) : Word := if isInt tv then BitVec.ofInt 64 (readInt tv (h.elem vb tv e))
        else BitVec.ofNat 64 ((fmtOf .f64).rnd ⟨.nearestEven, false, 0⟩ (readFloat h.vcfg tv (h.elem vb tv e))).bits
      FibresReady h [] → h.retq.length < 16 → h.pigeon.Pairwise (fun x y => x.1.toNat < y.1.toNat) →
      (tk = .n32 ∨ tk = .i32) → h.vln ≤ h.vlmax tk → h.vln ≤ h.vlmax tv → first ≤ h.vln →
      tv ∉ [Tag.e8m0, .i2, .i4, .e2m1] → kind = (if isFloat tv then .float else if isI tv then .signed else .unsigned) →
      ∀ (i : Instr) (g : Word → Word → Res), (i, g) ∈ ([(.ixins va vb, fun _ x => ⟨x.toNat, .zero⟩),
          (.ixaccAdd va vb, addInto kind h.rndPlain), (.ixaccMax va vb, combine64 .max kind h.rndPlain), (.ixaccMin va vb, combine64 .min kind h.rndPlain)]
          ++ (if kind = .float then [] else [(.ixaccOr va vb, fun a x => ⟨(a ||| x).toNat, .zero⟩)]) : List (Instr × (Word → Word → Res))) →
      ∃ (k : Hart) (n : Nat) (shares : Nat → Share), exec i s = .next (retire 8 { s with hart := k })
        ∧ k = { h with pigeon := k.pigeon, ixlive := k.ixlive, cura := k.cura, curb := k.curb, vstart := 0, fflags := k.fflags, retq := k.retq }
        ∧ first + n ≤ h.vln ∧ shares 0 = h.pigeon ∧ k.pigeon = shares n ∧ k.ixlive = (h.ixlive || decide (n ≠ 0))
        ∧ (∀ j < n, Applied h.parts (fun o => o.elim (x (first + j)) fun a => BitVec.ofNat 64 (g a (x (first + j))).bits)
            (key (first + j)) (shares j) (shares (j + 1)))
        ∧ k.fflags = h.fflags.or (flagsOf ((List.range n).map fun j => (stored (shares j) (key (first + j))).elim .zero
            fun a => (g a (x (first + j))).fl))
        ∧ (first + n < h.vln → stored k.pigeon (key (first + n)) = none ∧ ¬ HasWay h.parts k.pigeon (key (first + n))
          ∧ CursorsAt k (first + n) h.curb.toNat ∧ k.retq = h.retq ++ [BitVec.ofNat 64 (n + 2 ^ 32)])
        ∧ (first + n = h.vln → CursorsAt k 0 0 ∧ k.retq = h.retq ++ [BitVec.ofNat 64 n]))
  ∧ (∀ (s : State) (vd va vb : VIdx) (f : FIdx), let h := s.hart; let td := h.tag vd; let tk := h.tag va
      let conv (t : Tag) (e : Nat) (v : Word) : Res := if isInt t then ⟨v.toNat % 2 ^ width t, .zero⟩
        else (fmtOf t).rnd (h.rndAt false e) ((fmtOf .f64).value v.toNat)
      FibresReady h [] →
      ((tk = .n32 ∨ tk = .i32) → td ∉ [Tag.e8m0, .i2, .i4, .e2m1] → vd ≠ vb → h.vln ≤ h.vlmax td → h.vln ≤ h.vlmax tk →
        let got (e : Nat) := stored h.pigeon (BitVec.ofNat 32 (h.elem va tk e))
        ∃ k, exec (.ixlook vd va vb) s = .next (retire 8 { s with hart := k }) ∧ FibreMoved h k [vd, vb] ∧ k.flen = h.flen ∧ CursorsAt k 0 0
          ∧ k.tag vd = td ∧ k.tag vb = .n8
          ∧ (∀ e, e < h.vlmax td → k.elem vd td e = if e < h.vln then ((got e).elim 0 fun v => (conv td e v).bits % 2 ^ valBits td)
              else h.elem vd td e)
          ∧ (∀ e, e < 8 * h.vlmax .n8 → k.bit vb e = if e < h.vln then (got e).isSome else h.bit vb e)
          ∧ k.fflags = h.fflags.or (flagsOf ((List.range h.vln).map fun e => (got e).elim .zero fun v => (conv td e v).fl)))
      ∧ (let t := h.tag (valueReg f); FibresReady h [f] → t ∉ [Tag.e8m0, .i2, .i4, .e2m1] →
        let m := min h.pigeon.length (min (h.vlmax .n32) (h.vlmax t))
        let l := (List.range m).map fun e => let x := h.pigeon.getD e (0, 0); (x.1.toNat, conv t e x.2)
        ∃ k, exec (.ixdrain f) s = .next (retire 8 { s with hart := { k with pigeon := h.pigeon.drop m, ixlive := h.ixlive && decide (m < h.pigeon.length) } })
          ∧ FibreWritten h k f t (l.map fun x => (x.1, x.2.bits)) m ∧ CursorsAt k 0 0 ∧ k.fflags = h.fflags.or (flagsOf (l.map fun x => x.2.fl)))
      ∧ exec .ixclr s = .next (retire 8 { s with hart := { h with pigeon := [], ixlive := false, vstart := 0, cura := 0, curb := 0 } })
      ∧ (h.retq.length < 16 → exec .ixcnt s = .next (retire 8 { s with hart := { h with
          vstart := 0, cura := 0, curb := 0, retq := h.retq ++ [BitVec.ofNat 64 h.pigeon.length] } })))

/-- R159, R160, R161, R162, R163, R164, R165. In plain memory: FLD reads a fibre image into fd from the cursor on; FLDLVL reads row r of a
compressed level, and marks the lines of its pointers and coordinates pointer class; FST writes the header, the coordinates and the
values of an ordered fibre and no other bit of memory, and no register.

R178, R179. FSEND of an ordered fibre to a hart of this device, its receipt a plain local word: one message is accepted with the
target's fields, the entries in their 64-bit kinds and the receipt's physical address; vstart and vprog become 0 and nothing else changes.
A bit of a field marked zero, and or with a float tag, are operand traps.

Readings of the model that it rests on: log entries 18, 37. -/
def Obligations.FibreMemoryAndMessages : Prop :=
  (∀ (s : State) (f : FIdx) (base : SReg) (off : BitVec 14) (va : VIdx) (hdr : Nat) (d : Fin 4 → Nat) (lo hi : Nat),
      let h := s.hart; let t := h.tag (valueReg f); let w := width t; let A := memoryBase s base off; let key (a : Word) := localKey a.toNat
      let free (a : Word) (n : Nat) : Prop := Plain s a n ∧ s.writeStalls (key a) n = false ∧ s.readStalls (key a) n = false
      let valuesAt (n : Nat) : Word := A + BitVec.ofNat 64 ((8 + 4 * n + 7) / 8 * 8)
      FibresReady h [f] → Unbegun h → A.toNat % 8 = 0 →
      (free A 8 → Holds s (key A) 8 hdr → (let n := hdr % 2 ^ 32; LoadableFibre s f (A + 8) (valuesAt n) 0 n →
        ∃ u, exec (.fld f base off) s = .next (retire 8 u) ∧ MemoryEffects s u ∧ BytesKept s u ∧ u.poison = s.poison
          ∧ u.hart.fflags = h.fflags ∧ LoadsFibre s u f (A + 8) (valuesAt n) 0 n))
      ∧ (let ptr : Word := BitVec.ofNat 64 (d 0); let crd : Word := BitVec.ofNat 64 (d 1); let val : Word := BitVec.ofNat 64 (d 2)
        let r := h.elem va .n32 0; let pb := if (d 3).testBit 32 then 8 else 4
        let at_ (k : Nat) : Word := ptr + BitVec.ofNat 64 (pb * (r + k))
        h.tag va = .n32 → h.vln ≤ h.vlmax .n32 → (∀ k : Fin 4, free (A + BitVec.ofNat 64 (8 * k.val)) 8 ∧ Holds s (key (A + BitVec.ofNat 64 (8 * k.val))) 8 (d k)) →
        d 3 < 2 ^ 33 → r < d 3 % 2 ^ 32 → d 0 % 8 = 0 → d 1 % 4 = 0 → (8 ≤ w → d 2 % (w / 8) = 0) →
        free (at_ 0) pb → free (at_ 1) pb → Holds s (key (at_ 0)) pb lo → Holds s (key (at_ 1)) pb hi → lo ≤ hi → hi - lo < 2 ^ 32 →
        LoadableFibre s f crd val lo (hi - lo) →
        ∃ u, exec (.fldlvl f base off va) s = .next (retire 8 u) ∧ MemoryEffects { s with ptrLines := u.ptrLines } u ∧ BytesKept s u
          ∧ u.poison = s.poison ∧ u.hart.fflags = h.fflags ∧ LoadsFibre s u f crd val lo (hi - lo)
          ∧ ∀ q, q ∈ u.ptrLines ↔ q ∈ s.ptrLines ∨ (∃ k < 2, q = key (at_ k) / 128)
            ∨ ∃ e < min (hi - lo - h.cura.toNat) (min (h.vlmax .n32) (h.vlmax t)),
                q = key (crd + BitVec.ofNat 64 (4 * (lo + h.cura.toNat + e))) / 128)
      ∧ (let n := (h.flen.get f).toNat; let V := valuesAt n
        let cell (e : Nat) : Word := A + 8 + BitVec.ofNat 64 (4 * e); let place (e : Nat) : Word := V + BitVec.ofNat 64 (e * w / 8)
        let pos (e : Nat) := 8 * key (place e) + e * w % 8
        Ascending (entriesOf h f n) → free A 8 → (∀ e < n, free (cell e) 4 ∧ free (place e) ((e * w % 8 + w + 7) / 8)) →
        ∃ u, exec (.fst f base off) s = .next (retire 8 u) ∧ MemoryEffects s u
          ∧ u.hart = keeping { h with vstart := 0, cura := 0, curb := 0, watch := u.hart.watch, early := u.hart.early } u.hart
          ∧ Holds u (key A) 8 n
          ∧ (∀ e < n, Holds u (key (cell e)) 4 (entryOf h f e).1 ∧ ∀ q < w, bitAt u (pos e + q) = (entryOf h f e).2.testBit q)
          ∧ ∀ b, ¬ In (key A) 8 (b / 8) → (∀ e < n, ¬ In (key (cell e)) 4 (b / 8) ∧ ¬ (pos e ≤ b ∧ b < pos e + w)) →
            bitAt u b = bitAt s b))
  ∧ (∀ (s : State) (f : FIdx) (base sm : SReg) (off : BitVec 14), let h := s.hart; let t := h.tag (valueReg f); let A := memoryBase s base off
      let w := (s.getS sm).toNat; let a := entriesOf h f (h.flen.get f).toNat
      let bad : Prop := w.testBit 11 = true ∨ w / 2 ^ 14 % 4 ≠ 0 ∨ 2 ^ 27 ≤ w ∨ (w / 2 ^ 12 % 4 = 3 ∧ isFloat t = true)
      let dev := if w.testBit 26 then w / 2 ^ 21 % 32 * 32 + w / 2 ^ 16 % 32 else s.fabric.self
      FibresReady h [f] → Ascending a → t ∉ [Tag.e8m0, .i2, .i4, .e2m1] →
      Unbegun h →
      (bad → exec (.fsend f base off sm) s = .next (takeTrap ⟨.operand, 0, .none⟩ h.pc false false s))
      ∧ (¬ bad → A.toNat % 8 = 0 → Plain s A 8 → dev = s.fabric.self → ∃ m : FMsg,
        exec (.fsend f base off sm) s
          = .next (retire 8 { s with
              msgs := s.msgs ++ [m], nextId := s.nextId + 1, hart := { h with vstart := 0, cura := 0, curb := 0 } })
        ∧ m.id = s.nextId ∧ m.born = h.born ∧ m.ctx = h.ctx ∧ m.core = w % 2 ^ 8 ∧ m.slot.val = w / 2 ^ 8 % 8 ∧ m.op.val = w / 2 ^ 12 % 4
        ∧ m.float = isFloat t ∧ (isInt t = true → m.signed = isI t) ∧ m.rdev = s.fabric.self ∧ m.receipt = A.toNat
        ∧ m.ascending = a.map fun x => (BitVec.ofNat 32 x.1, if isInt t then BitVec.ofInt 64 (readInt t x.2)
            else BitVec.ofNat 64 ((fmtOf .f64).rnd ⟨.nearestEven, false, 0⟩ (readFloat h.vcfg t x.2)).bits)))
/-! ### Tiles, outer products, the scout unit and the keep masks -/

/-- Word `c` of row `r` of a tile (R20). -/
def Sys2Proof.Safety.word (h : Hart) (t : TIdx) (r c : Nat) : Nat := (h.tiles.get t).toNat / 2 ^ (32 * (256 * r + c)) % 2 ^ 32

/-- No pre-emption that may stop an instruction part-way is requested of the hart (R352, R353). -/
def Sys2Proof.Safety.NotStopped (h : Hart) : Prop := h.preempt = false ∨ h.covered.isSome = true

/-- What the instructions of R185 ask: banks on, the tile the hart's, vl within VLMAX of each register named. -/
def Sys2Proof.Safety.TileReady (h : Hart) (t : TIdx) (rs : List VIdx) : Prop :=
  BanksOn h ∧ t.val < 8 / h.parts ∧ ∀ r ∈ rs, h.vln ≤ h.vlmax (h.tag r)

/-- Only one tile, the flags and vstart, which is 0, of a hart differ, and the words of the tile are given by `f`. -/
def Sys2Proof.Safety.TileWritten (h k : Hart) (t : TIdx) (f : Nat → Nat → Nat) : Prop :=
  k = keeping { h with tiles := k.tiles, fflags := k.fflags, vstart := 0 } k ∧ (∀ u, u ≠ t → k.tiles.get u = h.tiles.get u)
  ∧ ∀ r < 256, ∀ c < 256, word k t r c = f r c % 2 ^ 32

/-- No engine owns or reserves any memory, and the `n` bytes from an address are plain. -/
def Sys2Proof.Safety.PlainRun (s : State) (a : Word) (n : Nat) : Prop :=
  (∀ k m, s.writeStalls k m = false ∧ s.readStalls k m = false) ∧ ∀ j < n, Plain s (a + BitVec.ofNat 64 j) 1

/-- A row of memory from `a` holds elements of `w` bits, packed, the first lowest (R138). -/
def Sys2Proof.Safety.HoldsRow (s : State) (a : Word) (w n : Nat) (f : Nat → Nat) : Prop :=
  ∀ j < n, f j < 2 ^ w ∧ ∀ q < w, (f j).testBit q = bitAt s (8 * localKey (a + BitVec.ofNat 64 ((j * w + q) / 8)).toNat + (j * w + q) % 8)

/-- R185, R186, R187, R188, R189. TZERO, TFILL (every word of a block that is not kept becomes FP32 −∞), TMV of one row either way, TREDMAX,
and in plain memory TLD and TST, where rows that overlap leave the highest one's bytes. Nothing but what each names changes. -/
def Obligations.TileMoves : Prop :=
  ∀ (s : State) (t : TIdx) (vd : VIdx) (base stride row : SReg) (m : KIdx), let h := s.hart
    let rowAt (r : Nat) : Word := BitVec.ofInt 64 ((s.getS base).toInt + r * (s.getS stride).toInt); let R := (s.getS row).toNat
    h.vstart = 0 → TileReady h t [] → Unbegun h →
    (∃ k, exec (.tzero t) s = .next (retire 8 { s with hart := k }) ∧ k.fflags = h.fflags ∧ TileWritten h k t fun _ _ => 0)
    ∧ (∃ k, exec (.tfill t m) s = .next (retire 8 { s with hart := k }) ∧ k.fflags = h.fflags
      ∧ TileWritten h k t fun r c => if (h.keep.get m).getLsbD (8 * (r / 32) + c / 32) then word h t r c else 0xFF800000)
    ∧ (h.tag vd ∈ [Tag.f32, .i32, .n32] → h.vln ≤ h.vlmax .f32 → R < 256 →
      (∃ k, exec (.tmvTileToVector vd t row) s = .next (retire 8 { s with hart := k })
        ∧ k = { h with vregs := k.vregs, vstart := 0 } ∧ VectorsKept [vd] h k
        ∧ ∀ e, e < h.vlmax .f32 → k.elem vd .f32 e = if e < 256 then word h t R e else h.elem vd .f32 e)
      ∧ ∃ k, exec (.tmvVectorToTile t vd row) s = .next (retire 8 { s with hart := k }) ∧ k.fflags = h.fflags
        ∧ TileWritten h k t fun r c => if r = R then h.elem vd .f32 c else word h t r c)
    ∧ (h.vln ≤ h.vlmax (h.tag vd) → ∃ k, exec (.tredmax vd t) s = .next (retire 8 { s with hart := k })
      ∧ k = { h with vregs := k.vregs, vtags := k.vtags, vstart := 0 } ∧ VectorsKept [vd] h k ∧ k.tag vd = .f32
      ∧ ∀ e, e < h.vlmax .f32 → k.elem vd .f32 e = if e < 256 then
          ((fmtOf .f32).rnd ⟨.nearestEven, false, 0⟩
            (((List.range 256).map fun c => readFloat h.vcfg .f32 (word h t e c)).foldl fMax .nan)).bits
        else h.elem vd .f32 e)
    ∧ ((∀ r < 256, PlainRun s (rowAt r) 1024 ∧ (rowAt r).toNat % 4 = 0) →
      (∃ u, exec (.tld t base stride) s = .next (retire 8 u) ∧ MemoryEffects s u ∧ BytesKept s u ∧ u.poison = s.poison
        ∧ u.hart.fflags = h.fflags ∧ (∀ x : TIdx, x ≠ t → u.hart.tiles.get x = h.tiles.get x)
        ∧ u.hart = keeping { h with tiles := u.hart.tiles, vstart := 0 } u.hart ∧ ∀ r < 256, HoldsRow s (rowAt r) 32 256 (word u.hart t r))
      ∧ ∃ u, exec (.tst t base stride) s = .next (retire 8 u) ∧ MemoryEffects s u
        ∧ u.hart = keeping { h with vstart := 0, watch := u.hart.watch, early := u.hart.early } u.hart
        ∧ (∀ r < 256, ∀ j < 1024, (∀ r' j', r < r' → r' < 256 → j' < 1024 → localKey (rowAt r' + BitVec.ofNat 64 j').toNat
              ≠ localKey (rowAt r + BitVec.ofNat 64 j).toNat) →
            (u.mem.get (localKey (rowAt r + BitVec.ofNat 64 j).toNat)).toNat = word h t r (j / 4) / 256 ^ (j % 4) % 256)
        ∧ ∀ a, (∀ r < 256, ∀ j < 1024, localKey (rowAt r + BitVec.ofNat 64 j).toNat ≠ a) → u.mem.get a = s.mem.get a)

/-- Whether a keep mask takes word (r, c) (R191). -/
def Sys2Proof.Safety.kept (h : Hart) (k : Option KIdx) (r c : Nat) : Bool :=
  k.elim true fun k => (h.keep.get k).getLsbD (8 * (r / 32) + c / 32)

/-- The pairs of R190. -/
def Sys2Proof.Safety.PairOf (a b : Tag) : Prop :=
  (a, b) ∈ [(Tag.i2, Tag.i2), (.i4, .i4), (.e2m1, .e2m1), (.f32, .f32)] ∨ (a ∈ [Tag.i8, .n8] ∧ b ∈ [Tag.i8, .n8])
  ∨ (a ∈ [Tag.e5m2, .e4m3, .e3m2, .e2m3] ∧ b ∈ [Tag.e5m2, .e4m3, .e3m2, .e2m3]) ∨ (a ∈ [Tag.bf16, .f16] ∧ b ∈ [Tag.bf16, .f16])

/-- acc of R191 over terms given by their bits and, for a float pair, the scales that multiply them: the exact sum modulo 2^32 or clamped,
or rounded once to FP32 (R50). -/
def Sys2Proof.Safety.accOf (c : VCfg) (sat : Bool) (ta tb : Tag) (old : Nat) (terms : List ((Nat × List FVal) × (Nat × List FVal))) : Res :=
  if isInt ta then
    let x := (terms.map fun p => readInt ta p.1.1 * readInt tb p.2.1).foldl (· + ·) (readInt .i32 old)
    intRes .i32 (satTo .i32 sat x)
  else accFloat c old (terms.map fun p => readFloat c ta p.1.1 :: readFloat c tb p.2.1 :: (p.1.2 ++ p.2.2))

/-- R42, R191, R195: every kept word of the rows from vstart of each die takes its accumulator, with the flags of those words joined; no
other word, and nothing else of the hart, changes but vstart, which becomes 0. `a` and `b` give the terms of a row and a column. -/
def Sys2Proof.Safety.Accumulates (h k : Hart) (t : TIdx) (m : Option KIdx) (sat : Bool) (ta tb : Tag) (K : Nat)
    (a b : Nat → Nat → Option (Nat × List FVal)) : Prop :=
  let new (r c : Nat) := accOf h.vcfg sat ta tb (word h t r c)
    ((List.range K).filterMap fun j => (a r j).bind fun x => (b c j).map fun y => (x, y))
  let takes (r c : Nat) : Bool := decide (h.vst ≤ r % 64) && kept h m r c
  TileWritten h k t (fun r c => if takes r c then (new r c).bits else word h t r c)
  ∧ k.fflags = h.fflags.or (flagsOf ((List.range 256).flatMap fun r => ((List.range 256).filter (takes r)).map fun c =>
      if isInt ta then .zero else (new r c).fl))

/-- R183, R185, R190, R191, R192, R193, R195. OPA, OPAS (each term by its two scales from v1) and OPAG (operand A gathered, an index outside
the operand leaving its term out), from any vstart up to 64, with no pre-emption to stop them part-way; a pair that the table does not list is an operand trap.

R191, R195, R196, R197. TMMA in plain memory: with the descriptor of five dwords at s[base] legal, the accumulation of OPA over the rows of
A and B that it names, read from memory; no byte of memory changes. A descriptor that breaks a check is an operand trap, and one
that is not 8-byte aligned a misaligned-access trap. At vstart = 64 it completes at once.

Readings of the model that it rests on: log entry 37. -/
def Obligations.OuterProducts : Prop :=
  (∀ (s : State) (sat : Bool) (t : TIdx) (va vb vx : VIdx) (m : Option KIdx), let h := s.hart; let ta := h.tag va; let tb := h.tag vb
      let K := h.vlmax ta / 256; let flat (r : VIdx) (i j : Nat) : Option (Nat × List FVal) := some (h.elem r (h.tag r) (i * K + j), [])
      BanksOn h →
      (¬ PairOf ta tb → ∀ i ∈ [Instr.opa sat t va vb m, .opas t va vb m, .opag sat t va vb vx m],
        exec i s = .next (takeTrap ⟨.operand, 0, .none⟩ h.pc false false s))
      ∧ (TileReady h t [va, vb] → h.vst ≤ 64 → NotStopped h → PairOf ta tb →
        ((sat = true → isInt ta = true) → ∃ k, exec (.opa sat t va vb m) s = .next (retire 8 { s with hart := k })
          ∧ Accumulates h k t m sat ta tb K (flat va) (flat vb))
        ∧ (let B := 16 * 2 ^ h.vcfg.blk.val; let t1 := h.tag 1; let half := if h.vcfg.blk = 3 then 256 else 256 * K / B
          let scale (lo i j : Nat) := readFloat h.vcfg t1 (h.elem 1 t1 (lo + if h.vcfg.blk = 3 then i else (i * K + j) / B))
          let scaled (r : VIdx) (lo i j : Nat) : Option (Nat × List FVal) := some (h.elem r (h.tag r) (i * K + j), [scale lo i j])
          isFloat ta = true → (t1 = .e8m0 ∨ t1 = .f32) → h.vln ≤ h.vlmax t1 → 2 * half ≤ h.vlmax t1 →
          ∃ k, exec (.opas t va vb m) s = .next (retire 8 { s with hart := k })
            ∧ Accumulates h k t m false ta tb K (scaled va 0) (scaled vb half))
        ∧ (let tx := h.tag vx; let index (i j : Nat) := readInt tx (h.elem vx tx (i * K + j))
          let gathered (i j : Nat) : Option (Nat × List FVal) :=
            if 0 ≤ index i j ∧ index i j < 256 * K then some (h.elem va ta (index i j).toNat, []) else none
          (sat = true → isInt ta = true) → tx ∈ [Tag.n16, .n32, .i16, .i32] → width tx ≤ width ta → h.vln ≤ h.vlmax tx →
          ∃ k, exec (.opag sat t va vb vx m) s = .next (retire 8 { s with hart := k })
            ∧ Accumulates h k t m sat ta tb K gathered (flat vb))))
  ∧ (∀ (s : State) (sat : Bool) (t : TIdx) (base : SReg) (m : Option KIdx) (d : Fin 5 → Nat) (ta tb : Tag) (A B : Nat → Nat → Nat),
      let h := s.hart; let D := s.getS base; let kt := d 4 % 2 ^ 20; let w := width ta
      let rowA (r : Nat) : Word := BitVec.ofInt 64 (d 0 + r * (BitVec.ofNat 64 (d 2)).toInt)
      let rowB (r : Nat) : Word := BitVec.ofInt 64 (d 1 + r * (BitVec.ofNat 64 (d 3)).toInt)
      let read := ∀ j : Fin 5, PlainRun s (D + BitVec.ofNat 64 (8 * j.val)) 8 ∧ Holds s (localKey (D + BitVec.ofNat 64 (8 * j.val)).toNat) 8 (d j)
      let legal := kt ≠ 0 ∧ d 4 < 2 ^ 30 ∧ tagCode ta = d 4 / 2 ^ 20 % 32 ∧ tagCode tb = d 4 / 2 ^ 25 % 32 ∧ PairOf ta tb
        ∧ kt * w % 8 = 0 ∧ (sat = true → isInt ta = true)
      TileReady h t [] → h.vst ≤ 64 → Unbegun h → NotStopped h →
      (h.vst = 64 → exec (.tmma sat t base m) s = .next (retire 8 { s with hart := { h with vstart := 0 } }))
      ∧ (h.vst < 64 → D.toNat % 8 ≠ 0 → exec (.tmma sat t base m) s = .next (takeTrap ⟨.misaligned, D, .load⟩ h.pc false false s))
      ∧ (h.vst < 64 → D.toNat % 8 = 0 → read →
        (kt = 0 ∨ 2 ^ 30 ≤ d 4 ∨ 20 ≤ d 4 / 2 ^ 20 % 32 ∨ 20 ≤ d 4 / 2 ^ 25 % 32 ∨ (tagCode ta = d 4 / 2 ^ 20 % 32 ∧ tagCode tb = d 4 / 2 ^ 25 % 32
            ∧ (¬ PairOf ta tb ∨ kt * w % 8 ≠ 0 ∨ (sat = true ∧ isFloat ta = true))) →
          ∃ u, exec (.tmma sat t base m) s = .next (takeTrap ⟨.operand, 0, .none⟩ h.pc false false u) ∧ MemoryEffects s u ∧ BytesKept s u
            ∧ u.hart = keeping h u.hart)
        ∧ (legal → (∀ r < 256, PlainRun s (rowA r) (kt * w / 8) ∧ PlainRun s (rowB r) (kt * w / 8)
            ∧ (8 ≤ w → (rowA r).toNat % (w / 8) = 0 ∧ (rowB r).toNat % (w / 8) = 0)
            ∧ HoldsRow s (rowA r) w kt (A r) ∧ HoldsRow s (rowB r) w kt (B r)) →
          ∃ u, exec (.tmma sat t base m) s = .next (retire 8 u) ∧ MemoryEffects s u ∧ BytesKept s u ∧ u.poison = s.poison
            ∧ Accumulates h u.hart t m sat ta tb kt (fun r j => some (A r j, [])) (fun c j => some (B c j, [])))))

/-- A maximum by R49 of FP32 values, as bits. -/
def Sys2Proof.Safety.maxBits (l : List FVal) : Nat := ((fmtOf .f32).rnd ⟨.nearestEven, false, 0⟩ (l.foldl fMax .nan)).bits

/-- The magnitude of a number. -/
def Sys2Proof.Safety.mag (q : Rat) : Rat := if q < 0 then -q else q

/-- R200: the block exponent `e` of a list of values: −127 where none is finite and not zero, else floor(log2 amax) − 2 within
[−127, 127]. -/
def Sys2Proof.Safety.BlockExponent (l : List FVal) (e : Int) : Prop :=
  ((∀ q, .fin q ∉ l) ∧ e = -127)
  ∨ ∃ q, .fin q ∈ l ∧ (∀ p, .fin p ∈ l → mag p ≤ mag q) ∧ ∃ x : Int, pow2 x ≤ mag q ∧ mag q < pow2 (x + 1) ∧ e = max (-127) (min 127 (x - 2))

/-- R200: the quantised value of an element under a block exponent. -/
def Sys2Proof.Safety.Quantised (e : Int) (v w : FVal) : Prop :=
  match v with
  | .nan => w = .zero false
  | .inf n => w = .fin ((if n then -6 else 6) * pow2 e)
  | .zero n => w = .zero n
  | .fin q => match (fmtOf .e2m1).value ((fmtOf .e2m1).rnd ⟨.nearestEven, true, 0⟩ (.fin (q / pow2 e))).bits with
    | .fin x => w = .fin (x * pow2 e)
    | z => w = z

/-- R185, R200, R201, R202, R203. SCOUT.A accumulates the products of the quantised operands in the tile and writes the 64 block maxima;
SCOUT.T writes the keep mask by kthr and the running maxima; KAND, KOR and KPOP. No flag is raised and nothing else changes. The threshold
kthr.tau is taken as it stands, not flushed under vcfg.fzw (the model's choice, log entry 47).

Readings of the model that it rests on: log entry 47. -/
def Obligations.ScoutAndKeepMasks : Prop :=
  ∀ (s : State) (vd va vb : VIdx) (t : TIdx) (k a b : KIdx), let h := s.hart
    BanksOn h → h.vstart = 0 →
    (let ta := h.tag va; let tb := h.tag vb; let K := h.vlmax ta / 256; let ok := [Tag.f32, .bf16, .f16, .e5m2, .e4m3]
      TileReady h t [vd, va, vb] → ta ∈ ok → tb ∈ ok → width ta = width tb →
      ∃ (u : Hart) (qa qb : Nat → FVal), exec (.scoutA vd t va vb) s = .next (retire 8 { s with hart := u })
        ∧ (∀ (r : VIdx) (q : Nat → FVal), (r, q) ∈ [(va, qa), (vb, qb)] → ∀ j, 32 * j < 256 * K → ∃ e,
            BlockExponent ((List.range 32).map fun i => readFloat h.vcfg (h.tag r) (h.elem r (h.tag r) (32 * j + i))) e
            ∧ ∀ i < 32, Quantised e (readFloat h.vcfg (h.tag r) (h.elem r (h.tag r) (32 * j + i))) (q (32 * j + i)))
        ∧ TileWritten h { u with vregs := h.vregs, vtags := h.vtags } t (fun r c =>
            (accFloat h.vcfg (word h t r c) ((List.range K).map fun x => [qa (r * K + x), qb (c * K + x)])).bits)
        ∧ u.fflags = h.fflags ∧ VectorsKept [vd] h u ∧ u.tag vd = .f32
        ∧ ∀ e, e < h.vlmax .f32 → u.elem vd .f32 e = if e < 64 then maxBits ((List.range 1024).map fun x =>
            (fmtOf .f32).value (word u t (e / 8 * 32 + x / 32) (e % 8 * 32 + x % 32))) else h.elem vd .f32 e)
    ∧ (h.tag vd = .f32 → h.tag va = .f32 → h.vln ≤ h.vlmax .f32 →
      let M (g c : Nat) := readFloat h.vcfg .f32 (h.elem va .f32 (8 * g + c))
      let top (g : Nat) := maxBits (readFloat h.vcfg .f32 (h.elem vd .f32 g) :: (List.range 8).map (M g))
      let tau := (fmtOf .f32).value h.kthr.tau.toNat
      let diff (g : Nat) := (fmtOf .f32).value ((fmtOf .f32).rnd ⟨.nearestEven, false, 0⟩ (fAdd .nearestEven ((fmtOf .f32).value (top g)) tau.negate).1).bits
      let th (g : Nat) := if h.kthr.mode = .relative then diff g else tau
      let before (g i j : Nat) : Bool := (M g j).ltNum (M g i) || (!(M g i).ltNum (M g j) && !(M g i).isNan && decide (i < j))
      ∃ u : Hart, exec (.scoutT k vd va) s = .next (retire 8 { s with hart := u })
        ∧ u = { h with vregs := u.vregs, keep := u.keep, vstart := 0 } ∧ VectorsKept [vd] h u
        ∧ (∀ x, x ≠ k → u.keep.get x = h.keep.get x)
        ∧ (∀ g c, g < 8 → c < 8 → ((u.keep.get k).getLsbD (8 * g + c) = true ↔ (M g c).isNan = false
            ∧ if h.kthr.mode = .topm then ((List.range 8).filter fun i => before g i c).length ≤ h.kthr.topm.val
              else (th g).isNan = true ∨ (M g c).ltNum (th g) = false))
        ∧ ∀ e, e < h.vlmax .f32 → u.elem vd .f32 e = if e < 8 then top e else h.elem vd .f32 e)
    ∧ exec (.kand k a b) s = .next (retire 8 { s with hart := { h with vstart := 0, keep := h.keep.set k (h.keep.get a &&& h.keep.get b) } })
    ∧ exec (.kor k a b) s = .next (retire 8 { s with hart := { h with vstart := 0, keep := h.keep.set k (h.keep.get a ||| h.keep.get b) } })
    ∧ (h.retq.length < 16 → Returns (.kpop k) s ((List.range 64).filter (h.keep.get k).getLsbD).length)
/-! ### Convoys, engine commands and context images -/

/-- R68, R69, R70. A convoy header goes on with its covered parcels fetched when the parcels behind it are as many legal vector
instructions as it names units, no unit stands twice, each may run on its unit, and the returns they produce fit the queue; else, or
where one is not a legal vector instruction, it is illegal. `s1` is the state once the parcels have been fetched. One in a loop body that
does not hold all it covers is illegal before they are.

Readings of the model that it rests on: log entries 1, 48 (eval holds the header in every case; the order of the checks). -/
def Obligations.ConvoyHeaders : Prop :=
  ∀ (s s1 : State) (units : List UnitCode) (ps : List Parcel) (is : List Instr), let pc := s.hart.pc; let i := Instr.convoyHeader units
    let parcel (k : Nat) : Parcel := ps.getD k 0; let last := pc + BitVec.ofNat 64 (8 * units.length)
    let asBefore (u : State) : State := { u with hart := { u.hart with vregs := s.hart.vregs, vgate := s.hart.vgate } }
    let fits := is.length = units.length ∧ units.Nodup
      ∧ ∀ (k : Nat) (j : Instr) (u : UnitCode), is[k]? = some j → units[k]? = some u → ∃ c, j.vclass = some c ∧ c.accepts u = true
    let inside := ∀ l, s.hart.loop = some l → l.start ≤ pc → pc < l.stop → l.start ≤ last ∧ last < l.stop
    let illegal (t : State) := exec i s = .next (takeTrap ⟨.illegal, firstParcel i, .none⟩ pc false false t)
    (¬ inside → illegal s)
    ∧ (inside → s1.hart.pc = pc → s1.hart.retq = s.hart.retq → fetchRun (pc + 4) (2 * units.length) s = .ok ps s1 →
      ((∀ (k : Nat) (j : Instr), is[k]? = some j → (parcel (2 * k)).toNat % 4 = 3 ∧ decode (parcel (2 * k)) (parcel (2 * k + 1)) = .ok j) →
        ps.length = 2 * is.length →
        (fits → s.hart.retq.length + (is.filter Instr.producesReturn).length ≤ 16 →
          exec i s = .next (retire 4 { s1 with hart := { s1.hart with covered := some ⟨pc + 4, ps⟩ } }))
        ∧ (¬ fits ∨ 16 < s.hart.retq.length + (is.filter Instr.producesReturn).length → illegal (asBefore s1)))
      ∧ ((∃ k < units.length, (parcel (2 * k)).toNat % 4 ≠ 3 ∨ ∀ j, decode (parcel (2 * k)) (parcel (2 * k + 1)) ≠ .ok j) →
        illegal (asBefore s1)))

/-- A batch of ECMD by engine. -/
def Sys2Proof.Safety.ecmdOf (vd va : VIdx) (m : Bool) : Engine → Instr
  | .cpe => .ecmdCpe vd va m | .ste => .ecmdSte vd va m | .coe => .ecmdCoe vd va m

/-- Dword `k` of the command that element `c` of a group holds (R305). -/
def Sys2Proof.Safety.commandDword (h : Hart) (va : VIdx) (c k : Nat) : Word :=
  BitVec.ofNat 64 (if hk : va.val + k < 64 then h.elem ⟨va.val + k, hk⟩ .n64 c else 0)

/-- No translation and no scratch window stands in the way under these registers, and every page that accesses touch lies in local
memory. -/
def Sys2Proof.Safety.LocalPages (vatp : Word) (swin : Vector Word 4) (l : List (Word × Nat × Nat)) : Prop :=
  vatp.toNat / 2 ^ 60 = 0 ∧ (∀ va, findWindow swin va = none)
  ∧ ∀ a ∈ l, ∀ p ∈ pagesFrom a.1 ((a.2.1 + a.2.2 + 7) / 8), p * 4096 < localTop

/-- The bytes of an image stand in plain memory from an address. -/
def Sys2Proof.Safety.HoldsImage (s : State) (a : Word) (l : List Blob) : Prop :=
  ∀ b ∈ l, ∀ j < b.len, (s.mem.get (localKey (a + BitVec.ofNat 64 (b.off + j)).toNat)).toNat = b.val / 256 ^ j % 256

/-- A loop state that an image can hold (R358). -/
def Sys2Proof.Safety.LoopFits (l : LoopState) : Prop :=
  l.levels ≤ 6 ∧ l.body.length = (l.stop.toNat - l.start.toNat) / 4 ∧ l.body.length ≤ 64

/-- The pages of an image's pigeonhole section, where there is one, can be reached: `P` is the partition count (R359, R360). -/
def Sys2Proof.Safety.PigeonReached (s : State) (a : Word) (P : Nat) (present : Bool) : Prop :=
  present = true → ∀ j < 16 + 16 * (65536 / P), Bare s (a + BitVec.ofNat 64 (pigeonAt P + j))
    ∧ (a + BitVec.ofNat 64 (pigeonAt P + j)).toNat < localTop

/-- The shelf of lane `l` of group `g` of the hart in a slot, for a partition count (R252). -/
def Sys2Proof.Safety.laneShelf (p : Slot) (P g l : Nat) : Nat := shelfBase + (p.core.val * 32 + g * 8 + p.slot.val * (8 / P) + l) * 65536

/-- Bytes of an image stand in memory at an offset: those of a number, lowest first (R358). -/
def Sys2Proof.Safety.At (s : State) (a : Word) (off n v : Nat) : Prop :=
  ∀ j < n, (s.mem.get (localKey (a + BitVec.ofNat 64 (off + j)).toNat)).toNat = v / 256 ^ j % 256

/-- A loop-state block of an image, from an offset (R89, R358). -/
def Sys2Proof.Safety.LoopAt (s : State) (a : Word) (off : Nat) (l : LoopState) : Prop :=
  At s a off 8 l.levels ∧ At s a (off + 8) 8 l.start.toNat ∧ At s a (off + 16) 8 l.stop.toNat
  ∧ (∀ j : Fin 6, At s a (off + 0x20 + 8 * j.val) 8 (l.counters.get j).toNat ∧ At s a (off + 0x80 + 32 * j.val) 8 (l.records.get j).trips.toNat
    ∧ ∀ e : Fin 3, At s a (off + 0x88 + 32 * j.val + 8 * e.val) 8
      (((l.records.get j).incs.get e).reg.val + ((l.records.get j).incs.get e).inc.toNat * 2 ^ 16))
  ∧ ∀ k p, l.body[k]? = some p → At s a (off + 0x200 + 4 * k) 4 p.toNat

/-- R357, R358, R359, R360. SAVEV in supervisor mode writes the image of the hart to plain memory, bytes 0x008 to 0x1FF left out, and no other byte, and sets vstart to 0. RESTV
of an image that SAVEV wrote of any hart `x` of the same partition restores what that hart held, but for the scalar registers, the mode,
the pc and estat.tip, a gated bank reading as zero, and the shelves where the image has them. Both are illegal in user mode, and an address that is not 4 KiB-aligned is a misaligned access.

R358, R359. Where each part of an image stands, of SAVEV and of a pre-emption.

Readings of the model that it rests on: log entries 31, 56. -/
def Obligations.ContextImages : Prop :=
  (∀ (s : State) (r : SReg) (x : Hart), let h := s.hart; let a := s.getS r; let shs := s.ctx.swin[0].toNat % 2 = 1
      (h.mode = .user → exec (.savev r) s = .next (takeTrap ⟨.illegal, firstParcel (.savev r), .none⟩ h.pc false false s)
        ∧ exec (.restv r) s = .next (takeTrap ⟨.illegal, firstParcel (.restv r), .none⟩ h.pc false false s))
      ∧ (h.mode = .supervisor → a.toNat % 4096 ≠ 0 → exec (.savev r) s = .next (takeTrap ⟨.misaligned, a, .store⟩ h.pc false false s)
        ∧ exec (.restv r) s = .next (takeTrap ⟨.misaligned, a, .load⟩ h.pc false false s))
      ∧ (h.mode = .supervisor → a.toNat % 4096 = 0 → s.storeQueued = false → Unbegun h →
        (let l := savevBlobs s h (decide shs);
          (∀ b ∈ l, PlainRun s (a + BitVec.ofNat 64 b.off) b.len) → PigeonReached s a h.parts h.ixlive → (shs → s.shelfPoison h = []) →
          ∃ u, exec (.savev r) s = .next (retire 8 u) ∧ MemoryEffects s u
            ∧ u.hart = keeping { h with vstart := 0, watch := u.hart.watch, early := u.hart.early } u.hart ∧ HoldsImage u a l
            ∧ ∀ k, (∀ b ∈ l, ∀ j < b.len, localKey (a + BitVec.ofNat 64 (b.off + j)).toNat ≠ k) → u.mem.get k = s.mem.get k)
        ∧ (∀ (y : State) (sh : Bool), let l := savevBlobs y x sh; let P := h.parts
          x.vcfg.plog = h.vcfg.plog → y.mem.wf = true → x.epc.toNat % 4 = 0 → x.retq.length ≤ 16 → x.asideRet.length ≤ 16 →
          (∀ n, x.vtags.get n = .e8m0 → n = 1) → x.pigeon.Pairwise (fun p q => p.1.toNat < q.1.toNat) → x.pigeon.length ≤ 65536 / P →
          (∀ y, x.loop = some y → LoopFits y) → (∀ y, x.asideLoop = some y → LoopFits y) →
          (∀ b ∈ l, PlainRun s (a + BitVec.ofNat 64 b.off) b.len) → PigeonReached s a P x.ixlive → HoldsImage s a l →
          ∃ u, exec (.restv r) s = .next (retire 8 u) ∧ MemoryEffects s u
            ∧ BytesKeptBut (fun k => sh = true ∧ ∃ g < 4, ∃ i < 8 / P, In (laneShelf h.place P g i) 65536 k) s u
            ∧ (sh = true → ∀ g < 4, ∀ i < 8 / P, ∀ o < 65536, u.mem.get (laneShelf h.place P g i + o) = y.mem.get (laneShelf x.place P g i + o))
            ∧ u.hart = keeping { h with
                vregs := u.hart.vregs, tiles := u.hart.tiles, vl := x.vl, vstart := x.vstart, cura := x.cura, curb := x.curb, vcfg := x.vcfg
                vgate := x.vgate, fflags := x.fflags, srseed := x.srseed, sroff := x.sroff, kthr := x.kthr, ltmask := x.ltmask
                ixlive := x.ixlive, ecause := x.ecause, epc := x.epc, eval := x.eval, pclass := x.pclass, vtags := x.vtags, flen := x.flen
                cerr := x.cerr, counters := x.counters, keep := x.keep, retq := x.retq, loop := x.loop, asideLoop := x.asideLoop
                asideRet := x.asideRet, prog := x.prog, pigeon := if x.ixlive then x.pigeon else []
                estat := { x.estat with tip := h.estat.tip, lps := x.asideLoop.isSome, rqs := Fin.ofNat 32 x.asideRet.length } } u.hart
            ∧ (∀ v e, e < h.vlmax .n8 → u.hart.elem v .n8 e = if (gateOf x v).st = .gated then 0 else x.elem v .n8 e)
            ∧ ∀ t : TIdx, u.hart.tiles.get t = if t.val < 8 / P then x.tiles.get t else 0)))
  ∧ (∀ (y s : State) (x : Hart) (a resume : Word) (shs full : Bool) (tls : Nat),
      let P := x.parts; let V := 8192 / P; let T0 := 0x1000 + 64 * V; let S0 := T0 + 8 / P * 262144; let H0 := S0 + 32 / P * 65536
      let bit (b : Bool) (n : Nat) := if b then 2 ^ n else 0
      tls < 256 → y.mem.wf = true → x.retq.length ≤ 16 → x.asideRet.length ≤ 16 → x.pigeon.length ≤ 65536 / P →
      (∀ y, x.loop = some y → LoopFits y) → (∀ y, x.asideLoop = some y → LoopFits y) →
      ∀ (l : List Blob) (more tiles : Nat), (l, more, tiles) ∈ [(savevBlobs y x shs, 0, 2 ^ (8 / P) - 1),
        (fullBlobs y x shs tls full resume, 15 * 2 ^ 35 + bit full 43 + bit (x.status == .halted) 44, tls)] → HoldsImage s a l →
      At s a 0 8 (2 + x.vcfg.plog.val * 2 ^ 8 + bit (x.mode == .supervisor) 10 + bit x.estat.tip 11 + bit x.prog 12 + bit x.ixlive 13 + bit shs 14
        + tiles * 2 ^ 15 + bit x.loop.isSome 23 + x.retq.length * 2 ^ 24 + bit x.asideLoop.isSome 29 + x.asideRet.length * 2 ^ 30 + more)
      ∧ (more ≠ 0 → At s a 8 8 resume.toNat ∧ ∀ r : SReg, At s a (0x100 + 8 * r.val) 8 (x.getS r).toNat)
      ∧ (∀ k v, [x.vl.toNat, x.vstart.toNat, x.cura.toNat + x.curb.toNat * 2 ^ 32, x.vcfg.bits, gateBits x.vgate, x.fflags.bits, x.srseed.toNat,
          x.sroff.toNat, x.kthr.bits, x.ltmask.toNat, bit x.ixlive 0, x.ecause.toNat, x.epc.toNat, x.eval.toNat, x.estat.bits, x.pclass.val][k]? = some v →
        At s a (0x200 + 8 * k) 8 v)
      ∧ (∀ n : VIdx, At s a (0x280 + n.val) 1 (tagCode (x.vtags.get n))) ∧ (∀ f : FIdx, At s a (0x2C0 + 2 * f.val) 2 (x.flen.get f).toNat)
      ∧ (∃ v < 2 ^ 16, At s a 0x2E0 2 v ∧ ∀ w : WIdx, v.testBit w.val = x.cerr.get w)
      ∧ (∀ w : WIdx, At s a (0x300 + 4 * w.val) 4 (x.counters.get w).toNat) ∧ (∀ k : KIdx, At s a (0x340 + 8 * k.val) 8 (x.keep.get k).toNat)
      ∧ (∀ k v, x.retq[k]? = some v → At s a (0x380 + 8 * k) 8 v.toNat) ∧ (∀ k v, x.asideRet[k]? = some v → At s a (0xC00 + 8 * k) 8 v.toNat)
      ∧ (∀ y, x.loop = some y → LoopAt s a 0x400 y) ∧ (∀ y, x.asideLoop = some y → LoopAt s a 0x800 y)
      ∧ (∀ (n : VIdx) (i : Nat), i < V → At s a (0x1000 + n.val * V + i) 1 (if (gateOf x n).st = .gated then 0 else x.elem n .n8 i))
      ∧ (∀ t : TIdx, t.val < 8 / P → tiles.testBit t.val = true → At s a (T0 + 262144 * t.val) 262144 (x.tiles.get t).toNat)
      ∧ (shs = true → ∀ g < 4, ∀ i < 8 / P, ∀ o < 65536, At s a (S0 + 65536 * (g * (8 / P) + i) + o) 1 (y.mem.get (laneShelf x.place P g i + o)).toNat)
      ∧ (x.ixlive = true → At s a H0 8 x.pigeon.length ∧ ∀ k e, x.pigeon[k]? = some e →
        At s a (H0 + 16 + 16 * k) 8 e.1.toNat ∧ At s a (H0 + 24 + 16 * k) 8 e.2.toNat))

/-! ### The steps of the engines -/

/-- The storage of a byte that an accepted command's pages place in the package (R315). -/
def Sys2Proof.Safety.keyOf (c : Cmd) (a : Word) : Option Nat :=
  match findPage c.pages a with
  | some (.cell k _, _) => some k
  | _ => none

/-- No command has a request still to leave (R382). -/
def Sys2Proof.Safety.NothingToSend (s : State) : Prop := ∀ x ∈ s.cmds, x.sends = []

/-- A command that can move its data now: the only one of its number, none accepted before it, no request of it under way or failed, and no
line locked by another device (R153). -/
def Sys2Proof.Safety.MayMove (s : State) (c : Cmd) : Prop :=
  NothingToSend s ∧ s.locks = [] ∧ c ∈ s.cmds ∧ (∀ x ∈ s.cmds, c.id ≤ x.id ∧ (x.id = c.id → x = c)) ∧ (∀ o ∈ s.fabric.outstanding, o.cmd ≠ some c.id) ∧ c.lost = false

/-- The lines of other devices that a command owns: its own device's it has released (R281). -/
def Sys2Proof.Safety.farOwned (c : Cmd) : List Nat := c.owned.filter fun l => 2 ^ 55 ≤ l * 128

/-- The command's data has moved; nothing of the other commands changes. -/
def Sys2Proof.Safety.Settled (s u : State) (c : Cmd) (code : BitVec 8) (place : Word) : Prop :=
  u.cmds = s.cmds.map fun x => if x.id = c.id then { x with stage := .moved code place, owned := farOwned x } else x

/-- Elements are written: `dst n` is where element `n` goes, if it is written, and `v n` its bits; each bit takes the highest-numbered
element that covers it, and every other bit of memory stays (R307). -/
def Sys2Proof.Safety.MovesElements (s u : State) (c : Cmd) (w count : Nat) (dst : Nat → Option (Word × Nat)) (v : Nat → Nat) : Prop :=
  let covers (n b : Nat) := n < count ∧ ∃ a k, dst n = some a ∧ keyOf c a.1 = some k ∧ 8 * k + a.2 ≤ b ∧ b < 8 * k + a.2 + w
  (∀ n a k b, dst n = some a → keyOf c a.1 = some k → covers n b → (∀ j, n < j → ¬ covers j b) → bitAt u b = (v n).testBit (b - (8 * k + a.2)))
  ∧ ∀ b, (∀ n, ¬ covers n b) → bitAt u b = bitAt s b

/-- Bits read from an unpoisoned place of a command's pages. -/
def Sys2Proof.Safety.ReadsBits (s : State) (c : Cmd) (a : Word × Nat) (w v : Nat) : Prop :=
  v < 2 ^ w ∧ ∃ k, keyOf c a.1 = some k ∧ (∀ q < w, v.testBit q = bitAt s (8 * k + a.2 + q)) ∧ ∀ j < (a.2 + w + 7) / 8, s.poisoned (k + j) = false

/-- R307, R308, R309, R310. COPY moves each iteration that the keep mask takes from its source to its destination through the conversion, the code table
or as bits, and zero where the mask leaves one out and kfill is set; here with sources and destinations in unpoisoned storage of
the package that do not overlap.

R311. LEVEL_WALK over a level in plain memory, in bare mode and outside every window: the rows r0 to r0 + n − 1 leave as a level of their own,
its descriptor, pointers from zero, coordinates and values from dst on; nothing else is written. Which of the lines that it reads become
pointer class is left open: they do where they fill the L2 (log entry 52).

Readings of the model that it rests on: log entries 23, 42, 52. -/
def Obligations.CopyAndLevelWalkWriteTheirElements : Prop :=
  (∀ (s : State) (c : Cmd) (x : Nat → Nat), let j := c.job; let its := j.iters c.keepMask; let ws := width j.stag; let wd := width j.dtag
      let item (n : Nat) : Iter := its.getD n ⟨0, false, (0, 0), (0, 0)⟩
      MayMove s c → c.engine ≠ .coe → isWalk c.engine j = false → c.stage = .pending → s.mem.wf = true →
      (∀ i ∈ its, i.kept = true → ReadsBits s c i.src ws (x i.n)) →
      (∀ i ∈ its, i.kept = true ∨ j.kfill = true → ∃ k, keyOf c i.dst.1 = some k) →
      (∀ i ∈ its, ∀ i' ∈ its, ∀ k k', keyOf c i.src.1 = some k → keyOf c i'.dst.1 = some k' →
        k + (i.src.2 + ws + 7) / 8 ≤ k' ∨ k' + (i'.dst.2 + wd + 7) / 8 ≤ k) →
      ∃ u, exec (.copy c.id) s = .next u ∧ Settled s u c 0 0 ∧ MemoryEffects { s with cmds := u.cmds } u
        ∧ u.hart = { s.hart with watch := u.hart.watch, early := u.hart.early }
        ∧ MovesElements s u c wd its.length (fun n => if (item n).kept || j.kfill then some (item n).dst else none)
            (fun n => if (item n).kept then j.f c.table n (x n) else 0))
  ∧ (∀ (s : State) (c : Cmd) (d : Fin 4 → Nat) (p crd val : Nat → Nat), let j := c.job; let n := j.trips.headD 0
      let r0 := j.extra.toNat % 2 ^ 32; let room := j.extra.toNat / 2 ^ 32; let pb := if (d 3).testBit 32 then 8 else 4; let w := width j.stag
      let E := p n - p 0; let up (x : Nat) := (x + 7) / 8 * 8; let P := up (4 * (n + 1)); let C := up (4 * E); let base := j.dst.toNat + 32
      let reads (a m v : Nat) : Prop := a + m ≤ localTop ∧ a % 4096 + m ≤ 4096 ∧ Holds s (localKey a) m v ∧ ∀ q < m, s.poisoned (localKey a + q) = false
      let out : List (Nat × Nat × Nat) := [(0, 8, base), (8, 8, base + P), (16, 8, base + P + C), (24, 8, n)]
        ++ (List.range (n + 1)).map (fun k => (32 + 4 * k, 4, p k - p 0)) ++ (List.range E).map (fun e => (32 + P + 4 * e, 4, crd e))
        ++ (List.range E).map (fun e => (32 + P + C + w / 8 * e, w / 8, val e))
      MayMove s c → c.stage = .pending → isWalk c.engine j = true → j.legal c.engine = true → s.mem.wf = true →
      c.vatp.toNat / 2 ^ 60 = 0 → (∀ va, findWindow c.swin va = none) → (∀ x ∈ c.pages, x.loc = packageHome (x.vpage * 4096)) →
      (∀ k : Fin 4, reads (j.src.toNat + 8 * k.val) 8 (d k)) → d 3 < 2 ^ 33 → r0 + n ≤ d 3 % 2 ^ 32 → d 0 % 8 = 0 → d 1 % 4 = 0 →
      d 2 % (w / 8) = 0 → (∀ k ≤ n, reads (d 0 + pb * (r0 + k)) pb (p k)) → (∀ k < n, p k ≤ p (k + 1)) → E < 2 ^ 32 →
      (∀ e < E, reads (d 1 + 4 * (p 0 + e)) 4 (crd e) ∧ reads (d 2 + w / 8 * (p 0 + e)) (w / 8) (val e)) →
      32 + P + C + E * (w / 8) ≤ room → base + room < 2 ^ 64 → n < 2 ^ 30 →
      (∀ k < room, ∃ x, keyOf c (j.dst + BitVec.ofNat 64 k) = some x ∧ x < 2 ^ 64) →
      (∀ k k' x x', k < k' → k' < room → keyOf c (j.dst + BitVec.ofNat 64 k) = some x → keyOf c (j.dst + BitVec.ofNat 64 k') = some x' →
        x ≠ x' ∧ (k / 8 = k' / 8 → x' = x + (k' - k))) →
      ∃ u, exec (.levelWalk c.id) s = .next u ∧ Settled s u c 0 0 ∧ MemoryEffects { s with cmds := u.cmds, ptrLines := u.ptrLines, free := u.free } u
        ∧ u.hart = { s.hart with watch := u.hart.watch, early := u.hart.early }
        ∧ (∀ o ∈ out, ∃ x, keyOf c (j.dst + BitVec.ofNat 64 o.1) = some x ∧ Holds u x o.2.1 (o.2.2 % 256 ^ o.2.1))
        ∧ ∀ b, (∀ o ∈ out, ∀ q < o.2.1, keyOf c (j.dst + BitVec.ofNat 64 (o.1 + q)) ≠ some b) → u.mem.get b = s.mem.get b)

/-- The collective events with their op (R390). -/
def Sys2Proof.Safety.CollEvent (id : Nat) (i : Instr) (op : Fin 4) : Prop :=
  (i = .allReduce id ∧ op = 0) ∨ (i = .reduceScatter id ∧ op = 1) ∨ (i = .allGather id ∧ op = 2) ∨ (i = .broadcast id ∧ op = 3)

/-- What a device of the list contributed. -/
def Sys2Proof.Safety.dataFrom (k : Coll) (p e : Nat) : Nat :=
  ((k.dataOf (entryDev (k.key.plist.getD p 0))).getD e ⟨0, false⟩).bits

/-- R47, R390, R392, R393. A collective step. A participant that is alone and has not given its data takes it through the conversion. One that holds every
contribution writes its result: the reduction tree over the participants in list order, its share of it, the gathering, or the root's
data. XA2A of one participant writes its elements where the layout maps say, and then its arrival increment reaches the hart named.

Readings of the model that it rests on: log entry 24. -/
def Obligations.CollectivesWriteTheirResults : Prop :=
  ∀ (s : State) (c : Cmd) (k : Coll) (i : Instr) (op : Fin 4) (x : Nat → Nat), CollEvent c.id i op → let j := c.job; let np := k.key.np; let w := width j.dtag
    let srcs := nestSources j; let dsts := collDests k j
    let settle (u : State) (e : List CollElem) := ∃ c', u.cmds = s.cmds.map (fun y => if y.id = c.id then c' else y)
      ∧ c' = { c with coll := some { k with sent := true, data := k.data ++ [⟨entryDev (k.key.plist.getD k.self 0), 0, e⟩], place := (0, 0) } }
    MayMove s c → c.engine = .coe → c.coll = some k → s.mem.wf = true → k.announced = true → 0 < np → np = k.key.plist.length →
    (j.op = op.val → c.stage = .pending → k.key.op = j.op → np = 1 → k.self = 0 → (op = 3 → k.root = 0 ∧ ∀ o ∈ s.fabric.outstanding, o.mc = false) →
      k.sent = false →
      (∀ n, n < srcs.length → ∀ a, srcs[n]? = some a → ReadsBits s c (a.1, a.2.1) a.2.2 (x n)) →
      ∃ u, exec i s = .next u ∧ BytesKept s u ∧ u = { s with cmds := u.cmds, l2 := u.l2, fabric := u.fabric }
        ∧ settle u ((List.range srcs.length).map fun n => ⟨j.f c.table n (x n), false⟩))
    ∧ (j.op = op.val → c.stage = .pending → k.key.op = j.op → (k.gives = true → k.sent = true) → k.key.trips = j.trips → (∀ d ∈ k.data, ∀ e ∈ d.elems, e.poisoned = false) →
      (∀ p < np, (op = 3 → p = k.root) → (k.dataOf (entryDev (k.key.plist.getD p 0))).length = j.count) →
      (op = 3 → k.root < np) → (op = 1 → j.count % np = 0 ∧ k.self < np) → (∀ a ∈ dsts, ∃ key, keyOf c a.1 = some key) →
      let at_ (n : Nat) : Option (Word × Nat) := (dsts[n]?).map fun a => (a.1, a.2.1)
      let sum (e : Nat) := ((treeSum ((ropOf k.key.rop).apply ⟨j.rm.noStochastic, false, 0⟩ j.dtag)
        (fun p => if p < np then some (ropLeaf VCfg.reset j.dtag (dataFrom k p e)) else none) 0 (clog2 np)).getD ⟨0, .zero⟩).bits
      ∃ u, exec i s = .next u ∧ Settled s u c k.place.1 k.place.2 ∧ MemoryEffects { s with cmds := u.cmds } u
        ∧ u.hart = { s.hart with watch := u.hart.watch, early := u.hart.early }
        ∧ MovesElements s u c w dsts.length at_ (fun n => match op with
          | 0 => sum n
          | 1 => sum (k.self * (j.count / np) + n)
          | 2 => dataFrom k (n / j.count) (n % j.count)
          | 3 => dataFrom k k.root n))
    ∧ (j.op = 4 → np = 1 → k.self = 0 → entryDev (k.key.plist.getD 0 0) = s.fabric.self →
      (c.stage = .pending → 8 ≤ w → (∀ n, n < srcs.length → ∀ a, srcs[n]? = some a → ReadsBits s c (a.1, a.2.1) a.2.2 (x n)) →
        (∀ it ∈ j.tuples, (exchange k j it).1 = 0 ∧ 0 ≤ (exchange k j it).2 ∧ (exchange k j it).2 + (w / 8 : Nat) ≤ (localTop : Nat)
          ∧ (exchange k j it).2 % (w / 8 : Nat) = 0) →
        let off (n : Nat) := localKey (exchange k j (j.tuples.getD n [])).2.toNat
        ∃ u, exec (.xa2a c.id) s = .next u
          ∧ u.cmds = s.cmds.map (fun y => if y.id = c.id then
              { y with stage := .flying, owned := farOwned y, coll := some { k with sent := true, place := (0, 0) } } else y)
          ∧ (∀ n < j.count, (∀ n', n < n' → n' < j.count → off n' ≠ off n) → Holds u (off n) (w / 8) (j.f c.table n (x n) % 2 ^ w))
          ∧ BytesKeptBut (fun a => ∃ n < j.count, In (off n) (w / 8) a) s u)
      ∧ (c.stage = .flying → ∀ (g : Hart), let e := (k.key.plist.getD 0 0).toNat
        s.namedSlot (e / 2 ^ 10 % 2 ^ 8) (Fin.ofNat 8 (e / 2 ^ 18)) = some s.hart.place → s.hart = g → g.status ≠ .absent → g.ctx = c.ctx →
        (∀ y ∈ s.others, y.born ≠ g.born ∧ y.place ≠ g.place) → (∀ y ∈ s.saved, y.hart.born ≠ g.born) → (∀ y ∈ s.kept, y.born ≠ g.born) →
        ∃ u, exec (.xa2a c.id) s = .next u ∧ Settled s u c k.place.1 k.place.2 ∧ BytesKept s u
          ∧ u.hart = { g with counters := g.counters.set (Fin.ofNat 16 (e / 2 ^ 21)) (g.counters.get (Fin.ofNat 16 (e / 2 ^ 21)) + 1) }))

/-- A command that its engine accepts: a copy whose fields are legal, with its record and pages in local memory, while the engine has room for
it and no collective waits. `vatp` and `swin` are those the batch was read under. -/
def Sys2Proof.Safety.Acceptable (s : State) (e : Engine) (vatp : Word) (swin : Vector Word 4) (d : List Word) (j : Job) : Prop :=
  jobOf d = some j ∧ j.legal e = true ∧ e ≠ .coe ∧ (e = .ste → j.op = 0)
  ∧ LocalPages vatp swin ((j.erec, 0, 256) :: nestSources j ++ nestDests j)
  ∧ (∀ x ∈ s.cmds, x.coll = none) ∧ NothingToSend s ∧ s.announces = []
  ∧ (s.cmds.filter (fun x => x.quad = quadOfCore s.hart.place.core ∧ x.engine = e)).length < 64

/-- The command `n` as an engine accepts it from the current hart (R315, R316). -/
def Sys2Proof.Safety.AcceptedAs (s : State) (e : Engine) (vatp : Word) (swin : Vector Word 4) (d : List Word) (j : Job) (n : Cmd) : Prop :=
  let h := s.hart
  n.id = s.nextId ∧ n.engine = e ∧ n.quad = quadOfCore h.place.core ∧ n.owner = h.born ∧ n.launch = h.launch ∧ n.ctx = h.ctx ∧ n.vatp = vatp
  ∧ n.swin = swin ∧ n.sends = [] ∧ n.mode = h.mode ∧ n.dwords = d ∧ n.job = j ∧ n.keepMask = h.keep.get j.kn ∧ n.coll = none
  ∧ n.stage = .pending ∧ n.answers = []

/-- R305, R306, R313, R314, R315. ECMD marks in vd which of its active commands the engine accepts and which it rejects, and retags vd N8: at
the end of its batch it sets the bit of each command by the engine's decision on it; a batch whose active commands all break the table is
rejected whole, with no effect; and where a single command is active and acceptable, it is accepted and its bit set. COMMAND_ACCEPT decides the
next command of the batch that is offered: one whose fields break the table is rejected, and an acceptable copy joins the queue with its
fields and its owner.

R322. ECANCEL of a counter on which no accepted command of the hart counts writes how many were cancelled. One that finds a single command,
whose data has not moved and which is no copy, ends it with code 0x03: its record is written, its counter advances with an error,
it leaves, and s[d] takes the count.

R261, R318. COMMAND_COMPLETE and COMMAND_FAIL end a command whose data has moved, and which no request still waits for: it leaves; its hart's
counter advances; and where it failed the record of 32 bytes is written and the counter's error is marked. UNCORRECTABLE_ERROR
poisons one sector, in HBM4 too where the error lies there.

Readings of the model that it rests on: log entries 23, 25. -/
def Obligations.CommandsAreAcceptedCancelledAndEnded : Prop :=
  ((∀ (s : State) (e : Engine) (vd va : VIdx) (m : Bool), let h := s.hart; let i := ecmdOf vd va m e
        let dwords (c : Nat) : List Word := (List.range 16).map (commandDword h va c)
        -- vd's bits by `f`, in a hart where nothing else of a register changes
        let Marks (k : Hart) (f : Nat → Bool) : Prop := VectorsKept [vd] h k ∧ k.tag vd = .n8
          ∧ k = { h with vregs := k.vregs, vtags := k.vtags, vstart := 0, offer := k.offer } ∧ ∀ c, c < 8 * h.vlmax .n8 → k.bit vd c = f c
        (BanksOn h → va.val ∈ [16, 32, 48] → (∀ r : VIdx, va.val ≤ r.val → r.val < va.val + 16 → h.tag r = .n64) → h.vln ≤ h.vlmax .n64 →
          h.vstart = 0 →
          (∀ (vatp : Word) (swin : Vector Word 4) (done : List (Nat × Bool)), h.offer = some ⟨e, vatp, swin, [], done⟩ → (done.map (·.1)).Nodup →
            ∃ k, exec i s = .next (retire 8 { s with hart := k })
              ∧ Marks k fun c => ((done.find? fun x => x.1 = c).map (·.2)).getD (h.bit vd c))
          ∧ (h.offer = none → (∀ y ∈ s.others, y.offer = none) →
            ((∀ c, Takes h m c → jobOf (dwords c) = none) → ∃ k, exec i s = .next (retire 8 { s with hart := k })
              ∧ Marks k fun c => if takes h m c then false else h.bit vd c)
            ∧ ∀ c j, (∀ x, Takes h m x ↔ x = c) → Acceptable s e s.ctx.vatp s.ctx.swin (dwords c) j →
              ∃ (n : Cmd) (k : Hart), exec i s = .next (retire 8 { s with cmds := s.cmds ++ [n], nextId := s.nextId + 1, hart := k })
                ∧ AcceptedAs s e s.ctx.vatp s.ctx.swin (dwords c) j n ∧ Marks k fun x => if x = c then true else h.bit vd x))
        ∧ (∀ (c : Nat) (d : List Word) (t : List (Nat × List Word)) (done : List (Nat × Bool)) (vatp : Word) (swin : Vector Word 4),
          h.offer = some ⟨e, vatp, swin, (c, d) :: t, done⟩ → quadOfCore h.place.core ∉ s.haltedQuads →
          (jobOf d = none → exec (.commandAccept e d) s = .next { s with hart := { h with offer := some ⟨e, vatp, swin, t, done ++ [(c, false)]⟩ } })
          ∧ (∀ j, Acceptable s e vatp swin d j →
            ∃ n : Cmd, exec (.commandAccept e d) s = .next { s with
                cmds := s.cmds ++ [n], nextId := s.nextId + 1, hart := { h with offer := some ⟨e, vatp, swin, t, done ++ [(c, true)]⟩ } }
              ∧ AcceptedAs s e vatp swin d j n)))
    ∧ (∀ (s : State) (d : SReg) (n : WIdx) (c : Cmd) (k : Nat), let h := s.hart
        h.cancelling = none →
        ((∀ x ∈ s.cmds, x.owner = h.born → x.job.cnt ≠ n) →
          exec (.ecancel d n) s = .next (retire 4 (s.setS d (BitVec.ofNat 64 h.canCount))))
        ∧ (s.cmds = [c] → c.sends = [] → c.owner = h.born → c.job.cnt = n → c.stage = .pending → isWalk c.engine c.job = true → c.coll = none → c.lost = false →
          (∀ o ∈ s.fabric.outstanding, o.cmd ≠ some c.id) → s.announces = [] → s.locks = [] → c.recordKeys = [k] → s.mem.wf = true → h.status ≠ .absent →
          (∀ x ∈ s.others, x.born ≠ h.born) → d ≠ 0 →
          ∃ u, exec (.ecancel d n) s = .next (retire 4 u) ∧ u.cmds = [] ∧ Holds u k 32 (c.record 3 0) ∧ BytesKeptBut (In k 32) s u
            ∧ u.hart.counters.get n = h.counters.get n + 1 ∧ u.hart.cerr.get n = true ∧ u.getS d = BitVec.ofNat 64 (h.canCount + 1)
            ∧ ScalarsKept [d] h u.hart)))
  ∧ (∀ (s : State) (c : Cmd) (code : BitVec 8) (place : Word) (k sector : Nat) (inHbm : Bool), let h := s.hart; let n := c.job.cnt
      (s.cmds.find? (fun x => x.id = c.id) = some c → c.stage = .moved code place → (∀ o ∈ s.fabric.outstanding, o.cmd ≠ some c.id) →
        (∀ x ∈ s.cmds, x.coll = none) → NothingToSend s → s.announces = [] → s.locks = [] → c.owner = h.born → h.status ≠ .absent →
        (∀ y ∈ s.others, y.born ≠ h.born) → (∀ y ∈ s.saved, y.hart.born ≠ h.born) → (∀ y ∈ s.kept, y.born ≠ h.born) →
        let bump (e : Bool) : Hart := { h with counters := h.counters.set n (h.counters.get n + 1), cerr := h.cerr.set n (h.cerr.get n || e) }
        (code = 0 → exec (.commandComplete c.id) s = .next { s with cmds := s.cmds.filter (fun x => x.id != c.id), hart := bump false })
        ∧ (code ≠ 0 → (code = 3 → h.cancelling = none) → c.recordKeys = [k] → s.mem.wf = true →
          (∀ x ∈ s.cmds, x.owns k 32 = false ∧ x.rsbDst = none ∧ x.rsbSrc = none) →
          ∃ u, exec (.commandFail c.id code) s = .next u ∧ u.cmds = s.cmds.filter (fun x => x.id != c.id)
            ∧ u.hart = { bump true with watch := u.hart.watch, early := u.hart.early }
            ∧ Holds u k 32 (code.toNat + engineCode c.engine * 2 ^ 8 + c.quad.val * 2 ^ 10 + n.val * 2 ^ 13 + place.toNat * 2 ^ 64
                + c.job.src.toNat * 2 ^ 128 + c.job.dst.toNat * 2 ^ 192)
            ∧ BytesKeptBut (In k 32) s u))
      ∧ (∃ p v, exec (.uncorrectableError sector inHbm) s = .next { s with poison := p, hbmPoison := v }
        ∧ (∀ q, q ∈ p ↔ q = sector ∨ q ∈ s.poison) ∧ ∀ q, q ∈ v ↔ (q = sector ∧ inHbm = true) ∨ q ∈ s.hbmPoison))
/-! ### The scheduler and the launch dispatcher -/

/-- Every hart of the device is in its slot, no two share a creation number or a slot. -/
def Sys2Proof.Safety.DistinctHarts (s : State) : Prop :=
  (s.hart :: s.others).Pairwise (fun x y => x.born ≠ y.born ∧ x.place ≠ y.place) ∧ ∀ x ∈ s.hart :: s.others, x.status ≠ .absent

/-- A launch with one more hart, created last (R224, R240). -/
def Sys2Proof.Safety.oneMore (l : Launch) (qi : Nat) (q : Fin 6) : Launch :=
  { l with
    created := l.created + 1
    admitted := decide (l.created + 1 = l.total)
    binds := if l.binds.any (fun b => b.index = qi) then l.binds else l.binds ++ [⟨qi, q, 0⟩] }

/-- R24, R219, R223, R224, R240. The launch at the head: ADMIT_LAUNCH, and CREATE_HART for the harts after the first, create the hart of the next
linear index on the slot that placement gives, in user mode at the entry point with the values of R24; a launch of no hart is
admitted at once. Only shelf storage is written.

Readings of the model that it rests on: log entry 30. -/
def Obligations.LaunchesCreateTheirHarts : Prop :=
  ∀ (s : State) (l : Launch) (q : Fin 6) (p : Slot), let n := l.created; let qi := (indexOf n l.rows).1; let ci := (indexOf n l.rows).2
    s.head = some (.launch l.id) → s.launchOf l.id = some l → (∀ x ∈ s.launches, x.id = l.id → x = l) → l.admitted = false →
    s.mgmt.proposed = [] →
    (l.total = 0 → n = 0 → ∃ k, exec .admitLaunch s = .next { s with
      launches := s.launches.map (fun x => if x.id = l.id then { x with admitted := true } else x), head := none, kept := k })
    ∧ (l.total ≠ 0 → l.gang = false → l.root = false → (s.ctxs.get l.ctx).frozen = false →
      (match l.binds.find? (fun b => b.index = qi) with | some b => some b.quad | none => s.chooseQuad l) = some q →
      s.placeOn l.ctx l.plog q = some p → s.hart.status ≠ .absent → s.mem.wf = true →
      ∀ i, (n = 0 ∧ i = Instr.admitLaunch) ∨ (n ≠ 0 ∧ i = Instr.createHart) →
      ∃ (u : State) (x : Hart), exec i s = .next u ∧ u.hart = s.hart ∧ u.others = s.others ++ [x] ∧ u.nextId = s.nextId + 1
        ∧ u.launches.find? (fun y => y.id = l.id) = some (oneMore l qi q)
        ∧ x = { Hart.fresh with
            status := .resident, place := p, ctx := l.ctx, launch := l.id, born := s.nextId, linear := BitVec.ofNat 64 n
            quadIndex := BitVec.ofNat 64 qi, coreIndex := BitVec.ofNat 64 ci, sregs := x.sregs, pc := l.entry, pclass := l.cls
            mode := .user, vcfg := { VCfg.reset with plog := l.plog } }
        ∧ x.getS 3 = l.arg ∧ x.getS 4 = BitVec.ofNat 64 qi ∧ x.getS 5 = BitVec.ofNat 64 ci ∧ x.getS 6 = BitVec.ofNat 64 n ∧ x.getS 7 = l.nest
        ∧ (∀ r, r ∉ [3, 4, 5, 6, 7] → x.getS r = 0)
        ∧ BytesKeptBut (fun a => shelfBase ≤ a) s u)

/-- The 6 MiB of an image's slot lie in local memory, and every run of the image in them holds its bytes there (R353, R358, R406). -/
def Sys2Proof.Safety.HoldsAtPa (s : State) (base : Nat) (l : List Blob) : Prop :=
  ∀ b ∈ l, ∀ j < b.len, (s.mem.get (localKey (base + b.off + j))).toNat = b.val / 256 ^ j % 256

/-- R353, R355, R356. PRE_EMPTION of a hart of class 0 or 1 and ESCALATION of one of class 2 or 3 that has started as many convoys as its quad's limit:
a hart that may be stopped, on a quad that is not debug-halted, leaves its slot, its image stands at its place of the save region, and a resumption entry waits. RESUMPTION
puts the oldest entry, with no launch before it, back on its slot, at the image's resume address with the image's scalar registers.

Readings of the model that it rests on: log entries 30, 31. -/
def Obligations.HartsArePreemptedAndResumed : Prop :=
  ∀ (s : State) (i : Instr) (x : Saved), let h := s.hart; let base := saveSlot s.ctx.saveBase h.place
    let limit := s.mgmt.escalation.get (quadOfCore h.place.core)
    (DistinctHarts s → h.preempt = true → (∀ l, s.launchOf h.launch = some l → l.gang = false) → s.stoppable h = true →
      quadOfCore h.place.core ∉ s.haltedQuads →
      s.paOwned base slotBytes = false → base + 6 * 2 ^ 20 ≤ localTop → base % 4096 = 0 → s.mem.wf = true →
      h.pigeon.length ≤ 65536 / h.parts →
      (i = .preEmption h.place ∧ h.pclass.val < 2
        ∨ i = .escalation h.place ∧ 2 ≤ h.pclass.val ∧ (if h.pclass = 2 then limit.1 else limit.2).toNat ≤ h.convoys) →
      ∃ u, exec i s = .next u ∧ u.hart = .fresh ∧ (∃ qs, u.others = s.others.map (·.noteWrite qs))
        ∧ u.nextId = s.nextId + 1 ∧ u.saved = s.saved ++ [⟨{ h.settled with early := [] }, s.nextId, false, base, []⟩]
        ∧ HoldsAtPa u base (fullBlobs s h (s.ctx.swin[0].toNat % 2 = 1) (2 ^ (8 / h.parts) - 1) true h.pc)
        ∧ BytesKeptBut (fun a => ∃ k < 6 * 2 ^ 20, a = localKey (base + k)) s u)
    ∧ (s.saved = [x] → s.head = some (.resume x.order) → s.mgmt.proposed = [] → x.gang = false → s.slotBack x = true → s.imagePoisoned x = false →
      h.status ≠ .absent → x.image % 4096 = 0 → x.image + 4096 ≤ localTop →
      ∃ (u : State) (y : Hart), exec .resumption s = .next u ∧ u.saved = [] ∧ u.head = none ∧ u.hart = h ∧ u.others = s.others ++ [y]
        ∧ y.place = x.hart.place ∧ y.born = x.hart.born ∧ y.ctx = x.hart.ctx ∧ y.launch = x.hart.launch ∧ y.watch = none ∧ y.preempt = false
        ∧ (∀ v, Holds s (localKey (x.image + 8)) 8 v → y.pc = BitVec.ofNat 64 v)
        ∧ ∀ r : SReg, r ≠ 0 → ∀ v, Holds s (localKey (x.image + 0x100 + 8 * r.val)) 8 v → y.getS r = BitVec.ofNat 64 v)

/-- R241, R242, R243, R245. A core that is retired, holds four convoys under way, or has a convoy started that has not begun, has no issue
opportunity: nothing changes. At one of another core the position advances; the eligible hart whose slot the position names starts its convoy, with no credit changed; else each eligible
hart gains 2^class, the one with the most, the lowest slot on a tie, starts its convoy and gives up the sum; with none eligible no
credit changes. The hart that starts a convoy takes the next stamp of the start order. What HYIELD holds counts down, or ends where another hart is chosen; harts keep everything else.

R225, R230, R232, R247. HWAIT_WAKE ends the wait of a hart whose watch has its written bit set; ARRIVAL_REGISTER counts an arrival once, and the one
that makes a phase full turns the barrier to the next; MERGED_HART_EMIT turns what a pool of a drained launch holds into a merged
hart that waits to be placed; COMPLETION_WORD_WRITE writes the word of a launch that is done and takes the launch away.

Readings of the model that it rests on: log entries 27, 35. -/
def Obligations.OpportunitiesWaitsAndBarriers : Prop :=
  (∀ (s : State) (core : Fin 192), let c := s.cores.get core; let all := s.hart :: s.others
      let elig (x : Hart) : Bool := decide (x.place.core = core) && s.eligible x
      let gain (x : Hart) : Int := 2 ^ x.pclass.val; let total := ((all.filter elig).map gain).foldl (· + ·) 0
      let named (x : Hart) : Prop := elig x = true ∧ c.position.val < 8 ∧ x.place.slot.val = c.position.val
      let leads (x : Hart) : Prop := elig x = true ∧ (∀ y ∈ all, ¬ named y)
        ∧ ∀ y ∈ all, elig y = true → y.credit + gain y < x.credit + gain x ∨ (y.credit + gain y = x.credit + gain x ∧ x.place.slot ≤ y.place.slot)
      (c.retired = true ∨ 4 ≤ s.convoysOn core ∨ s.startPending core = true → exec (.issueOpportunity core) s = .next s) ∧
      (DistinctHarts s → c.retired = false → s.convoysOn core < 4 → s.startPending core = false →
      ∃ u, exec (.issueOpportunity core) s = .next u
        ∧ u = { s with hart := u.hart, others := u.others, nextId := s.nextId + 1, cores := s.cores.set core { c with position := Fin.ofNat 15 (c.position.val + 1) } }
        ∧ (∀ x ∈ all, ∃ y ∈ u.hart :: u.others, (x.place.core ≠ core → y = x)
          ∧ (x.place.core = core → y = { x with
              credit := y.credit, issue := y.issue, startedAt := y.startedAt
              yielded := if ∃ z ∈ all, (named z ∨ leads z) ∧ z.born ≠ x.born then 0 else x.yielded - 1 })
          ∧ (x.place.core = core → named x ∨ leads x → y.issue = true ∧ y.startedAt = s.nextId)
          ∧ (¬ (named x ∨ leads x) → y.issue = x.issue ∧ y.startedAt = x.startedAt)
          ∧ (x.place.core = core → y.credit = if (∃ z ∈ all, leads z) ∧ elig x = true then
              x.credit + gain x - (if leads x then total else 0) else x.credit))
        ∧ (∀ x ∈ all, named x ∨ leads x → u.hart.born = x.born)
        ∧ ((∀ x ∈ all, elig x = false) → u.hart.born = s.hart.born)))
  ∧ (∀ (s : State) (b : Fin 16) (a : Arrival) (w : Watch) (l : Launch) (p : Pool) (n k : Nat), let h := s.hart
      (DistinctHarts s → h.waiting = true → h.watch = some w → w.written = true →
        exec (.hwaitWake h.place) s = .next { s with hart := { h with waiting := false } })
      ∧ (DistinctHarts s → s.saved = [] → h.arrivals.get b = some a → a.registered = false →
        s.arrivalWaits a = false → s.launches = [l] → l.id = h.launch →
        let bar := l.barriers.get b
        let next : Barrier := if bar.arrivals + 1 = bar.parts then ⟨bar.phase + 1, 0, bar.parts - bar.leaving, 0⟩
          else { bar with arrivals := bar.arrivals + 1 }
        exec (.arrivalRegister h.place b) s = .next { s with
          hart := { h with arrivals := h.arrivals.set b (some { a with registered := true }) }
          launches := [if bar.phase = a.phase then { l with barriers := l.barriers.set b next } else l] })
      ∧ ((s.pools.filter (fun x => x.quad = p.quad))[n]? = some p → p.elems ≠ [] → s.launchOf p.launch = some l → l.admitted = true →
        l.created = l.total → l.ended = l.total →
        exec (.mergedHartEmit p.quad n) s = .next { s with
          pools := s.pools.map fun x => if x = p then { x with elems := [] } else x
          mergedHarts := s.mergedHarts ++ [⟨p, p.elems⟩] })
      ∧ (s.launchOf l.id = some l → l.admitted = true → l.created = l.total → l.ended = l.total → l.mergedOut = 0 →
        (∀ x ∈ s.pools, x.launch = l.id → x.elems = []) → (∀ x ∈ s.mergedHarts, x.pool.launch ≠ l.id) → (∀ x ∈ s.cmds, x.launch ≠ l.id) →
        l.cword = [k] → s.writeStalls k 8 = false → s.mem.wf = true → l.nexit < 2 ^ 32 →
        ∃ u, exec (.completionWordWrite l.id) s = .next u ∧ u.launches = s.launches.filter (fun x => x.id != l.id)
          ∧ Holds u k 8 ((if l.code = 0 then 1 else 2) + l.code.toNat * 2 ^ 8 + l.nexit * 2 ^ 32) ∧ BytesKeptBut (In k 8) s u
          ∧ u.hart = { h with watch := u.hart.watch, early := u.hart.early }))
/-! ### The fabric -/

/-- A packet of the stream that this device expects next, with nothing buffered (R381, R382). -/
def Sys2Proof.Safety.InOrder (s : State) (p : Packet) : Prop :=
  p.src ≠ s.fabric.self ∧ p.dst = s.fabric.self ∧ p.mc = false ∧ p.seq = s.fabric.expects p.src p.ocls ∧ s.fabric.held = [] ∧ p.seq < 2 ^ 32

/-- A message as it leaves: on the detour channel where its route makes it take one (R377). -/
def Sys2Proof.Safety.onItsWay (s : State) (m : OutMsg) : OutMsg := m.mapPacket (Packet.leaves s.fabric)

/-- A request is performed and answered: the stream expects the next number, and the last message out is `m`. -/
def Sys2Proof.Safety.AnswersWith (s u : State) (p : Packet) (m : OutMsg) : Prop :=
  u.fabric.expects p.src p.ocls = (p.seq + 1) % 2 ^ 32 ∧ ∃ l, u.fabric.out = s.fabric.out ++ l ++ [onItsWay s m]

/-- The packet that answers another, with its data and marks. -/
def Sys2Proof.Safety.reply (s : State) (p : Packet) (data : List Byte) (marks : List Bool) : Packet :=
  { p with
    src := s.fabric.self, dst := p.src, mc := false, dt := false, string := 0, data := data, mask := [], marks := marks, tainted := false
    wt := false, len := data.length }

/-- The notice of a news to every other device that a route reaches, in the order of their ids (R379, R383). -/
def Sys2Proof.Safety.tells (f : Fabric) (slot : Slot) (news : PortNews) : List OutMsg :=
  (((List.range f.nrow).flatMap fun y => (List.range f.ncol).map fun x => 32 * y + x).filter fun d => d ≠ f.self ∧ f.reaches d = true).map
    fun d => OutMsg.portNotice (Packet.leaves f (f.packet d 0 0 slot)) news

/-- The first 3 TiB behind an offset are this device's storage, in one page, held by no engine (R384). -/
def Sys2Proof.Safety.LocalRun (s : State) (off n : Nat) : Prop :=
  0 < n ∧ off + n ≤ localTop ∧ off % 4096 + n ≤ 4096 ∧ s.mem.wf = true ∧ s.writeStalls (localKey off) n = false ∧ s.readStalls (localKey off) n = false
  ∧ ∀ j < n, s.writeStalls (localKey off + j) 1 = false

/-- R143, R153, R262, R287, R293, R319, R382, R384, R385, R386, R388. A request that arrives in order: a read answers with the bytes and marks the poisoned
sectors; a write changes the bits that its mask names, and poisons their sectors where its payload derives from poison; an atomic
answers with the old value and writes the new one under the lock of its instruction, which its first packet takes on the lines of every
place that the instruction has here and its last releases; where one of those places is poisoned and it is no reduction, nothing is
written and its own sector is marked if it is poisoned; a read or
atomic that asks for a watch enters the table, the oldest entry going from a full one. One at 3 TiB or above is answered with an error. A duplicate of one already performed is answered again, and does nothing.

Readings of the model that it rests on: log entries 21, 26. -/
def Obligations.FabricRequestsArePerformedInOrder : Prop :=
  ∀ (s : State) (p : Packet) (old : Nat) (x : CachedResponse), let k := localKey p.off
    let done (u : State) (m : OutMsg) : Prop := AnswersWith s u p m
    let watch : RemoteWatch := ⟨p.src, p.slot, k / 32, p.off⟩
    (InOrder s p → LocalRun s p.off p.len → s.fabric.watches.length ≤ 4096 →
      ∃ u, exec (.read p) s = .next u ∧ BytesKept s u ∧ u.hart = s.hart ∧ u.others = s.others
        ∧ u.fabric.watches = (if p.wt then s.fabric.watches.drop (s.fabric.watches.length - 4095) ++ [watch] else s.fabric.watches)
        ∧ done u (.dataResponse (reply s p ((List.range p.len).map fun j => s.mem.get (k + j))
            ((List.range ((k + p.len - 1) / 32 - k / 32 + 1)).map fun j => s.poison.contains (k / 32 + j)))))
    ∧ (InOrder s p → LocalRun s p.off p.data.length → p.mask.length = p.data.length →
      ∃ u, exec (.write p) s = .next u ∧ done u (.completionResponse (reply s p [] []))
        ∧ u.hart = { s.hart with watch := u.hart.watch, early := u.hart.early }
        ∧ (∀ j < p.data.length, let m := p.mask.getD j 0
            u.mem.get (k + j) = (s.mem.get (k + j) &&& ~~~m) ||| (p.data.getD j 0 &&& m)
            ∧ (p.tainted = true → m ≠ 0 → (k + j) / 32 ∈ u.poison))
        ∧ BytesKeptBut (In k p.data.length) s u)
    ∧ (∀ ks, InOrder s p → LocalRun s p.off p.len → Holds s k p.len old → p.len ≤ 16 → k % p.len = 0 →
      (p.merges = false → p.len = 4 ∨ p.len = 8 ∨ p.len = 16) → (p.off :: p.lockset).mapM homeKey = some ks →
      (∀ x ∈ ks, s.writeStalls x p.len = false) → (∀ w ∈ s.lineWaits, w.line ∉ linesOf ks p.len) →
      (∀ l ∈ s.locks, l.src ≠ p.src ∨ l.slot ≠ p.slot) → s.fabric.reaches p.src = true →
      let bytes := (List.range p.len).map fun j => s.mem.get (k + j); let y := ofBytes (if p.op = .cas then p.data.drop p.len else p.data) % 256 ^ p.len
      let refused := p.merges = false ∧ ∃ x ∈ ks, s.poisoned x = true
      ∃ u, exec (.atomic p) s = .next u ∧ (p.wt = true → watch ∈ u.fabric.watches)
        ∧ u.locks = s.locks ++ (if p.closing then [] else [⟨p.src, p.slot, linesOf ks p.len, decide refused⟩])
        ∧ (refused → BytesKept s u ∧ u.hart = s.hart ∧ done u (.dataResponse (reply s p bytes [s.poisoned k])))
        ∧ (¬ refused → done u (.dataResponse (reply s p bytes [false]))
          ∧ u.hart = { s.hart with watch := u.hart.watch, early := u.hart.early }
          ∧ match (if p.merges = true ∨ p.op = .fadd then Packet.effect p old else amoWrites p.len old y (ofBytes p.data % 256 ^ p.len) p.op) with
            | some v => Holds u k p.len v ∧ BytesKeptBut (In k p.len) s u
            | none => BytesKept s u))
    ∧ (InOrder s p → localTop ≤ p.off → ∀ i ∈ [Instr.read p, .write p, .atomic p], ∃ u, exec i s = .next u ∧ BytesKept s u
        ∧ done u (.errorResponse (reply s p [] [])))
    ∧ (p.src ≠ s.fabric.self → p.dst = s.fabric.self → p.mc = false → 2 ^ 31 ≤ (p.seq + 2 ^ 32 - s.fabric.expects p.src p.ocls) % 2 ^ 32 →
      s.fabric.cached.find? (fun y => y.src = p.src ∧ y.ocls = p.ocls ∧ y.seq = p.seq) = some x →
      ∀ i ∈ [Instr.read p, .write p, .atomic p], exec i s = .next { s with fabric := { s.fabric with out := s.fabric.out ++ [onItsWay s x.msg] } })

/-- R179, R180, R223, R391, R392, R393. What else arrives: data of a collective joins the buffer of the command that announced for it; an announce is met by
the command that matches, or held for one to come; an arrival increment advances the counter of the hart named, or is answered with
an error; and a message of FSEND is applied to the share of the hart named, with its receipt added, or refused whole.

R377, R379, R382, R383, R385, R386. Responses and notices: a response closes the request that it answers and reaches who asked; one that answers no
request does nothing; one for another device goes on. With no request without a response, a port notice records the port or the device
that it loses, with the masks computed again where a port failed, and a neighbour of the device tells every device once; a watch notice sets the written bit of the watch it names; a link's
retraining loses nothing but counts its failures, the eighth in succession failing the port; a link's failure marks the port and sends
every device a port notice.

Readings of the model that it rests on: log entries 24, 26. -/
def Obligations.PacketsMessagesAndResponses : Prop :=
  (∀ (s : State) (p : Packet) (key : CollKey) (es : List CollElem) (c : Cmd) (k : Coll) (core : Nat) (slot : Fin 8) (w : WIdx) (m : FMsg) (old : Nat),
      let h := s.hart; let ok := OutMsg.completionResponse (reply s p [] [])
      (InOrder s p → s.cmds = [c] → c.coll = some k → k.key = key → k.announced = true →
        (p.src ∈ k.peers → (k.dataOf p.src).length < k.total → ∃ u, exec (.collectiveData p key es) s = .next u ∧ AnswersWith s u p ok
          ∧ u.cmds = [{ c with coll := some { k with data := k.data ++ [⟨p.src, p.off, es⟩] } }] ∧ u = { s with cmds := u.cmds, fabric := u.fabric })
        ∧ (p.closing = true → p.src ∈ k.peersOf → p.src ∉ k.peers → s.announces = [] → s.unpaired = [] → ∃ u, exec (.announce p key) s = .next u ∧ AnswersWith s u p ok
          ∧ u.cmds = [{ c with coll := some { k with peers := k.peers ++ [p.src] } }] ∧ u = { s with cmds := u.cmds, fabric := u.fabric }))
      ∧ (InOrder s p → p.closing = true → s.cmds = [] → s.announces = [] → s.unpaired = [] → ∃ u, exec (.announce p key) s = .next u ∧ AnswersWith s u p ok
        ∧ u = { s with announces := [⟨p.src, key⟩], fabric := u.fabric })
      ∧ (InOrder s p → DistinctHarts s → s.namedSlot core slot = some h.place → ∃ u, exec (.arrivalIncrement p h.ctx core slot w) s = .next u
        ∧ AnswersWith s u p ok ∧ u.hart = { h with counters := h.counters.set w (h.counters.get w + 1) }
        ∧ u = { s with hart := u.hart, fabric := u.fabric })
      ∧ (InOrder s p → s.namedSlot core slot = none → ∃ u, exec (.arrivalIncrement p h.ctx core slot w) s = .next u
        ∧ AnswersWith s u p (.errorResponse (reply s p [] [])) ∧ u = { s with fabric := u.fabric })
      ∧ (p.src = s.fabric.self → s.msgs.find? (fun x => x.born = m.born ∧ x.core = m.core ∧ x.slot = m.slot) = some m → m.rdev = s.fabric.self →
        m.receipt % 8 = 0 → m.receipt < localTop → s.writeStalls (localKey m.receipt) 8 = false → s.mem.wf = true → DistinctHarts s →
        (∀ w ∈ s.lineWaits, w.line ≠ localKey m.receipt / 128) → Holds s (localKey m.receipt) 8 old → m.ascending.length < 2 ^ 32 →
        let n := m.ascending.length; let kind := if m.float then Kind64.float else if m.signed then .signed else .unsigned
        let received (u : State) (a : Nat) : Prop := Holds u (localKey m.receipt) 8 ((old + a + 2 ^ 32 * (n - a)) % 2 ^ 64)
          ∧ BytesKeptBut (In (localKey m.receipt) 8) s u ∧ u.msgs = s.msgs.erase m
        (s.namedSlot m.core m.slot = some h.place → m.ctx = h.ctx →
          let r := applyEntries h.parts (combine64 (ropOfField m.op) kind ⟨.nearestEven, false, 0⟩) h.pigeon m.ascending
          ∃ u, exec (.fsendMessage p m) s = .next u ∧ received u r.2.1
            ∧ u.hart = { h with pigeon := r.1, ixlive := h.ixlive || decide (r.2.1 ≠ 0), watch := u.hart.watch, early := u.hart.early })
        ∧ (s.namedSlot m.core m.slot = none → ∃ u, exec (.fsendMessage p m) s = .next u ∧ received u 0
          ∧ u.hart = { h with watch := u.hart.watch, early := u.hart.early })))
  ∧ (∀ (s : State) (p : Packet) (o : OutReq) (dev port sector : Nat) (far : Nat × Nat) (news : PortNews) (ok : Bool), let h := s.hart; let f := s.fabric
      let responses := [Instr.dataResponse p, .completionResponse p, .errorResponse p]
      let marks := (p.marks.zipIdx.filter (·.1)).map fun x => (o.off / 32 + x.2) * 32
      let asks (x : OutReq) : Prop := x.refused = false ∧ x.txn = p.txn ∧ x.ocls = p.ocls ∧ x.seq = p.seq
      let closed := { s with fabric := { f with outstanding := f.outstanding.erase o } }
      let answers (i : Instr) (a : RemoteAnswer) : Prop := exec i s = .next { closed with hart := { h with answers := h.answers ++ [a] } }
      let count := ((f.retrains.find? (fun x => x.1 = port)).map (·.2)).getD 0 + 1
      let others := f.retrains.filter fun x => x.1 != port
      let here := p.dst = f.self ∨ p.mc = true
      -- with failed ports, masks computed again and notices told of a news
      let after (g : Fabric) (l : List OutMsg) : State := { s with fabric := { g.remask with out := f.out ++ l } }
      let fails (i : Instr) : Prop := ∃ l, let g := { f with failedPorts := l, retrains := others }
        exec i s = .next (after g (tells g.remask h.place ⟨some (f.self, port), none⟩)) ∧ ∀ d, d ∈ l ↔ d = port ∨ d ∈ f.failedPorts
      (here → (∀ x ∈ f.outstanding, ¬ asks x) → ∀ i ∈ responses, exec i s = .next s)
      ∧ (p.dst ≠ f.self → p.mc = false → p.dt = false → f.reaches p.dst = true →
        let on (m : OutMsg) : State := { s with fabric := { f with out := f.out ++ [onItsWay s m] } }
        exec (.dataResponse p) s = .next (on (.dataResponse p)) ∧ exec (.completionResponse p) s = .next (on (.completionResponse p))
        ∧ exec (.errorResponse p) s = .next (on (.errorResponse p)) ∧ exec (.watchNotice p sector) s = .next (on (.watchNotice p sector))
        ∧ exec (.portNotice p news) s = .next (on (.portNotice p news)))
      ∧ (DistinctHarts s → here → o ∈ f.outstanding → asks o → o.dst = p.src → (∀ x ∈ f.outstanding, asks x → x = o) →
        o.cmd = none → o.born = h.born →
        (o.posted = false → p.data.length = o.len → answers (.dataResponse p) ⟨o.dst, o.off, o.len, p.data, marks, false⟩)
        ∧ (o.posted = false → answers (.completionResponse p) ⟨o.dst, o.off, o.len, p.data, marks, false⟩
          ∧ answers (.errorResponse p) ⟨o.dst, o.off, o.len, [], [], true⟩)
        ∧ (o.posted = true → exec (.completionResponse p) s = .next closed))
      ∧ (here → f.outstanding = [] → s.locks = [] → exec (.portNotice p ⟨none, none⟩) s = .next s
        ∧ (far.1 = f.self → exec (.portNotice p ⟨some far, none⟩) s = .next s)
        ∧ (far.1 ≠ f.self → exec (.portNotice p ⟨some far, none⟩) s
            = .next (after { f with farFailed := f.farFailed.filter (· != far) ++ [far] } []))
        ∧ ∃ l, let g := { f with lost := l }
            exec (.portNotice p ⟨none, some dev⟩) s = .next { s with fabric := { g with out := f.out ++
              if dev ∉ f.lost ∧ dev ≠ f.self ∧ (dev / 32 = f.row.val ∨ dev % 32 = f.col.val) then tells g h.place ⟨none, some dev⟩ else [] } }
          ∧ ∀ d, d ∈ l ↔ d = dev ∨ d ∈ f.lost)
      ∧ (here → DistinctHarts s → p.slot = h.place → ∃ e, exec (.watchNotice p sector) s = .next { s with hart := { h with
          early := e, watch := h.watch.map fun w => if w.sector = sector then { w with written := true } else w } })
      ∧ (f.portUp port = false → exec (.linkRetrain ⟨port, ok⟩) s = .next s ∧ exec (.linkFailure port) s = .next s)
      ∧ (f.portUp port = true → exec (.linkRetrain ⟨port, true⟩) s = .next { s with fabric := { f with retrains := others } }
        ∧ (count < 8 → exec (.linkRetrain ⟨port, false⟩) s = .next { s with fabric := { f with retrains := others ++ [(port, count)] } })
        ∧ (f.outstanding = [] → s.locks = [] → fails (.linkFailure port) ∧ (8 ≤ count → fails (.linkRetrain ⟨port, false⟩)))))
/-! ### The mailbox, the host and the package -/

/-- The response of the mailbox over a state: its status and sequence number, and vector 0 of MSI-X (R405). -/
def Sys2Proof.Safety.answered (t : State) (seq : BitVec 24) (status : BitVec 8) : State :=
  { t with mgmt := { t.mgmt with mboxStatus := status, mboxSeq := seq, mboxTaken := [], msix := t.mgmt.msix ++ [0] } }

/-- The mailbox is not busy and the house firmware serves it (R405, R413). -/
def Sys2Proof.Safety.Served (s : State) : Prop := s.mgmt.mboxStatus ≠ 1 ∧ s.mgmt.bstage = 8

/-- A firmware image is whole, both its signatures verify, the fuse slots hold its keys' hashes, and its version is not below the least that
the attic records for its kind (R407). -/
def Sys2Proof.Safety.Accepted (m : Mgmt) (x : FwImage) : Prop :=
  let h := x.head
  h.magic = 0x4E595A46 ∧ h.length = x.body.length ∧ h.digest = Config.sha384 x.body ∧ m.fuseEd = Config.sha384 x.keys.ed
  ∧ m.fuseMl = Config.sha384 x.keys.ml ∧ Config.ed25519Verifies x.keys.ed (Config.headerBytes h.magic h.kind h.svn h.length h.digest) h.ed = true
  ∧ Config.mldsa65Verifies x.keys.ml (Config.headerBytes h.magic h.kind h.svn h.length h.digest) h.ml = true
  ∧ ((m.svn.find? fun y => y.1 = h.kind).map (·.2)).getD 0 ≤ h.svn

/-- The least versions that the attic records once an image is accepted. -/
def Sys2Proof.Safety.versions (m : Mgmt) (x : FwImage) : List (Nat × Nat) := (x.head.kind, x.head.svn) :: m.svn.filter fun y => y.1 != x.head.kind

/-- R341, R370, R405, R406, R408, R409, R411. The mailbox commands: none reaches the device before step 3 of bring-up; each answers 0x05 before step 8, 0x02 for an argument that names nothing
and 0x03 for one in use, with nothing else changed; else it has its effect and answers 0x00. A doorbell is ignored while one is busy.

Readings of the model that it rests on: log entries 33, 39. -/
def Obligations.MailboxCommands : Prop :=
  ∀ (s : State) (seq : BitVec 24) (a b c d e f g k : Word) (n : Fin 64) (q : Fin 6), let h := s.hart; let x := s.ctxs.get n
    let replies (i : Instr) (t : State) (st : BitVec 8) : Prop := exec i s = .next (answered t seq st)
    let rest (x : Hart) : Hart := { x with watch := none, prog := false }
    let still (x : Hart) : Prop := x.answers = [] ∧ x.covered = none ∧ x.underway = false ∧ s.quiet x = true
    (∀ i ∈ [Instr.createContext seq a b c d e f g k, .startRootHart seq a b c d e f, .endHart seq a b, .freezeContext seq a, .thawContext seq a,
      .debugHalt seq a, .endHalt seq a, .attestationReport seq a b, .destroyContext seq a, .modulePowerLimit seq a],
      (s.mgmt.bstage.val < 3 → exec i s = .next s) ∧ (s.mgmt.mboxStatus ≠ 1 → 3 ≤ s.mgmt.bstage.val → s.mgmt.bstage ≠ 8 → replies i s 5) ∧ (s.mgmt.mboxStatus = 1 → s.mgmt.mboxTaken = [] → exec i s = .next s))
    ∧ (Served s →
      (a.toNat = n.val → x.live = false → (b.toNat / 2 ^ 60 = 0 ∨ b.toNat / 2 ^ 60 = 10) → k.toNat % 4096 = 0 →
        k.toNat + 1536 * 6 * 2 ^ 20 ≤ localTop → ∃ y : Context, replies (.createContext seq a b c d e f g k) { s with ctxs := s.ctxs.set n y } 0
          ∧ y.live = true ∧ y.frozen = false ∧ y.vatp = b ∧ y.evec.toNat = c.toNat / 4 * 4 ∧ y.saveBase = k
          ∧ ∀ (w : Fin 4) (v : Word), (w, v) ∈ [((0 : Fin 4), d), (1, e), (2, f), (3, g)] →
              (y.swin.get w).toNat = v.toNat % 2 + v.toNat / 2 ^ winLog w * 2 ^ winLog w)
      ∧ (a.toNat = n.val → x.live = true → (b.toNat / 2 ^ 60 = 0 ∨ b.toNat / 2 ^ 60 = 10) → k.toNat % 4096 = 0 →
        k.toNat + 1536 * 6 * 2 ^ 20 ≤ localTop → replies (.createContext seq a b c d e f g k) s 3)
      ∧ (64 ≤ a.toNat ∨ (a.toNat = n.val ∧ x.live = false) → replies (.destroyContext seq a) s 2 ∧ replies (.freezeContext seq a) s 2
        ∧ replies (.thawContext seq a) s 2 ∧ replies (.startRootHart seq a b c d e f) s 2)
      ∧ (a.toNat = n.val → x.live = true →
        (let busy := (∃ y ∈ h :: s.others, y.status ≠ .absent ∧ y.ctx = n) ∨ (∃ y ∈ s.saved, y.hart.ctx = n)
            ∨ (∃ l ∈ s.launches, l.ctx = n ∧ l.admitted = false)
            ∨ (∃ y ∈ s.mergedHarts, ∃ l, s.launchOf y.pool.launch = some l ∧ l.ctx = n)
            ∨ ∃ y ∈ s.pools, y.elems ≠ [] ∧ ∃ l, s.launchOf y.launch = some l ∧ l.ctx = n;
          (¬ busy → replies (.destroyContext seq a) { s with ctxs := s.ctxs.set n Context.reset } 0) ∧ (busy → replies (.destroyContext seq a) s 3))
        ∧ replies (.thawContext seq a) { s with ctxs := s.ctxs.set n { x with frozen := false } } 0
        ∧ ((∀ y ∈ h :: s.others, y.status ≠ .absent → y.ctx = n → still y) → replies (.freezeContext seq a) { s with
            hart := if h.status ≠ .absent ∧ h.ctx = n then rest h else h
            others := s.others.map fun y => if y.status ≠ .absent ∧ y.ctx = n then rest y else y
            ctxs := s.ctxs.set n { x with frozen := true } } 0)
        ∧ (∀ (core : Fin 192) (slot : Nat) (more : List Nat), b.toNat = core.val → (s.cores.get core).retired = false → c.toNat < 16 →
          d.toNat % 4 = 0 → f = 0 → s.slotsFree n (Fin.ofNat 4 c.toNat) core = slot :: more → h.status ≠ .absent → slot < 8 →
          ∃ (y : Hart) (l : Launch) (m : Memory) (p : List Nat), replies (.startRootHart seq a b c d e f) { s with
              mem := m, poison := p, launches := s.launches ++ [l], others := s.others ++ [y], nextId := s.nextId + 2 } 0
            ∧ y.status = .resident ∧ y.place = ⟨core, Fin.ofNat 8 slot⟩ ∧ y.ctx = n ∧ y.mode = .supervisor ∧ y.pc = d ∧ y.getS 3 = e
            ∧ (∀ r, r ≠ 3 → y.getS r = 0) ∧ y.pclass = Fin.ofNat 4 (c.toNat / 4) ∧ y.vcfg.plog = Fin.ofNat 4 c.toNat ∧ y.launch = l.id
            ∧ l.gang = true ∧ l.total = 1 ∧ l.cword = []))
      ∧ (a.toNat = q.val →
        replies (.endHalt seq a) { s with haltedQuads := s.haltedQuads.filter (· != q) } 0
        ∧ ((∀ y ∈ h :: s.others, y.status ≠ .absent → quadOfCore y.place.core = q → still y) → replies (.debugHalt seq a) { s with
            hart := if h.status ≠ .absent ∧ quadOfCore h.place.core = q then rest h else h
            others := s.others.map fun y => if y.status ≠ .absent ∧ quadOfCore y.place.core = q then rest y else y
            haltedQuads := s.haltedQuads.filter (· != q) ++ [q] } 0))
      ∧ (6 ≤ a.toNat → replies (.debugHalt seq a) s 2 ∧ replies (.endHalt seq a) s 2)
      ∧ (DistinctHarts s → a.toNat = h.place.core.val → b.toNat = h.place.slot.val → h.merged = false → s.launchOf h.launch = none →
        h.underway = false → s.quiet h = true →
        ∃ t : State, replies (.endHart seq a b) t 0 ∧ t.hart = .fresh ∧ t.others = s.others ∧ BytesKept s t)
      ∧ (192 ≤ a.toNat ∨ 8 ≤ b.toNat → replies (.endHart seq a b) s 2)
      ∧ (a.toNat + 32 ≤ localTop → b.toNat + 4096 ≤ localTop → b.toNat % 4096 = 0 → a.toNat % 32 = 0 → s.mem.wf = true →
        s.paOwned a.toNat 32 = false → s.paOwned b.toNat 4096 = false → ∃ t : State, replies (.attestationReport seq a b) t 0
          ∧ (∀ v, Holds s (localKey a.toNat) 32 v → v < 2 ^ 256 → ∀ j < 4096, (t.mem.get (localKey b.toNat + j)).toNat = s.report v / 256 ^ j % 256)
          ∧ BytesKeptBut (In (localKey b.toNat) 4096) s t)
      ∧ (14000 ≤ a.toNat → a.toNat ≤ 22000 → replies (.modulePowerLimit seq a) { s with mgmt := { s.mgmt with powerLimit := a.toNat } } 0)
      ∧ (a.toNat < 14000 ∨ 22000 < a.toNat → replies (.modulePowerLimit seq a) s 2))

/-- R179, R284, R325, R371, R372, R374, R403, R404, R407, R411, R413. Words of the management space change for their owners alone; the host's reads and writes
of BAR2; AtomicOps; retirements proposed, and applied once the device is drained; throttling; a thermal reset; the steps of bring-up, of which
2 and 6 verify the images of the monitor and of the house firmware and 7 sets the identity word; firmware updates; vector 1 where the device
status word has changed and there is a link; receipts from other devices; and the reset of a quad, which ends its commands with code 0x04.

Readings of the model that it rests on: log entries 5, 26, 29, 30, 33, 60. -/
def Obligations.HostAndPackageEvents : Prop :=
  ∀ (s : State) (who : MgmtWriter) (v : Word) (addr len : Nat) (data : List Byte) (u : Retired) (errs old : Nat) (die : Fin 24) (q : Fin 6)
    (p : Packet) (seq : BitVec 24) (c : Cmd) (r : BringStep) (x : FwImage), let m := s.mgmt
    -- vector 1 after a change of the status word
    let news (y : Mgmt) : Mgmt := if 3 ≤ y.bstage.val then { y with msix := y.msix ++ [1] } else y
    (exec (.managementWordWrite who 0x10 v) s = .next { s with mgmt := if who = .firmware then { m with detour := v.truncate 8 } else m }
      ∧ exec (.managementWordWrite who 0x400 v) s = .next { s with mgmt :=
          if who = .host ∨ who = .firmware then { m with selector := v.truncate 19 } else m }
      ∧ exec (.managementWordWrite who 0 v) s = .next s)
    ∧ (let bell := exec (.managementWordWrite .host 0x107F8 v) s
      (Served s → bell = .next { s with mgmt := { m with mboxStatus := 1, mboxTaken := m.mboxCmd } }) ∧ (m.mboxStatus = 1 → bell = .next s)
        ∧ (3 ≤ m.bstage.val → data.length = 8 → exec (.hostWrite (2 ^ 42 + 0x107F8) data) s = bell))
    ∧ (3 ≤ m.bstage.val → exec (.hostRead (2 ^ 42 + 0x10) 1) s = .next { s with hostReads := s.hostReads ++ [[m.detour]] })
    ∧ (m.bstage.val < 3 → exec (.hostWrite addr data) s = .next s ∧ exec (.hostRead addr len) s = .next s)
    ∧ (addr + data.length ≤ localTop → addr % 4096 + data.length ≤ 4096 → s.mem.wf = true → 3 ≤ m.bstage.val →
      s.paOwned addr data.length = false → ∃ t, exec (.hostWrite addr data) s = .next t
        ∧ (∀ j < data.length, t.mem.get (localKey addr + j) = data.getD j 0) ∧ BytesKeptBut (In (localKey addr) data.length) s t
        ∧ t.hart = { s.hart with watch := t.hart.watch, early := t.hart.early })
    ∧ (addr + len ≤ localTop → addr % 4096 + len ≤ 4096 → 3 ≤ m.bstage.val → s.paOwned addr len = false →
      ∃ w, exec (.hostRead addr len) s = .next { s with l2 := w, hostReads := s.hostReads ++ [(List.range len).map fun j => s.mem.get (localKey addr + j)] })
    ∧ exec (.atomicop addr) s = .next { s with unsupported := s.unsupported + 1 }
    ∧ ((∀ x ∈ m.proposed, x.1 ≠ u) → (∀ x ∈ m.attic, x.unit ≠ u) → let more := { m with proposed := m.proposed ++ [(u, errs)] }
      ∃ cs, exec (.retirementPropose u errs) s = .next { s with cores := cs, mgmt := if m.proposed = [] then news more else more }
      ∧ ∀ n, cs.get n = if u = .core n then { s.cores.get n with part := .closed } else s.cores.get n)
    ∧ (m.proposed = [(u, errs)] → s.hart.status = .absent → s.others = [] → s.cmds = [] → s.saved = [] → s.launches = [] →
      s.fabric.outstanding = [] → s.locks = [] → ∃ cs f, exec .retirementApply s = .next { s with cores := cs, fabric := f, head := none, mgmt := news { m with
          attic := m.attic ++ [⟨u, errs, m.boots, m.drains + 1⟩], proposed := [], drains := m.drains + 1 } }
        ∧ (∀ n, cs.get n = if u = .core n then { s.cores.get n with retired := true } else s.cores.get n)
        ∧ f = { s.fabric with
            failedPorts := f.failedPorts, retrains := f.retrains, out := f.out, rowMasks := f.rowMasks, colMasks := f.colMasks, localMask := f.localMask }
        ∧ ((∀ n, u ≠ .port n) → f = s.fabric)
        ∧ (∀ n, u = .port n → n ∈ f.failedPorts
          ∧ (s.fabric.portUp n = true → f.out = s.fabric.out ++ tells f s.hart.place ⟨some (s.fabric.self, n), none⟩)))
    ∧ (∃ l, exec (.thermalThrottle die) s = .next { s with mgmt := { m with throttled := l } } ∧ ∀ y, y ∈ l ↔ y = die ∨ y ∈ m.throttled)
    ∧ (∃ t, exec .thermalReset s = .next t ∧ t.hart = .fresh ∧ t.others = [] ∧ t.mem = [] ∧ t.cmds = [] ∧ t.launches = [] ∧ t.saved = []
      ∧ t.mgmt.attic = m.attic ∧ t.mgmt.bstage = 0 ∧ t.fabric.row = s.fabric.row ∧ t.fabric.col = s.fabric.col)
    ∧ (m.bfail = false → m.bstage.val < 8 →
      let checks := m.bstage = 1 ∨ m.bstage = 5
      let next := { m with
        bstage := m.bstage + 1
        boots := if m.bstage = 1 then m.boots + 1 else m.boots
        monitor := if m.bstage = 1 then some r.image else m.monitor
        firmware := if m.bstage = 5 then some r.image else m.firmware
        svn := if checks then versions m r.image else m.svn }
      (r.ok = true → (checks → Accepted m r.image) → m.bstage ≠ 3 → exec (.bringUp r) s = .next { s with
        mgmt := news next, fabric := if m.bstage = 6 then s.fabric.setIdentity r.identity.toNat else s.fabric })
      ∧ (r.ok = true → m.bstage = 3 → s.fabric.outstanding = [] → s.locks = [] →
        ∃ cs f, exec (.bringUp r) s = .next { s with cores := cs, fabric := f, mgmt := news next }
          ∧ ∀ n, (cs.get n).retired = true ↔ (s.cores.get n).retired = true ∨ ∃ y ∈ m.attic, y.unit = .core n)
      ∧ (r.ok = false ∨ (checks ∧ ¬ Accepted m r.image) → exec (.bringUp r) s = .next { s with mgmt := news { m with bfail := true } }))
    ∧ (p.dst = s.fabric.self → s.fabric.held = [] → p.off % 8 = 0 → p.off < localTop → s.writeStalls (localKey p.off) 8 = false →
      (∀ w ∈ s.lineWaits, w.line ≠ localKey p.off / 128) → s.mem.wf = true →
      Holds s (localKey p.off) 8 old → ∃ t, exec (.receiptAddPacket p) s = .next t
        ∧ Holds t (localKey p.off) 8 ((old + ofBytes p.data) % 2 ^ 64) ∧ BytesKeptBut (In (localKey p.off) 8) s t)
    ∧ (let update := exec (.firmwareUpdate seq x.head x.body x.keys) s
      let ours := m.monitor.any fun y => y.head.kind = x.head.kind
      (Served s → Accepted m x → update = .next (answered { s with mgmt := { m with
          svn := versions m x, monitor := if ours then some x else m.monitor, firmware := if ours then m.firmware else some x } } seq 0))
      ∧ (Served s → ¬ Accepted m x → update = .next (answered s seq 4))
      ∧ (m.bstage.val < 3 ∨ m.mboxStatus = 1 → update = .next s)
      ∧ (m.mboxStatus ≠ 1 → 3 ≤ m.bstage.val → m.bstage ≠ 8 → update = .next (answered s seq 5)))
    ∧ ((∀ y ∈ s.cmds, y.quad ≠ q) → s.fabric.outstanding = [] → exec (.quadReset q) s = .next s)
    ∧ (s.cmds = [c] → c.coll = none → c.stage = .pending → isWalk c.engine c.job = true → c.lost = false → s.announces = [] → s.locks = [] → s.mem.wf = true →
      (∀ k, c.recordKeys = [k] → ∃ t, exec (.quadReset c.quad) s = .next t ∧ t.cmds = [] ∧ Holds t k 32 (c.record 4 0) ∧ BytesKeptBut (In k 32) s t))
/-! ### Steps, encodings, and the state as a whole -/

/-- The parcel that the current hart fetches from local memory at an address in bare mode: the bytes that the L2 holds there, in no
poisoned sector and behind no command, with no other bytes of that line in the instruction L1 of its core (R267). -/
def Sys2Proof.Safety.Fetches (s : State) (a : Word) (p : Parcel) : Prop :=
  let k := localKey a.toNat
  Bare s a ∧ a.toNat % 4 = 0 ∧ a.toNat < localTop ∧ s.readStalls k 4 = false ∧ s.poisoned k = false ∧ s.l2.read k 4 = p.toNat
    ∧ ∀ l ∈ s.core.il1, l.line = k / 128 → l.data.toNat / 2 ^ (8 * (k % 128)) % 2 ^ 32 = p.toNat

/-- R29, R55, R72, R73, R267, R302. Where the bytes at the pc decode to an instruction, a step executes exactly it (`execHere`), from the
state in which the hart has begun it (`begin`: its parcels are kept until it completes, and a convoy counts towards an escalation, R355)
and the line is in the instruction L1; then the core's next hart is served (`thenNext`, R241). Bytes that decode to none are an illegal
instruction with the first parcel in eval. An instruction under way goes on with the parcels that it has. One that starts a convoy, where
no issue opportunity has chosen its hart, waits for one (R241). A move of the schedule is executed as it stands. Who moves, where the
schedule is empty, is the model's choice (log entry 2).

`execHere` is exec, but for an instruction on the code tables whose turn another hart's convoy has (it waits: R133, R244) and where the hart
has performed loads ahead of vector instructions before them: such a load, at the pc, writes the value that it read then, and watches
its sector from then on (R29, R229; log entry 49).

Readings of the model that it rests on: log entries 1, 2, 27, 49. -/
def Obligations.StepRunsTheDecodedInstruction : Prop :=
  (∀ (s s' : State) (p0 p1 : Parcel) (i : Instr) (rest : List Action), let s1 := { s with ran := s.ran + 1 }
    let runs (t : State) := thenNext (execHere i (exec i) t)
    let illegal (t : State) := thenNext (.next (takeTrap ⟨.illegal, BitVec.ofNat 64 p0.toNat, .none⟩ t.hart.pc false false t))
    (s.schedule = .event i :: rest → (i.isEvent = true → step s = exec i { s with schedule := rest })
      ∧ (i.isEvent = false → step s = .fault .notAnEvent))
    ∧ (s.schedule = [] → s.runnable s.hart = true → s.hart.waiting = false → s.ran < 15 →
      (s.hart.parcels = some (p0, p1) → decode p0 p1 = .ok i → step s = runs s1)
      ∧ (s.hart.parcels = none → fetchInstr s1 = .ok (p0, p1) s' →
        (decode p0 p1 = .ok i → s'.startsConvoy i = false ∨ s'.hart.issue = true → step s = runs (s'.begin (p0, p1) i))
        ∧ (decode p0 p1 = .ok i → s'.startsConvoy i = true → s'.hart.issue = false →
          step s = thenNext (.next ((s'.opportunity s'.hart.place.core).getD s'.deviceTurn)))
        ∧ ((∀ j, decode p0 p1 ≠ .ok j) → step s = illegal s'))
      ∧ (s.hart.parcels = none → s.hart.loop = none → s.hart.covered = none → s.hart.ahead = [] → s.l2.wf = true → Fetches s s.hart.pc p0 →
        (if p0.toNat % 4 = 3 then Fetches s (s.hart.pc + 4) p1 else p1 = 0) →
        ∃ cs, (∀ c, cs.get c = { s.cores.get c with il1 := (cs.get c).il1 })
          ∧ let u := { s1 with cores := cs }
            (decode p0 p1 = .ok i → u.startsConvoy i = false ∨ s.hart.issue = true → step s = runs (u.begin (p0, p1) i))
            ∧ ((∀ j, decode p0 p1 ≠ .ok j) → step s = illegal u)))
    ∧ (s.schedule = [] → s.runnable s.hart = false ∨ s.hart.waiting = true ∨ 15 ≤ s.ran → step s = .next s.deviceTurn))
  ∧ (∀ (s u : State) (i : Instr) (e : EarlyLoad) (rest : List EarlyLoad) (sz : Size) (d a : SReg) (off : BitVec 12), let h := s.hart
    (usesTables i = false ∨ s.tablesBusy = false → h.early = [] → exec i s = .next u → u.hart.early = [] → execHere i (exec i) s = .next u)
    ∧ (usesTables i = true → s.tablesBusy = true → execHere i (exec i) s = .next (waitHere s))
    ∧ (h.early = e :: rest → e.n = Size.bytes sz → e.va = BitVec.ofInt 64 ((s.getS a).toInt + off.toInt) → a ∉ e.deps → e.target.leaf = none →
      e.v < 256 ^ e.n → let rest' := rest.map fun x => { x with deps := x.deps.filter (· ≠ d) }
      let t := { s with hart := { h with watch := some ⟨e.sector, e.written⟩, early := rest' } }
      execHere (.ld sz d a off) (exec (.ld sz d a off)) s = .next (retire 4 (t.setS d (BitVec.ofInt 64 (signedOf e.n e.v))))
      ∧ execHere (.ldz sz d a off) (exec (.ldz sz d a off)) s = .next (retire 4 (t.setS d (BitVec.ofNat 64 e.v)))))

/-- Words written out from the encodings of R57 to R69, R85, R89, R91, R96, R132, R174, R182, R193, R228, R310, R316, R349, R360 and the
families' tables, and the instructions that they stand for. -/
def Obligations.DecodingOfWrittenWords : Prop :=
  decode 0x00489480 0 = .ok (.add 9 9 4)
  ∧ decode 0xFFE84184 0 = .ok (.addi 3 4 (-12))
  ∧ decode 0x1234529C 0 = .ok (.lih 5 0x12345)
  ∧ decode 0x00006040 0 = .ok (.loopn 6 0)
  ∧ decode 0x000A0001 0 = .ok (.trap 5)
  ∧ decode 0x04020001 0 = .ok (.ebreak 1)
  ∧ decode 0x02000001 0 = .ok .eret
  ∧ decode 0x0000A005 0 = .ok (.launch 10)
  ∧ decode 0x0006A00D 0 = .ok (.ewait 3 10)
  ∧ decode 0x0206058D 0 = .ok (.epoll 11 3)
  ∧ decode 0x0C020005 0 = .ok (.ppt 1)
  ∧ decode 0x0200A009 0 = .ok (.clean 10)
  ∧ decode 0x000003C4 0 = .ok (.qrd 7)
  ∧ decode 0x000001FB 0x00000A02 = .ok (.savev 10)
  ∧ decode 0x001008FB 0 = .ok (.ecmdCpe 2 16 false)
  ∧ decode 0x000900A3 0 = .ok (.mpop 9 false)
  ∧ decode 0x000C346F 0x0000007A = .ok (.vcvts true false .e4m3 ⟨13, 12, .none, false⟩)
  ∧ decode 0x00021283 0x00000300 = .ok (.vslideup ⟨4, 2, .none, .vi 3, false⟩)
  ∧ decode 0x000021CB 0x0000A400 = .ok (.vldq ⟨8, 4, 0, false⟩ 5)
  ∧ decode 0x01C019E7 0x00000400 = .ok (.vsredAdd ⟨6, 4, 0, false⟩ 7)
  ∧ decode 0x01CC19EF 0x00100404 = .ok (.vamoOr ⟨6, 12, 7, 4, .package, false⟩)
  ∧ decode 0x08A09073 0x00000008 = .ok (.finterMul 2 0 1)
  ∧ decode 0x01440077 0x00000006 = .ok (.ixaccAdd 4 5)
  ∧ decode 0x0248007F 0x0000A024 = .ok (.opag false 2 8 9 10 none)
  ∧ decode 0x024818F7 0x00000030 = .ok (.scoutA 6 3 8 9)

/-- Decoding and encoding agree. Every instruction that is well formed and no event of another agent has one or two parcels, which decode
to it; every pair of parcels that decodes to an instruction is the encoding of that instruction, which is well formed, so that no bit
of a parcel is left unread and no reserved bit is let pass (R72). -/
def Obligations.DecodeAndEncodeAgree : Prop :=
  (∀ (i : Instr) (next : Parcel), i.wf = true → i.isEvent = false →
    ∃ p0 p1, encodedParcels i next = some (p0, p1) ∧ decode p0 p1 = .ok i)
  ∧ (∀ (p0 p1 : Parcel) (i : Instr), decode p0 p1 = .ok i →
    i.wf = true ∧ i.isEvent = false ∧ encodedParcels i p1 = some (p0, p1))

/-- Every step keeps the canonical form of the three memories: addresses strictly rising, and no byte listed that is zero, which is what
an unlisted byte reads as (the model's choice, log entry 7). -/
def Obligations.CanonicalMemoryIsKept : Prop :=
  ∀ s t : State, Canonical s → step s = .next t → Canonical t

/-- What keeps harts apart: none stands absent among the others; no two hold one slot; the harts of the device and the saved ones have
creation numbers of their own, and within a context places of their own; and launches, resumption entries and harts have numbers that
the device has given out, a hart the context of its launch. -/
def Sys2Proof.Safety.Apart (s : State) : Prop :=
  let all := s.harts ++ s.saved.map (·.hart)
  (∀ x ∈ s.others, x.status ≠ .absent) ∧ s.harts.Pairwise (fun x y => x.place ≠ y.place)
  ∧ all.Pairwise (fun x y => x.born ≠ y.born ∧ (x.ctx = y.ctx → x.place ≠ y.place) ∧ (x.launch = y.launch → x.ctx = y.ctx))
  ∧ s.saved.Pairwise (fun x y => x.order ≠ y.order) ∧ s.launches.Pairwise (fun x y => x.id ≠ y.id)
  ∧ (∀ x ∈ all, x.born < s.nextId ∧ x.launch < s.nextId ∧ ∀ l ∈ s.launches, l.id = x.launch → l.ctx = x.ctx)
  ∧ (∀ x ∈ s.saved, x.order < s.nextId) ∧ ∀ l ∈ s.launches, l.id < s.nextId

/-- R214, R240, R356. Every step keeps harts apart: no hart is created, placed or resumed on a slot that another holds, and a slot of the
core stays reserved for the harts of its context that were saved from it. -/
def Obligations.NoTwoHartsShareASlot : Prop :=
  ∀ s t : State, Apart s → step s = .next t → Apart t

/-- R340, R228, R250, R404. No instruction changes the mode of the current hart but ERET and those that take a trap, which enter
supervisor mode at evec and record the mode; no instruction in user mode changes a register of any context, the placement policy of any
core, or the management space. A hart that its instruction ends or saves leaves an empty place. -/
def Obligations.UserModeIsLeftByTrapsAlone : Prop :=
  ∀ (i : Instr) (s t : State), i.isEvent = false → exec i s = .next t →
    let entered := s.hart.estat.tip = false ∧ t.hart.estat.tip = true ∧ t.hart.estat.pmode = s.hart.mode ∧ t.hart.mode = .supervisor
      ∧ t.hart.pc.toNat = s.ctx.evec.toNat / 4 * 4
    t.mgmt = s.mgmt
    ∧ (i = .eret ∧ s.hart.mode = .supervisor ∨ t.hart.mode = s.hart.mode ∨ t.hart.status = .absent ∨ entered)
    ∧ (s.hart.mode = .user → t.ctxs = s.ctxs
      ∧ ∀ c, (t.cores.get c).part = (s.cores.get c).part ∧ (t.cores.get c).partPlog = (s.cores.get c).partPlog)

/-- R24, R228, R243, R327, R342, R377, R355, R404, R411. The state right after reset: memory with nothing listed, in canonical form;
no hart, launch or command; and every register at the value that the rules give, as a created hart has them.

Readings of the model that it rests on: log entries 3, 5, 7, 14. -/
def Obligations.ResetState : Prop :=
  let s := State.reset; let h := s.hart
  Canonical s ∧ Apart s ∧ (∀ a, s.mem.get a = 0) ∧ h = .fresh ∧ h.status = .absent ∧ s.others = [] ∧ s.launches = [] ∧ s.cmds = [] ∧ s.saved = []
  ∧ (∀ r, h.getS r = 0) ∧ (∀ v, h.vregs.get v = 0 ∧ h.vtags.get v = .n64) ∧ (∀ f, h.flen.get f = 0) ∧ (∀ t, h.tiles.get t = 0)
  ∧ (∀ k, h.keep.get k = 0) ∧ (∀ w, h.counters.get w = 0 ∧ h.cerr.get w = false) ∧ BanksOn h
  ∧ h.vl = 0 ∧ h.vstart = 0 ∧ h.cura = 0 ∧ h.curb = 0 ∧ h.srseed = 0 ∧ h.sroff = 0 ∧ h.ltmask = 0 ∧ h.ixlive = false
  ∧ h.ecause = 0 ∧ h.epc = 0 ∧ h.eval = 0 ∧ h.estat.tip = false ∧ h.estat.kind = .none ∧ h.retq = [] ∧ h.loop = none ∧ h.watch = none
  ∧ h.prog = false ∧ (∀ c, s.ctxs.get c = Context.reset) ∧ Context.reset.vatp = 0 ∧ Context.reset.evec = 0
  ∧ (∀ c, (s.cores.get c).part = .free ∧ (s.cores.get c).position = 0)
  ∧ s.mgmt.detour = 48 ∧ s.mgmt.powerLimit = 22000 ∧ ∀ q, s.mgmt.escalation.get q = (65536, 65536)
end

