-- ==== Sys2Proof/Laws/State.lean ====
section
/-! SUPPORT. What each named update of a hart or of the device leaves as it was: one lemma a field, so that no proof unfolds a
record update. -/
namespace Sys2Proof.Machine
open Sys2Proof

/-! A write of a scalar register (R10). -/
section
variable (h : Hart) (r : SReg) (v : Word)
@[simp] theorem Hart.setS_status : (h.setS r v).status = h.status := by unfold Hart.setS; split <;> rfl
@[simp] theorem Hart.setS_place : (h.setS r v).place = h.place := by unfold Hart.setS; split <;> rfl
@[simp] theorem Hart.setS_ctx : (h.setS r v).ctx = h.ctx := by unfold Hart.setS; split <;> rfl
@[simp] theorem Hart.setS_launch : (h.setS r v).launch = h.launch := by unfold Hart.setS; split <;> rfl
@[simp] theorem Hart.setS_born : (h.setS r v).born = h.born := by unfold Hart.setS; split <;> rfl
@[simp] theorem Hart.setS_linear : (h.setS r v).linear = h.linear := by unfold Hart.setS; split <;> rfl
@[simp] theorem Hart.setS_quadIndex : (h.setS r v).quadIndex = h.quadIndex := by unfold Hart.setS; split <;> rfl
@[simp] theorem Hart.setS_coreIndex : (h.setS r v).coreIndex = h.coreIndex := by unfold Hart.setS; split <;> rfl
@[simp] theorem Hart.setS_merged : (h.setS r v).merged = h.merged := by unfold Hart.setS; split <;> rfl
@[simp] theorem Hart.setS_vregs : (h.setS r v).vregs = h.vregs := by unfold Hart.setS; split <;> rfl
@[simp] theorem Hart.setS_vtags : (h.setS r v).vtags = h.vtags := by unfold Hart.setS; split <;> rfl
@[simp] theorem Hart.setS_flen : (h.setS r v).flen = h.flen := by unfold Hart.setS; split <;> rfl
@[simp] theorem Hart.setS_tiles : (h.setS r v).tiles = h.tiles := by unfold Hart.setS; split <;> rfl
@[simp] theorem Hart.setS_keep : (h.setS r v).keep = h.keep := by unfold Hart.setS; split <;> rfl
@[simp] theorem Hart.setS_counters : (h.setS r v).counters = h.counters := by unfold Hart.setS; split <;> rfl
@[simp] theorem Hart.setS_cerr : (h.setS r v).cerr = h.cerr := by unfold Hart.setS; split <;> rfl
@[simp] theorem Hart.setS_vl : (h.setS r v).vl = h.vl := by unfold Hart.setS; split <;> rfl
@[simp] theorem Hart.setS_vstart : (h.setS r v).vstart = h.vstart := by unfold Hart.setS; split <;> rfl
@[simp] theorem Hart.setS_cura : (h.setS r v).cura = h.cura := by unfold Hart.setS; split <;> rfl
@[simp] theorem Hart.setS_curb : (h.setS r v).curb = h.curb := by unfold Hart.setS; split <;> rfl
@[simp] theorem Hart.setS_vcfg : (h.setS r v).vcfg = h.vcfg := by unfold Hart.setS; split <;> rfl
@[simp] theorem Hart.setS_vgate : (h.setS r v).vgate = h.vgate := by unfold Hart.setS; split <;> rfl
@[simp] theorem Hart.setS_pc : (h.setS r v).pc = h.pc := by unfold Hart.setS; split <;> rfl
@[simp] theorem Hart.setS_fflags : (h.setS r v).fflags = h.fflags := by unfold Hart.setS; split <;> rfl
@[simp] theorem Hart.setS_srseed : (h.setS r v).srseed = h.srseed := by unfold Hart.setS; split <;> rfl
@[simp] theorem Hart.setS_sroff : (h.setS r v).sroff = h.sroff := by unfold Hart.setS; split <;> rfl
@[simp] theorem Hart.setS_kthr : (h.setS r v).kthr = h.kthr := by unfold Hart.setS; split <;> rfl
@[simp] theorem Hart.setS_pclass : (h.setS r v).pclass = h.pclass := by unfold Hart.setS; split <;> rfl
@[simp] theorem Hart.setS_ltmask : (h.setS r v).ltmask = h.ltmask := by unfold Hart.setS; split <;> rfl
@[simp] theorem Hart.setS_ixlive : (h.setS r v).ixlive = h.ixlive := by unfold Hart.setS; split <;> rfl
@[simp] theorem Hart.setS_mode : (h.setS r v).mode = h.mode := by unfold Hart.setS; split <;> rfl
@[simp] theorem Hart.setS_ecause : (h.setS r v).ecause = h.ecause := by unfold Hart.setS; split <;> rfl
@[simp] theorem Hart.setS_epc : (h.setS r v).epc = h.epc := by unfold Hart.setS; split <;> rfl
@[simp] theorem Hart.setS_eval : (h.setS r v).eval = h.eval := by unfold Hart.setS; split <;> rfl
@[simp] theorem Hart.setS_estat : (h.setS r v).estat = h.estat := by unfold Hart.setS; split <;> rfl
@[simp] theorem Hart.setS_retq : (h.setS r v).retq = h.retq := by unfold Hart.setS; split <;> rfl
@[simp] theorem Hart.setS_asideRet : (h.setS r v).asideRet = h.asideRet := by unfold Hart.setS; split <;> rfl
@[simp] theorem Hart.setS_watch : (h.setS r v).watch = h.watch := by unfold Hart.setS; split <;> rfl
@[simp] theorem Hart.setS_prog : (h.setS r v).prog = h.prog := by unfold Hart.setS; split <;> rfl
@[simp] theorem Hart.setS_loop : (h.setS r v).loop = h.loop := by unfold Hart.setS; split <;> rfl
@[simp] theorem Hart.setS_asideLoop : (h.setS r v).asideLoop = h.asideLoop := by unfold Hart.setS; split <;> rfl
@[simp] theorem Hart.setS_covered : (h.setS r v).covered = h.covered := by unfold Hart.setS; split <;> rfl
@[simp] theorem Hart.setS_ahead : (h.setS r v).ahead = h.ahead := by unfold Hart.setS; split <;> rfl
@[simp] theorem Hart.setS_pigeon : (h.setS r v).pigeon = h.pigeon := by unfold Hart.setS; split <;> rfl
@[simp] theorem Hart.setS_early : (h.setS r v).early = h.early := by unfold Hart.setS; split <;> rfl
@[simp] theorem Hart.setS_afresh : (h.setS r v).afresh = h.afresh := by unfold Hart.setS; split <;> rfl
@[simp] theorem Hart.setS_waiting : (h.setS r v).waiting = h.waiting := by unfold Hart.setS; split <;> rfl
@[simp] theorem Hart.setS_arrivals : (h.setS r v).arrivals = h.arrivals := by unfold Hart.setS; split <;> rfl
@[simp] theorem Hart.setS_credit : (h.setS r v).credit = h.credit := by unfold Hart.setS; split <;> rfl
@[simp] theorem Hart.setS_yielded : (h.setS r v).yielded = h.yielded := by unfold Hart.setS; split <;> rfl
@[simp] theorem Hart.setS_preempt : (h.setS r v).preempt = h.preempt := by unfold Hart.setS; split <;> rfl
@[simp] theorem Hart.setS_convoys : (h.setS r v).convoys = h.convoys := by unfold Hart.setS; split <;> rfl
@[simp] theorem Hart.setS_answers : (h.setS r v).answers = h.answers := by unfold Hart.setS; split <;> rfl
@[simp] theorem Hart.setS_begun : (h.setS r v).begun = h.begun := by unfold Hart.setS; split <;> rfl
@[simp] theorem Hart.setS_underway : (h.setS r v).underway = h.underway := by unfold Hart.setS; split <;> rfl
@[simp] theorem Hart.setS_parcels : (h.setS r v).parcels = h.parcels := by unfold Hart.setS; split <;> rfl
@[simp] theorem Hart.setS_held : (h.setS r v).held = h.held := by unfold Hart.setS; split <;> rfl
@[simp] theorem Hart.setS_counted : (h.setS r v).counted = h.counted := by unfold Hart.setS; split <;> rfl
@[simp] theorem Hart.setS_locking : (h.setS r v).locking = h.locking := by unfold Hart.setS; split <;> rfl
@[simp] theorem Hart.setS_issue : (h.setS r v).issue = h.issue := by unfold Hart.setS; split <;> rfl
@[simp] theorem Hart.setS_startedAt : (h.setS r v).startedAt = h.startedAt := by unfold Hart.setS; split <;> rfl
@[simp] theorem Hart.setS_offer : (h.setS r v).offer = h.offer := by unfold Hart.setS; split <;> rfl
@[simp] theorem Hart.setS_cancelling : (h.setS r v).cancelling = h.cancelling := by unfold Hart.setS; split <;> rfl
@[simp] theorem Hart.setS_canCount : (h.setS r v).canCount = h.canCount := by unfold Hart.setS; split <;> rfl
@[simp] theorem Hart.setS_fpEval : (h.setS r v).fpEval = h.fpEval := by unfold Hart.setS; split <;> rfl
end

/-! A write of a register's tag (R12). -/
section
variable (h : Hart) (r : VIdx) (t : Tag)
@[simp] theorem Hart.setTag_status : (h.setTag r t).status = h.status := rfl
@[simp] theorem Hart.setTag_place : (h.setTag r t).place = h.place := rfl
@[simp] theorem Hart.setTag_ctx : (h.setTag r t).ctx = h.ctx := rfl
@[simp] theorem Hart.setTag_launch : (h.setTag r t).launch = h.launch := rfl
@[simp] theorem Hart.setTag_born : (h.setTag r t).born = h.born := rfl
@[simp] theorem Hart.setTag_linear : (h.setTag r t).linear = h.linear := rfl
@[simp] theorem Hart.setTag_quadIndex : (h.setTag r t).quadIndex = h.quadIndex := rfl
@[simp] theorem Hart.setTag_coreIndex : (h.setTag r t).coreIndex = h.coreIndex := rfl
@[simp] theorem Hart.setTag_merged : (h.setTag r t).merged = h.merged := rfl
@[simp] theorem Hart.setTag_sregs : (h.setTag r t).sregs = h.sregs := rfl
@[simp] theorem Hart.setTag_vregs : (h.setTag r t).vregs = h.vregs := rfl
@[simp] theorem Hart.setTag_flen : (h.setTag r t).flen = h.flen := rfl
@[simp] theorem Hart.setTag_tiles : (h.setTag r t).tiles = h.tiles := rfl
@[simp] theorem Hart.setTag_keep : (h.setTag r t).keep = h.keep := rfl
@[simp] theorem Hart.setTag_counters : (h.setTag r t).counters = h.counters := rfl
@[simp] theorem Hart.setTag_cerr : (h.setTag r t).cerr = h.cerr := rfl
@[simp] theorem Hart.setTag_vl : (h.setTag r t).vl = h.vl := rfl
@[simp] theorem Hart.setTag_vstart : (h.setTag r t).vstart = h.vstart := rfl
@[simp] theorem Hart.setTag_cura : (h.setTag r t).cura = h.cura := rfl
@[simp] theorem Hart.setTag_curb : (h.setTag r t).curb = h.curb := rfl
@[simp] theorem Hart.setTag_vcfg : (h.setTag r t).vcfg = h.vcfg := rfl
@[simp] theorem Hart.setTag_vgate : (h.setTag r t).vgate = h.vgate := rfl
@[simp] theorem Hart.setTag_pc : (h.setTag r t).pc = h.pc := rfl
@[simp] theorem Hart.setTag_fflags : (h.setTag r t).fflags = h.fflags := rfl
@[simp] theorem Hart.setTag_srseed : (h.setTag r t).srseed = h.srseed := rfl
@[simp] theorem Hart.setTag_sroff : (h.setTag r t).sroff = h.sroff := rfl
@[simp] theorem Hart.setTag_kthr : (h.setTag r t).kthr = h.kthr := rfl
@[simp] theorem Hart.setTag_pclass : (h.setTag r t).pclass = h.pclass := rfl
@[simp] theorem Hart.setTag_ltmask : (h.setTag r t).ltmask = h.ltmask := rfl
@[simp] theorem Hart.setTag_ixlive : (h.setTag r t).ixlive = h.ixlive := rfl
@[simp] theorem Hart.setTag_mode : (h.setTag r t).mode = h.mode := rfl
@[simp] theorem Hart.setTag_ecause : (h.setTag r t).ecause = h.ecause := rfl
@[simp] theorem Hart.setTag_epc : (h.setTag r t).epc = h.epc := rfl
@[simp] theorem Hart.setTag_eval : (h.setTag r t).eval = h.eval := rfl
@[simp] theorem Hart.setTag_estat : (h.setTag r t).estat = h.estat := rfl
@[simp] theorem Hart.setTag_retq : (h.setTag r t).retq = h.retq := rfl
@[simp] theorem Hart.setTag_asideRet : (h.setTag r t).asideRet = h.asideRet := rfl
@[simp] theorem Hart.setTag_watch : (h.setTag r t).watch = h.watch := rfl
@[simp] theorem Hart.setTag_prog : (h.setTag r t).prog = h.prog := rfl
@[simp] theorem Hart.setTag_loop : (h.setTag r t).loop = h.loop := rfl
@[simp] theorem Hart.setTag_asideLoop : (h.setTag r t).asideLoop = h.asideLoop := rfl
@[simp] theorem Hart.setTag_covered : (h.setTag r t).covered = h.covered := rfl
@[simp] theorem Hart.setTag_ahead : (h.setTag r t).ahead = h.ahead := rfl
@[simp] theorem Hart.setTag_pigeon : (h.setTag r t).pigeon = h.pigeon := rfl
@[simp] theorem Hart.setTag_early : (h.setTag r t).early = h.early := rfl
@[simp] theorem Hart.setTag_afresh : (h.setTag r t).afresh = h.afresh := rfl
@[simp] theorem Hart.setTag_waiting : (h.setTag r t).waiting = h.waiting := rfl
@[simp] theorem Hart.setTag_arrivals : (h.setTag r t).arrivals = h.arrivals := rfl
@[simp] theorem Hart.setTag_credit : (h.setTag r t).credit = h.credit := rfl
@[simp] theorem Hart.setTag_yielded : (h.setTag r t).yielded = h.yielded := rfl
@[simp] theorem Hart.setTag_preempt : (h.setTag r t).preempt = h.preempt := rfl
@[simp] theorem Hart.setTag_convoys : (h.setTag r t).convoys = h.convoys := rfl
@[simp] theorem Hart.setTag_answers : (h.setTag r t).answers = h.answers := rfl
@[simp] theorem Hart.setTag_begun : (h.setTag r t).begun = h.begun := rfl
@[simp] theorem Hart.setTag_underway : (h.setTag r t).underway = h.underway := rfl
@[simp] theorem Hart.setTag_parcels : (h.setTag r t).parcels = h.parcels := rfl
@[simp] theorem Hart.setTag_held : (h.setTag r t).held = h.held := rfl
@[simp] theorem Hart.setTag_counted : (h.setTag r t).counted = h.counted := rfl
@[simp] theorem Hart.setTag_locking : (h.setTag r t).locking = h.locking := rfl
@[simp] theorem Hart.setTag_issue : (h.setTag r t).issue = h.issue := rfl
@[simp] theorem Hart.setTag_startedAt : (h.setTag r t).startedAt = h.startedAt := rfl
@[simp] theorem Hart.setTag_offer : (h.setTag r t).offer = h.offer := rfl
@[simp] theorem Hart.setTag_cancelling : (h.setTag r t).cancelling = h.cancelling := rfl
@[simp] theorem Hart.setTag_canCount : (h.setTag r t).canCount = h.canCount := rfl
@[simp] theorem Hart.setTag_fpEval : (h.setTag r t).fpEval = h.fpEval := rfl
end

/-! A write of elements (R17). -/
section
variable (h : Hart) (r : VIdx) (t : Tag) (l : List (Nat × Nat))
@[simp] theorem Hart.setElems_status : (h.setElems r t l).status = h.status := rfl
@[simp] theorem Hart.setElems_place : (h.setElems r t l).place = h.place := rfl
@[simp] theorem Hart.setElems_ctx : (h.setElems r t l).ctx = h.ctx := rfl
@[simp] theorem Hart.setElems_launch : (h.setElems r t l).launch = h.launch := rfl
@[simp] theorem Hart.setElems_born : (h.setElems r t l).born = h.born := rfl
@[simp] theorem Hart.setElems_linear : (h.setElems r t l).linear = h.linear := rfl
@[simp] theorem Hart.setElems_quadIndex : (h.setElems r t l).quadIndex = h.quadIndex := rfl
@[simp] theorem Hart.setElems_coreIndex : (h.setElems r t l).coreIndex = h.coreIndex := rfl
@[simp] theorem Hart.setElems_merged : (h.setElems r t l).merged = h.merged := rfl
@[simp] theorem Hart.setElems_sregs : (h.setElems r t l).sregs = h.sregs := rfl
@[simp] theorem Hart.setElems_vtags : (h.setElems r t l).vtags = h.vtags := rfl
@[simp] theorem Hart.setElems_flen : (h.setElems r t l).flen = h.flen := rfl
@[simp] theorem Hart.setElems_tiles : (h.setElems r t l).tiles = h.tiles := rfl
@[simp] theorem Hart.setElems_keep : (h.setElems r t l).keep = h.keep := rfl
@[simp] theorem Hart.setElems_counters : (h.setElems r t l).counters = h.counters := rfl
@[simp] theorem Hart.setElems_cerr : (h.setElems r t l).cerr = h.cerr := rfl
@[simp] theorem Hart.setElems_vl : (h.setElems r t l).vl = h.vl := rfl
@[simp] theorem Hart.setElems_vstart : (h.setElems r t l).vstart = h.vstart := rfl
@[simp] theorem Hart.setElems_cura : (h.setElems r t l).cura = h.cura := rfl
@[simp] theorem Hart.setElems_curb : (h.setElems r t l).curb = h.curb := rfl
@[simp] theorem Hart.setElems_vcfg : (h.setElems r t l).vcfg = h.vcfg := rfl
@[simp] theorem Hart.setElems_vgate : (h.setElems r t l).vgate = h.vgate := rfl
@[simp] theorem Hart.setElems_pc : (h.setElems r t l).pc = h.pc := rfl
@[simp] theorem Hart.setElems_fflags : (h.setElems r t l).fflags = h.fflags := rfl
@[simp] theorem Hart.setElems_srseed : (h.setElems r t l).srseed = h.srseed := rfl
@[simp] theorem Hart.setElems_sroff : (h.setElems r t l).sroff = h.sroff := rfl
@[simp] theorem Hart.setElems_kthr : (h.setElems r t l).kthr = h.kthr := rfl
@[simp] theorem Hart.setElems_pclass : (h.setElems r t l).pclass = h.pclass := rfl
@[simp] theorem Hart.setElems_ltmask : (h.setElems r t l).ltmask = h.ltmask := rfl
@[simp] theorem Hart.setElems_ixlive : (h.setElems r t l).ixlive = h.ixlive := rfl
@[simp] theorem Hart.setElems_mode : (h.setElems r t l).mode = h.mode := rfl
@[simp] theorem Hart.setElems_ecause : (h.setElems r t l).ecause = h.ecause := rfl
@[simp] theorem Hart.setElems_epc : (h.setElems r t l).epc = h.epc := rfl
@[simp] theorem Hart.setElems_eval : (h.setElems r t l).eval = h.eval := rfl
@[simp] theorem Hart.setElems_estat : (h.setElems r t l).estat = h.estat := rfl
@[simp] theorem Hart.setElems_retq : (h.setElems r t l).retq = h.retq := rfl
@[simp] theorem Hart.setElems_asideRet : (h.setElems r t l).asideRet = h.asideRet := rfl
@[simp] theorem Hart.setElems_watch : (h.setElems r t l).watch = h.watch := rfl
@[simp] theorem Hart.setElems_prog : (h.setElems r t l).prog = h.prog := rfl
@[simp] theorem Hart.setElems_loop : (h.setElems r t l).loop = h.loop := rfl
@[simp] theorem Hart.setElems_asideLoop : (h.setElems r t l).asideLoop = h.asideLoop := rfl
@[simp] theorem Hart.setElems_covered : (h.setElems r t l).covered = h.covered := rfl
@[simp] theorem Hart.setElems_ahead : (h.setElems r t l).ahead = h.ahead := rfl
@[simp] theorem Hart.setElems_pigeon : (h.setElems r t l).pigeon = h.pigeon := rfl
@[simp] theorem Hart.setElems_early : (h.setElems r t l).early = h.early := rfl
@[simp] theorem Hart.setElems_afresh : (h.setElems r t l).afresh = h.afresh := rfl
@[simp] theorem Hart.setElems_waiting : (h.setElems r t l).waiting = h.waiting := rfl
@[simp] theorem Hart.setElems_arrivals : (h.setElems r t l).arrivals = h.arrivals := rfl
@[simp] theorem Hart.setElems_credit : (h.setElems r t l).credit = h.credit := rfl
@[simp] theorem Hart.setElems_yielded : (h.setElems r t l).yielded = h.yielded := rfl
@[simp] theorem Hart.setElems_preempt : (h.setElems r t l).preempt = h.preempt := rfl
@[simp] theorem Hart.setElems_convoys : (h.setElems r t l).convoys = h.convoys := rfl
@[simp] theorem Hart.setElems_answers : (h.setElems r t l).answers = h.answers := rfl
@[simp] theorem Hart.setElems_begun : (h.setElems r t l).begun = h.begun := rfl
@[simp] theorem Hart.setElems_underway : (h.setElems r t l).underway = h.underway := rfl
@[simp] theorem Hart.setElems_parcels : (h.setElems r t l).parcels = h.parcels := rfl
@[simp] theorem Hart.setElems_held : (h.setElems r t l).held = h.held := rfl
@[simp] theorem Hart.setElems_counted : (h.setElems r t l).counted = h.counted := rfl
@[simp] theorem Hart.setElems_locking : (h.setElems r t l).locking = h.locking := rfl
@[simp] theorem Hart.setElems_issue : (h.setElems r t l).issue = h.issue := rfl
@[simp] theorem Hart.setElems_startedAt : (h.setElems r t l).startedAt = h.startedAt := rfl
@[simp] theorem Hart.setElems_offer : (h.setElems r t l).offer = h.offer := rfl
@[simp] theorem Hart.setElems_cancelling : (h.setElems r t l).cancelling = h.cancelling := rfl
@[simp] theorem Hart.setElems_canCount : (h.setElems r t l).canCount = h.canCount := rfl
@[simp] theorem Hart.setElems_fpEval : (h.setElems r t l).fpEval = h.fpEval := rfl
end

/-! A write of a bit string (R15). -/
section
variable (h : Hart) (r : VIdx) (l : List (Nat × Bool))
@[simp] theorem Hart.setBitList_status : (h.setBitList r l).status = h.status := rfl
@[simp] theorem Hart.setBitList_place : (h.setBitList r l).place = h.place := rfl
@[simp] theorem Hart.setBitList_ctx : (h.setBitList r l).ctx = h.ctx := rfl
@[simp] theorem Hart.setBitList_launch : (h.setBitList r l).launch = h.launch := rfl
@[simp] theorem Hart.setBitList_born : (h.setBitList r l).born = h.born := rfl
@[simp] theorem Hart.setBitList_linear : (h.setBitList r l).linear = h.linear := rfl
@[simp] theorem Hart.setBitList_quadIndex : (h.setBitList r l).quadIndex = h.quadIndex := rfl
@[simp] theorem Hart.setBitList_coreIndex : (h.setBitList r l).coreIndex = h.coreIndex := rfl
@[simp] theorem Hart.setBitList_merged : (h.setBitList r l).merged = h.merged := rfl
@[simp] theorem Hart.setBitList_sregs : (h.setBitList r l).sregs = h.sregs := rfl
@[simp] theorem Hart.setBitList_vtags : (h.setBitList r l).vtags = h.vtags := rfl
@[simp] theorem Hart.setBitList_flen : (h.setBitList r l).flen = h.flen := rfl
@[simp] theorem Hart.setBitList_tiles : (h.setBitList r l).tiles = h.tiles := rfl
@[simp] theorem Hart.setBitList_keep : (h.setBitList r l).keep = h.keep := rfl
@[simp] theorem Hart.setBitList_counters : (h.setBitList r l).counters = h.counters := rfl
@[simp] theorem Hart.setBitList_cerr : (h.setBitList r l).cerr = h.cerr := rfl
@[simp] theorem Hart.setBitList_vl : (h.setBitList r l).vl = h.vl := rfl
@[simp] theorem Hart.setBitList_vstart : (h.setBitList r l).vstart = h.vstart := rfl
@[simp] theorem Hart.setBitList_cura : (h.setBitList r l).cura = h.cura := rfl
@[simp] theorem Hart.setBitList_curb : (h.setBitList r l).curb = h.curb := rfl
@[simp] theorem Hart.setBitList_vcfg : (h.setBitList r l).vcfg = h.vcfg := rfl
@[simp] theorem Hart.setBitList_vgate : (h.setBitList r l).vgate = h.vgate := rfl
@[simp] theorem Hart.setBitList_pc : (h.setBitList r l).pc = h.pc := rfl
@[simp] theorem Hart.setBitList_fflags : (h.setBitList r l).fflags = h.fflags := rfl
@[simp] theorem Hart.setBitList_srseed : (h.setBitList r l).srseed = h.srseed := rfl
@[simp] theorem Hart.setBitList_sroff : (h.setBitList r l).sroff = h.sroff := rfl
@[simp] theorem Hart.setBitList_kthr : (h.setBitList r l).kthr = h.kthr := rfl
@[simp] theorem Hart.setBitList_pclass : (h.setBitList r l).pclass = h.pclass := rfl
@[simp] theorem Hart.setBitList_ltmask : (h.setBitList r l).ltmask = h.ltmask := rfl
@[simp] theorem Hart.setBitList_ixlive : (h.setBitList r l).ixlive = h.ixlive := rfl
@[simp] theorem Hart.setBitList_mode : (h.setBitList r l).mode = h.mode := rfl
@[simp] theorem Hart.setBitList_ecause : (h.setBitList r l).ecause = h.ecause := rfl
@[simp] theorem Hart.setBitList_epc : (h.setBitList r l).epc = h.epc := rfl
@[simp] theorem Hart.setBitList_eval : (h.setBitList r l).eval = h.eval := rfl
@[simp] theorem Hart.setBitList_estat : (h.setBitList r l).estat = h.estat := rfl
@[simp] theorem Hart.setBitList_retq : (h.setBitList r l).retq = h.retq := rfl
@[simp] theorem Hart.setBitList_asideRet : (h.setBitList r l).asideRet = h.asideRet := rfl
@[simp] theorem Hart.setBitList_watch : (h.setBitList r l).watch = h.watch := rfl
@[simp] theorem Hart.setBitList_prog : (h.setBitList r l).prog = h.prog := rfl
@[simp] theorem Hart.setBitList_loop : (h.setBitList r l).loop = h.loop := rfl
@[simp] theorem Hart.setBitList_asideLoop : (h.setBitList r l).asideLoop = h.asideLoop := rfl
@[simp] theorem Hart.setBitList_covered : (h.setBitList r l).covered = h.covered := rfl
@[simp] theorem Hart.setBitList_ahead : (h.setBitList r l).ahead = h.ahead := rfl
@[simp] theorem Hart.setBitList_pigeon : (h.setBitList r l).pigeon = h.pigeon := rfl
@[simp] theorem Hart.setBitList_early : (h.setBitList r l).early = h.early := rfl
@[simp] theorem Hart.setBitList_afresh : (h.setBitList r l).afresh = h.afresh := rfl
@[simp] theorem Hart.setBitList_waiting : (h.setBitList r l).waiting = h.waiting := rfl
@[simp] theorem Hart.setBitList_arrivals : (h.setBitList r l).arrivals = h.arrivals := rfl
@[simp] theorem Hart.setBitList_credit : (h.setBitList r l).credit = h.credit := rfl
@[simp] theorem Hart.setBitList_yielded : (h.setBitList r l).yielded = h.yielded := rfl
@[simp] theorem Hart.setBitList_preempt : (h.setBitList r l).preempt = h.preempt := rfl
@[simp] theorem Hart.setBitList_convoys : (h.setBitList r l).convoys = h.convoys := rfl
@[simp] theorem Hart.setBitList_answers : (h.setBitList r l).answers = h.answers := rfl
@[simp] theorem Hart.setBitList_begun : (h.setBitList r l).begun = h.begun := rfl
@[simp] theorem Hart.setBitList_underway : (h.setBitList r l).underway = h.underway := rfl
@[simp] theorem Hart.setBitList_parcels : (h.setBitList r l).parcels = h.parcels := rfl
@[simp] theorem Hart.setBitList_held : (h.setBitList r l).held = h.held := rfl
@[simp] theorem Hart.setBitList_counted : (h.setBitList r l).counted = h.counted := rfl
@[simp] theorem Hart.setBitList_locking : (h.setBitList r l).locking = h.locking := rfl
@[simp] theorem Hart.setBitList_issue : (h.setBitList r l).issue = h.issue := rfl
@[simp] theorem Hart.setBitList_startedAt : (h.setBitList r l).startedAt = h.startedAt := rfl
@[simp] theorem Hart.setBitList_offer : (h.setBitList r l).offer = h.offer := rfl
@[simp] theorem Hart.setBitList_cancelling : (h.setBitList r l).cancelling = h.cancelling := rfl
@[simp] theorem Hart.setBitList_canCount : (h.setBitList r l).canCount = h.canCount := rfl
@[simp] theorem Hart.setBitList_fpEval : (h.setBitList r l).fpEval = h.fpEval := rfl
end

/-! The completion of a vector instruction (R21). -/
section
variable (h : Hart) 
@[simp] theorem Hart.vdone_status : (h.vdone).status = h.status := rfl
@[simp] theorem Hart.vdone_place : (h.vdone).place = h.place := rfl
@[simp] theorem Hart.vdone_ctx : (h.vdone).ctx = h.ctx := rfl
@[simp] theorem Hart.vdone_launch : (h.vdone).launch = h.launch := rfl
@[simp] theorem Hart.vdone_born : (h.vdone).born = h.born := rfl
@[simp] theorem Hart.vdone_linear : (h.vdone).linear = h.linear := rfl
@[simp] theorem Hart.vdone_quadIndex : (h.vdone).quadIndex = h.quadIndex := rfl
@[simp] theorem Hart.vdone_coreIndex : (h.vdone).coreIndex = h.coreIndex := rfl
@[simp] theorem Hart.vdone_merged : (h.vdone).merged = h.merged := rfl
@[simp] theorem Hart.vdone_sregs : (h.vdone).sregs = h.sregs := rfl
@[simp] theorem Hart.vdone_vregs : (h.vdone).vregs = h.vregs := rfl
@[simp] theorem Hart.vdone_vtags : (h.vdone).vtags = h.vtags := rfl
@[simp] theorem Hart.vdone_flen : (h.vdone).flen = h.flen := rfl
@[simp] theorem Hart.vdone_tiles : (h.vdone).tiles = h.tiles := rfl
@[simp] theorem Hart.vdone_keep : (h.vdone).keep = h.keep := rfl
@[simp] theorem Hart.vdone_counters : (h.vdone).counters = h.counters := rfl
@[simp] theorem Hart.vdone_cerr : (h.vdone).cerr = h.cerr := rfl
@[simp] theorem Hart.vdone_vl : (h.vdone).vl = h.vl := rfl
@[simp] theorem Hart.vdone_cura : (h.vdone).cura = h.cura := rfl
@[simp] theorem Hart.vdone_curb : (h.vdone).curb = h.curb := rfl
@[simp] theorem Hart.vdone_vcfg : (h.vdone).vcfg = h.vcfg := rfl
@[simp] theorem Hart.vdone_vgate : (h.vdone).vgate = h.vgate := rfl
@[simp] theorem Hart.vdone_pc : (h.vdone).pc = h.pc := rfl
@[simp] theorem Hart.vdone_fflags : (h.vdone).fflags = h.fflags := rfl
@[simp] theorem Hart.vdone_srseed : (h.vdone).srseed = h.srseed := rfl
@[simp] theorem Hart.vdone_sroff : (h.vdone).sroff = h.sroff := rfl
@[simp] theorem Hart.vdone_kthr : (h.vdone).kthr = h.kthr := rfl
@[simp] theorem Hart.vdone_pclass : (h.vdone).pclass = h.pclass := rfl
@[simp] theorem Hart.vdone_ltmask : (h.vdone).ltmask = h.ltmask := rfl
@[simp] theorem Hart.vdone_ixlive : (h.vdone).ixlive = h.ixlive := rfl
@[simp] theorem Hart.vdone_mode : (h.vdone).mode = h.mode := rfl
@[simp] theorem Hart.vdone_ecause : (h.vdone).ecause = h.ecause := rfl
@[simp] theorem Hart.vdone_epc : (h.vdone).epc = h.epc := rfl
@[simp] theorem Hart.vdone_eval : (h.vdone).eval = h.eval := rfl
@[simp] theorem Hart.vdone_estat : (h.vdone).estat = h.estat := rfl
@[simp] theorem Hart.vdone_retq : (h.vdone).retq = h.retq := rfl
@[simp] theorem Hart.vdone_asideRet : (h.vdone).asideRet = h.asideRet := rfl
@[simp] theorem Hart.vdone_watch : (h.vdone).watch = h.watch := rfl
@[simp] theorem Hart.vdone_prog : (h.vdone).prog = h.prog := rfl
@[simp] theorem Hart.vdone_loop : (h.vdone).loop = h.loop := rfl
@[simp] theorem Hart.vdone_asideLoop : (h.vdone).asideLoop = h.asideLoop := rfl
@[simp] theorem Hart.vdone_covered : (h.vdone).covered = h.covered := rfl
@[simp] theorem Hart.vdone_ahead : (h.vdone).ahead = h.ahead := rfl
@[simp] theorem Hart.vdone_pigeon : (h.vdone).pigeon = h.pigeon := rfl
@[simp] theorem Hart.vdone_early : (h.vdone).early = h.early := rfl
@[simp] theorem Hart.vdone_afresh : (h.vdone).afresh = h.afresh := rfl
@[simp] theorem Hart.vdone_waiting : (h.vdone).waiting = h.waiting := rfl
@[simp] theorem Hart.vdone_arrivals : (h.vdone).arrivals = h.arrivals := rfl
@[simp] theorem Hart.vdone_credit : (h.vdone).credit = h.credit := rfl
@[simp] theorem Hart.vdone_yielded : (h.vdone).yielded = h.yielded := rfl
@[simp] theorem Hart.vdone_preempt : (h.vdone).preempt = h.preempt := rfl
@[simp] theorem Hart.vdone_convoys : (h.vdone).convoys = h.convoys := rfl
@[simp] theorem Hart.vdone_answers : (h.vdone).answers = h.answers := rfl
@[simp] theorem Hart.vdone_begun : (h.vdone).begun = h.begun := rfl
@[simp] theorem Hart.vdone_underway : (h.vdone).underway = h.underway := rfl
@[simp] theorem Hart.vdone_parcels : (h.vdone).parcels = h.parcels := rfl
@[simp] theorem Hart.vdone_held : (h.vdone).held = h.held := rfl
@[simp] theorem Hart.vdone_counted : (h.vdone).counted = h.counted := rfl
@[simp] theorem Hart.vdone_locking : (h.vdone).locking = h.locking := rfl
@[simp] theorem Hart.vdone_issue : (h.vdone).issue = h.issue := rfl
@[simp] theorem Hart.vdone_startedAt : (h.vdone).startedAt = h.startedAt := rfl
@[simp] theorem Hart.vdone_offer : (h.vdone).offer = h.offer := rfl
@[simp] theorem Hart.vdone_cancelling : (h.vdone).cancelling = h.cancelling := rfl
@[simp] theorem Hart.vdone_canCount : (h.vdone).canCount = h.canCount := rfl
@[simp] theorem Hart.vdone_fpEval : (h.vdone).fpEval = h.fpEval := rfl
end

/-! A write of a tile (R20). -/
section
variable (h : Hart) (t : TIdx) (v : BitVec Config.tileBits)
@[simp] theorem Hart.setTile_status : (h.setTile t v).status = h.status := rfl
@[simp] theorem Hart.setTile_place : (h.setTile t v).place = h.place := rfl
@[simp] theorem Hart.setTile_ctx : (h.setTile t v).ctx = h.ctx := rfl
@[simp] theorem Hart.setTile_launch : (h.setTile t v).launch = h.launch := rfl
@[simp] theorem Hart.setTile_born : (h.setTile t v).born = h.born := rfl
@[simp] theorem Hart.setTile_linear : (h.setTile t v).linear = h.linear := rfl
@[simp] theorem Hart.setTile_quadIndex : (h.setTile t v).quadIndex = h.quadIndex := rfl
@[simp] theorem Hart.setTile_coreIndex : (h.setTile t v).coreIndex = h.coreIndex := rfl
@[simp] theorem Hart.setTile_merged : (h.setTile t v).merged = h.merged := rfl
@[simp] theorem Hart.setTile_sregs : (h.setTile t v).sregs = h.sregs := rfl
@[simp] theorem Hart.setTile_vregs : (h.setTile t v).vregs = h.vregs := rfl
@[simp] theorem Hart.setTile_vtags : (h.setTile t v).vtags = h.vtags := rfl
@[simp] theorem Hart.setTile_flen : (h.setTile t v).flen = h.flen := rfl
@[simp] theorem Hart.setTile_keep : (h.setTile t v).keep = h.keep := rfl
@[simp] theorem Hart.setTile_counters : (h.setTile t v).counters = h.counters := rfl
@[simp] theorem Hart.setTile_cerr : (h.setTile t v).cerr = h.cerr := rfl
@[simp] theorem Hart.setTile_vl : (h.setTile t v).vl = h.vl := rfl
@[simp] theorem Hart.setTile_vstart : (h.setTile t v).vstart = h.vstart := rfl
@[simp] theorem Hart.setTile_cura : (h.setTile t v).cura = h.cura := rfl
@[simp] theorem Hart.setTile_curb : (h.setTile t v).curb = h.curb := rfl
@[simp] theorem Hart.setTile_vcfg : (h.setTile t v).vcfg = h.vcfg := rfl
@[simp] theorem Hart.setTile_vgate : (h.setTile t v).vgate = h.vgate := rfl
@[simp] theorem Hart.setTile_pc : (h.setTile t v).pc = h.pc := rfl
@[simp] theorem Hart.setTile_fflags : (h.setTile t v).fflags = h.fflags := rfl
@[simp] theorem Hart.setTile_srseed : (h.setTile t v).srseed = h.srseed := rfl
@[simp] theorem Hart.setTile_sroff : (h.setTile t v).sroff = h.sroff := rfl
@[simp] theorem Hart.setTile_kthr : (h.setTile t v).kthr = h.kthr := rfl
@[simp] theorem Hart.setTile_pclass : (h.setTile t v).pclass = h.pclass := rfl
@[simp] theorem Hart.setTile_ltmask : (h.setTile t v).ltmask = h.ltmask := rfl
@[simp] theorem Hart.setTile_ixlive : (h.setTile t v).ixlive = h.ixlive := rfl
@[simp] theorem Hart.setTile_mode : (h.setTile t v).mode = h.mode := rfl
@[simp] theorem Hart.setTile_ecause : (h.setTile t v).ecause = h.ecause := rfl
@[simp] theorem Hart.setTile_epc : (h.setTile t v).epc = h.epc := rfl
@[simp] theorem Hart.setTile_eval : (h.setTile t v).eval = h.eval := rfl
@[simp] theorem Hart.setTile_estat : (h.setTile t v).estat = h.estat := rfl
@[simp] theorem Hart.setTile_retq : (h.setTile t v).retq = h.retq := rfl
@[simp] theorem Hart.setTile_asideRet : (h.setTile t v).asideRet = h.asideRet := rfl
@[simp] theorem Hart.setTile_watch : (h.setTile t v).watch = h.watch := rfl
@[simp] theorem Hart.setTile_prog : (h.setTile t v).prog = h.prog := rfl
@[simp] theorem Hart.setTile_loop : (h.setTile t v).loop = h.loop := rfl
@[simp] theorem Hart.setTile_asideLoop : (h.setTile t v).asideLoop = h.asideLoop := rfl
@[simp] theorem Hart.setTile_covered : (h.setTile t v).covered = h.covered := rfl
@[simp] theorem Hart.setTile_ahead : (h.setTile t v).ahead = h.ahead := rfl
@[simp] theorem Hart.setTile_pigeon : (h.setTile t v).pigeon = h.pigeon := rfl
@[simp] theorem Hart.setTile_early : (h.setTile t v).early = h.early := rfl
@[simp] theorem Hart.setTile_afresh : (h.setTile t v).afresh = h.afresh := rfl
@[simp] theorem Hart.setTile_waiting : (h.setTile t v).waiting = h.waiting := rfl
@[simp] theorem Hart.setTile_arrivals : (h.setTile t v).arrivals = h.arrivals := rfl
@[simp] theorem Hart.setTile_credit : (h.setTile t v).credit = h.credit := rfl
@[simp] theorem Hart.setTile_yielded : (h.setTile t v).yielded = h.yielded := rfl
@[simp] theorem Hart.setTile_preempt : (h.setTile t v).preempt = h.preempt := rfl
@[simp] theorem Hart.setTile_convoys : (h.setTile t v).convoys = h.convoys := rfl
@[simp] theorem Hart.setTile_answers : (h.setTile t v).answers = h.answers := rfl
@[simp] theorem Hart.setTile_begun : (h.setTile t v).begun = h.begun := rfl
@[simp] theorem Hart.setTile_underway : (h.setTile t v).underway = h.underway := rfl
@[simp] theorem Hart.setTile_parcels : (h.setTile t v).parcels = h.parcels := rfl
@[simp] theorem Hart.setTile_held : (h.setTile t v).held = h.held := rfl
@[simp] theorem Hart.setTile_counted : (h.setTile t v).counted = h.counted := rfl
@[simp] theorem Hart.setTile_locking : (h.setTile t v).locking = h.locking := rfl
@[simp] theorem Hart.setTile_issue : (h.setTile t v).issue = h.issue := rfl
@[simp] theorem Hart.setTile_startedAt : (h.setTile t v).startedAt = h.startedAt := rfl
@[simp] theorem Hart.setTile_offer : (h.setTile t v).offer = h.offer := rfl
@[simp] theorem Hart.setTile_cancelling : (h.setTile t v).cancelling = h.cancelling := rfl
@[simp] theorem Hart.setTile_canCount : (h.setTile t v).canCount = h.canCount := rfl
@[simp] theorem Hart.setTile_fpEval : (h.setTile t v).fpEval = h.fpEval := rfl
end

/-! Flags raised (R42). -/
section
variable (h : Hart) (f : FFlags)
@[simp] theorem Hart.raiseFlags_status : (h.raiseFlags f).status = h.status := rfl
@[simp] theorem Hart.raiseFlags_place : (h.raiseFlags f).place = h.place := rfl
@[simp] theorem Hart.raiseFlags_ctx : (h.raiseFlags f).ctx = h.ctx := rfl
@[simp] theorem Hart.raiseFlags_launch : (h.raiseFlags f).launch = h.launch := rfl
@[simp] theorem Hart.raiseFlags_born : (h.raiseFlags f).born = h.born := rfl
@[simp] theorem Hart.raiseFlags_linear : (h.raiseFlags f).linear = h.linear := rfl
@[simp] theorem Hart.raiseFlags_quadIndex : (h.raiseFlags f).quadIndex = h.quadIndex := rfl
@[simp] theorem Hart.raiseFlags_coreIndex : (h.raiseFlags f).coreIndex = h.coreIndex := rfl
@[simp] theorem Hart.raiseFlags_merged : (h.raiseFlags f).merged = h.merged := rfl
@[simp] theorem Hart.raiseFlags_sregs : (h.raiseFlags f).sregs = h.sregs := rfl
@[simp] theorem Hart.raiseFlags_vregs : (h.raiseFlags f).vregs = h.vregs := rfl
@[simp] theorem Hart.raiseFlags_vtags : (h.raiseFlags f).vtags = h.vtags := rfl
@[simp] theorem Hart.raiseFlags_flen : (h.raiseFlags f).flen = h.flen := rfl
@[simp] theorem Hart.raiseFlags_tiles : (h.raiseFlags f).tiles = h.tiles := rfl
@[simp] theorem Hart.raiseFlags_keep : (h.raiseFlags f).keep = h.keep := rfl
@[simp] theorem Hart.raiseFlags_counters : (h.raiseFlags f).counters = h.counters := rfl
@[simp] theorem Hart.raiseFlags_cerr : (h.raiseFlags f).cerr = h.cerr := rfl
@[simp] theorem Hart.raiseFlags_vl : (h.raiseFlags f).vl = h.vl := rfl
@[simp] theorem Hart.raiseFlags_vstart : (h.raiseFlags f).vstart = h.vstart := rfl
@[simp] theorem Hart.raiseFlags_cura : (h.raiseFlags f).cura = h.cura := rfl
@[simp] theorem Hart.raiseFlags_curb : (h.raiseFlags f).curb = h.curb := rfl
@[simp] theorem Hart.raiseFlags_vcfg : (h.raiseFlags f).vcfg = h.vcfg := rfl
@[simp] theorem Hart.raiseFlags_vgate : (h.raiseFlags f).vgate = h.vgate := rfl
@[simp] theorem Hart.raiseFlags_pc : (h.raiseFlags f).pc = h.pc := rfl
@[simp] theorem Hart.raiseFlags_srseed : (h.raiseFlags f).srseed = h.srseed := rfl
@[simp] theorem Hart.raiseFlags_sroff : (h.raiseFlags f).sroff = h.sroff := rfl
@[simp] theorem Hart.raiseFlags_kthr : (h.raiseFlags f).kthr = h.kthr := rfl
@[simp] theorem Hart.raiseFlags_pclass : (h.raiseFlags f).pclass = h.pclass := rfl
@[simp] theorem Hart.raiseFlags_ltmask : (h.raiseFlags f).ltmask = h.ltmask := rfl
@[simp] theorem Hart.raiseFlags_ixlive : (h.raiseFlags f).ixlive = h.ixlive := rfl
@[simp] theorem Hart.raiseFlags_mode : (h.raiseFlags f).mode = h.mode := rfl
@[simp] theorem Hart.raiseFlags_ecause : (h.raiseFlags f).ecause = h.ecause := rfl
@[simp] theorem Hart.raiseFlags_epc : (h.raiseFlags f).epc = h.epc := rfl
@[simp] theorem Hart.raiseFlags_eval : (h.raiseFlags f).eval = h.eval := rfl
@[simp] theorem Hart.raiseFlags_estat : (h.raiseFlags f).estat = h.estat := rfl
@[simp] theorem Hart.raiseFlags_retq : (h.raiseFlags f).retq = h.retq := rfl
@[simp] theorem Hart.raiseFlags_asideRet : (h.raiseFlags f).asideRet = h.asideRet := rfl
@[simp] theorem Hart.raiseFlags_watch : (h.raiseFlags f).watch = h.watch := rfl
@[simp] theorem Hart.raiseFlags_prog : (h.raiseFlags f).prog = h.prog := rfl
@[simp] theorem Hart.raiseFlags_loop : (h.raiseFlags f).loop = h.loop := rfl
@[simp] theorem Hart.raiseFlags_asideLoop : (h.raiseFlags f).asideLoop = h.asideLoop := rfl
@[simp] theorem Hart.raiseFlags_covered : (h.raiseFlags f).covered = h.covered := rfl
@[simp] theorem Hart.raiseFlags_ahead : (h.raiseFlags f).ahead = h.ahead := rfl
@[simp] theorem Hart.raiseFlags_pigeon : (h.raiseFlags f).pigeon = h.pigeon := rfl
@[simp] theorem Hart.raiseFlags_early : (h.raiseFlags f).early = h.early := rfl
@[simp] theorem Hart.raiseFlags_afresh : (h.raiseFlags f).afresh = h.afresh := rfl
@[simp] theorem Hart.raiseFlags_waiting : (h.raiseFlags f).waiting = h.waiting := rfl
@[simp] theorem Hart.raiseFlags_arrivals : (h.raiseFlags f).arrivals = h.arrivals := rfl
@[simp] theorem Hart.raiseFlags_credit : (h.raiseFlags f).credit = h.credit := rfl
@[simp] theorem Hart.raiseFlags_yielded : (h.raiseFlags f).yielded = h.yielded := rfl
@[simp] theorem Hart.raiseFlags_preempt : (h.raiseFlags f).preempt = h.preempt := rfl
@[simp] theorem Hart.raiseFlags_convoys : (h.raiseFlags f).convoys = h.convoys := rfl
@[simp] theorem Hart.raiseFlags_answers : (h.raiseFlags f).answers = h.answers := rfl
@[simp] theorem Hart.raiseFlags_begun : (h.raiseFlags f).begun = h.begun := rfl
@[simp] theorem Hart.raiseFlags_underway : (h.raiseFlags f).underway = h.underway := rfl
@[simp] theorem Hart.raiseFlags_parcels : (h.raiseFlags f).parcels = h.parcels := rfl
@[simp] theorem Hart.raiseFlags_held : (h.raiseFlags f).held = h.held := rfl
@[simp] theorem Hart.raiseFlags_counted : (h.raiseFlags f).counted = h.counted := rfl
@[simp] theorem Hart.raiseFlags_locking : (h.raiseFlags f).locking = h.locking := rfl
@[simp] theorem Hart.raiseFlags_issue : (h.raiseFlags f).issue = h.issue := rfl
@[simp] theorem Hart.raiseFlags_startedAt : (h.raiseFlags f).startedAt = h.startedAt := rfl
@[simp] theorem Hart.raiseFlags_offer : (h.raiseFlags f).offer = h.offer := rfl
@[simp] theorem Hart.raiseFlags_cancelling : (h.raiseFlags f).cancelling = h.cancelling := rfl
@[simp] theorem Hart.raiseFlags_canCount : (h.raiseFlags f).canCount = h.canCount := rfl
@[simp] theorem Hart.raiseFlags_fpEval : (h.raiseFlags f).fpEval = h.fpEval := rfl
end

/-! The cursors (R158). -/
section
variable (h : Hart) (a b : Nat)
@[simp] theorem Hart.setCursors_status : (h.setCursors a b).status = h.status := rfl
@[simp] theorem Hart.setCursors_place : (h.setCursors a b).place = h.place := rfl
@[simp] theorem Hart.setCursors_ctx : (h.setCursors a b).ctx = h.ctx := rfl
@[simp] theorem Hart.setCursors_launch : (h.setCursors a b).launch = h.launch := rfl
@[simp] theorem Hart.setCursors_born : (h.setCursors a b).born = h.born := rfl
@[simp] theorem Hart.setCursors_linear : (h.setCursors a b).linear = h.linear := rfl
@[simp] theorem Hart.setCursors_quadIndex : (h.setCursors a b).quadIndex = h.quadIndex := rfl
@[simp] theorem Hart.setCursors_coreIndex : (h.setCursors a b).coreIndex = h.coreIndex := rfl
@[simp] theorem Hart.setCursors_merged : (h.setCursors a b).merged = h.merged := rfl
@[simp] theorem Hart.setCursors_sregs : (h.setCursors a b).sregs = h.sregs := rfl
@[simp] theorem Hart.setCursors_vregs : (h.setCursors a b).vregs = h.vregs := rfl
@[simp] theorem Hart.setCursors_vtags : (h.setCursors a b).vtags = h.vtags := rfl
@[simp] theorem Hart.setCursors_flen : (h.setCursors a b).flen = h.flen := rfl
@[simp] theorem Hart.setCursors_tiles : (h.setCursors a b).tiles = h.tiles := rfl
@[simp] theorem Hart.setCursors_keep : (h.setCursors a b).keep = h.keep := rfl
@[simp] theorem Hart.setCursors_counters : (h.setCursors a b).counters = h.counters := rfl
@[simp] theorem Hart.setCursors_cerr : (h.setCursors a b).cerr = h.cerr := rfl
@[simp] theorem Hart.setCursors_vl : (h.setCursors a b).vl = h.vl := rfl
@[simp] theorem Hart.setCursors_vcfg : (h.setCursors a b).vcfg = h.vcfg := rfl
@[simp] theorem Hart.setCursors_vgate : (h.setCursors a b).vgate = h.vgate := rfl
@[simp] theorem Hart.setCursors_pc : (h.setCursors a b).pc = h.pc := rfl
@[simp] theorem Hart.setCursors_fflags : (h.setCursors a b).fflags = h.fflags := rfl
@[simp] theorem Hart.setCursors_srseed : (h.setCursors a b).srseed = h.srseed := rfl
@[simp] theorem Hart.setCursors_sroff : (h.setCursors a b).sroff = h.sroff := rfl
@[simp] theorem Hart.setCursors_kthr : (h.setCursors a b).kthr = h.kthr := rfl
@[simp] theorem Hart.setCursors_pclass : (h.setCursors a b).pclass = h.pclass := rfl
@[simp] theorem Hart.setCursors_ltmask : (h.setCursors a b).ltmask = h.ltmask := rfl
@[simp] theorem Hart.setCursors_ixlive : (h.setCursors a b).ixlive = h.ixlive := rfl
@[simp] theorem Hart.setCursors_mode : (h.setCursors a b).mode = h.mode := rfl
@[simp] theorem Hart.setCursors_ecause : (h.setCursors a b).ecause = h.ecause := rfl
@[simp] theorem Hart.setCursors_epc : (h.setCursors a b).epc = h.epc := rfl
@[simp] theorem Hart.setCursors_eval : (h.setCursors a b).eval = h.eval := rfl
@[simp] theorem Hart.setCursors_estat : (h.setCursors a b).estat = h.estat := rfl
@[simp] theorem Hart.setCursors_retq : (h.setCursors a b).retq = h.retq := rfl
@[simp] theorem Hart.setCursors_asideRet : (h.setCursors a b).asideRet = h.asideRet := rfl
@[simp] theorem Hart.setCursors_watch : (h.setCursors a b).watch = h.watch := rfl
@[simp] theorem Hart.setCursors_prog : (h.setCursors a b).prog = h.prog := rfl
@[simp] theorem Hart.setCursors_loop : (h.setCursors a b).loop = h.loop := rfl
@[simp] theorem Hart.setCursors_asideLoop : (h.setCursors a b).asideLoop = h.asideLoop := rfl
@[simp] theorem Hart.setCursors_covered : (h.setCursors a b).covered = h.covered := rfl
@[simp] theorem Hart.setCursors_ahead : (h.setCursors a b).ahead = h.ahead := rfl
@[simp] theorem Hart.setCursors_pigeon : (h.setCursors a b).pigeon = h.pigeon := rfl
@[simp] theorem Hart.setCursors_early : (h.setCursors a b).early = h.early := rfl
@[simp] theorem Hart.setCursors_afresh : (h.setCursors a b).afresh = h.afresh := rfl
@[simp] theorem Hart.setCursors_waiting : (h.setCursors a b).waiting = h.waiting := rfl
@[simp] theorem Hart.setCursors_arrivals : (h.setCursors a b).arrivals = h.arrivals := rfl
@[simp] theorem Hart.setCursors_credit : (h.setCursors a b).credit = h.credit := rfl
@[simp] theorem Hart.setCursors_yielded : (h.setCursors a b).yielded = h.yielded := rfl
@[simp] theorem Hart.setCursors_preempt : (h.setCursors a b).preempt = h.preempt := rfl
@[simp] theorem Hart.setCursors_convoys : (h.setCursors a b).convoys = h.convoys := rfl
@[simp] theorem Hart.setCursors_answers : (h.setCursors a b).answers = h.answers := rfl
@[simp] theorem Hart.setCursors_begun : (h.setCursors a b).begun = h.begun := rfl
@[simp] theorem Hart.setCursors_underway : (h.setCursors a b).underway = h.underway := rfl
@[simp] theorem Hart.setCursors_parcels : (h.setCursors a b).parcels = h.parcels := rfl
@[simp] theorem Hart.setCursors_held : (h.setCursors a b).held = h.held := rfl
@[simp] theorem Hart.setCursors_counted : (h.setCursors a b).counted = h.counted := rfl
@[simp] theorem Hart.setCursors_locking : (h.setCursors a b).locking = h.locking := rfl
@[simp] theorem Hart.setCursors_issue : (h.setCursors a b).issue = h.issue := rfl
@[simp] theorem Hart.setCursors_startedAt : (h.setCursors a b).startedAt = h.startedAt := rfl
@[simp] theorem Hart.setCursors_offer : (h.setCursors a b).offer = h.offer := rfl
@[simp] theorem Hart.setCursors_cancelling : (h.setCursors a b).cancelling = h.cancelling := rfl
@[simp] theorem Hart.setCursors_canCount : (h.setCursors a b).canCount = h.canCount := rfl
@[simp] theorem Hart.setCursors_fpEval : (h.setCursors a b).fpEval = h.fpEval := rfl
end

/-! A write of a scalar register of the current hart. -/
section
variable (s : State) (r : SReg) (v : Word)
@[simp] theorem State.setS_others : (s.setS r v).others = s.others := rfl
@[simp] theorem State.setS_cores : (s.setS r v).cores = s.cores := rfl
@[simp] theorem State.setS_ctxs : (s.setS r v).ctxs = s.ctxs := rfl
@[simp] theorem State.setS_mem : (s.setS r v).mem = s.mem := rfl
@[simp] theorem State.setS_l2 : (s.setS r v).l2 = s.l2 := rfl
@[simp] theorem State.setS_hbm : (s.setS r v).hbm = s.hbm := rfl
@[simp] theorem State.setS_poison : (s.setS r v).poison = s.poison := rfl
@[simp] theorem State.setS_hbmPoison : (s.setS r v).hbmPoison = s.hbmPoison := rfl
@[simp] theorem State.setS_ptrLines : (s.setS r v).ptrLines = s.ptrLines := rfl
@[simp] theorem State.setS_tlb : (s.setS r v).tlb = s.tlb := rfl
@[simp] theorem State.setS_oldEntries : (s.setS r v).oldEntries = s.oldEntries := rfl
@[simp] theorem State.setS_walks : (s.setS r v).walks = s.walks := rfl
@[simp] theorem State.setS_lineWaits : (s.setS r v).lineWaits = s.lineWaits := rfl
@[simp] theorem State.setS_locks : (s.setS r v).locks = s.locks := rfl
@[simp] theorem State.setS_launches : (s.setS r v).launches = s.launches := rfl
@[simp] theorem State.setS_head : (s.setS r v).head = s.head := rfl
@[simp] theorem State.setS_kept : (s.setS r v).kept = s.kept := rfl
@[simp] theorem State.setS_saved : (s.setS r v).saved = s.saved := rfl
@[simp] theorem State.setS_pools : (s.setS r v).pools = s.pools := rfl
@[simp] theorem State.setS_mergedHarts : (s.setS r v).mergedHarts = s.mergedHarts := rfl
@[simp] theorem State.setS_cmds : (s.setS r v).cmds = s.cmds := rfl
@[simp] theorem State.setS_announces : (s.setS r v).announces = s.announces := rfl
@[simp] theorem State.setS_unpaired : (s.setS r v).unpaired = s.unpaired := rfl
@[simp] theorem State.setS_msgs : (s.setS r v).msgs = s.msgs := rfl
@[simp] theorem State.setS_haltedQuads : (s.setS r v).haltedQuads = s.haltedQuads := rfl
@[simp] theorem State.setS_fabric : (s.setS r v).fabric = s.fabric := rfl
@[simp] theorem State.setS_mgmt : (s.setS r v).mgmt = s.mgmt := rfl
@[simp] theorem State.setS_hostReads : (s.setS r v).hostReads = s.hostReads := rfl
@[simp] theorem State.setS_unsupported : (s.setS r v).unsupported = s.unsupported := rfl
@[simp] theorem State.setS_nextId : (s.setS r v).nextId = s.nextId := rfl
@[simp] theorem State.setS_schedule : (s.setS r v).schedule = s.schedule := rfl
@[simp] theorem State.setS_ran : (s.setS r v).ran = s.ran := rfl
@[simp] theorem State.setS_free : (s.setS r v).free = s.free := rfl
end

/-! A change of the current hart's core. -/
section
variable (s : State) (c : Core)
@[simp] theorem State.setCore_hart : (s.setCore c).hart = s.hart := rfl
@[simp] theorem State.setCore_others : (s.setCore c).others = s.others := rfl
@[simp] theorem State.setCore_ctxs : (s.setCore c).ctxs = s.ctxs := rfl
@[simp] theorem State.setCore_mem : (s.setCore c).mem = s.mem := rfl
@[simp] theorem State.setCore_l2 : (s.setCore c).l2 = s.l2 := rfl
@[simp] theorem State.setCore_hbm : (s.setCore c).hbm = s.hbm := rfl
@[simp] theorem State.setCore_poison : (s.setCore c).poison = s.poison := rfl
@[simp] theorem State.setCore_hbmPoison : (s.setCore c).hbmPoison = s.hbmPoison := rfl
@[simp] theorem State.setCore_ptrLines : (s.setCore c).ptrLines = s.ptrLines := rfl
@[simp] theorem State.setCore_tlb : (s.setCore c).tlb = s.tlb := rfl
@[simp] theorem State.setCore_oldEntries : (s.setCore c).oldEntries = s.oldEntries := rfl
@[simp] theorem State.setCore_walks : (s.setCore c).walks = s.walks := rfl
@[simp] theorem State.setCore_lineWaits : (s.setCore c).lineWaits = s.lineWaits := rfl
@[simp] theorem State.setCore_locks : (s.setCore c).locks = s.locks := rfl
@[simp] theorem State.setCore_launches : (s.setCore c).launches = s.launches := rfl
@[simp] theorem State.setCore_head : (s.setCore c).head = s.head := rfl
@[simp] theorem State.setCore_kept : (s.setCore c).kept = s.kept := rfl
@[simp] theorem State.setCore_saved : (s.setCore c).saved = s.saved := rfl
@[simp] theorem State.setCore_pools : (s.setCore c).pools = s.pools := rfl
@[simp] theorem State.setCore_mergedHarts : (s.setCore c).mergedHarts = s.mergedHarts := rfl
@[simp] theorem State.setCore_cmds : (s.setCore c).cmds = s.cmds := rfl
@[simp] theorem State.setCore_announces : (s.setCore c).announces = s.announces := rfl
@[simp] theorem State.setCore_unpaired : (s.setCore c).unpaired = s.unpaired := rfl
@[simp] theorem State.setCore_msgs : (s.setCore c).msgs = s.msgs := rfl
@[simp] theorem State.setCore_haltedQuads : (s.setCore c).haltedQuads = s.haltedQuads := rfl
@[simp] theorem State.setCore_fabric : (s.setCore c).fabric = s.fabric := rfl
@[simp] theorem State.setCore_mgmt : (s.setCore c).mgmt = s.mgmt := rfl
@[simp] theorem State.setCore_hostReads : (s.setCore c).hostReads = s.hostReads := rfl
@[simp] theorem State.setCore_unsupported : (s.setCore c).unsupported = s.unsupported := rfl
@[simp] theorem State.setCore_nextId : (s.setCore c).nextId = s.nextId := rfl
@[simp] theorem State.setCore_schedule : (s.setCore c).schedule = s.schedule := rfl
@[simp] theorem State.setCore_ran : (s.setCore c).ran = s.ran := rfl
@[simp] theorem State.setCore_free : (s.setCore c).free = s.free := rfl
end

/-! A change of the current hart's context. -/
section
variable (s : State) (c : Context)
@[simp] theorem State.setCtx_hart : (s.setCtx c).hart = s.hart := rfl
@[simp] theorem State.setCtx_others : (s.setCtx c).others = s.others := rfl
@[simp] theorem State.setCtx_cores : (s.setCtx c).cores = s.cores := rfl
@[simp] theorem State.setCtx_mem : (s.setCtx c).mem = s.mem := rfl
@[simp] theorem State.setCtx_l2 : (s.setCtx c).l2 = s.l2 := rfl
@[simp] theorem State.setCtx_hbm : (s.setCtx c).hbm = s.hbm := rfl
@[simp] theorem State.setCtx_poison : (s.setCtx c).poison = s.poison := rfl
@[simp] theorem State.setCtx_hbmPoison : (s.setCtx c).hbmPoison = s.hbmPoison := rfl
@[simp] theorem State.setCtx_ptrLines : (s.setCtx c).ptrLines = s.ptrLines := rfl
@[simp] theorem State.setCtx_tlb : (s.setCtx c).tlb = s.tlb := rfl
@[simp] theorem State.setCtx_oldEntries : (s.setCtx c).oldEntries = s.oldEntries := rfl
@[simp] theorem State.setCtx_walks : (s.setCtx c).walks = s.walks := rfl
@[simp] theorem State.setCtx_lineWaits : (s.setCtx c).lineWaits = s.lineWaits := rfl
@[simp] theorem State.setCtx_locks : (s.setCtx c).locks = s.locks := rfl
@[simp] theorem State.setCtx_launches : (s.setCtx c).launches = s.launches := rfl
@[simp] theorem State.setCtx_head : (s.setCtx c).head = s.head := rfl
@[simp] theorem State.setCtx_kept : (s.setCtx c).kept = s.kept := rfl
@[simp] theorem State.setCtx_saved : (s.setCtx c).saved = s.saved := rfl
@[simp] theorem State.setCtx_pools : (s.setCtx c).pools = s.pools := rfl
@[simp] theorem State.setCtx_mergedHarts : (s.setCtx c).mergedHarts = s.mergedHarts := rfl
@[simp] theorem State.setCtx_cmds : (s.setCtx c).cmds = s.cmds := rfl
@[simp] theorem State.setCtx_announces : (s.setCtx c).announces = s.announces := rfl
@[simp] theorem State.setCtx_unpaired : (s.setCtx c).unpaired = s.unpaired := rfl
@[simp] theorem State.setCtx_msgs : (s.setCtx c).msgs = s.msgs := rfl
@[simp] theorem State.setCtx_haltedQuads : (s.setCtx c).haltedQuads = s.haltedQuads := rfl
@[simp] theorem State.setCtx_fabric : (s.setCtx c).fabric = s.fabric := rfl
@[simp] theorem State.setCtx_mgmt : (s.setCtx c).mgmt = s.mgmt := rfl
@[simp] theorem State.setCtx_hostReads : (s.setCtx c).hostReads = s.hostReads := rfl
@[simp] theorem State.setCtx_unsupported : (s.setCtx c).unsupported = s.unsupported := rfl
@[simp] theorem State.setCtx_nextId : (s.setCtx c).nextId = s.nextId := rfl
@[simp] theorem State.setCtx_schedule : (s.setCtx c).schedule = s.schedule := rfl
@[simp] theorem State.setCtx_ran : (s.setCtx c).ran = s.ran := rfl
@[simp] theorem State.setCtx_free : (s.setCtx c).free = s.free := rfl
end

/-! The end of an instruction. -/
section
variable (s : State) (n : Nat)
@[simp] theorem retire_others : (retire n s).others = s.others := rfl
@[simp] theorem retire_cores : (retire n s).cores = s.cores := rfl
@[simp] theorem retire_ctxs : (retire n s).ctxs = s.ctxs := rfl
@[simp] theorem retire_mem : (retire n s).mem = s.mem := rfl
@[simp] theorem retire_l2 : (retire n s).l2 = s.l2 := rfl
@[simp] theorem retire_hbm : (retire n s).hbm = s.hbm := rfl
@[simp] theorem retire_poison : (retire n s).poison = s.poison := rfl
@[simp] theorem retire_hbmPoison : (retire n s).hbmPoison = s.hbmPoison := rfl
@[simp] theorem retire_ptrLines : (retire n s).ptrLines = s.ptrLines := rfl
@[simp] theorem retire_tlb : (retire n s).tlb = s.tlb := rfl
@[simp] theorem retire_oldEntries : (retire n s).oldEntries = s.oldEntries := rfl
@[simp] theorem retire_walks : (retire n s).walks = s.walks := rfl
@[simp] theorem retire_lineWaits : (retire n s).lineWaits = s.lineWaits := rfl
@[simp] theorem retire_locks : (retire n s).locks = s.locks := rfl
@[simp] theorem retire_launches : (retire n s).launches = s.launches := rfl
@[simp] theorem retire_head : (retire n s).head = s.head := rfl
@[simp] theorem retire_kept : (retire n s).kept = s.kept := rfl
@[simp] theorem retire_saved : (retire n s).saved = s.saved := rfl
@[simp] theorem retire_pools : (retire n s).pools = s.pools := rfl
@[simp] theorem retire_mergedHarts : (retire n s).mergedHarts = s.mergedHarts := rfl
@[simp] theorem retire_cmds : (retire n s).cmds = s.cmds := rfl
@[simp] theorem retire_announces : (retire n s).announces = s.announces := rfl
@[simp] theorem retire_unpaired : (retire n s).unpaired = s.unpaired := rfl
@[simp] theorem retire_msgs : (retire n s).msgs = s.msgs := rfl
@[simp] theorem retire_haltedQuads : (retire n s).haltedQuads = s.haltedQuads := rfl
@[simp] theorem retire_fabric : (retire n s).fabric = s.fabric := rfl
@[simp] theorem retire_mgmt : (retire n s).mgmt = s.mgmt := rfl
@[simp] theorem retire_hostReads : (retire n s).hostReads = s.hostReads := rfl
@[simp] theorem retire_unsupported : (retire n s).unsupported = s.unsupported := rfl
@[simp] theorem retire_nextId : (retire n s).nextId = s.nextId := rfl
@[simp] theorem retire_schedule : (retire n s).schedule = s.schedule := rfl
@[simp] theorem retire_ran : (retire n s).ran = s.ran := rfl
@[simp] theorem retire_free : (retire n s).free = s.free := rfl
end

/-! The end of a control instruction. -/
section
variable (s : State) (p : Word)
@[simp] theorem retireTo_others : (retireTo p s).others = s.others := rfl
@[simp] theorem retireTo_cores : (retireTo p s).cores = s.cores := rfl
@[simp] theorem retireTo_ctxs : (retireTo p s).ctxs = s.ctxs := rfl
@[simp] theorem retireTo_mem : (retireTo p s).mem = s.mem := rfl
@[simp] theorem retireTo_l2 : (retireTo p s).l2 = s.l2 := rfl
@[simp] theorem retireTo_hbm : (retireTo p s).hbm = s.hbm := rfl
@[simp] theorem retireTo_poison : (retireTo p s).poison = s.poison := rfl
@[simp] theorem retireTo_hbmPoison : (retireTo p s).hbmPoison = s.hbmPoison := rfl
@[simp] theorem retireTo_ptrLines : (retireTo p s).ptrLines = s.ptrLines := rfl
@[simp] theorem retireTo_tlb : (retireTo p s).tlb = s.tlb := rfl
@[simp] theorem retireTo_oldEntries : (retireTo p s).oldEntries = s.oldEntries := rfl
@[simp] theorem retireTo_walks : (retireTo p s).walks = s.walks := rfl
@[simp] theorem retireTo_lineWaits : (retireTo p s).lineWaits = s.lineWaits := rfl
@[simp] theorem retireTo_locks : (retireTo p s).locks = s.locks := rfl
@[simp] theorem retireTo_launches : (retireTo p s).launches = s.launches := rfl
@[simp] theorem retireTo_head : (retireTo p s).head = s.head := rfl
@[simp] theorem retireTo_kept : (retireTo p s).kept = s.kept := rfl
@[simp] theorem retireTo_saved : (retireTo p s).saved = s.saved := rfl
@[simp] theorem retireTo_pools : (retireTo p s).pools = s.pools := rfl
@[simp] theorem retireTo_mergedHarts : (retireTo p s).mergedHarts = s.mergedHarts := rfl
@[simp] theorem retireTo_cmds : (retireTo p s).cmds = s.cmds := rfl
@[simp] theorem retireTo_announces : (retireTo p s).announces = s.announces := rfl
@[simp] theorem retireTo_unpaired : (retireTo p s).unpaired = s.unpaired := rfl
@[simp] theorem retireTo_msgs : (retireTo p s).msgs = s.msgs := rfl
@[simp] theorem retireTo_haltedQuads : (retireTo p s).haltedQuads = s.haltedQuads := rfl
@[simp] theorem retireTo_fabric : (retireTo p s).fabric = s.fabric := rfl
@[simp] theorem retireTo_mgmt : (retireTo p s).mgmt = s.mgmt := rfl
@[simp] theorem retireTo_hostReads : (retireTo p s).hostReads = s.hostReads := rfl
@[simp] theorem retireTo_unsupported : (retireTo p s).unsupported = s.unsupported := rfl
@[simp] theorem retireTo_nextId : (retireTo p s).nextId = s.nextId := rfl
@[simp] theorem retireTo_schedule : (retireTo p s).schedule = s.schedule := rfl
@[simp] theorem retireTo_ran : (retireTo p s).ran = s.ran := rfl
@[simp] theorem retireTo_free : (retireTo p s).free = s.free := rfl
end

/-! A wait. -/
section
variable (s : State) 
@[simp] theorem waitHere_others : (waitHere s).others = s.others := rfl
@[simp] theorem waitHere_cores : (waitHere s).cores = s.cores := rfl
@[simp] theorem waitHere_ctxs : (waitHere s).ctxs = s.ctxs := rfl
@[simp] theorem waitHere_mem : (waitHere s).mem = s.mem := rfl
@[simp] theorem waitHere_l2 : (waitHere s).l2 = s.l2 := rfl
@[simp] theorem waitHere_hbm : (waitHere s).hbm = s.hbm := rfl
@[simp] theorem waitHere_poison : (waitHere s).poison = s.poison := rfl
@[simp] theorem waitHere_hbmPoison : (waitHere s).hbmPoison = s.hbmPoison := rfl
@[simp] theorem waitHere_ptrLines : (waitHere s).ptrLines = s.ptrLines := rfl
@[simp] theorem waitHere_tlb : (waitHere s).tlb = s.tlb := rfl
@[simp] theorem waitHere_oldEntries : (waitHere s).oldEntries = s.oldEntries := rfl
@[simp] theorem waitHere_walks : (waitHere s).walks = s.walks := rfl
@[simp] theorem waitHere_lineWaits : (waitHere s).lineWaits = s.lineWaits := rfl
@[simp] theorem waitHere_locks : (waitHere s).locks = s.locks := rfl
@[simp] theorem waitHere_launches : (waitHere s).launches = s.launches := rfl
@[simp] theorem waitHere_head : (waitHere s).head = s.head := rfl
@[simp] theorem waitHere_kept : (waitHere s).kept = s.kept := rfl
@[simp] theorem waitHere_saved : (waitHere s).saved = s.saved := rfl
@[simp] theorem waitHere_pools : (waitHere s).pools = s.pools := rfl
@[simp] theorem waitHere_mergedHarts : (waitHere s).mergedHarts = s.mergedHarts := rfl
@[simp] theorem waitHere_cmds : (waitHere s).cmds = s.cmds := rfl
@[simp] theorem waitHere_announces : (waitHere s).announces = s.announces := rfl
@[simp] theorem waitHere_unpaired : (waitHere s).unpaired = s.unpaired := rfl
@[simp] theorem waitHere_msgs : (waitHere s).msgs = s.msgs := rfl
@[simp] theorem waitHere_haltedQuads : (waitHere s).haltedQuads = s.haltedQuads := rfl
@[simp] theorem waitHere_fabric : (waitHere s).fabric = s.fabric := rfl
@[simp] theorem waitHere_mgmt : (waitHere s).mgmt = s.mgmt := rfl
@[simp] theorem waitHere_hostReads : (waitHere s).hostReads = s.hostReads := rfl
@[simp] theorem waitHere_unsupported : (waitHere s).unsupported = s.unsupported := rfl
@[simp] theorem waitHere_nextId : (waitHere s).nextId = s.nextId := rfl
@[simp] theorem waitHere_schedule : (waitHere s).schedule = s.schedule := rfl
@[simp] theorem waitHere_ran : (waitHere s).ran = s.ran := rfl
@[simp] theorem waitHere_free : (waitHere s).free = s.free := rfl
end

/-! Taking a trap (R346). -/
section
variable (s : State) (t : TrapInfo) (e : Word) (l a : Bool)
@[simp] theorem takeTrap_others : (takeTrap t e l a s).others = s.others := by unfold takeTrap; dsimp only; split <;> rfl
@[simp] theorem takeTrap_cores : (takeTrap t e l a s).cores = s.cores := by unfold takeTrap; dsimp only; split <;> rfl
@[simp] theorem takeTrap_ctxs : (takeTrap t e l a s).ctxs = s.ctxs := by unfold takeTrap; dsimp only; split <;> rfl
@[simp] theorem takeTrap_mem : (takeTrap t e l a s).mem = s.mem := by unfold takeTrap; dsimp only; split <;> rfl
@[simp] theorem takeTrap_l2 : (takeTrap t e l a s).l2 = s.l2 := by unfold takeTrap; dsimp only; split <;> rfl
@[simp] theorem takeTrap_hbm : (takeTrap t e l a s).hbm = s.hbm := by unfold takeTrap; dsimp only; split <;> rfl
@[simp] theorem takeTrap_poison : (takeTrap t e l a s).poison = s.poison := by unfold takeTrap; dsimp only; split <;> rfl
@[simp] theorem takeTrap_hbmPoison : (takeTrap t e l a s).hbmPoison = s.hbmPoison := by unfold takeTrap; dsimp only; split <;> rfl
@[simp] theorem takeTrap_ptrLines : (takeTrap t e l a s).ptrLines = s.ptrLines := by unfold takeTrap; dsimp only; split <;> rfl
@[simp] theorem takeTrap_tlb : (takeTrap t e l a s).tlb = s.tlb := by unfold takeTrap; dsimp only; split <;> rfl
@[simp] theorem takeTrap_oldEntries : (takeTrap t e l a s).oldEntries = s.oldEntries := by unfold takeTrap; dsimp only; split <;> rfl
@[simp] theorem takeTrap_walks : (takeTrap t e l a s).walks = s.walks := by unfold takeTrap; dsimp only; split <;> rfl
@[simp] theorem takeTrap_lineWaits : (takeTrap t e l a s).lineWaits = s.lineWaits := by unfold takeTrap; dsimp only; split <;> rfl
@[simp] theorem takeTrap_locks : (takeTrap t e l a s).locks = s.locks := by unfold takeTrap; dsimp only; split <;> rfl
@[simp] theorem takeTrap_launches : (takeTrap t e l a s).launches = s.launches := by unfold takeTrap; dsimp only; split <;> rfl
@[simp] theorem takeTrap_head : (takeTrap t e l a s).head = s.head := by unfold takeTrap; dsimp only; split <;> rfl
@[simp] theorem takeTrap_kept : (takeTrap t e l a s).kept = s.kept := by unfold takeTrap; dsimp only; split <;> rfl
@[simp] theorem takeTrap_saved : (takeTrap t e l a s).saved = s.saved := by unfold takeTrap; dsimp only; split <;> rfl
@[simp] theorem takeTrap_pools : (takeTrap t e l a s).pools = s.pools := by unfold takeTrap; dsimp only; split <;> rfl
@[simp] theorem takeTrap_mergedHarts : (takeTrap t e l a s).mergedHarts = s.mergedHarts := by unfold takeTrap; dsimp only; split <;> rfl
@[simp] theorem takeTrap_cmds : (takeTrap t e l a s).cmds = s.cmds := by unfold takeTrap; dsimp only; split <;> rfl
@[simp] theorem takeTrap_announces : (takeTrap t e l a s).announces = s.announces := by unfold takeTrap; dsimp only; split <;> rfl
@[simp] theorem takeTrap_unpaired : (takeTrap t e l a s).unpaired = s.unpaired := by unfold takeTrap; dsimp only; split <;> rfl
@[simp] theorem takeTrap_msgs : (takeTrap t e l a s).msgs = s.msgs := by unfold takeTrap; dsimp only; split <;> rfl
@[simp] theorem takeTrap_haltedQuads : (takeTrap t e l a s).haltedQuads = s.haltedQuads := by unfold takeTrap; dsimp only; split <;> rfl
@[simp] theorem takeTrap_fabric : (takeTrap t e l a s).fabric = s.fabric := by unfold takeTrap; dsimp only; split <;> rfl
@[simp] theorem takeTrap_mgmt : (takeTrap t e l a s).mgmt = s.mgmt := by unfold takeTrap; dsimp only; split <;> rfl
@[simp] theorem takeTrap_hostReads : (takeTrap t e l a s).hostReads = s.hostReads := by unfold takeTrap; dsimp only; split <;> rfl
@[simp] theorem takeTrap_unsupported : (takeTrap t e l a s).unsupported = s.unsupported := by unfold takeTrap; dsimp only; split <;> rfl
@[simp] theorem takeTrap_nextId : (takeTrap t e l a s).nextId = s.nextId := by unfold takeTrap; dsimp only; split <;> rfl
@[simp] theorem takeTrap_schedule : (takeTrap t e l a s).schedule = s.schedule := by unfold takeTrap; dsimp only; split <;> rfl
@[simp] theorem takeTrap_ran : (takeTrap t e l a s).ran = s.ran := by unfold takeTrap; dsimp only; split <;> rfl
@[simp] theorem takeTrap_free : (takeTrap t e l a s).free = s.free := by unfold takeTrap; dsimp only; split <;> rfl
end

/-! Returning from a trap (R348). -/
section
variable (s : State) 
@[simp] theorem returnFromTrap_others : (returnFromTrap s).others = s.others := by unfold returnFromTrap; dsimp only; split <;> simp
@[simp] theorem returnFromTrap_cores : (returnFromTrap s).cores = s.cores := by unfold returnFromTrap; dsimp only; split <;> simp
@[simp] theorem returnFromTrap_ctxs : (returnFromTrap s).ctxs = s.ctxs := by unfold returnFromTrap; dsimp only; split <;> simp
@[simp] theorem returnFromTrap_mem : (returnFromTrap s).mem = s.mem := by unfold returnFromTrap; dsimp only; split <;> simp
@[simp] theorem returnFromTrap_l2 : (returnFromTrap s).l2 = s.l2 := by unfold returnFromTrap; dsimp only; split <;> simp
@[simp] theorem returnFromTrap_hbm : (returnFromTrap s).hbm = s.hbm := by unfold returnFromTrap; dsimp only; split <;> simp
@[simp] theorem returnFromTrap_poison : (returnFromTrap s).poison = s.poison := by unfold returnFromTrap; dsimp only; split <;> simp
@[simp] theorem returnFromTrap_hbmPoison : (returnFromTrap s).hbmPoison = s.hbmPoison := by unfold returnFromTrap; dsimp only; split <;> simp
@[simp] theorem returnFromTrap_ptrLines : (returnFromTrap s).ptrLines = s.ptrLines := by unfold returnFromTrap; dsimp only; split <;> simp
@[simp] theorem returnFromTrap_tlb : (returnFromTrap s).tlb = s.tlb := by unfold returnFromTrap; dsimp only; split <;> simp
@[simp] theorem returnFromTrap_oldEntries : (returnFromTrap s).oldEntries = s.oldEntries := by unfold returnFromTrap; dsimp only; split <;> simp
@[simp] theorem returnFromTrap_walks : (returnFromTrap s).walks = s.walks := by unfold returnFromTrap; dsimp only; split <;> simp
@[simp] theorem returnFromTrap_lineWaits : (returnFromTrap s).lineWaits = s.lineWaits := by unfold returnFromTrap; dsimp only; split <;> simp
@[simp] theorem returnFromTrap_locks : (returnFromTrap s).locks = s.locks := by unfold returnFromTrap; dsimp only; split <;> simp
@[simp] theorem returnFromTrap_launches : (returnFromTrap s).launches = s.launches := by unfold returnFromTrap; dsimp only; split <;> simp
@[simp] theorem returnFromTrap_head : (returnFromTrap s).head = s.head := by unfold returnFromTrap; dsimp only; split <;> simp
@[simp] theorem returnFromTrap_kept : (returnFromTrap s).kept = s.kept := by unfold returnFromTrap; dsimp only; split <;> simp
@[simp] theorem returnFromTrap_saved : (returnFromTrap s).saved = s.saved := by unfold returnFromTrap; dsimp only; split <;> simp
@[simp] theorem returnFromTrap_pools : (returnFromTrap s).pools = s.pools := by unfold returnFromTrap; dsimp only; split <;> simp
@[simp] theorem returnFromTrap_mergedHarts : (returnFromTrap s).mergedHarts = s.mergedHarts := by unfold returnFromTrap; dsimp only; split <;> simp
@[simp] theorem returnFromTrap_cmds : (returnFromTrap s).cmds = s.cmds := by unfold returnFromTrap; dsimp only; split <;> simp
@[simp] theorem returnFromTrap_announces : (returnFromTrap s).announces = s.announces := by unfold returnFromTrap; dsimp only; split <;> simp
@[simp] theorem returnFromTrap_unpaired : (returnFromTrap s).unpaired = s.unpaired := by unfold returnFromTrap; dsimp only; split <;> simp
@[simp] theorem returnFromTrap_msgs : (returnFromTrap s).msgs = s.msgs := by unfold returnFromTrap; dsimp only; split <;> simp
@[simp] theorem returnFromTrap_haltedQuads : (returnFromTrap s).haltedQuads = s.haltedQuads := by unfold returnFromTrap; dsimp only; split <;> simp
@[simp] theorem returnFromTrap_fabric : (returnFromTrap s).fabric = s.fabric := by unfold returnFromTrap; dsimp only; split <;> simp
@[simp] theorem returnFromTrap_mgmt : (returnFromTrap s).mgmt = s.mgmt := by unfold returnFromTrap; dsimp only; split <;> simp
@[simp] theorem returnFromTrap_hostReads : (returnFromTrap s).hostReads = s.hostReads := by unfold returnFromTrap; dsimp only; split <;> simp
@[simp] theorem returnFromTrap_unsupported : (returnFromTrap s).unsupported = s.unsupported := by unfold returnFromTrap; dsimp only; split <;> simp
@[simp] theorem returnFromTrap_nextId : (returnFromTrap s).nextId = s.nextId := by unfold returnFromTrap; dsimp only; split <;> simp
@[simp] theorem returnFromTrap_schedule : (returnFromTrap s).schedule = s.schedule := by unfold returnFromTrap; dsimp only; split <;> simp
@[simp] theorem returnFromTrap_ran : (returnFromTrap s).ran = s.ran := by unfold returnFromTrap; dsimp only; split <;> simp
@[simp] theorem returnFromTrap_free : (returnFromTrap s).free = s.free := by unfold returnFromTrap; dsimp only; split <;> simp
end

/-! Watches see a write (R229). -/
section
variable (s : State) (l : List Nat)
@[simp] theorem State.noteWrites_cores : (s.noteWrites l).cores = s.cores := rfl
@[simp] theorem State.noteWrites_ctxs : (s.noteWrites l).ctxs = s.ctxs := rfl
@[simp] theorem State.noteWrites_mem : (s.noteWrites l).mem = s.mem := rfl
@[simp] theorem State.noteWrites_l2 : (s.noteWrites l).l2 = s.l2 := rfl
@[simp] theorem State.noteWrites_hbm : (s.noteWrites l).hbm = s.hbm := rfl
@[simp] theorem State.noteWrites_poison : (s.noteWrites l).poison = s.poison := rfl
@[simp] theorem State.noteWrites_hbmPoison : (s.noteWrites l).hbmPoison = s.hbmPoison := rfl
@[simp] theorem State.noteWrites_ptrLines : (s.noteWrites l).ptrLines = s.ptrLines := rfl
@[simp] theorem State.noteWrites_tlb : (s.noteWrites l).tlb = s.tlb := rfl
@[simp] theorem State.noteWrites_oldEntries : (s.noteWrites l).oldEntries = s.oldEntries := rfl
@[simp] theorem State.noteWrites_walks : (s.noteWrites l).walks = s.walks := rfl
@[simp] theorem State.noteWrites_lineWaits : (s.noteWrites l).lineWaits = s.lineWaits := rfl
@[simp] theorem State.noteWrites_locks : (s.noteWrites l).locks = s.locks := rfl
@[simp] theorem State.noteWrites_launches : (s.noteWrites l).launches = s.launches := rfl
@[simp] theorem State.noteWrites_head : (s.noteWrites l).head = s.head := rfl
@[simp] theorem State.noteWrites_kept : (s.noteWrites l).kept = s.kept := rfl
@[simp] theorem State.noteWrites_saved : (s.noteWrites l).saved = s.saved := rfl
@[simp] theorem State.noteWrites_pools : (s.noteWrites l).pools = s.pools := rfl
@[simp] theorem State.noteWrites_mergedHarts : (s.noteWrites l).mergedHarts = s.mergedHarts := rfl
@[simp] theorem State.noteWrites_cmds : (s.noteWrites l).cmds = s.cmds := rfl
@[simp] theorem State.noteWrites_announces : (s.noteWrites l).announces = s.announces := rfl
@[simp] theorem State.noteWrites_unpaired : (s.noteWrites l).unpaired = s.unpaired := rfl
@[simp] theorem State.noteWrites_msgs : (s.noteWrites l).msgs = s.msgs := rfl
@[simp] theorem State.noteWrites_haltedQuads : (s.noteWrites l).haltedQuads = s.haltedQuads := rfl
@[simp] theorem State.noteWrites_mgmt : (s.noteWrites l).mgmt = s.mgmt := rfl
@[simp] theorem State.noteWrites_hostReads : (s.noteWrites l).hostReads = s.hostReads := rfl
@[simp] theorem State.noteWrites_unsupported : (s.noteWrites l).unsupported = s.unsupported := rfl
@[simp] theorem State.noteWrites_nextId : (s.noteWrites l).nextId = s.nextId := rfl
@[simp] theorem State.noteWrites_schedule : (s.noteWrites l).schedule = s.schedule := rfl
@[simp] theorem State.noteWrites_ran : (s.noteWrites l).ran = s.ran := rfl
@[simp] theorem State.noteWrites_free : (s.noteWrites l).free = s.free := rfl
end

/-! A recall of dirty bytes (R257). -/
section
variable (s : State) (k : Nat)
@[simp] theorem State.drawBack_hart : (s.drawBack k).hart = s.hart := by unfold State.drawBack; split <;> rfl
@[simp] theorem State.drawBack_others : (s.drawBack k).others = s.others := by unfold State.drawBack; split <;> rfl
@[simp] theorem State.drawBack_cores : (s.drawBack k).cores = s.cores := by unfold State.drawBack; split <;> rfl
@[simp] theorem State.drawBack_ctxs : (s.drawBack k).ctxs = s.ctxs := by unfold State.drawBack; split <;> rfl
@[simp] theorem State.drawBack_mem : (s.drawBack k).mem = s.mem := by unfold State.drawBack; split <;> rfl
@[simp] theorem State.drawBack_hbm : (s.drawBack k).hbm = s.hbm := by unfold State.drawBack; split <;> rfl
@[simp] theorem State.drawBack_poison : (s.drawBack k).poison = s.poison := by unfold State.drawBack; split <;> rfl
@[simp] theorem State.drawBack_hbmPoison : (s.drawBack k).hbmPoison = s.hbmPoison := by unfold State.drawBack; split <;> rfl
@[simp] theorem State.drawBack_ptrLines : (s.drawBack k).ptrLines = s.ptrLines := by unfold State.drawBack; split <;> rfl
@[simp] theorem State.drawBack_tlb : (s.drawBack k).tlb = s.tlb := by unfold State.drawBack; split <;> rfl
@[simp] theorem State.drawBack_oldEntries : (s.drawBack k).oldEntries = s.oldEntries := by unfold State.drawBack; split <;> rfl
@[simp] theorem State.drawBack_walks : (s.drawBack k).walks = s.walks := by unfold State.drawBack; split <;> rfl
@[simp] theorem State.drawBack_lineWaits : (s.drawBack k).lineWaits = s.lineWaits := by unfold State.drawBack; split <;> rfl
@[simp] theorem State.drawBack_locks : (s.drawBack k).locks = s.locks := by unfold State.drawBack; split <;> rfl
@[simp] theorem State.drawBack_launches : (s.drawBack k).launches = s.launches := by unfold State.drawBack; split <;> rfl
@[simp] theorem State.drawBack_head : (s.drawBack k).head = s.head := by unfold State.drawBack; split <;> rfl
@[simp] theorem State.drawBack_kept : (s.drawBack k).kept = s.kept := by unfold State.drawBack; split <;> rfl
@[simp] theorem State.drawBack_saved : (s.drawBack k).saved = s.saved := by unfold State.drawBack; split <;> rfl
@[simp] theorem State.drawBack_pools : (s.drawBack k).pools = s.pools := by unfold State.drawBack; split <;> rfl
@[simp] theorem State.drawBack_mergedHarts : (s.drawBack k).mergedHarts = s.mergedHarts := by unfold State.drawBack; split <;> rfl
@[simp] theorem State.drawBack_cmds : (s.drawBack k).cmds = s.cmds := by unfold State.drawBack; split <;> rfl
@[simp] theorem State.drawBack_announces : (s.drawBack k).announces = s.announces := by unfold State.drawBack; split <;> rfl
@[simp] theorem State.drawBack_unpaired : (s.drawBack k).unpaired = s.unpaired := by unfold State.drawBack; split <;> rfl
@[simp] theorem State.drawBack_msgs : (s.drawBack k).msgs = s.msgs := by unfold State.drawBack; split <;> rfl
@[simp] theorem State.drawBack_haltedQuads : (s.drawBack k).haltedQuads = s.haltedQuads := by unfold State.drawBack; split <;> rfl
@[simp] theorem State.drawBack_fabric : (s.drawBack k).fabric = s.fabric := by unfold State.drawBack; split <;> rfl
@[simp] theorem State.drawBack_mgmt : (s.drawBack k).mgmt = s.mgmt := by unfold State.drawBack; split <;> rfl
@[simp] theorem State.drawBack_hostReads : (s.drawBack k).hostReads = s.hostReads := by unfold State.drawBack; split <;> rfl
@[simp] theorem State.drawBack_unsupported : (s.drawBack k).unsupported = s.unsupported := by unfold State.drawBack; split <;> rfl
@[simp] theorem State.drawBack_nextId : (s.drawBack k).nextId = s.nextId := by unfold State.drawBack; split <;> rfl
@[simp] theorem State.drawBack_schedule : (s.drawBack k).schedule = s.schedule := by unfold State.drawBack; split <;> rfl
@[simp] theorem State.drawBack_ran : (s.drawBack k).ran = s.ran := by unfold State.drawBack; split <;> rfl
@[simp] theorem State.drawBack_free : (s.drawBack k).free = s.free := by unfold State.drawBack; split <;> rfl
end

/-! A scalar store (R256). -/
section
variable (s : State) (k n v : Nat)
@[simp] theorem State.storeScalar_cores : (s.storeScalar k n v).cores = s.cores := rfl
@[simp] theorem State.storeScalar_ctxs : (s.storeScalar k n v).ctxs = s.ctxs := rfl
@[simp] theorem State.storeScalar_l2 : (s.storeScalar k n v).l2 = s.l2 := rfl
@[simp] theorem State.storeScalar_hbm : (s.storeScalar k n v).hbm = s.hbm := rfl
@[simp] theorem State.storeScalar_poison : (s.storeScalar k n v).poison = s.poison := rfl
@[simp] theorem State.storeScalar_hbmPoison : (s.storeScalar k n v).hbmPoison = s.hbmPoison := rfl
@[simp] theorem State.storeScalar_ptrLines : (s.storeScalar k n v).ptrLines = s.ptrLines := rfl
@[simp] theorem State.storeScalar_tlb : (s.storeScalar k n v).tlb = s.tlb := rfl
@[simp] theorem State.storeScalar_walks : (s.storeScalar k n v).walks = s.walks := rfl
@[simp] theorem State.storeScalar_lineWaits : (s.storeScalar k n v).lineWaits = s.lineWaits := rfl
@[simp] theorem State.storeScalar_locks : (s.storeScalar k n v).locks = s.locks := rfl
@[simp] theorem State.storeScalar_launches : (s.storeScalar k n v).launches = s.launches := rfl
@[simp] theorem State.storeScalar_head : (s.storeScalar k n v).head = s.head := rfl
@[simp] theorem State.storeScalar_kept : (s.storeScalar k n v).kept = s.kept := rfl
@[simp] theorem State.storeScalar_saved : (s.storeScalar k n v).saved = s.saved := rfl
@[simp] theorem State.storeScalar_pools : (s.storeScalar k n v).pools = s.pools := rfl
@[simp] theorem State.storeScalar_mergedHarts : (s.storeScalar k n v).mergedHarts = s.mergedHarts := rfl
@[simp] theorem State.storeScalar_cmds : (s.storeScalar k n v).cmds = s.cmds := rfl
@[simp] theorem State.storeScalar_announces : (s.storeScalar k n v).announces = s.announces := rfl
@[simp] theorem State.storeScalar_unpaired : (s.storeScalar k n v).unpaired = s.unpaired := rfl
@[simp] theorem State.storeScalar_msgs : (s.storeScalar k n v).msgs = s.msgs := rfl
@[simp] theorem State.storeScalar_haltedQuads : (s.storeScalar k n v).haltedQuads = s.haltedQuads := rfl
@[simp] theorem State.storeScalar_mgmt : (s.storeScalar k n v).mgmt = s.mgmt := rfl
@[simp] theorem State.storeScalar_hostReads : (s.storeScalar k n v).hostReads = s.hostReads := rfl
@[simp] theorem State.storeScalar_unsupported : (s.storeScalar k n v).unsupported = s.unsupported := rfl
@[simp] theorem State.storeScalar_nextId : (s.storeScalar k n v).nextId = s.nextId := rfl
@[simp] theorem State.storeScalar_schedule : (s.storeScalar k n v).schedule = s.schedule := rfl
@[simp] theorem State.storeScalar_ran : (s.storeScalar k n v).ran = s.ran := rfl
@[simp] theorem State.storeScalar_free : (s.storeScalar k n v).free = s.free := rfl
end

/-! A write to the L2 (R257). -/
section
variable (s : State) (k n v : Nat)
@[simp] theorem State.storeDirect_cores : (s.storeDirect k n v).cores = s.cores := by simp [State.storeDirect, State.setMem]
@[simp] theorem State.storeDirect_ctxs : (s.storeDirect k n v).ctxs = s.ctxs := by simp [State.storeDirect, State.setMem]
@[simp] theorem State.storeDirect_hbm : (s.storeDirect k n v).hbm = s.hbm := by simp [State.storeDirect, State.setMem]
@[simp] theorem State.storeDirect_poison : (s.storeDirect k n v).poison = s.poison := by simp [State.storeDirect, State.setMem]
@[simp] theorem State.storeDirect_hbmPoison : (s.storeDirect k n v).hbmPoison = s.hbmPoison := by simp [State.storeDirect, State.setMem]
@[simp] theorem State.storeDirect_ptrLines : (s.storeDirect k n v).ptrLines = s.ptrLines := by simp [State.storeDirect, State.setMem]
@[simp] theorem State.storeDirect_tlb : (s.storeDirect k n v).tlb = s.tlb := by simp [State.storeDirect, State.setMem]
@[simp] theorem State.storeDirect_walks : (s.storeDirect k n v).walks = s.walks := by simp [State.storeDirect, State.setMem]
@[simp] theorem State.storeDirect_lineWaits : (s.storeDirect k n v).lineWaits = s.lineWaits := by simp [State.storeDirect, State.setMem]
@[simp] theorem State.storeDirect_locks : (s.storeDirect k n v).locks = s.locks := by simp [State.storeDirect, State.setMem]
@[simp] theorem State.storeDirect_launches : (s.storeDirect k n v).launches = s.launches := by simp [State.storeDirect, State.setMem]
@[simp] theorem State.storeDirect_head : (s.storeDirect k n v).head = s.head := by simp [State.storeDirect, State.setMem]
@[simp] theorem State.storeDirect_kept : (s.storeDirect k n v).kept = s.kept := by simp [State.storeDirect, State.setMem]
@[simp] theorem State.storeDirect_saved : (s.storeDirect k n v).saved = s.saved := by simp [State.storeDirect, State.setMem]
@[simp] theorem State.storeDirect_pools : (s.storeDirect k n v).pools = s.pools := by simp [State.storeDirect, State.setMem]
@[simp] theorem State.storeDirect_mergedHarts : (s.storeDirect k n v).mergedHarts = s.mergedHarts := by simp [State.storeDirect, State.setMem]
@[simp] theorem State.storeDirect_cmds : (s.storeDirect k n v).cmds = s.cmds := by simp [State.storeDirect, State.setMem]
@[simp] theorem State.storeDirect_announces : (s.storeDirect k n v).announces = s.announces := by simp [State.storeDirect, State.setMem]
@[simp] theorem State.storeDirect_unpaired : (s.storeDirect k n v).unpaired = s.unpaired := by simp [State.storeDirect, State.setMem]
@[simp] theorem State.storeDirect_msgs : (s.storeDirect k n v).msgs = s.msgs := by simp [State.storeDirect, State.setMem]
@[simp] theorem State.storeDirect_haltedQuads : (s.storeDirect k n v).haltedQuads = s.haltedQuads := by simp [State.storeDirect, State.setMem]
@[simp] theorem State.storeDirect_mgmt : (s.storeDirect k n v).mgmt = s.mgmt := by simp [State.storeDirect, State.setMem]
@[simp] theorem State.storeDirect_hostReads : (s.storeDirect k n v).hostReads = s.hostReads := by simp [State.storeDirect, State.setMem]
@[simp] theorem State.storeDirect_unsupported : (s.storeDirect k n v).unsupported = s.unsupported := by simp [State.storeDirect, State.setMem]
@[simp] theorem State.storeDirect_nextId : (s.storeDirect k n v).nextId = s.nextId := by simp [State.storeDirect, State.setMem]
@[simp] theorem State.storeDirect_schedule : (s.storeDirect k n v).schedule = s.schedule := by simp [State.storeDirect, State.setMem]
@[simp] theorem State.storeDirect_ran : (s.storeDirect k n v).ran = s.ran := by simp [State.storeDirect, State.setMem]
@[simp] theorem State.storeDirect_free : (s.storeDirect k n v).free = s.free := by simp [State.storeDirect, State.setMem]
end

/-! A poisoned sector (R261). -/
section
variable (s : State) (q : Nat)
@[simp] theorem State.addPoison_hart : (s.addPoison q).hart = s.hart := rfl
@[simp] theorem State.addPoison_others : (s.addPoison q).others = s.others := rfl
@[simp] theorem State.addPoison_cores : (s.addPoison q).cores = s.cores := rfl
@[simp] theorem State.addPoison_ctxs : (s.addPoison q).ctxs = s.ctxs := rfl
@[simp] theorem State.addPoison_mem : (s.addPoison q).mem = s.mem := rfl
@[simp] theorem State.addPoison_l2 : (s.addPoison q).l2 = s.l2 := rfl
@[simp] theorem State.addPoison_hbm : (s.addPoison q).hbm = s.hbm := rfl
@[simp] theorem State.addPoison_hbmPoison : (s.addPoison q).hbmPoison = s.hbmPoison := rfl
@[simp] theorem State.addPoison_ptrLines : (s.addPoison q).ptrLines = s.ptrLines := rfl
@[simp] theorem State.addPoison_tlb : (s.addPoison q).tlb = s.tlb := rfl
@[simp] theorem State.addPoison_oldEntries : (s.addPoison q).oldEntries = s.oldEntries := rfl
@[simp] theorem State.addPoison_walks : (s.addPoison q).walks = s.walks := rfl
@[simp] theorem State.addPoison_lineWaits : (s.addPoison q).lineWaits = s.lineWaits := rfl
@[simp] theorem State.addPoison_locks : (s.addPoison q).locks = s.locks := rfl
@[simp] theorem State.addPoison_launches : (s.addPoison q).launches = s.launches := rfl
@[simp] theorem State.addPoison_head : (s.addPoison q).head = s.head := rfl
@[simp] theorem State.addPoison_kept : (s.addPoison q).kept = s.kept := rfl
@[simp] theorem State.addPoison_saved : (s.addPoison q).saved = s.saved := rfl
@[simp] theorem State.addPoison_pools : (s.addPoison q).pools = s.pools := rfl
@[simp] theorem State.addPoison_mergedHarts : (s.addPoison q).mergedHarts = s.mergedHarts := rfl
@[simp] theorem State.addPoison_cmds : (s.addPoison q).cmds = s.cmds := rfl
@[simp] theorem State.addPoison_announces : (s.addPoison q).announces = s.announces := rfl
@[simp] theorem State.addPoison_unpaired : (s.addPoison q).unpaired = s.unpaired := rfl
@[simp] theorem State.addPoison_msgs : (s.addPoison q).msgs = s.msgs := rfl
@[simp] theorem State.addPoison_haltedQuads : (s.addPoison q).haltedQuads = s.haltedQuads := rfl
@[simp] theorem State.addPoison_fabric : (s.addPoison q).fabric = s.fabric := rfl
@[simp] theorem State.addPoison_mgmt : (s.addPoison q).mgmt = s.mgmt := rfl
@[simp] theorem State.addPoison_hostReads : (s.addPoison q).hostReads = s.hostReads := rfl
@[simp] theorem State.addPoison_unsupported : (s.addPoison q).unsupported = s.unsupported := rfl
@[simp] theorem State.addPoison_nextId : (s.addPoison q).nextId = s.nextId := rfl
@[simp] theorem State.addPoison_schedule : (s.addPoison q).schedule = s.schedule := rfl
@[simp] theorem State.addPoison_ran : (s.addPoison q).ran = s.ran := rfl
@[simp] theorem State.addPoison_free : (s.addPoison q).free = s.free := rfl
end

/-! Poison cleared (R143). -/
section
variable (s : State) (l : List Nat)
@[simp] theorem State.clearPoison_hart : (s.clearPoison l).hart = s.hart := rfl
@[simp] theorem State.clearPoison_others : (s.clearPoison l).others = s.others := rfl
@[simp] theorem State.clearPoison_cores : (s.clearPoison l).cores = s.cores := rfl
@[simp] theorem State.clearPoison_ctxs : (s.clearPoison l).ctxs = s.ctxs := rfl
@[simp] theorem State.clearPoison_mem : (s.clearPoison l).mem = s.mem := rfl
@[simp] theorem State.clearPoison_l2 : (s.clearPoison l).l2 = s.l2 := rfl
@[simp] theorem State.clearPoison_hbm : (s.clearPoison l).hbm = s.hbm := rfl
@[simp] theorem State.clearPoison_hbmPoison : (s.clearPoison l).hbmPoison = s.hbmPoison := rfl
@[simp] theorem State.clearPoison_ptrLines : (s.clearPoison l).ptrLines = s.ptrLines := rfl
@[simp] theorem State.clearPoison_tlb : (s.clearPoison l).tlb = s.tlb := rfl
@[simp] theorem State.clearPoison_oldEntries : (s.clearPoison l).oldEntries = s.oldEntries := rfl
@[simp] theorem State.clearPoison_walks : (s.clearPoison l).walks = s.walks := rfl
@[simp] theorem State.clearPoison_lineWaits : (s.clearPoison l).lineWaits = s.lineWaits := rfl
@[simp] theorem State.clearPoison_locks : (s.clearPoison l).locks = s.locks := rfl
@[simp] theorem State.clearPoison_launches : (s.clearPoison l).launches = s.launches := rfl
@[simp] theorem State.clearPoison_head : (s.clearPoison l).head = s.head := rfl
@[simp] theorem State.clearPoison_kept : (s.clearPoison l).kept = s.kept := rfl
@[simp] theorem State.clearPoison_saved : (s.clearPoison l).saved = s.saved := rfl
@[simp] theorem State.clearPoison_pools : (s.clearPoison l).pools = s.pools := rfl
@[simp] theorem State.clearPoison_mergedHarts : (s.clearPoison l).mergedHarts = s.mergedHarts := rfl
@[simp] theorem State.clearPoison_cmds : (s.clearPoison l).cmds = s.cmds := rfl
@[simp] theorem State.clearPoison_announces : (s.clearPoison l).announces = s.announces := rfl
@[simp] theorem State.clearPoison_unpaired : (s.clearPoison l).unpaired = s.unpaired := rfl
@[simp] theorem State.clearPoison_msgs : (s.clearPoison l).msgs = s.msgs := rfl
@[simp] theorem State.clearPoison_haltedQuads : (s.clearPoison l).haltedQuads = s.haltedQuads := rfl
@[simp] theorem State.clearPoison_fabric : (s.clearPoison l).fabric = s.fabric := rfl
@[simp] theorem State.clearPoison_mgmt : (s.clearPoison l).mgmt = s.mgmt := rfl
@[simp] theorem State.clearPoison_hostReads : (s.clearPoison l).hostReads = s.hostReads := rfl
@[simp] theorem State.clearPoison_unsupported : (s.clearPoison l).unsupported = s.unsupported := rfl
@[simp] theorem State.clearPoison_nextId : (s.clearPoison l).nextId = s.nextId := rfl
@[simp] theorem State.clearPoison_schedule : (s.clearPoison l).schedule = s.schedule := rfl
@[simp] theorem State.clearPoison_ran : (s.clearPoison l).ran = s.ran := rfl
@[simp] theorem State.clearPoison_free : (s.clearPoison l).free = s.free := rfl
end

/-! ### The fields that are written -/

@[simp] theorem State.setS_hart (s : State) (r : SReg) (v : Word) : (s.setS r v).hart = s.hart.setS r v := rfl
@[simp] theorem retire_hart (s : State) (n : Nat) : (retire n s).hart = s.hart.advance n (s.hart.pc + BitVec.ofNat 64 n) := rfl
@[simp] theorem retireTo_hart (s : State) (p : Word) : (retireTo p s).hart = s.hart.advance 4 p := rfl
@[simp] theorem waitHere_hart (s : State) : (waitHere s).hart = { s.hart with waiting := true } := rfl
@[simp] theorem Hart.vdone_vstart (h : Hart) : h.vdone.vstart = 0 := rfl
@[simp] theorem Hart.setTag_vtags (h : Hart) (r : VIdx) (t : Tag) : (h.setTag r t).vtags = h.vtags.set r t := rfl
@[simp] theorem Hart.setTile_tiles (h : Hart) (t : TIdx) (v : BitVec Config.tileBits) : (h.setTile t v).tiles = h.tiles.set t v := rfl
@[simp] theorem State.setCtx_ctxs (s : State) (c : Context) : (s.setCtx c).ctxs = s.ctxs.set s.hart.ctx c := rfl
@[simp] theorem State.setCore_cores (s : State) (c : Core) : (s.setCore c).cores = s.cores.set s.hart.place.core c := rfl
@[simp] theorem State.storeScalar_mem (s : State) (k n v : Nat) : (s.storeScalar k n v).mem = s.mem.write k n v := rfl
@[simp] theorem State.storeDirect_mem (s : State) (k n v : Nat) : (s.storeDirect k n v).mem = s.mem.write k n v := by
  simp [State.storeDirect, State.setMem]

/-! ### Scalar registers (R10) -/

@[simp] theorem Hart.getS_zero (h : Hart) : h.getS 0 = 0 := rfl
@[simp] theorem State.getS_zero (s : State) : s.getS 0 = 0 := rfl

/-- An entry of a vector reads as written, and every other as before. -/
theorem vget_set {α : Type} {n : Nat} (v : Vector α n) (i j : Fin n) (x : α) :
    (v.set i x).get j = if j = i then x else v.get j := by
  show (v.set i x)[j.val] = if j = i then x else v[j.val]
  rw [Vector.getElem_set]
  by_cases h : i.val = j.val
  · rw [if_pos h, if_pos (Fin.ext h.symm)]
  · rw [if_neg h, if_neg (fun e => h (congrArg Fin.val e.symm))]

/-- A register reads as written, s0 reads zero, and every other register reads as before. -/
theorem Hart.getS_setS (h : Hart) (d r : SReg) (v : Word) :
    (h.setS d v).getS r = if r = d then (if d = 0 then 0 else v) else h.getS r := by
  unfold Hart.getS Hart.setS
  by_cases hd : d = 0
  · subst hd
    by_cases hr : r = 0 <;> simp [hr]
  · rw [if_neg hd]
    by_cases hr : r = 0
    · subst hr; simp [Ne.symm hd]
    · simp only [hr, if_false, vget_set, hd]

@[simp] theorem Hart.setS_zero (h : Hart) (v : Word) : h.setS 0 v = h := rfl
@[simp] theorem State.setS_zero (s : State) (v : Word) : s.setS 0 v = s := rfl
theorem State.getS_setS (s : State) (d r : SReg) (v : Word) :
    (s.setS d v).getS r = if r = d then (if d = 0 then 0 else v) else s.getS r := s.hart.getS_setS d r v

end Sys2Proof.Machine
end

