-- ==== Sys2Proof/Laws/Ops.lean ====
section
/-! SUPPORT. The shared operations, each in one place: how work runs and ends, bank checks, operand checks, and the addresses that
bare mode reaches. -/
namespace Sys2Proof.Machine
open Sys2Proof Sys2Proof.Safety

section
variable {α β : Type} (s : State)

/-! ### Running work -/

@[simp] theorem run_bind (m : M α) (f : α → M β) : (m >>= f) s = match m s with
    | .ok a s' => f a s'
    | .error e s' => .error e s' := by
  show EStateM.bind m f s = _
  unfold EStateM.bind
  cases m s <;> rfl
@[simp] theorem run_map (f : α → β) (m : M α) : (f <$> m) s = match m s with
    | .ok a s' => .ok (f a) s'
    | .error e s' => .error e s' := by
  show EStateM.map f m s = _
  unfold EStateM.map
  cases m s <;> rfl
@[simp] theorem run_pure (a : α) : (pure a : M α) s = .ok a s := rfl
@[simp] theorem run_get : (get : M State) s = .ok s s := rfl
@[simp] theorem run_modify (f : State → State) : (modify f : M PUnit) s = .ok () (f s) := rfl
@[simp] theorem run_set (t : State) : (set t : M PUnit) s = .ok () t := rfl
theorem run_ite (c : Prop) [Decidable c] (m n : M α) : (if c then m else n) s = if c then m s else n s := by split <;> rfl
@[simp] theorem run_throw (e : Exc) : (throw e : M α) s = .error e s := rfl
@[simp] theorem run_raise (c : Cause) (e : Word) (k : AccessKind) : (raise c e k : M α) s = .error (.trap ⟨c, e, k⟩) s := rfl
@[simp] theorem run_raiseIf_false (c : Cause) (e : Word) (k : AccessKind) : raiseIf false c e k s = .ok () s := rfl
@[simp] theorem run_raiseIf_true (c : Cause) (e : Word) (k : AccessKind) :
    raiseIf true c e k s = .error (.trap ⟨c, e, k⟩) s := rfl
@[simp] theorem run_waitIf_false : waitIf false s = .ok () s := rfl
@[simp] theorem run_waitIf_true : waitIf true s = .error .wait s := rfl
@[simp] theorem run_operandIf_false : operandIf false s = .ok () s := rfl
@[simp] theorem run_operandIf_true : operandIf true s = .error (.trap ⟨.operand, 0, .none⟩) s := rfl
@[simp] theorem run_illegalIf_false (i : Instr) : illegalIf false i s = .ok () s := rfl
@[simp] theorem run_illegalIf_true (i : Instr) : illegalIf true i s = .error (.trap ⟨.illegal, firstParcel i, .none⟩) s := rfl
@[simp] theorem run_illegal (i : Instr) : (illegal i : M α) s = .error (.trap ⟨.illegal, firstParcel i, .none⟩) s := rfl
@[simp] theorem run_onHart (f : Hart → Hart) : onHart f s = .ok () { s with hart := f s.hart } := rfl
@[simp] theorem run_takeFree : takeFree s = .ok s.free { s with free := s.free + 1 } := rfl

end

section
variable {s s' : State} {len : Nat} {ldst : Bool} {m : M Unit}

/-- Work that completes ends its instruction. -/
theorem finish_ok (h : m s = .ok () s') : finish len ldst m s = .next (retire len s') := by
  unfold finish; rw [h]
/-- Work that leaves with a reason ends as that reason says. -/
theorem finish_error {e : Exc} (h : m s = .error e s') : finish len ldst m s = .next (leave e ldst s s') := by
  unfold finish; rw [h]
/-- Every instruction whose work is given answers a next state: it stops for no fault and no refusal. -/
theorem finish_next (len : Nat) (ldst : Bool) (m : M Unit) (s : State) : ∃ t, finish len ldst m s = .next t := by
  unfold finish
  cases m s with
  | ok _ s' => exact ⟨_, rfl⟩
  | error e s' => exact ⟨_, rfl⟩
theorem finishAt_ok (h : m s = .ok () s') : finishAt m s = .next s' := by
  unfold finishAt; rw [h]

end

/-! ### Banks and operands -/

theorem faults_on {h : Hart} (hb : BanksOn h) (r : VIdx) : h.faults r = false := by
  simp [Hart.faults, hb (bankOf r)]
theorem wake_on {h : Hart} (hb : BanksOn h) (r : VIdx) : h.wake r = h := by
  simp [Hart.wake, hb (bankOf r)]
/-- With every bank on the bank check does nothing. -/
theorem touch_on {s : State} (hb : BanksOn s.hart) (rs : List VIdx) : touch rs s = .ok () s := by
  have hf : rs.filter s.hart.faults = [] := by
    rw [List.filter_eq_nil_iff]; intro r _; simp [faults_on hb r]
  have hw : rs.foldl Hart.wake s.hart = s.hart := by
    induction rs with
    | nil => rfl
    | cons r t ih =>
      rw [List.foldl_cons, wake_on hb r]
      apply ih
      rw [List.filter_eq_nil_iff]; intro r _; simp [faults_on hb r]
  simp [touch, hf, hw]

/-- The checks of R100 pass where vl and the mask fit. -/
theorem checkAlu_ok {s : State} {vd : VIdx} {ts : List Tag} {t : Tag} {m : Bool} (h1 : s.hart.vlFits ts = true)
    (h2 : s.hart.vlFits [t] = true) (h3 : m = true → s.hart.maskFits = true) (h4 : e8m0Ok vd t = true) :
    checkAlu vd ts t m s = .ok () s := by
  cases m <;> simp_all [checkAlu]

/-! ### Bare mode (R327, R366, R368) -/

theorem home_local {s : State} {pa : Nat} (h : pa < localTop) : s.home pa 0 0 = some (packageHome pa) := by
  unfold State.home
  have h0 : localTop < 2 ^ 55 := by decide
  rw [if_neg (by omega), if_neg (by omega)]
  simp [h]

theorem packageHome_cell (pa : Nat) : ∃ die, packageHome pa = .cell (localKey pa) die := ⟨_, rfl⟩

/-- The state whose instruction holds one translation more. -/
def State.holding (s : State) (va : Word) (acc : Access) (t : Target) : State :=
  { s with hart := { s.hart with held := ⟨va, acc, t⟩ :: s.hart.held } }

/-- An instruction that has not begun holds no translation. -/
theorem heldFor_none {h : Hart} (va : Word) (acc : Access) (hu : h.underway = false) (hb : h.begun = none) : h.heldFor va acc = none := by
  simp [Hart.heldFor, hu, hb]

/-- In bare mode an address of local memory reaches its home, and nothing changes but the translation that the instruction holds. -/
theorem resolve_bare {s : State} {va : Word} (acc : Access) (hu : s.hart.heldFor va acc = none) (hb : Bare s va) (h : va.toNat < localTop) :
    resolve va acc s = .ok ⟨va, packageHome va.toNat, false, false, va.toNat, 0, none⟩
      (s.holding va acc ⟨va, packageHome va.toNat, false, false, va.toNat, 0, none⟩) := by
  obtain ⟨die, hd⟩ := packageHome_cell va.toNat
  have hl : lookupAs s.hart.place.core s.ctx.swin s.ctx.vatp s.hart.mode va acc s
      = .ok ⟨va, packageHome va.toNat, false, false, va.toNat, 0, none⟩ s := by
    simp only [lookupAs, hb.2, translate, run_bind, run_get, hb.1, if_true, home_local h, run_pure, guardMgmt, hd]
    rfl
  simp only [resolve, lookup, run_bind, run_get, hu, hl, run_modify, run_pure]
  simp [useLeaf, State.holding]

end Sys2Proof.Machine
end

