-- ==== Sys2Proof/Laws/Elements.lean ====
section
/-! SUPPORT. Elements of vector registers: they lie apart, read back as written, and a write of some leaves the others. -/
namespace Sys2Proof.Machine
open Sys2Proof Sys2Proof.Safety

/-! ### Fields of bits -/

theorem testBit_setBits (r p w v i : Nat) :
    (setBits r p w v).testBit i = if i < p then r.testBit i else if i < p + w then v.testBit (i - p) else r.testBit i := by
  unfold setBits
  rw [Nat.mul_comm _ (2 ^ p), Nat.testBit_two_pow_mul_add _ (Nat.mod_lt _ (by positivity))]
  by_cases h1 : i < p
  · simp [h1]
  · rw [if_neg h1, if_neg h1, Nat.mul_comm _ (2 ^ w), Nat.testBit_two_pow_mul_add _ (Nat.mod_lt _ (by positivity))]
    by_cases h2 : i < p + w
    · rw [if_pos (by omega), if_pos h2, Nat.testBit_mod_two_pow]
      simp; omega
    · rw [if_neg (by omega), if_neg h2, Nat.testBit_div_two_pow]
      congr 1; omega

theorem testBit_getBits (r p w i : Nat) : (getBits r p w).testBit i = (decide (i < w) && r.testBit (p + i)) := by
  unfold getBits
  rw [Nat.testBit_mod_two_pow, Nat.testBit_div_two_pow, Nat.add_comm]

/-- A field reads back as its low bits. -/
theorem getBits_setBits_same (r p w v : Nat) : getBits (setBits r p w v) p w = v % 2 ^ w := by
  apply Nat.eq_of_testBit_eq
  intro i
  rw [testBit_getBits, testBit_setBits, Nat.testBit_mod_two_pow]
  by_cases h : i < w
  · rw [if_neg (by omega), if_pos (by omega)]
    simp [h]
  · simp [h]

/-- A field apart from the one written reads as before. -/
theorem getBits_setBits_apart (r p w v p' w' : Nat) (h : p' + w' ≤ p ∨ p + w ≤ p') :
    getBits (setBits r p w v) p' w' = getBits r p' w' := by
  apply Nat.eq_of_testBit_eq
  intro i
  rw [testBit_getBits, testBit_getBits, testBit_setBits]
  by_cases hi : i < w'
  · rcases h with h | h
    · rw [if_pos (by omega)]
    · rw [if_neg (by omega), if_neg (by omega)]
  · simp [hi]

/-- A field inside the low bits reads alike from the whole and from those bits. -/
theorem getBits_mod (r p w n : Nat) (h : p + w ≤ n) : getBits (r % 2 ^ n) p w = getBits r p w := by
  apply Nat.eq_of_testBit_eq
  intro i
  rw [testBit_getBits, testBit_getBits, Nat.testBit_mod_two_pow]
  by_cases hi : i < w
  · simp [show p + i < n by omega]
  · simp [hi]

/-! ### Where elements lie (R11, R13, R14) -/

/-- The widths that tags have (R12). -/
def IsWidth (w : Nat) : Prop := w = 2 ∨ w = 4 ∨ w = 8 ∨ w = 16 ∨ w = 32 ∨ w = 64

theorem isWidth_width (t : Tag) : IsWidth (width t) := by
  cases t <;> simp [IsWidth, width]

/-- The partition counts (R21). -/
def IsParts (P : Nat) : Prop := P = 1 ∨ P = 2 ∨ P = 4 ∨ P = 8

theorem isParts_parts (h : Hart) : IsParts h.parts := by
  unfold Hart.parts IsParts
  have := h.vcfg.plog.isLt
  generalize h.vcfg.plog.val = n at *
  interval_cases n <;> simp

/-- An element lies within its register. -/
theorem elemPos_le {P w i : Nat} (hP : IsParts P) (hw : IsWidth w) (hi : i < vlmaxW P w) :
    elemPos P w i + w ≤ Config.vregBits := by
  rcases hP with rfl | rfl | rfl | rfl <;> rcases hw with rfl | rfl | rfl | rfl | rfl | rfl <;>
    (simp only [vlmaxW, elemPos, Config.vregBits] at *; omega)

/-- Places by lane and slot lie apart: `L` lanes a group, `S` slots of `w` bits a lane. -/
theorem place_apart {L S w i j : Nat} (hL : 0 < L) (hS : S * w = 2048) (h : i ≠ j) :
    let pos (k : Nat) := (k / (L * S) * L + k % (L * S) % L) * 2048 + k % (L * S) / L * w
    pos i + w ≤ pos j ∨ pos j + w ≤ pos i := by
  intro pos
  have hS0 : 0 < S := Nat.pos_of_ne_zero fun h0 => by subst h0; omega
  have hQ : 0 < L * S := Nat.mul_pos hL hS0
  have slot : ∀ k, k % (L * S) / L < S := fun k => Nat.div_lt_of_lt_mul (Nat.mod_lt _ hQ)
  have fits : ∀ k, k % (L * S) / L * w + w ≤ 2048 := fun k => by
    have := Nat.mul_le_mul_right w (Nat.succ_le_of_lt (slot k))
    rw [hS, Nat.succ_mul] at this; exact this
  have key : ∀ a b, a ≠ b → a / (L * S) * L + a % (L * S) % L ≤ b / (L * S) * L + b % (L * S) % L →
      pos a + w ≤ pos b ∨ pos b + w ≤ pos a := by
    intro a b hab hle
    rcases Nat.lt_or_eq_of_le hle with hlt | heq
    · left
      have h2 := fits a
      simp only [pos]
      generalize a / (L * S) * L + a % (L * S) % L = x at *
      generalize b / (L * S) * L + b % (L * S) % L = y at *
      omega
    · have hne : a % (L * S) / L ≠ b % (L * S) / L := by
        intro hs
        apply hab
        have hr : a % (L * S) % L = b % (L * S) % L := by
          have := congrArg (· % L) heq
          simpa only [Nat.mul_add_mod_self_right, Nat.mod_mod] using this
        have hg : a / (L * S) = b / (L * S) := by
          rw [hr] at heq
          exact Nat.eq_of_mul_eq_mul_right hL (by omega)
        have hx : a % (L * S) = b % (L * S) := by
          rw [← Nat.div_add_mod (a % (L * S)) L, ← Nat.div_add_mod (b % (L * S)) L, hs, hr]
        rw [← Nat.div_add_mod a (L * S), ← Nat.div_add_mod b (L * S), hg, hx]
      simp only [pos, heq]
      rcases Nat.lt_or_gt_of_ne hne with hlt | hlt
      · left
        have := Nat.mul_le_mul_right w (Nat.succ_le_of_lt hlt)
        rw [Nat.succ_mul] at this; omega
      · right
        have := Nat.mul_le_mul_right w (Nat.succ_le_of_lt hlt)
        rw [Nat.succ_mul] at this; omega
  rcases Nat.le_total (i / (L * S) * L + i % (L * S) % L) (j / (L * S) * L + j % (L * S) % L) with hle | hle
  · exact key i j h hle
  · exact (key j i h.symm hle).symm

/-- Two elements of one width lie apart. -/
theorem elemPos_apart {P w i j : Nat} (hP : IsParts P) (hw : IsWidth w) (h : i ≠ j) :
    elemPos P w i + w ≤ elemPos P w j ∨ elemPos P w j + w ≤ elemPos P w i := by
  have hS : 2048 / w * w = 2048 := by
    rcases hw with rfl | rfl | rfl | rfl | rfl | rfl <;> rfl
  have hQ : vlmaxW P w / 4 = 32 / P / 4 * (2048 / w) := by
    rcases hP with rfl | rfl | rfl | rfl <;> rcases hw with rfl | rfl | rfl | rfl | rfl | rfl <;> rfl
  have hL : 0 < 32 / P / 4 := by
    rcases hP with rfl | rfl | rfl | rfl <;> decide
  have := place_apart hL hS h
  simpa only [elemPos, hQ] using this

/-! ### Reading back (R17) -/

/-- What a list of element writes leaves at an element: the last value written there, else what stood there. -/
def lastWrite (old : Nat) (i : Nat) : List (Nat × Nat) → Nat
  | [] => old
  | (j, v) :: t => lastWrite (if j = i then v else old) i t

/-- An element of written bits, within the register. -/
theorem getBits_writeElems {P w : Nat} (hP : IsParts P) (hw : IsWidth w) {i : Nat} : ∀ (l : List (Nat × Nat)) (r : Nat),
    getBits (writeElems P w r l) (elemPos P w i) w = lastWrite (getBits r (elemPos P w i) w) i l % 2 ^ w
  | [], r => by simp [writeElems, lastWrite, getBits]
  | (j, v) :: t, r => by
    rw [writeElems, lastWrite, getBits_writeElems hP hw t]
    by_cases h : j = i
    · subst h
      rw [if_pos rfl, getBits_setBits_same]
      clear * -
      induction t generalizing v with
      | nil => simp [lastWrite]
      | cons c t ih =>
        simp only [lastWrite]
        split
        · rfl
        · exact ih _
    · rw [if_neg h, getBits_setBits_apart]
      exact (elemPos_apart hP hw (Ne.symm h)).imp id id

/-- The bits of an element that carry its value are the low ones. -/
theorem valBits_le (t : Tag) : valBits t ≤ width t := by
  cases t <;> simp [valBits, width]

/-- What a list of element writes leaves is its last value, read modulo any number. -/
theorem lastWrite_mod (n i : Nat) : ∀ (l : List (Nat × Nat)) (old : Nat),
    lastWrite old i (l.map fun x => (x.1, x.2 % n)) % n = lastWrite (old % n) i l % n
  | [], old => by simp [lastWrite]
  | (j, v) :: t, old => by
    simp only [List.map_cons, lastWrite]
    rw [lastWrite_mod n i t]
    split
    · have key : ∀ (l : List (Nat × Nat)) (a : Nat), lastWrite (a % n) i l % n = lastWrite a i l % n := by
        intro l
        induction l with
        | nil => intro a; simp [lastWrite]
        | cons c l ih =>
          intro a
          simp only [lastWrite]
          split
          · rfl
          · exact ih a
      rw [Nat.mod_mod, key]
    · rfl

theorem regs_setElems (h : Hart) (r : VIdx) (t : Tag) (l : List (Nat × Nat)) (q : VIdx) :
    (h.setElems r t l).vregs.get q
      = if q = r then BitVec.ofNat _ (writeElems h.parts (width t) (h.vregs.get r).toNat (l.map fun x => (x.1, x.2 % 2 ^ valBits t)))
        else h.vregs.get q := by
  simp [Hart.setElems, vget_set]

theorem parts_setElems (h : Hart) (r : VIdx) (t : Tag) (l : List (Nat × Nat)) : (h.setElems r t l).parts = h.parts := rfl

/-- An element of a register written reads the last value written to it, in the bits that carry it, else what stood there. -/
theorem elem_setElems (h : Hart) (r : VIdx) (t : Tag) (l : List (Nat × Nat)) {i : Nat} (hi : i < h.vlmax t) :
    (h.setElems r t l).elem r t i = lastWrite (h.elem r t i) i l % 2 ^ valBits t := by
  have hb := elemPos_le (isParts_parts h) (isWidth_width t) hi
  unfold Hart.elem
  rw [parts_setElems, regs_setElems, if_pos rfl, BitVec.toNat_ofNat, getBits_mod _ _ _ _ hb,
    getBits_writeElems (isParts_parts h) (isWidth_width t), Nat.mod_mod_of_dvd _ (pow_dvd_pow 2 (valBits_le t)), lastWrite_mod]

/-- Elements of another register read as before. -/
theorem elem_setElems_other (h : Hart) (r q : VIdx) (t t' : Tag) (l : List (Nat × Nat)) (i : Nat) (hq : q ≠ r) :
    (h.setElems r t l).elem q t' i = h.elem q t' i := by
  unfold Hart.elem
  rw [parts_setElems, regs_setElems, if_neg hq]

theorem tag_setTag (h : Hart) (r q : VIdx) (t : Tag) : (h.setTag r t).tag q = if q = r then t else h.tag q := by
  simp [Hart.tag, Hart.setTag, vget_set]

/-- A value written once to each of a list of elements is the last one. -/
theorem lastWrite_map (old : Nat) (f : Nat → Nat) (i : Nat) : ∀ l : List Nat,
    lastWrite old i (l.map fun k => (k, f k)) = if i ∈ l then f i else old
  | [] => by simp [lastWrite]
  | k :: t => by
    rw [List.map_cons, lastWrite, lastWrite_map _ f i t]
    by_cases h : k = i
    · subst h; simp
    · simp [h, Ne.symm h]

theorem mem_rangeFrom : ∀ (n lo i : Nat), i ∈ rangeFrom lo n ↔ lo ≤ i ∧ i < lo + n
  | 0, lo, i => by simp [rangeFrom]
  | n + 1, lo, i => by
    rw [rangeFrom, List.mem_cons, mem_rangeFrom n]
    omega

/-- The active elements are those of [vstart, vl) that the mask takes (R99, R139). -/
theorem mem_active (h : Hart) (m : Bool) (i : Nat) : i ∈ h.active m ↔ h.vst ≤ i ∧ i < h.vln ∧ h.masked m i = true := by
  unfold Hart.active
  rw [List.mem_filter, mem_rangeFrom]
  constructor
  · rintro ⟨⟨h1, h2⟩, h3⟩; exact ⟨h1, by omega, h3⟩
  · rintro ⟨h1, h2, h3⟩; exact ⟨⟨h1, by omega⟩, h3⟩

/-- The element-wise effect (R99): active elements take their results, the others keep their bits; the register takes the result
tag, the flags are joined, vstart becomes 0, and nothing else of the hart changes. -/
theorem elementwise_elem (h : Hart) (vd : VIdx) (rt : Tag) (m : Bool) (f : Nat → Res) {i : Nat} (hi : i < h.vlmax rt) :
    (h.elementwise vd rt m f).elem vd rt i = if i ∈ h.active m then (f i).bits % 2 ^ valBits rt else h.elem vd rt i := by
  have h1 : (h.elementwise vd rt m f).elem vd rt i
      = (h.setElems vd rt ((h.active m).map fun k => (k, (f k).bits))).elem vd rt i := by
    simp [Hart.elementwise, Hart.elem, List.map_map, Function.comp_def]; rfl
  rw [h1, elem_setElems _ _ _ _ hi, lastWrite_map]
  split
  · rfl
  · simp [Hart.elem]

theorem elementwise_tag (h : Hart) (vd : VIdx) (rt : Tag) (m : Bool) (f : Nat → Res) :
    (h.elementwise vd rt m f).tag vd = rt := by
  simp [Hart.elementwise, Hart.tag, vget_set]

theorem elementwise_flags (h : Hart) (vd : VIdx) (rt : Tag) (m : Bool) (f : Nat → Res) :
    (h.elementwise vd rt m f).fflags = h.fflags.or (flagsOf ((h.active m).map fun i => (f i).fl)) := by
  simp [Hart.elementwise, Hart.raiseFlags, Hart.vdone, List.map_map, Function.comp_def]

theorem elementwise_frame (h : Hart) (vd : VIdx) (rt : Tag) (m : Bool) (f : Nat → Res) :
    h.elementwise vd rt m f = vectorMoved h (h.elementwise vd rt m f)
      ∧ VectorsKept [vd] h (h.elementwise vd rt m f) := by
  refine ⟨rfl, fun r hr => ?_⟩
  have hr : r ≠ vd := by simpa using hr
  simp [Hart.elementwise, regs_setElems, vget_set, hr]

end Sys2Proof.Machine
end

