-- ==== Sys2Proof/Laws/Memory.lean ====
section
/-! SUPPORT. Laws of memory: reading back what was written, and the canonical form that every operation keeps. -/
namespace Sys2Proof.Machine
open Sys2Proof

/-! ### The canonical form -/

/-- The canonical form as two facts about the list: addresses rise, and no byte is zero. -/
theorem Memory.wf_iff : ∀ m : Memory, m.wf = true ↔ m.Pairwise (fun a b => a.1 < b.1) ∧ ∀ c ∈ m, c.2 ≠ 0
  | [] => by simp [Memory.wf]
  | [(k, b)] => by simp [Memory.wf]
  | (k, b) :: (k', b') :: t => by
    have ih := Memory.wf_iff ((k', b') :: t)
    simp only [Memory.wf, Bool.and_eq_true, bne_iff_ne, decide_eq_true_eq, ih, List.pairwise_cons, List.mem_cons,
      forall_eq_or_imp]
    constructor
    · rintro ⟨⟨hb, hk⟩, ⟨h1, h2⟩, h3, h4⟩
      exact ⟨⟨⟨hk, fun a ha => lt_trans hk (h1 a ha)⟩, h1, h2⟩, hb, h3, h4⟩
    · rintro ⟨⟨⟨hk, _⟩, h1, h2⟩, hb, h3, h4⟩
      exact ⟨⟨hb, hk⟩, ⟨h1, h2⟩, h3, h4⟩

theorem Memory.wf_nil : Memory.wf [] = true := rfl

theorem Memory.wf_tail {c : Host.Cell} {t : Memory} (h : Memory.wf (c :: t) = true) : Memory.wf t = true := by
  rw [Memory.wf_iff] at h ⊢
  exact ⟨(List.pairwise_cons.1 h.1).2, fun x hx => h.2 x (List.mem_cons_of_mem _ hx)⟩

/-- The addresses of a list with one byte written: that address, or one listed before. -/
theorem Memory.mem_set {c : Host.Cell} : ∀ {m : Memory} {k : Nat} {b : Byte}, c ∈ m.set k b → (c.1 = k ∧ c.2 = b ∧ b ≠ 0) ∨ c ∈ m
  | [], k, b, h => by
    unfold Memory.set at h
    split at h
    · simp at h
    · simp at h; subst h; simp_all
  | (k', b') :: t, k, b, h => by
    unfold Memory.set at h
    split at h
    · split at h
      · exact .inr h
      · rcases List.mem_cons.1 h with rfl | h
        · simp_all
        · exact .inr h
    · split at h
      · split at h
        · exact .inr (List.mem_cons_of_mem _ h)
        · rcases List.mem_cons.1 h with rfl | h
          · simp_all
          · exact .inr (List.mem_cons_of_mem _ h)
      · rcases List.mem_cons.1 h with rfl | h
        · simp
        · rcases Memory.mem_set h with h | h
          · exact .inl h
          · exact .inr (List.mem_cons_of_mem _ h)

/-- Writing one byte keeps the canonical form. -/
theorem Memory.wf_set : ∀ {m : Memory} (k : Nat) (b : Byte), m.wf = true → (m.set k b).wf = true
  | [], k, b, _ => by
    unfold Memory.set
    split
    · rfl
    · simp_all [Memory.wf]
  | (k', b') :: t, k, b, h => by
    have ht := Memory.wf_set k b (Memory.wf_tail h)
    rw [Memory.wf_iff] at h ht ⊢
    obtain ⟨hp, hz⟩ := h
    rw [List.pairwise_cons] at hp
    unfold Memory.set
    split
    · split
      · exact ⟨List.pairwise_cons.2 hp, hz⟩
      · refine ⟨List.pairwise_cons.2 ⟨?_, List.pairwise_cons.2 hp⟩, ?_⟩
        · intro a ha
          rcases List.mem_cons.1 ha with rfl | ha
          · assumption
          · have := hp.1 a ha; simp_all; omega
        · intro c hc
          rcases List.mem_cons.1 hc with rfl | hc
          · simpa
          · exact hz c hc
    · split
      · split
        · exact ⟨hp.2, fun c hc => hz c (List.mem_cons_of_mem _ hc)⟩
        · subst_vars
          refine ⟨List.pairwise_cons.2 hp, ?_⟩
          intro c hc
          rcases List.mem_cons.1 hc with rfl | hc
          · simpa
          · exact hz c (List.mem_cons_of_mem _ hc)
      · refine ⟨List.pairwise_cons.2 ⟨?_, ht.1⟩, ?_⟩
        · intro a ha
          rcases Memory.mem_set ha with h | h
          · simp_all; omega
          · exact hp.1 a h
        · intro c hc
          rcases List.mem_cons.1 hc with rfl | hc
          · exact hz _ (List.mem_cons_self ..)
          · exact ht.2 c hc

/-- Writing a number keeps the canonical form. -/
theorem Memory.wf_write : ∀ (n : Nat) {m : Memory} (k v : Nat), m.wf = true → (m.write k n v).wf = true
  | 0, _, _, _, h => h
  | n + 1, _, _, _, h => Memory.wf_write n _ _ (Memory.wf_set _ _ h)

/-- Taking a range of bytes from another list keeps the canonical form. -/
theorem Memory.wf_splice {d s : Memory} (lo n : Nat) (hd : d.wf = true) (hs : s.wf = true) : (d.splice s lo n).wf = true := by
  rw [Memory.wf_iff] at *
  obtain ⟨pd, zd⟩ := hd
  obtain ⟨ps, zs⟩ := hs
  unfold Memory.splice
  refine ⟨?_, ?_⟩
  · rw [List.pairwise_append, List.pairwise_append]
    refine ⟨⟨pd.filter _, ps.filter _, ?_⟩, pd.filter _, ?_⟩
    · intro a ha b hb
      simp only [List.mem_filter, decide_eq_true_eq, Bool.and_eq_true] at ha hb
      omega
    · intro a ha b hb
      simp only [List.mem_append, List.mem_filter, decide_eq_true_eq, Bool.and_eq_true] at ha hb
      omega
  · intro c hc
    simp only [List.mem_append, List.mem_filter] at hc
    rcases hc with (h | h) | h
    · exact zd c h.1
    · exact zs c h.1
    · exact zd c h.1

/-- The cells of a number lie in its bytes. -/
theorem cellsOf_range : ∀ (d : Nat) {lo v : Nat} {c : Host.Cell}, c ∈ cellsOf lo v d → lo ≤ c.1 ∧ c.1 < lo + 2 ^ d
  | 0, lo, v, c, h => by
    unfold cellsOf at h
    split at h
    · simp at h
    · simp at h; subst h; simp
  | d + 1, lo, v, c, h => by
    unfold cellsOf at h
    split at h
    · simp at h
    · have hp : 2 ^ (d + 1) = 2 ^ d + 2 ^ d := by ring
      rcases List.mem_append.1 h with h | h
      · have := cellsOf_range d h; omega
      · have := cellsOf_range d h; omega

/-- The cells of a number are in canonical form. -/
theorem wf_cellsOf : ∀ (d lo v : Nat), (cellsOf lo v d).wf = true
  | 0, lo, v => by
    unfold cellsOf
    split
    · rfl
    · rename_i h
      rw [Memory.wf_iff]
      refine ⟨by simp, ?_⟩
      intro c hc
      simp at hc
      subst hc
      simp only [ne_eq]
      intro h0
      apply h
      have := congrArg BitVec.toNat h0
      simpa using this
  | d + 1, lo, v => by
    unfold cellsOf
    split
    · rfl
    · have h1 := wf_cellsOf d lo (v % 2 ^ (8 * 2 ^ d))
      have h2 := wf_cellsOf d (lo + 2 ^ d) (v / 2 ^ (8 * 2 ^ d))
      rw [Memory.wf_iff] at h1 h2 ⊢
      refine ⟨List.pairwise_append.2 ⟨h1.1, h2.1, ?_⟩, ?_⟩
      · intro a ha b hb
        have := cellsOf_range d ha
        have := cellsOf_range d hb
        omega
      · intro c hc
        rcases List.mem_append.1 hc with h | h
        · exact h1.2 c h
        · exact h2.2 c h

/-- Writing a run of bytes keeps the canonical form. -/
theorem Memory.wf_writeRange {m : Memory} (lo n v : Nat) (h : m.wf = true) : (m.writeRange lo n v).wf = true :=
  Memory.wf_splice _ _ h (wf_cellsOf _ _ _)

/-- Writing a field of bits keeps the canonical form. -/
theorem Memory.wf_writeBits {m : Memory} (k b w v : Nat) (h : m.wf = true) : (m.writeBits k b w v).wf = true :=
  Memory.wf_writeRange _ _ _ h

/-! ### Reading back -/

/-- An unlisted address reads zero. -/
theorem Memory.get_unlisted : ∀ {m : Memory} {a : Nat}, (∀ c ∈ m, c.1 ≠ a) → m.get a = 0
  | [], _, _ => rfl
  | c :: t, a, h => by
    unfold Memory.get
    rw [if_neg (h c (List.mem_cons_self ..))]
    exact Memory.get_unlisted fun x hx => h x (List.mem_cons_of_mem _ hx)

/-- A listed address reads its byte. -/
theorem Memory.get_listed : ∀ {m : Memory} {c : Host.Cell}, m.Pairwise (fun a b => a.1 < b.1) → c ∈ m → m.get c.1 = c.2
  | [], _, _, h => absurd h List.not_mem_nil
  | x :: t, c, hp, h => by
    rw [List.pairwise_cons] at hp
    unfold Memory.get
    rcases List.mem_cons.1 h with rfl | h
    · simp
    · have := hp.1 c h
      rw [if_neg (by omega)]
      exact Memory.get_listed hp.2 h

/-- A byte reads as written, and every other byte as before. -/
theorem Memory.get_set : ∀ {m : Memory} (k : Nat) (b : Byte) (a : Nat), m.wf = true → (m.set k b).get a = if a = k then b else m.get a
  | [], k, b, a, _ => by
    unfold Memory.set
    by_cases ha : a = k
    · subst ha; split <;> simp_all [Memory.get]
    · split <;> simp [Memory.get, Ne.symm ha]
  | (x, y) :: t, k, b, a, h => by
    have ih := Memory.get_set k b a (Memory.wf_tail h)
    have hn : ∀ z ≤ x, Memory.get t z = 0 := by
      intro z hz
      rw [Memory.wf_iff, List.pairwise_cons] at h
      exact Memory.get_unlisted fun c hc => by have := h.1.1 c hc; simp at this; omega
    unfold Memory.set
    split
    · rename_i hk
      have hk' := hn k (by omega)
      split <;> by_cases ha : a = k
      · subst ha; simp only [Memory.get, hk', if_true]; rw [if_neg (by omega)]; simp_all
      · simp [ha]
      · subst ha; simp [Memory.get]
      · simp only [Memory.get, if_neg ha, if_neg (Ne.symm ha)]
    · split
      · rename_i _ hk
        subst hk
        have hx := hn k (le_refl _)
        split <;> by_cases ha : a = k
        · subst ha; simp_all
        · simp only [Memory.get, if_neg ha, if_neg (Ne.symm ha)]
        · subst ha; simp [Memory.get]
        · simp only [Memory.get, if_neg ha, if_neg (Ne.symm ha)]
      · by_cases ha : a = k
        · subst ha; simp only [Memory.get, ih, if_true]; rw [if_neg (by omega)]
        · simp only [Memory.get, ih, if_neg ha]

/-- Outside the bytes of a write every byte reads as before. -/
theorem Memory.get_write_outside : ∀ (n : Nat) {m : Memory} (k v a : Nat), m.wf = true → (a < k ∨ k + n ≤ a) →
    (m.write k n v).get a = m.get a
  | 0, _, _, _, _, _, _ => rfl
  | n + 1, m, k, v, a, h, ha => by
    unfold Memory.write
    rw [Memory.get_write_outside n _ _ _ (Memory.wf_set _ _ h) (by omega), Memory.get_set _ _ _ h, if_neg (by omega)]

/-- A byte of a write reads as that byte of the number. -/
theorem Memory.get_write : ∀ (n : Nat) {m : Memory} (k v j : Nat), m.wf = true → j < n →
    (m.write k n v).get (k + j) = BitVec.ofNat 8 (v / 256 ^ j)
  | 0, _, _, _, _, _, h => absurd h (Nat.not_lt_zero _)
  | n + 1, m, k, v, j, h, hj => by
    unfold Memory.write
    cases j with
    | zero =>
      rw [Memory.get_write_outside n _ _ _ (Memory.wf_set _ _ h) (by omega), Memory.get_set _ _ _ h, if_pos (by omega)]
      simp
    | succ j =>
      have := Memory.get_write n (m := m.set k (BitVec.ofNat 8 v)) (k + 1) (v / 256) j (Memory.wf_set _ _ h) (by omega)
      rw [show k + (j + 1) = k + 1 + j by omega, this, Nat.div_div_eq_div_mul, pow_succ, Nat.mul_comm 256]

/-- Reads depend on the bytes alone. -/
theorem Memory.read_congr : ∀ (n : Nat) {m m' : Memory} (k : Nat), (∀ j < n, m.get (k + j) = m'.get (k + j)) → m.read k n = m'.read k n
  | 0, _, _, _, _ => rfl
  | n + 1, m, m', k, h => by
    have h0 : m.get k = m'.get k := h 0 (by omega)
    have h1 : m.read (k + 1) n = m'.read (k + 1) n := Memory.read_congr n (k + 1) fun j hj => by
      have := h (j + 1) (by omega)
      rwa [show k + (j + 1) = k + 1 + j by omega] at this
    simp only [Memory.read, h0, h1]

/-- A number reads back as its low bytes (little-endian, R83). -/
theorem Memory.read_write : ∀ (n : Nat) {m : Memory} (k v : Nat), m.wf = true → (m.write k n v).read k n = v % 256 ^ n
  | 0, _, _, _, _ => by simp [Memory.read, Nat.mod_one]
  | n + 1, m, k, v, h => by
    have h0 : (m.write k (n + 1) v).get k = BitVec.ofNat 8 (v / 256 ^ 0) := Memory.get_write (n + 1) k v 0 h (by omega)
    have ih := Memory.read_write n (m := m.set k (BitVec.ofNat 8 v)) (k + 1) (v / 256) (Memory.wf_set _ _ h)
    rw [Memory.read, h0, Memory.write, ih, pow_succ, Nat.mul_comm (256 ^ n), Nat.mod_mul]
    simp

/-- A splice reads from its source inside its range, and as before outside. -/
theorem Memory.get_splice {d s : Memory} (lo n a : Nat) (hd : d.wf = true) (hs : s.wf = true) :
    (d.splice s lo n).get a = if lo ≤ a ∧ a < lo + n then s.get a else d.get a := by
  have hw := (Memory.wf_iff _).1 (Memory.wf_splice lo n hd hs)
  have pd := ((Memory.wf_iff _).1 hd).1
  have ps := ((Memory.wf_iff _).1 hs).1
  by_cases hl : ∃ c ∈ d.splice s lo n, c.1 = a
  · obtain ⟨c, hc, rfl⟩ := hl
    rw [Memory.get_listed hw.1 hc]
    simp only [Memory.splice, List.mem_append, List.mem_filter, decide_eq_true_eq, Bool.and_eq_true] at hc
    rcases hc with (⟨h, h'⟩ | ⟨h, h'⟩) | ⟨h, h'⟩
    · rw [if_neg (by omega), Memory.get_listed pd h]
    · rw [if_pos (by omega), Memory.get_listed ps h]
    · rw [if_neg (by omega), Memory.get_listed pd h]
  · have hn : ∀ c ∈ d.splice s lo n, c.1 ≠ a := fun c hc h => hl ⟨c, hc, h⟩
    rw [Memory.get_unlisted hn]
    simp only [Memory.splice, List.mem_append, List.mem_filter, decide_eq_true_eq, Bool.and_eq_true] at hn
    split
    · rw [Memory.get_unlisted fun c hc hca => hn c (.inl (.inr ⟨hc, by omega⟩)) hca]
    · by_cases h : a < lo
      · rw [Memory.get_unlisted fun c hc hca => hn c (.inl (.inl ⟨hc, by omega⟩)) hca]
      · rw [Memory.get_unlisted fun c hc hca => hn c (.inr ⟨hc, by omega⟩) hca]

/-- The cells of a number read as its bytes. -/
theorem get_cellsOf : ∀ (d lo v j : Nat), v < 256 ^ 2 ^ d → j < 2 ^ d → Memory.get (cellsOf lo v d) (lo + j) = BitVec.ofNat 8 (v / 256 ^ j)
  | 0, lo, v, j, hv, hj => by
    have : j = 0 := by simpa using hj
    subst this
    have hv : v < 256 := by simpa using hv
    unfold cellsOf
    split
    · have : v = 0 := by omega
      subst this; simp [Memory.get]
    · simp [Memory.get]
  | d + 1, lo, v, j, hv, hj => by
    have hp : 2 ^ (d + 1) = 2 ^ d + 2 ^ d := by ring
    have h256 : 2 ^ (8 * 2 ^ d) = 256 ^ 2 ^ d := by rw [pow_mul]; norm_num
    unfold cellsOf
    split
    · rename_i h0; subst h0; simp [Memory.get]
    · rw [h256]
      have hw := (Memory.wf_iff _).1 (wf_cellsOf (d + 1) lo v)
      have hpos : 0 < 256 ^ 2 ^ d := by positivity
      have get_app : ∀ (x y : Memory) (a : Nat), (∀ c ∈ x, c.1 ≠ a) → Memory.get (x ++ y) a = Memory.get y a := by
        intro x y a h
        induction x with
        | nil => rfl
        | cons c t ih =>
          simp only [List.cons_append, Memory.get]
          rw [if_neg (h c (List.mem_cons_self ..)), ih fun z hz => h z (List.mem_cons_of_mem _ hz)]
      have get_app' : ∀ (x y : Memory) (a : Nat), (∀ c ∈ y, c.1 ≠ a) → Memory.get (x ++ y) a = Memory.get x a := by
        intro x y a h
        induction x with
        | nil => simpa [Memory.get] using Memory.get_unlisted h
        | cons c t ih => simp only [List.cons_append, Memory.get, ih]
      by_cases hlt : j < 2 ^ d
      · rw [get_app' _ _ _ fun c hc => by have := cellsOf_range d hc; omega,
          get_cellsOf d lo _ j (Nat.mod_lt _ hpos) hlt]
        apply BitVec.eq_of_toNat_eq
        simp only [BitVec.toNat_ofNat]
        have hsplit : 256 ^ 2 ^ d = 256 ^ j * (256 * 256 ^ (2 ^ d - j - 1)) := by
          rw [← pow_succ', ← pow_add]; congr 1; omega
        rw [hsplit, Nat.mod_mul_right_div_self, Nat.mod_mul_right_mod]
      · obtain ⟨i, rfl⟩ : ∃ i, j = 2 ^ d + i := ⟨j - 2 ^ d, by omega⟩
        rw [get_app _ _ _ fun c hc => by have := cellsOf_range d hc; omega, ← Nat.add_assoc,
          get_cellsOf d (lo + 2 ^ d) _ i (by rw [hp, pow_add] at hv; exact Nat.div_lt_of_lt_mul hv) (by omega),
          Nat.div_div_eq_div_mul, pow_add]

/-- `n` does not exceed the power of two that covers it. -/
theorem le_two_pow_clog2 (n : Nat) : n ≤ 2 ^ clog2 n := by
  unfold clog2
  split
  · simpa
  · have h := Nat.lt_log2_self (n := n - 1)
    omega

/-- Inside a run of bytes written each byte reads as that byte of the number, outside as before. -/
theorem Memory.get_writeRange {m : Memory} (lo n v a : Nat) (h : m.wf = true) :
    (m.writeRange lo n v).get a = if lo ≤ a ∧ a < lo + n then BitVec.ofNat 8 (v / 256 ^ (a - lo)) else m.get a := by
  unfold Memory.writeRange
  rw [Memory.get_splice _ _ _ h (wf_cellsOf _ _ _)]
  split
  · rename_i ha
    obtain ⟨j, rfl⟩ : ∃ j, a = lo + j := ⟨a - lo, by omega⟩
    have hc := le_two_pow_clog2 n
    have hv : v % 256 ^ n < 256 ^ 2 ^ clog2 n :=
      lt_of_lt_of_le (Nat.mod_lt _ (by positivity)) (Nat.pow_le_pow_right (by norm_num) hc)
    rw [get_cellsOf _ _ _ _ hv (by omega), Nat.add_sub_cancel_left]
    apply BitVec.eq_of_toNat_eq
    simp only [BitVec.toNat_ofNat]
    have hsplit : 256 ^ n = 256 ^ j * (256 * 256 ^ (n - j - 1)) := by
      rw [← pow_succ', ← pow_add]; congr 1; omega
    rw [hsplit, Nat.mod_mul_right_div_self, Nat.mod_mul_right_mod]
  · rfl

/-- Outside the bytes of a field of bits written every byte reads as before. -/
theorem Memory.get_writeBits_outside {m : Memory} (k b w v a : Nat) (h : m.wf = true) (ha : a < k ∨ k + (b + w + 7) / 8 ≤ a) :
    (m.writeBits k b w v).get a = m.get a := by
  unfold Memory.writeBits
  rw [Memory.get_writeRange _ _ _ _ h, if_neg (by omega)]

/-- A list with one more cell in front reads as the rest and that cell's byte. -/
theorem Memory.read_cons : ∀ (n : Nat) {t : Memory} (k lo : Nat) (b : Byte), t.get k = 0 →
    Memory.read ((k, b) :: t) lo n = t.read lo n + if lo ≤ k ∧ k < lo + n then b.toNat * 256 ^ (k - lo) else 0
  | 0, t, k, lo, b, _ => by simp [Memory.read]
  | n + 1, t, k, lo, b, h => by
    have ih := Memory.read_cons n (lo + 1) b h (t := t) (k := k)
    simp only [Memory.read, Memory.get, ih]
    by_cases hk : k = lo
    · subst hk
      simp only [h, if_true]
      rw [if_neg (by omega), if_pos (by omega)]
      simp
      omega
    · rw [if_neg hk]
      by_cases hr : lo + 1 ≤ k ∧ k < lo + 1 + n
      · rw [if_pos hr, if_pos (by omega)]
        obtain ⟨i, rfl⟩ : ∃ i, k = lo + 1 + i := ⟨k - (lo + 1), by omega⟩
        rw [show lo + 1 + i - (lo + 1) = i by omega, show lo + 1 + i - lo = i + 1 by omega, pow_succ]
        ring
      · rw [if_neg hr, if_neg (by omega)]; simp

/-- One pass over the list reads the same number. -/
theorem Memory.readRange_eq : ∀ {m : Memory} (lo n : Nat), m.wf = true → m.readRange lo n = m.read lo n := by
  have acc : ∀ (m : Memory) (lo n x : Nat), m.wf = true →
      m.foldl (fun acc c => if lo ≤ c.1 ∧ c.1 < lo + n then acc + c.2.toNat * 256 ^ (c.1 - lo) else acc) x = x + m.read lo n := by
    intro m
    induction m with
    | nil =>
      intro lo n x _
      have h0 : ∀ n lo, Memory.read [] lo n = 0 := by
        intro n
        induction n with
        | zero => intro lo; rfl
        | succ n ih => intro lo; simp [Memory.read, Memory.get, ih]
      simp [h0]
    | cons c t ih =>
      intro lo n x h
      obtain ⟨k, b⟩ := c
      have hk : Memory.get t k = 0 := by
        rw [Memory.wf_iff, List.pairwise_cons] at h
        exact Memory.get_unlisted fun c hc => by have := h.1.1 c hc; simp at this; omega
      rw [List.foldl_cons, ih _ _ _ (Memory.wf_tail h), Memory.read_cons _ _ _ _ hk]
      simp only
      split <;> omega
  intro m lo n h
  unfold Memory.readRange
  rw [acc m lo n 0 h, Nat.zero_add]

end Sys2Proof.Machine
end

