-- ==== Sys2Proof/Laws/Keeps.lean ====
section
/-! SUPPORT. Properties of the state that work keeps, however it ends: how they pass through sequence, choice and repetition, and
what the shared operations over memory keep. -/
namespace Sys2Proof.Machine
open Sys2Proof

/-- Work keeps a property of the state, whether it completes or leaves with a reason. -/
def Keeps {α : Type} (P : State → Prop) (m : M α) : Prop :=
  ∀ s, P s → match m s with
    | .ok _ s' => P s'
    | .error _ s' => P s'

namespace Keeps
variable {α β : Type} {P : State → Prop}

theorem pure (a : α) : Keeps P (Pure.pure a : M α) := fun _ h => h

theorem bind {m : M α} {f : α → M β} (hm : Keeps P m) (hf : ∀ a, Keeps P (f a)) : Keeps P (m >>= f) := by
  intro s h
  have h1 := hm s h
  show match EStateM.bind m f s with | .ok _ s' => P s' | .error _ s' => P s'
  unfold EStateM.bind
  cases hms : m s with
  | ok a s' => rw [hms] at h1; exact hf a s' h1
  | error e s' => rw [hms] at h1; exact h1

theorem map {m : M α} (f : α → β) (hm : Keeps P m) : Keeps P (f <$> m) := by
  intro s h
  have h1 := hm s h
  show match EStateM.map f m s with | .ok _ s' => P s' | .error _ s' => P s'
  unfold EStateM.map
  cases hms : m s with
  | ok a s' => rw [hms] at h1; exact h1
  | error e s' => rw [hms] at h1; exact h1

theorem get : Keeps P (MonadState.get : M State) := fun _ h => h
theorem get' : Keeps P (getThe State : M State) := fun _ h => h
/-- Work that reads the state first may use that the state it read has the property. -/
theorem withState {f : State → M α} (h : ∀ s, P s → Keeps P (f s)) : Keeps P (MonadState.get >>= f) := fun s hs => h s hs s hs
theorem throw (e : Exc) : Keeps P (throw e : M α) := fun _ h => h
theorem set {t : State} (h : P t) : Keeps P (MonadStateOf.set t : M PUnit) := fun _ _ => h
theorem modify {f : State → State} (h : ∀ s, P s → P (f s)) : Keeps P (modify f : M PUnit) := h
theorem ite {c : Prop} [Decidable c] {m n : M α} (hm : Keeps P m) (hn : Keeps P n) : Keeps P (if c then m else n) := by
  split
  · exact hm
  · exact hn

theorem raise (c : Cause) (e : Word) (k : AccessKind) : Keeps P (raise c e k : M α) := fun _ h => h
theorem raiseIf (b : Bool) (c : Cause) (e : Word) (k : AccessKind) : Keeps P (raiseIf b c e k) := by
  unfold Machine.raiseIf; exact ite (raise c e k) (pure ())
theorem waitIf (b : Bool) : Keeps P (waitIf b) := by
  unfold Machine.waitIf; exact ite (throw _) (pure ())

theorem forM {f : α → M PUnit} (h : ∀ a, Keeps P (f a)) : ∀ l : List α, Keeps P (l.forM f)
  | [] => pure _
  | a :: t => bind (h a) fun _ => forM h t

theorem forM' {f : α → M PUnit} (h : ∀ a, Keeps P (f a)) (l : List α) : Keeps P (ForM.forM l f) := forM h l

theorem mapM {f : α → M β} (h : ∀ a, Keeps P (f a)) : ∀ l : List α, Keeps P (l.mapM f)
  | [] => by rw [List.mapM_nil]; exact pure _
  | a :: t => by rw [List.mapM_cons]; exact bind (h a) fun _ => bind (mapM h t) fun _ => pure _

theorem filterAuxM {f : α → M Bool} (h : ∀ a, Keeps P (f a)) : ∀ l a : List α, Keeps P (l.filterAuxM f a)
  | [], _ => pure _
  | a :: t, _ => bind (h a) fun _ => filterAuxM h t _

theorem filterM {f : α → M Bool} (h : ∀ a, Keeps P (f a)) (l : List α) : Keeps P (l.filterM f) :=
  bind (filterAuxM h l []) fun _ => pure _

/-- Work that may fail keeps what it keeps where the free values, the cached translations and the pages walked do not bear on it. -/
theorem attempt {m : M α} (hf : ∀ (s : State) (n : Nat) (l : List TlbEntry) (a : List Nat), P s →
    P { s with free := n, tlb := l, hart := { s.hart with afresh := a } }) (h : Keeps P m) : Keeps P (attempt m) := by
  intro s hs
  have h1 := h s hs
  unfold Machine.attempt
  cases hms : m s with
  | ok a s' => rw [hms] at h1; exact h1
  | error e s' =>
    rw [hms] at h1
    cases e with
    | trap _ => exact hf _ _ _ _ hs
    | _ => exact h1

theorem quietly {m : M α} : Keeps P (quietly m) := by
  intro s hs
  unfold Machine.quietly
  cases m s <;> exact hs

end Keeps

/-- The memory, the L2's copy and that of HBM4 are in canonical form. -/
def State.Canonical (s : State) : Prop := s.mem.wf = true ∧ s.l2.wf = true ∧ s.hbm.wf = true

/-- A change that leaves the three memories alone keeps their form. -/
theorem State.Canonical.of_eq {s t : State} (h : s.Canonical) (hm : t.mem = s.mem) (hl : t.l2 = s.l2) (hh : t.hbm = s.hbm) :
    t.Canonical := by
  unfold State.Canonical at *
  rw [hm, hl, hh]; exact h

namespace State.Canonical
variable {s : State}

theorem hart (f : Hart → Hart) (h : s.Canonical) : Canonical { s with hart := f s.hart } := h
theorem ite {c : Prop} [Decidable c] {a b : State} (ha : a.Canonical) (hb : b.Canonical) : (if c then a else b).Canonical := by
  split
  · exact ha
  · exact hb
theorem drawBack (k : Nat) (h : s.Canonical) : (s.drawBack k).Canonical := by
  unfold State.drawBack
  split
  · exact ⟨h.1, Memory.wf_splice _ _ h.2.1 h.1, h.2.2⟩
  · exact h
theorem setMem (l : List (Nat × Nat)) {m : Memory} (hm : m.wf = true) (h : s.Canonical) : (s.setMem l m).Canonical := ⟨hm, h.2.1, h.2.2⟩
theorem noteWrites (l : List Nat) (h : s.Canonical) : (s.noteWrites l).Canonical := h
theorem storeScalar (k n v : Nat) (h : s.Canonical) : (s.storeScalar k n v).Canonical :=
  noteWrites _ (setMem _ (Memory.wf_write _ _ _ h.1) h)
theorem storeDirect (k n v : Nat) (h : s.Canonical) : (s.storeDirect k n v).Canonical :=
  noteWrites _ (drawBack k (setMem _ (Memory.wf_write _ _ _ h.1) h))
theorem storeRange (k n v : Nat) (h : s.Canonical) : (s.storeRange k n v).Canonical := by
  refine ⟨Memory.wf_writeRange _ _ _ h.1, ?_, h.2.2⟩
  unfold State.storeRange
  dsimp only [State.noteWrites]
  split
  · exact Memory.wf_splice _ _ h.2.1 (Memory.wf_writeRange _ _ _ h.1)
  · exact h.2.1

theorem foldl {α : Type} {f : State → α → State} (hf : ∀ s a, s.Canonical → (f s a).Canonical) :
    ∀ (l : List α) {s : State}, s.Canonical → (l.foldl f s).Canonical
  | [], _, h => h
  | a :: t, s, h => foldl hf t (hf s a h)

theorem clearPoison (l : List Nat) (h : s.Canonical) : (s.clearPoison l).Canonical := h

theorem putCells (l : List (Nat × Nat × Nat × Nat)) (e : List (Nat × Nat × Nat)) (h : s.Canonical) : (s.putCells l e).Canonical := by
  have hm : ∀ (l : List (Nat × Nat × Nat × Nat)) (m : Memory), m.wf = true →
      (l.foldl (fun m x => m.writeBits x.1 x.2.1 x.2.2.1 x.2.2.2) m).wf = true := by
    intro l
    induction l with
    | nil => intro m h; exact h
    | cons x t ih => intro m h; exact ih _ (Memory.wf_writeBits _ _ _ _ h)
  unfold State.putCells
  exact noteWrites _ (clearPoison _ (foldl (f := fun s q => s.drawBack (q * 128)) (fun s q h => drawBack _ h) _
    (setMem _ (hm l _ h.1) h)))

end State.Canonical

/-! ### Translation -/

namespace Keeps
variable {P : State → Prop}

theorem takeFree (h : ∀ s n, P s → P { s with free := n }) : Keeps P takeFree := fun s hs => h s _ hs
theorem onHart {f : Hart → Hart} (h : ∀ s, P s → P { s with hart := f s.hart }) : Keeps P (onHart f) := h

theorem canonical_takeFree : Keeps State.Canonical Machine.takeFree := takeFree fun _ _ h => h

theorem canonical_pickOne {α : Type} (x : α) (l : List α) : Keeps State.Canonical (pickOne x l) := by
  unfold pickOne
  exact ite (pure _) (bind canonical_takeFree fun _ => pure _)

theorem canonical_readEntry (old : Bool) (a : BitVec 15) (k : Nat) : Keeps State.Canonical (readEntry old a k) := by
  unfold readEntry
  exact bind get fun s => bind (waitIf _) fun _ => bind (modify fun s h => State.Canonical.drawBack k h) fun _ =>
    bind get fun s => ite (canonical_pickOne _ _) (pure _)

theorem canonical_keptEntry (a : BitVec 15) (k : Nat) : Keeps State.Canonical (keptEntry a k) := by
  unfold keptEntry
  refine bind get fun s => ?_
  split
  · exact bind canonical_takeFree fun _ => ite (pure _) (pure _)
  · exact pure _

theorem canonical_keepEntry (a : BitVec 15) (k e : Nat) : Keeps State.Canonical (keepEntry a k e) := modify fun _ h => h

theorem canonical_groupIndex (priv : Bool) (b n i : Nat) : Keeps State.Canonical (groupIndex priv b n i) := by
  unfold groupIndex
  exact bind get fun s => ite (pure _) (canonical_pickOne _ _)

theorem canonical_takeEntry (old priv : Bool) (a : BitVec 15) (b n i : Nat) : Keeps State.Canonical (takeEntry old priv a b n i) := by
  unfold takeEntry
  refine bind (canonical_groupIndex _ _ _ _) fun j => bind (ite (canonical_keptEntry _ _) (pure _)) fun e => ?_
  cases e with
  | some e => exact pure _
  | none => exact bind (canonical_readEntry _ _ _) fun _ => pure _

theorem canonical_walkFrom (old priv : Bool) (a : BitVec 15) (q v : Nat) (acc : Access) :
    ∀ (n t : Nat), Keeps State.Canonical (walkFrom old priv a q v acc t n)
  | 0, _ => pure _
  | n + 1, t => by
    unfold walkFrom
    refine ite (pure _) ?_
    split
    · refine bind (canonical_takeEntry _ _ _ _ _ _) fun p => ?_
      obtain ⟨e?, key⟩ := p
      cases e? with
      | none => exact pure _
      | some e =>
        refine ite (pure _) (ite (ite (pure _) ?_) (ite (pure _) (ite (pure _)
          (bind (canonical_keepEntry _ _ _) fun _ => canonical_walkFrom old priv a q v acc n _))))
        split
        · exact pure _
        · exact pure _
    · exact pure _

theorem canonical_walk (old : Bool) (vatp v : Nat) (acc : Access) : Keeps State.Canonical (walk old vatp v acc) := by
  unfold walk
  exact ite (pure _) (bind get fun _ => canonical_walkFrom _ _ _ _ _ _ _ _)

theorem canonical_chooseLeaf (v a : Nat) (w : Walk) : Keeps State.Canonical (chooseLeaf v a w) :=
  bind get fun _ => canonical_pickOne _ _

theorem canonical_setAD (l : Leaf) (acc : Access) : Keeps State.Canonical (setAD l acc) := by
  refine modify fun s h => ?_
  split
  · exact h
  · exact State.Canonical.storeDirect _ _ _ h

theorem canonical_cacheLeaf (v a : Nat) (l : Leaf) : Keeps State.Canonical (cacheLeaf v a l) := by
  refine modify fun s h => ?_
  dsimp only
  split <;> exact h

theorem canonical_noLeaf {α : Type} (c : Cause) (va : Word) (acc : Access) : Keeps State.Canonical (noLeaf c va acc : M α) :=
  bind (modify fun _ h => h) fun _ => raise _ _ _

theorem canonical_freshLeaf (vatp va : Word) (acc : Access) : Keeps State.Canonical (freshLeaf vatp va acc) := by
  unfold freshLeaf
  refine bind (canonical_walk _ _ _ _) fun w => ?_
  split
  · exact canonical_noLeaf _ _ _
  · exact pure _

theorem canonical_findLeaf (vatp va : Word) (acc : Access) : Keeps State.Canonical (findLeaf vatp va acc) := by
  unfold findLeaf
  refine bind get fun s => ite (canonical_freshLeaf _ _ _) (bind (canonical_walk _ _ _ _) fun w => bind (canonical_chooseLeaf _ _ _) fun w => ?_)
  split
  · exact canonical_noLeaf _ _ _
  · exact pure _

theorem canonical_checkRights (vatp : Word) (m : Mode) (va : Word) (acc : Access) (l : Leaf) :
    Keeps State.Canonical (checkRights vatp m va acc l) := by
  unfold checkRights
  refine ite (canonical_noLeaf _ _ _) (bind get fun s => ?_)
  split
  · exact canonical_noLeaf _ _ _
  · exact pure _

theorem canonical_translateBy (vatp : Word) (m : Mode) (va : Word) (acc : Access) (l : Leaf) :
    Keeps State.Canonical (translateBy vatp m va acc l) := by
  unfold translateBy
  have hf (t : Target) : Keeps State.Canonical (do found va.toNat; return t) := bind (modify fun _ h => h) fun _ => pure _
  exact bind (canonical_checkRights _ _ _ _ _) fun t => bind get fun s =>
    ite (bind (canonical_freshLeaf _ _ _) fun l => bind (canonical_checkRights _ _ _ _ _) hf) (bind (pure _) hf)

theorem canonical_translate (vatp : Word) (m : Mode) (va : Word) (acc : Access) :
    Keeps State.Canonical (translate vatp m va acc) := by
  unfold translate
  refine ite ?_ (bind (canonical_findLeaf _ _ _) fun l => canonical_translateBy _ _ _ _ _)
  refine bind get fun s => ?_
  split
  · exact raise _ _ _
  · exact pure _

theorem canonical_useLeaf (vatp : Word) (acc : Access) (t : Target) : Keeps State.Canonical (useLeaf vatp acc t) := by
  unfold useLeaf
  split
  · exact pure _
  · exact bind (canonical_setAD _ _) fun _ => canonical_cacheLeaf _ _ _

theorem canonical_lookupAs (c : Fin 192) (w : Vector Word 4) (vatp : Word) (m : Mode) (va : Word) (acc : Access) :
    Keeps State.Canonical (lookupAs c w vatp m va acc) := by
  unfold lookupAs
  split
  · exact bind get fun s => ite (raise _ _ _) (pure _)
  · refine bind (canonical_translate _ _ _ _) fun t => ?_
    unfold guardMgmt
    split
    · exact ite (raise _ _ _) (pure _)
    · exact pure _

theorem canonical_resolveAs (c : Fin 192) (w : Vector Word 4) (vatp : Word) (m : Mode) (va : Word) (acc : Access) :
    Keeps State.Canonical (resolveAs c w vatp m va acc) :=
  bind (canonical_lookupAs _ _ _ _ _ _) fun _ => bind (canonical_useLeaf _ _ _) fun _ => pure _

theorem canonical_lookup (va : Word) (acc : Access) : Keeps State.Canonical (lookup va acc) := by
  refine bind get fun s => ?_
  split
  · exact pure _
  · exact bind (canonical_lookupAs _ _ _ _ _ _) fun _ => bind (modify fun _ h => h) fun _ => pure _

/-- Resolving an address keeps the canonical form: a walk recalls dirty bytes, and may set A and D bits. -/
theorem canonical_resolve (va : Word) (acc : Access) : Keeps State.Canonical (resolve va acc) := by
  unfold resolve
  refine bind (canonical_lookup _ _) fun p => ?_
  obtain ⟨t, held⟩ := p
  exact ite (bind get fun _ => bind (canonical_useLeaf _ _ _) fun _ => pure _) (pure _)

/-! ### Accesses -/

theorem canonical_onHart (f : Hart → Hart) : Keeps State.Canonical (Machine.onHart f) := onHart fun _ h => h

theorem canonical_aligned (va : Word) (n : Nat) (k : AccessKind) : Keeps State.Canonical (aligned va n k) := raiseIf _ _ _ _
theorem canonical_noShelf (t : Target) (acc : Access) : Keeps State.Canonical (noShelf t acc) := by
  unfold noShelf
  split
  · exact raise _ _ _
  · exact pure _

theorem canonical_claim (ks : List Nat) (n : Nat) : Keeps State.Canonical (claim ks n) :=
  withState fun _ h => ite (bind (set h) fun _ => throw _) (set h)

theorem canonical_hostBytes : ∀ (n a : Nat), Keeps State.Canonical (hostBytes a n)
  | 0, _ => pure _
  | n + 1, a => by
    unfold hostBytes
    refine bind canonical_takeFree fun k => ?_
    have tail : Keeps State.Canonical (do
        let b := (← MonadState.get).mem.get (hostBase + a)
        return b :: (← hostBytes (a + 1) n) : M (List Byte)) :=
      bind get fun s => bind (canonical_hostBytes n (a + 1)) fun _ => pure _
    split
    · exact bind canonical_takeFree fun k => bind (modify fun s h => ⟨Memory.wf_set _ _ h.1, h.2⟩) fun _ => tail
    · exact tail

theorem canonical_readCell (va : Word) (k n : Nat) (d : Bool) (a : AccessKind) : Keeps State.Canonical (readCell va k n d a) := by
  unfold readCell
  exact bind get fun s => bind (waitIf _) fun _ => bind (raiseIf _ _ _ _) fun _ =>
    ite (bind (modify fun s h => State.Canonical.drawBack k h) fun _ => pure _) (pure _)

theorem canonical_askRemote (dev off n : Nat) (c : Ocls) (nth : Nat) (mk : Packet → Packet) (msg : Packet → OutMsg) (k : AccessKind) :
    Keeps State.Canonical (askRemote dev off n c nth mk msg k) := by
  unfold askRemote
  refine bind get fun s => ?_
  split
  · exact ite (raise _ _ _) (pure _)
  · exact ite (raise _ _ _) (ite (throw _) (throw _))
theorem canonical_postRemote (dev off n : Nat) (c : Ocls) (b m : List Byte) : Keeps State.Canonical (postRemote dev off n c b m) := by
  unfold postRemote
  exact bind get fun s => ite (raise _ _ _) (ite (throw _) (modify fun _ h => h))

theorem canonical_mgmtRead : ∀ (n off : Nat), Keeps State.Canonical (mgmtRead off n)
  | 0, _ => pure _
  | n + 1, off => by
    unfold mgmtRead
    refine bind get fun s => ?_
    split
    · exact bind (pure _) fun _ => bind (canonical_mgmtRead n _) fun _ => pure _
    · exact bind canonical_takeFree fun _ => bind (pure _) fun _ => bind (canonical_mgmtRead n _) fun _ => pure _

/-- A scalar read keeps the canonical form, whatever its address reaches. -/
theorem canonical_readTarget (t : Target) (n nth : Nat) (w : Bool) : Keeps State.Canonical (readTarget t n nth w) := by
  unfold readTarget
  refine bind get fun s => ?_
  split
  · exact canonical_readCell _ _ _ _ _
  · exact canonical_readCell _ _ _ _ _
  · exact pure _
  · exact bind (canonical_mgmtRead _ _) fun _ => pure _
  · exact bind (canonical_hostBytes _ _) fun _ => pure _
  · exact bind (canonical_askRemote _ _ _ _ _ _ _ _) fun _ => bind (raiseIf _ _ _ _) fun _ => pure _

theorem canonical_writeCells (ks : List Nat) (n v : Nat) {wr : State → Nat → Nat → Nat → State}
    (hw : ∀ s k n v, s.Canonical → (wr s k n v).Canonical) : Keeps State.Canonical (writeCells ks n v wr) := by
  unfold writeCells
  exact bind get fun s => bind (waitIf _) fun _ => forM' (fun k => modify fun s h => hw s k n v h) ks

/-- A scalar write keeps the canonical form, whatever its address reaches. -/
theorem canonical_writeTarget (t : Target) (n v : Nat) : Keeps State.Canonical (writeTarget t n v) := by
  unfold writeTarget
  have hw : ∀ (s : State) (k n v : Nat), s.Canonical →
      ((if t.uncached then State.storeDirect else State.storeScalar) s k n v).Canonical := by
    intro s k n v h
    split
    · exact State.Canonical.storeDirect _ _ _ h
    · exact State.Canonical.storeScalar _ _ _ h
  refine bind get fun s => ?_
  dsimp only
  split
  · exact canonical_writeCells _ _ _ hw
  · exact canonical_writeCells _ _ _ hw
  · exact pure _
  · exact pure _
  · exact modify fun s h => State.Canonical.storeDirect _ _ _ h
  · exact canonical_postRemote _ _ _ _ _ _

theorem canonical_setWatch (t : Target) : Keeps State.Canonical (setWatch t) := bind get fun _ => canonical_onHart _
theorem canonical_deviceOrder (t : Target) : Keeps State.Canonical (deviceOrder t) := bind get fun _ => waitIf _
theorem canonical_issueWatch (t : Target) : Keeps State.Canonical (issueWatch t) := by
  unfold issueWatch
  exact bind get fun s => ite (canonical_setWatch t) (pure _)
theorem canonical_readWatch (t : Target) : Keeps State.Canonical (readWatch t) := by
  unfold readWatch
  exact bind get fun s => ite (pure _) (canonical_setWatch t)

theorem canonical_scalarLoad (va : Word) (n : Nat) : Keeps State.Canonical (scalarLoad va n) := by
  unfold scalarLoad
  exact bind (canonical_aligned _ _ _) fun _ => bind (canonical_resolve _ _) fun t => bind (canonical_noShelf _ _) fun _ =>
    bind (canonical_deviceOrder _) fun _ => bind (canonical_issueWatch _) fun _ => bind (canonical_readTarget _ _ _ _) fun _ =>
    bind (canonical_readWatch _) fun _ => pure _
theorem canonical_scalarStore (va : Word) (n v : Nat) : Keeps State.Canonical (scalarStore va n v) := by
  unfold scalarStore
  exact bind (canonical_aligned _ _ _) fun _ => bind (canonical_resolve _ _) fun t => bind (canonical_noShelf _ _) fun _ =>
    bind (canonical_deviceOrder _) fun _ => canonical_writeTarget _ _ _

/-- The reads of a vector instruction keep the canonical form. -/
theorem canonical_readAcc (l : List RemoteAnswer) (a : VAcc) : Keeps State.Canonical (readAcc l a) := by
  unfold readAcc
  refine bind get fun s => ?_
  dsimp only
  split
  · exact bind (canonical_mgmtRead _ _) fun _ => pure _
  · exact bind (canonical_hostBytes _ _) fun _ => pure _
  · split
    · exact ite (pure _) (pure _)
    · exact pure _
  · split
    · exact pure _
    · exact pure _
theorem canonical_askRuns (c : Ocls) : ∀ (l : List (Nat × Nat × Nat)) (d : List (Nat × Nat)), Keeps State.Canonical (askRuns c d l)
  | [], _ => pure _
  | (dev, off, n) :: t, d => by
    unfold askRuns
    exact bind (canonical_askRemote _ _ _ _ _ _ _ _) fun _ => bind (canonical_askRuns c t _) fun _ => pure _
theorem canonical_readAccs (c : Ocls) (l : List VAcc) : Keeps State.Canonical (readAccs c l) := by
  unfold readAccs
  exact bind get fun s => bind (waitIf _) fun _ => bind (canonical_askRuns _ _ _) fun a =>
    bind (forM' (fun k => modify fun s h => State.Canonical.drawBack _ h) _) fun _ =>
    mapM (fun x => bind (canonical_readAcc _ _) fun _ => pure _) l

/-- The writes of a vector instruction keep the canonical form. -/
theorem canonical_writeAccs (c : Ocls) (l : List (VAcc × Nat)) : Keeps State.Canonical (writeAccs c l) := by
  unfold writeAccs
  refine bind get fun s => bind (waitIf _) fun _ => bind ?_ fun _ => ?_
  · unfold writeBlocks
    refine forM' (fun p => ?_) _
    unfold writeRemote
    exact bind (canonical_askRemote _ _ _ _ _ _ _ _) fun _ => pure _
  · exact bind (modify fun s h => State.Canonical.putCells _ _ h) fun _ => canonical_onHart _

theorem canonical_countRequests (w : Bool) (l : List VAcc) : Keeps State.Canonical (countRequests w l) := modify fun _ h => h

/-- Work whose traps are answers keeps what it keeps, for it ends in its own state or in the one it began in (R314). -/
theorem orRejected {α : Type} {P : State → Prop} {m : M (Option α)} (hf : ∀ (s : State) (n : Nat), P s → P { s with free := n })
    (h : Keeps P m) : Keeps P (orRejected m) := by
  intro s hs
  have h1 := h s hs
  unfold Machine.orRejected
  cases hms : m s with
  | ok a s' => cases a with
    | none => exact hf _ _ hs
    | some a => rw [hms] at h1; exact h1
  | error e s' => cases e <;> exact hf _ _ hs

end Keeps

end Sys2Proof.Machine
end

