-- ==== Sys2Proof/Tests/Slice0.lean ====
section
/-! SUPPORT. Tests: words written out from the encodings of spec/ and what they decode to; ill-formed terms that the checks refuse; one step
of small states, with results from the spec's tables and worked examples; and a state for each hypothesis of the statements. -/
namespace Sys2Proof.Tests
set_option Elab.async false
open Sys2Proof Sys2Proof.Machine Sys2Proof.Safety

/-! ### Small states -/

/-- One hart in supervisor mode and bare mode, at pc 0. -/
def base : State := State.reset.ready
/-- A hart with some scalar registers. -/
def regs (l : List (SReg × Word)) (s : State) : State := l.foldl (fun s p => s.setS p.1 p.2) s
/-- The hart changed. -/
def onH (f : Hart → Hart) (s : State) : State := { s with hart := f s.hart }
/-- The hart in user mode. -/
def user (s : State) : State := onH (fun h => { h with mode := .user }) s
/-- A register of the vector unit with a tag and some elements. -/
def vec (r : VIdx) (t : Tag) (l : List Nat) (s : State) : State :=
  onH (fun h => (h.setElems r t (l.zipIdx.map fun p => (p.2, p.1))).setTag r t) s
/-- vl. -/
def len (n : Nat) (s : State) : State := onH (fun h => { h with vl := BitVec.ofNat 16 n }) s
/-- Dwords in local memory, little-endian, in memory and the L2. -/
def dwords (a : Nat) (l : List Nat) (s : State) : State := s.placeBytes a (l.flatMap fun v => bytesOf v 8)
/-- What a step gives, or nothing where it does not go on. -/
def gives (o : Out) (f : State → Nat) : Option Nat := match o with | .next t => some (f t) | _ => none
/-- The state after an instruction. -/
def after (i : Instr) (s : State) : State := match exec i s with | .next t => t | _ => s
/-- The instruction of two parcels. -/
def reads (p0 p1 : Parcel) : Option Instr := (decode p0 p1).toOption
/-- The cause, the eval and the recorded pc of a trap in progress. -/
def trapOf (t : State) : Bool × Nat × Nat × Nat := (t.hart.estat.tip, t.hart.ecause.toNat, t.hart.eval.toNat, t.hart.epc.toNat)

/-! ### Words, written out bit by bit from the encodings of spec/ -/

-- R57: fn 31:22 | b 21:17 | a 16:12 | d 11:7 | major 6:2 | space 1:0; R79 gives ADD fn 1
theorem test_word_add : reads 0b0000000001_00100_01001_01001_00000_00 0 = some (.add 9 9 4) := by decide
-- R57: imm15 31:17 | a | d | major 1 | 00
theorem test_word_addi : reads 0b111111111110100_00100_00011_00001_00 0 = some (.addi 3 4 (-12)) := by decide
-- R57: imm20 31:12 | d | major 7 | 00
theorem test_word_lih : reads 0b00010010001101000101_00101_00111_00 0 = some (.lih 5 0x12345) := by decide
-- R58, R96: fn 1, imm8 0b0101, major 0x11
theorem test_word_drain : reads 0x020A0044 0 = some (.drain true false true false) := by decide
theorem test_word_loopn : reads 0x00006040 0 = some (.loopn 6 0) := by decide
theorem test_word_qrd : reads 0x000003C4 0 = some (.qrd 7) := by decide
-- R349, R58: space 1, major 0
theorem test_word_trap : reads 0x000A0001 0 = some (.trap 5) := by decide
theorem test_word_ebreak : reads 0x04020001 0 = some (.ebreak 1) := by decide
theorem test_word_eret : reads 0x02000001 0 = some Instr.eret := by decide
-- R58: space 1, majors 1, 2 and 3
theorem test_word_launch : reads 0x0000A005 0 = some (.launch 10) := by decide
theorem test_word_ppt : reads 0x0C020005 0 = some (.ppt 1) := by decide
theorem test_word_fence : reads 0x00B80009 0 = some (.fence .package true true false true) := by decide
theorem test_word_clean : reads 0x0200A009 0 = some (.clean 10) := by decide
theorem test_word_flush : reads 0x0400A009 0 = some (.flush 10) := by decide
theorem test_word_inval : reads 0x0600A009 0 = some (.inval 10) := by decide
theorem test_word_iinv : reads 0x0800A009 0 = some (.iinv 10) := by decide
theorem test_word_fetchb : reads 0x0A000009 0 = some Instr.fetchb := by decide
theorem test_word_ewait : reads 0x0006A00D 0 = some (.ewait 3 10) := by decide
theorem test_word_epoll : reads 0x0206058D 0 = some (.epoll 11 3) := by decide
theorem test_word_ecancel : reads 0x0406060D 0 = some (.ecancel 12 3) := by decide
-- the vector words of 05 to 09, 17 and 19
theorem test_word_mpop : reads 0x000900A3 0 = some (.mpop 9 false) := by decide
theorem test_word_mfirst : reads 0x000900A3 2 = some (.mfirst 9 false) := by decide
theorem test_word_vcvts : reads 0x000C346F 0x7A = some (.vcvts true false .e4m3 ⟨13, 12, .none, false⟩) := by decide
theorem test_word_vslideup : reads 0x00021283 0x300 = some (.vslideup ⟨4, 2, .none, .vi 3, false⟩) := by decide
theorem test_word_vtopk : reads 0x00022AA7 0x800 = some (.vtopk ⟨10, 2, .none, .vi 8, false⟩) := by decide
theorem test_word_ctbl_w : reads 0x001800BB 0 = some (.ctblW 0 24) := by decide
theorem test_word_ctbl_swap : reads 0x000000BB 2 = some (.ctblSwap 0) := by decide
theorem test_word_vldq : reads 0x000021CB 0xA400 = some (.vldq ⟨8, 4, 0, false⟩ 5) := by decide
theorem test_word_vmstore : reads 0x008021F3 0x400 = some (.vmstore ⟨8, 4, 0, false⟩ 2) := by decide
theorem test_word_vsred : reads 0x01C019E7 0x400 = some (.vsredAdd ⟨6, 4, 0, false⟩ 7) := by decide
theorem test_word_vamo : reads 0x01CC19EF 0x100404 = some (.vamoOr ⟨6, 12, 7, 4, .package, false⟩) := by decide
theorem test_word_finter : reads 0x08A09073 8 = some (.finterMul 2 0 1) := by decide
theorem test_word_fpos : reads 0x08A09873 0x14 = some (.fpos 3 0 1) := by decide
theorem test_word_fldlvl : reads 0x00049173 0x604 = some (.fldlvl 2 6 0 4) := by decide
theorem test_word_flen : reads 0x00008973 0x506 = some (.flen 1 5) := by decide
theorem test_word_fsend : reads 0x00008973 0x12816 = some (.fsend 1 8 0 9) := by decide
theorem test_word_ixacc : reads 0x01440077 6 = some (.ixaccAdd 4 5) := by decide
theorem test_word_ixdrain : reads 0x00009877 8 = some (.ixdrain 3) := by decide
theorem test_word_ixcnt : reads 0x00000077 0xA = some Instr.ixcnt := by decide
theorem test_word_tzero : reads 0x0000007B 0x20 = some (.tzero 2) := by decide
theorem test_word_tld : reads 0x0000017B 0xA4022 = some (.tld 2 4 5) := by decide
theorem test_word_tmv : reads 0x0000157B 0x80026 = some (.tmvTileToVector 5 2 4) := by decide
theorem test_word_tfill : reads 0x0000007B 0x3AA = some (.tfill 2 3) := by decide
theorem test_word_opa : reads 0x0248007F 0x3A0 = some (.opa false 2 8 9 (some 3)) := by decide
theorem test_word_opag : reads 0x0248007F 0xA024 = some (.opag false 2 8 9 10 none) := by decide
theorem test_word_tmma : reads 0x0000017F 0x4026 = some (.tmma false 2 4 none) := by decide
theorem test_word_scout_a : reads 0x024818F7 0x30 = some (.scoutA 6 3 8 9) := by decide
theorem test_word_scout_t : reads 0x00061CF7 0x302 = some (.scoutT 3 7 6) := by decide
theorem test_word_kand : reads 0x000000F7 0x2314 = some (.kand 3 1 2) := by decide
theorem test_word_kpop : reads 0x000000F7 0x308 = some (.kpop 3) := by decide
theorem test_word_ecmd : reads 0x001008FB 0 = some (.ecmdCpe 2 16 false) := by decide
theorem test_word_savev : reads 0x000001FB 0xA02 = some (.savev 10) := by decide
-- R72: parcel 0 is illegal; a non-zero bit in a field marked zero is illegal
theorem test_word_zero : reads 0 0 = none := by decide
theorem test_word_reserved_bit : reads 0x020A1044 0 = none := by decide

/-! ### Terms that the checks of `Instr.wf` refuse -/

theorem test_wf_amo_add_q : (Instr.amoAdd .package .q 2 4 6).wf = false := by decide
theorem test_wf_amo_cas_odd : (Instr.amoCas .package .q 3 4 6).wf = false := by decide
theorem test_wf_amo_cas_even : (Instr.amoCas .package .q 2 4 6).wf = true := by decide
theorem test_wf_drain_none : (Instr.drain false false false false).wf = false := by decide
theorem test_wf_fence_no_earlier : (Instr.fence .core false false true true).wf = false := by decide
theorem test_wf_fence_no_later : (Instr.fence .core true true false false).wf = false := by decide
theorem test_wf_header_short : (Instr.convoyHeader [.ldp]).wf = false := by decide
theorem test_wf_header_long : (Instr.convoyHeader (List.replicate 7 .ldp)).wf = false := by decide
theorem test_wf_vrsub_vv : (Instr.vrsub false ⟨1, 2, .none, .vv 3 .none, false⟩).wf = false := by decide
theorem test_wf_vdiv_vi : (Instr.vdiv ⟨1, 2, .none, .vi 3, false⟩).wf = false := by decide
theorem test_wf_vmv_vb : (Instr.vmv ⟨1, 2, .none, .vv 3 .none, false⟩).wf = false := by decide
theorem test_wf_vmv_va : (Instr.vmv ⟨1, 2, .none, .vi 3, false⟩).wf = false := by decide
theorem test_wf_vmerge_unmasked : (Instr.vmerge ⟨1, 2, .none, .vi 3, false⟩).wf = false := by decide
theorem test_wf_mand_vx : (Instr.mand ⟨1, 2, .none, .vx 3, false⟩).wf = false := by decide
theorem test_wf_slide_vv : (Instr.vslideup ⟨1, 2, .none, .vv 3 .none, false⟩).wf = false := by decide
theorem test_wf_gather_neighbour : (Instr.vrgather ⟨1, 2, .l, .vv 3 .none, false⟩).wf = false := by decide
theorem test_wf_compress_unmasked : (Instr.vcompress ⟨1, 2, .none, false⟩).wf = false := by decide
theorem test_wf_zip_vi : (Instr.vzip false ⟨1, 2, .none, .vi 3, false⟩).wf = false := by decide
theorem test_wf_reduction_neighbour : (Instr.vredsum ⟨1, 2, .r, false⟩).wf = false := by decide
theorem test_wf_vmvxs_vv : (Instr.vmvxs 1 (.vv 2 .none) false).wf = false := by decide

/-! ### One instruction on a small state -/

-- R79: addition wraps; R80: SRA keeps the sign; MULH takes the high half of a signed product
theorem test_add_wraps : gives (exec (.add 5 1 2) (regs [(1, 0xFFFFFFFFFFFFFFFF), (2, 2)] base)) (fun t => (t.getS 5).toNat) = some 1 := by
  decide +kernel
theorem test_s0_stays_zero : gives (exec (.addi 0 0 7) base) (fun t => (t.getS 0).toNat) = some 0 := by decide +kernel
theorem test_sra_sign : gives (exec (.sra 5 1 2) (regs [(1, 0x8000000000000000), (2, 68)] base)) (fun t => (t.getS 5).toNat)
    = some 0xF800000000000000 := by decide +kernel
theorem test_mulh_minus_one : gives (exec (.mulh 5 1 1) (regs [(1, 0xFFFFFFFFFFFFFFFF)] base)) (fun t => (t.getS 5).toNat) = some 0 := by
  decide +kernel
-- R80: the division corners
theorem test_div_zero : gives (exec (.div 5 1 0) (regs [(1, 7)] base)) (fun t => (t.getS 5).toNat) = some 0xFFFFFFFFFFFFFFFF := by
  decide +kernel
theorem test_div_overflow : gives (exec (.div 5 1 2) (regs [(1, 0x8000000000000000), (2, 0xFFFFFFFFFFFFFFFF)] base))
    (fun t => (t.getS 5).toNat) = some 0x8000000000000000 := by decide +kernel
theorem test_rem_zero : gives (exec (.rem 5 1 0) (regs [(1, 7)] base)) (fun t => (t.getS 5).toNat) = some 7 := by decide +kernel
theorem test_clz_zero : gives (exec (.clz 5 0) base) (fun t => (t.getS 5).toNat) = some 64 := by decide +kernel
-- R86, R87: a taken branch backwards; JALR to an address that is no multiple of 4
theorem test_blt_signed : gives (exec (.blt 1 0 (-2)) (regs [(1, 0xFFFFFFFFFFFFFFFF)] (onH (fun h => { h with pc := 0x100 }) base)))
    (fun t => t.hart.pc.toNat) = some 0xF8 := by decide +kernel
theorem test_jalr_misaligned : (after (.jalr 5 0 6) base |> trapOf) = (true, 3, 6, 0) := by decide +kernel
-- R83: little-endian, sign and zero extension; a store leaves the next byte
theorem test_ld_sign : gives (exec (.ld .h 5 1 2) (regs [(1, 0x1000)] (dwords 0x1000 [0x80FF0000] base))) (fun t => (t.getS 5).toNat)
    = some 0xFFFFFFFFFFFF80FF := by decide +kernel
theorem test_ldz : gives (exec (.ldz .h 5 1 2) (regs [(1, 0x1000)] (dwords 0x1000 [0x80FF0000] base))) (fun t => (t.getS 5).toNat)
    = some 0x80FF := by decide +kernel
theorem test_st_low_bytes : gives (exec (.st .h 2 1 0) (regs [(1, 0x1000), (2, 0x123456)] (dwords 0x1000 [0xAABBCCDD] base)))
    (fun t => t.mem.read (localKey 0x1000) 4) = some 0xAABB3456 := by decide +kernel
-- R287: MIN is signed, MINN is not; a CAS whose compare fails writes nothing
theorem test_amo_min : gives (exec (.amoMin .package .w 5 1 2) (regs [(1, 0x1000), (2, 0xFFFFFFFF)] (dwords 0x1000 [1] base)))
    (fun t => t.mem.read (localKey 0x1000) 4) = some 0xFFFFFFFF := by decide +kernel
theorem test_amo_minn : gives (exec (.amoMinn .package .w 5 1 2) (regs [(1, 0x1000), (2, 0xFFFFFFFF)] (dwords 0x1000 [1] base)))
    (fun t => t.mem.read (localKey 0x1000) 4) = some 1 := by decide +kernel
theorem test_amo_cas_fails : gives (exec (.amoCas .package .d 5 1 2) (regs [(1, 0x1000), (2, 9), (5, 8)] (dwords 0x1000 [7] base)))
    (fun t => t.mem.read (localKey 0x1000) 8 + 100 * (t.getS 5).toNat) = some 707 := by decide +kernel
-- R27: QRD with nothing owed; R90: a LOOPN descriptor with no levels; R346: what a trap records
theorem test_qrd_empty : trapOf (after (.qrd 7) base) = (true, 1, 0x3C4, 0) := by decide +kernel
theorem test_loopn_no_levels : trapOf (after (.loopn 1 0) (regs [(1, 0x1000)] base)) = (true, 2, 0, 0) := by decide +kernel
theorem test_loopn_one_level : gives (exec (.loopn 1 0) (regs [(1, 0x1000)] (dwords 0x1000 [1, 2, 0, 0, 0] (dwords 4 [0x00489480] base))))
    (fun t => t.hart.pc.toNat + 100 * (if t.hart.loop.isSome then 1 else 0)) = some 104 := by decide +kernel
theorem test_trap_records : trapOf (after (.trap 5) (onH (fun h => { h with pc := 0x40 }) base)) = (true, 12, 5, 0x44) := by decide +kernel
theorem test_eret_in_user : trapOf (after .eret (user base)) = (true, 1, 0x02000001, 0) := by decide +kernel
theorem test_csr_plog_kept : gives (exec (.csrw .vcfg 1) (regs [(1, 0x13)] base)) (fun t => t.hart.vcfg.plog.val + 10 * (rmCode t.hart.vcfg.rm))
    = some 10 := by decide +kernel
theorem test_csr_reserved_rm : (after (.csrw .vcfg 1) (regs [(1, 0x70)] base)).hart.estat.tip = true := by decide +kernel
-- R13: VLMAX of I8 with P = 1 is 8,192
theorem test_vsetvl : gives (exec (.vsetvl 5 1 .i8) (regs [(1, 10000)] base)) (fun t => t.hart.vl.toNat + 10000 * (t.getS 5).toNat)
    = some 81928192 := by decide +kernel
-- R105: the worked example of vadd and vadd.sat on I8, and of I8 with I16; R109: shift amounts modulo the width
theorem test_vadd_example : gives (exec (.vadd false ⟨4, 2, .none, .vv 3 .none, false⟩)
    (len 4 (vec 2 .i8 [100, 156, 127, 5] (vec 3 .i8 [100, 156, 1, 249] base)))) (fun t => ofBytes ([0, 1, 2, 3].map fun e => BitVec.ofNat 8 (t.hart.elem 4 .i8 e)))
    = some 0xFE8038C8 := by decide +kernel
theorem test_vadd_i8_i16 : gives (exec (.vadd false ⟨4, 2, .none, .vv 3 .none, false⟩)
    (len 2 (vec 2 .i8 [100, 156] (vec 3 .i16 [100, 65436] base)))) (fun t => t.hart.elem 4 .i16 0 + 65536 * t.hart.elem 4 .i16 1)
    = some 0xFF3800C8 := by decide +kernel
theorem test_vadd_sat : gives (exec (.vadd true ⟨3, 1, .none, .vi 1, false⟩) (len 1 (vec 1 .i8 [0x7F, 5] (vec 3 .i8 [0, 9] base))))
    (fun t => t.hart.elem 3 .i8 0 + 256 * t.hart.elem 3 .i8 1) = some (0x7F + 256 * 9) := by decide +kernel
theorem test_vsll_modulo : gives (exec (.vsll ⟨3, 1, .none, .vi 9, false⟩) (len 1 (vec 1 .n8 [0x81] base))) (fun t => t.hart.elem 3 .n8 0)
    = some 2 := by decide +kernel
-- R31: FP32 1.0 + 2^-24 rounds to even with NX; division by zero sets DZ
theorem test_vadd_float : gives (exec (.vadd false ⟨3, 1, .none, .vv 2 .none, false⟩) (len 1 (vec 1 .f32 [0x3F800000] (vec 2 .f32 [0x33800000] base))))
    (fun t => t.hart.elem 3 .f32 0 + (if t.hart.fflags.nx then 2 ^ 32 else 0)) = some (0x3F800000 + 2 ^ 32) := by decide +kernel
theorem test_vdiv_zero : gives (exec (.vdiv ⟨3, 1, .none, .vv 2 .none, false⟩) (len 1 (vec 1 .f32 [0x3F800000] (vec 2 .f32 [0] base))))
    (fun t => t.hart.elem 3 .f32 0 + (if t.hart.fflags.dz then 2 ^ 32 else 0)) = some (0x7F800000 + 2 ^ 32) := by decide +kernel
-- R100: vl above VLMAX is an operand trap; R22: a gated bank names its register
theorem test_vl_above : trapOf (after (.vadd false ⟨3, 1, .none, .vi 1, false⟩) (len 1025 (vec 1 .n64 [] base))) = (true, 2, 0, 0) := by decide +kernel
theorem test_gated : trapOf (after (.vadd false ⟨3, 9, .none, .vi 1, false⟩) (onH (fun h => { h with vgate := h.vgate.set 1 ⟨.gated, false⟩ }) base))
    = (true, 9, 9, 0) := by decide +kernel
-- R114, R124, R126, R127: a compare, a sum, the masks counted
theorem test_vcmp : gives (exec (.vcmpLt ⟨3, 1, .none, .vi 2, false⟩) (len 3 (vec 1 .i32 [1, 2, 0xFFFFFFFF] base))) (fun t => t.hart.elem 3 .n8 0)
    = some 5 := by decide +kernel
theorem test_vredsum : gives (exec (.vredsum ⟨3, 1, .none, false⟩) (len 3 (vec 1 .n8 [200, 100, 7] base))) (fun t => t.hart.elem 3 .n8 0)
    = some 51 := by decide +kernel
theorem test_mpop : gives (exec (.mpop 1 false) (len 6 (vec 1 .n8 [0xF5] base))) (fun t => ((t.hart.retq.headD 0).toNat)) = some 4 := by decide +kernel
theorem test_mfirst_none : gives (exec (.mfirst 1 false) (len 6 (vec 1 .n8 [0xC0] base))) (fun t => ((t.hart.retq.headD 0).toNat))
    = some 0xFFFFFFFFFFFFFFFF := by decide +kernel
-- R121: a slide down past vl reads zero with edge zero
theorem test_vslidedn : gives (exec (.vslidedn ⟨3, 1, .none, .vi 1, false⟩) (len 2 (vec 1 .n32 [4, 5, 6] base)))
    (fun t => t.hart.elem 3 .n32 0 + 10 * t.hart.elem 3 .n32 1) = some 5 := by decide +kernel
-- R138, R149: unit-stride load and store; a misaligned element names its address
theorem test_vld : gives (exec (.vld ⟨3, 1, 0, false⟩) (regs [(1, 0x1000)] (len 2 (vec 3 .n32 [] (dwords 0x1000 [0x0000000700000009] base)))))
    (fun t => t.hart.elem 3 .n32 0 + 10 * t.hart.elem 3 .n32 1) = some 79 := by decide +kernel
-- R29: a scalar load that was performed before an earlier vector store takes the value from before it; a DRAIN of the dispatch queue ends that
/-- A load of 0x1000 performed early, once the vector store of 7 there is done. -/
def passedStore : State :=
  let s := regs [(1, 0x1000)] (len 1 (vec 3 .i32 [7] (dwords 0x1000 [3] base)))
  match execHere (.vst ⟨3, 1, 0, false⟩) (exec (.vst ⟨3, 1, 0, false⟩)) ((s.loadEarly 0x1000 4).getD s) with | .next t => t | _ => s
theorem test_load_passes_store : gives (execHere (.ld .w 2 1 0) (exec (.ld .w 2 1 0)) passedStore) (fun t => (t.getS 2).toNat + 16 * t.mem.read (localKey 0x1000) 4)
    = some (3 + 16 * 7) := by decide +kernel
theorem test_drain_orders : gives (execHere (.drain true false false false) (exec (.drain true false false false)) passedStore) (fun t => t.hart.early.length)
    = some 0 ∧ passedStore.hart.early.length = 1 := by decide +kernel
theorem test_vst_packed : gives (exec (.vst ⟨3, 1, 0, false⟩) (regs [(1, 0x1000)] (len 3 (vec 3 .i4 [1, 2, 3] (dwords 0x1000 [0xFFFF] base)))))
    (fun t => t.mem.read (localKey 0x1000) 2) = some 0xF321 := by decide +kernel
theorem test_vld_misaligned : trapOf (after (.vld ⟨3, 1, 0, false⟩) (regs [(1, 0x1002)] (len 2 (vec 3 .n32 [] base)))) = (true, 3, 0x1002, 0) := by
  decide +kernel
-- R168, R172: a fibre out of order; the pigeonhole adds to what a key holds
theorem test_fexpand_order : trapOf (after (.fexpand 20 0) (onH (fun h => { h with flen := h.flen.set 0 2 }) (len 4 (vec 32 .n32 [5, 5] (vec 48 .n32 [1, 2] base)))))
    = (true, 2, 1, 0) := by decide +kernel
theorem test_ixacc : gives (exec (.ixaccAdd 1 2) (len 2 (vec 1 .n32 [5, 5] (vec 2 .n32 [3, 4] base)))) (fun t => (t.hart.pigeon.map fun e =>
    e.1.toNat * 100 + e.2.toNat).sum) = some 507 := by decide +kernel
-- R188, R203: TFILL writes minus infinity where the block is not kept; KPOP counts
theorem test_tfill : gives (exec (.tfill 0 0) (onH (fun h => { h with keep := h.keep.set 0 1 }) base)) (fun t => word t.hart 0 0 31 + word t.hart 0 0 32)
    = some 0xFF800000 := by decide +kernel
theorem test_kpop : gives (exec (.kpop 1) (onH (fun h => { h with keep := h.keep.set 1 0xF0 }) base)) (fun t => (t.hart.retq.headD 0).toNat) = some 4 := by
  decide +kernel
-- R223: EWAIT waits, EPOLL reads the error bit above the count
theorem test_ewait_waits : gives (exec (.ewait 3 1) (regs [(1, 1)] base)) (fun t => if t.hart.waiting then 1 else 0) = some 1 := by decide +kernel
theorem test_epoll : gives (exec (.epoll 5 3) (onH (fun h => { h with counters := h.counters.set 3 7, cerr := h.cerr.set 3 true }) base))
    (fun t => (t.getS 5).toNat) = some (7 + 2 ^ 32) := by decide +kernel
-- a step runs what stands at the pc: LIH s5, 0x12345, and the word 0, which is illegal
theorem test_step_lih : gives (step (State.reset.withFetchWord 32 0x1234529C)) (fun t => (t.getS 5).toNat) = some 0x12345000 := by decide +kernel
theorem test_step_zero : gives (step (State.reset.withFetchWord 32 0)) (fun t => t.hart.ecause.toNat) = some 1 := by decide +kernel
theorem test_reset_steps : gives (step State.reset) (fun t => t.nextId) = some 1 := by decide +kernel

-- R267: a parcel fetched ahead stands until a FETCHB
theorem test_fetch_ahead : gives (step { base.placeBytes 0 (bytesOf 0x00489480 4) with schedule := [.ahead 0] }) (fun t => ((t.hart.ahead.map (·.2.toNat)).foldl (· + ·) 0)) = some 0x00489480 := by
  decide +kernel
theorem test_fetchb_discards : gives (exec .fetchb (onH (fun h => { h with ahead := [(0, 5)] }) base)) (fun t => t.hart.ahead.length) = some 0 := by decide +kernel
/-! ### States that meet the hypotheses of the statements -/

/-- Bare mode with no window, no poison and canonical memory. -/
def Untranslated (s : State) : Prop := s.mem.wf = true ∧ s.poison = [] ∧ s.ctx.vatp = 0 ∧ s.ctx.swin = .replicate 4 0
/-- Accesses of such a hart are plain, within local memory and a page. -/
theorem plain_of {s : State} {va : Word} {n : Nat} (hs : Untranslated s) (h1 : va.toNat + n ≤ localTop) (h2 : va.toNat % 4096 + n ≤ 4096) : Plain s va n := by
  obtain ⟨hm, hp, hv, hw⟩ := hs
  refine ⟨hm, ⟨by rw [hv]; decide, ?_⟩, h1, h2, fun j _ => by simp [State.poisoned, hp]⟩
  rw [hw]
  have h : ∀ n : Fin 4, (Vector.replicate 4 0#64).get n = 0#64 := by decide
  simp [findWindow, h]
/-- The same for a run of bytes. -/
theorem plainRun_of {s : State} {a : Word} {n : Nat} (hs : Untranslated s) (hc : s.cmds = [] ∧ s.locks = []) (h1 : a.toNat + n ≤ localTop) : PlainRun s a n := by
  refine ⟨fun k m => by simp [State.writeStalls, State.readStalls, State.locked, hc], fun j hj => ?_⟩
  have h3 : (a + BitVec.ofNat 64 j).toNat = a.toNat + j := by
    have : localTop < 2 ^ 63 := by decide
    rw [BitVec.toNat_add, BitVec.toNat_ofNat]; omega
  have : localTop % 4096 = 0 := by decide
  exact plain_of hs (by omega) (by omega)

/-- Where no atomic waits at any line, none waits at the lines a statement names. -/
theorem none_waits {s : State} {p : Nat → Prop} (h : s.lineWaits = []) : NoneWaits s p := fun w hw => absurd hw (by rw [h]; exact List.not_mem_nil)

-- IntegerResults
theorem witness_integer_frame : ∃ t, scalarTarget (.add 5 1 2) = some 5 ∧ base.hart.loop = none ∧ exec (.add 5 1 2) base = .next t :=
  ⟨_, rfl, by decide +kernel, rfl⟩
theorem witness_integer_frame_trap : ∃ t, scalarTarget (.jalr 5 0 6) = some 5 ∧ base.hart.loop = none ∧ exec (.jalr 5 0 6) base = .next t :=
  ⟨_, rfl, by decide +kernel, rfl⟩
-- BranchesAndJumps
theorem witness_jalr : (BitVec.ofInt 64 ((base.getS 0).toInt + (-4 : BitVec 15).toInt)).toNat % 4 = 0
    ∧ (BitVec.ofInt 64 ((base.getS 0).toInt + (2 : BitVec 15).toInt)).toNat % 4 ≠ 0 := by decide +kernel
-- ScalarLoadsAndStores: the last dword of local memory
theorem witness_scalar_access : let s := regs [(1, 0x2FFFFFFFFF8)] base; let va : Word := 0x2FFFFFFFFF8
    BitVec.ofInt 64 ((s.getS 1).toInt + (0 : BitVec 12).toInt) = va ∧ Plain s va 8 ∧ va.toNat % 8 = 0 ∧ Unbegun s.hart
    ∧ s.readStalls (localKey va.toNat) 8 = false ∧ s.writeStalls (localKey va.toNat) 8 = false ∧ Holds s (localKey va.toNat) 8 0 := by
  refine ⟨by decide +kernel, plain_of (by unfold Untranslated; decide +kernel) (by decide) (by decide),
    by decide, by unfold Unbegun; decide +kernel, by decide +kernel, by decide +kernel, by unfold Holds; decide +kernel⟩
-- ScalarAccessTraps: a misaligned address, one above local memory, a poisoned sector, the host window
theorem witness_scalar_misaligned : Unbegun base.hart ∧ base.hasPosted = false ∧ (BitVec.ofInt 64 ((base.getS 0).toInt + (1 : BitVec 12).toInt)).toNat % Size.bytes .h ≠ 0 := by
  unfold Unbegun; decide +kernel
theorem witness_scalar_nothing : let s := regs [(1, 0x30000000000)] base; (s.getS 1).toNat % 8 = 0 ∧ Unbegun s.hart ∧ Bare s (s.getS 1) ∧ s.home (s.getS 1).toNat 0 0 = none := by
  unfold Bare Unbegun; decide +kernel
theorem witness_scalar_poison : let s := { base with poison := [localKey 0x1000 / 32] }; (0x1000 : Nat) % 8 = 0 ∧ Bare s 0x1000 ∧ 0x1000 < localTop
    ∧ s.readStalls (localKey 0x1000) 8 = false ∧ s.writeStalls (localKey 0x1000) 8 = false ∧ s.poisoned (localKey 0x1000) = true
    ∧ Unbegun s.hart ∧ s.hasPosted = false ∧ NoneWaits s (· = localKey 0x1000 / 128) := by
  refine ⟨?_, ?_, ?_, ?_, ?_, ?_, ?_, ?_, none_waits (by decide +kernel)⟩ <;> (try unfold Bare) <;> (try unfold Unbegun) <;> decide +kernel
theorem witness_amo_host : let s := regs [(1, BitVec.ofNat 64 hostWindow)] base; let x := s.getS 1
    x.toNat % 8 = 0 ∧ Bare s x ∧ hostWindow ≤ x.toNat ∧ x.toNat < hostWindow + 2 ^ 48 := by unfold Bare; decide +kernel
-- AtomicsReturnTheOldValue: a pair, and a CAS that matches
theorem witness_amo : let s := regs [(1, 0x1000), (2, 7), (4, 9)] (dwords 0x1000 [7, 0] base)
    (amoInstr .package .q 2 1 4 .cas).wf = true ∧ Plain s (s.getS 1) 16 ∧ (s.getS 1).toNat % 16 = 0
    ∧ s.writeStalls (localKey (s.getS 1).toNat) 16 = false ∧ NoneWaits s (· = localKey (s.getS 1).toNat / 128) ∧ Unbegun s.hart ∧ s.hasPosted = false
    ∧ Holds s (localKey (s.getS 1).toNat) 16 7 := by
  refine ⟨by decide, plain_of (by unfold Untranslated; decide +kernel) (by decide +kernel) (by decide +kernel),
    by decide +kernel, by decide +kernel, none_waits (by decide +kernel), by unfold Unbegun; decide +kernel, by decide +kernel, by unfold Holds; decide +kernel⟩
-- CsrReadsOrTraps
theorem witness_csr_read : MayRead (user base).hart.mode .vl ∧ ¬ MayRead (user base).hart.mode .vatp := ⟨trivial, by unfold MayRead; decide +kernel⟩
theorem witness_csr_no_write : ¬ MayWrite base.hart.mode .ncores ∧ ¬ MayWrite (user base).hart.mode .evec := ⟨id, by unfold MayWrite; decide +kernel⟩
theorem witness_csr_reserved : let s := regs [(1, 0x3 * 2 ^ 32)] base; MayWrite s.hart.mode .kthr ∧ Reserved .kthr (s.getS 1) :=
  ⟨trivial, by unfold Reserved; decide +kernel⟩
theorem witness_csr_e8m0 : let s := regs [(1, 19)] base; (0 : VIdx) ≠ 1 ∧ (s.getS 1).toNat % 32 = 19 := by decide +kernel
-- CsrWrites
theorem witness_csr_write : let s := regs [(1, 0x50)] base; MayWrite s.hart.mode .vcfg ∧ ¬ Reserved .vcfg (s.getS 1) ∧ Csr.vcfg ≠ .vgate
    ∧ ∀ n, Csr.vcfg = .vtag n → (s.getS 1).toNat % 32 = 19 → n = 1 :=
  ⟨trivial, by unfold Reserved; decide +kernel, by decide, fun _ h => nomatch h⟩
theorem witness_csr_tag : let s := regs [(1, 19)] base; MayWrite s.hart.mode (.vtag 1) ∧ ¬ Reserved (.vtag 1) (s.getS 1) ∧ Csr.vtag 1 ≠ .vgate :=
  ⟨trivial, by unfold Reserved; decide +kernel, by decide⟩
theorem witness_csr_supervisor : MayWrite base.hart.mode .vatp ∧ ¬ Reserved .vatp 0xA000000000000001 ∧ base.inFlight = false :=
  ⟨by unfold MayWrite; decide +kernel, by unfold Reserved; decide, by decide +kernel⟩
theorem witness_gate : let v : Word := 0x26102610; ∀ b < 8, v.toNat / 2 ^ (4 * b) % 4 ≠ 3 := by decide
theorem witness_context_write : base.hart.status = .resident ∧ base.hart.mode = .supervisor ∧ (0xA000000000000000 : Word).toNat / 2 ^ 60 = 10
    ∧ base.inFlight = false := by
  decide +kernel
/-- Work gives a value and a state of which `p` holds. -/
def okAnd {α : Type} (m : M α) (s : State) (p : α → State → Bool) : Bool := match m s with | .ok a t => p a t | .error _ _ => false
theorem ok_of {α : Type} {m : M α} {s : State} {p : α → State → Bool} (h : okAnd m s p = true) : ∃ a t, m s = .ok a t ∧ p a t = true := by
  unfold okAnd at h
  cases hm : m s with
  | ok a t => exact ⟨a, t, rfl, by rw [hm] at h; exact h⟩
  | error e t => rw [hm] at h; exact absurd h (by simp)

/-- A loop of six levels at its last parcel, whose levels below `m` are spent. -/
def sixLevels (m : Fin 7) : LoopState :=
  ⟨6, 4, 8, .replicate 6 0, Vector.ofFn fun j => ⟨if j.val < m.val then 2 else 1, .replicate 3 ⟨5, 3⟩⟩, [0x00489480]⟩
def inLoop (m : Fin 7) : Hart := { base.hart with loop := some (sixLevels m), pc := 4 }
-- WhereExecutionGoesOn: an outer level counts; every level is spent; outside the body; a branch inside it
theorem witness_back_edge : let h := inLoop 1; let l := sixLevels 1; h.loop = some l ∧ l.levels ≤ 6 ∧ h.pc + BitVec.ofNat 64 4 = l.stop
    ∧ (0 : Fin 6).val < l.levels ∧ ¬ Spent l 0 ∧ ∀ j : Fin 6, 0 < j → j.val < l.levels → Spent l j := by
  unfold Spent; decide +kernel
theorem witness_all_spent : let h := inLoop 0; let l := sixLevels 0; h.loop = some l ∧ l.levels ≤ 6 ∧ h.pc + BitVec.ofNat 64 4 = l.stop
    ∧ ∀ j : Fin 6, j.val < l.levels → Spent l j := by
  unfold Spent; decide +kernel
theorem witness_no_loop : base.hart.loop = none := by decide +kernel
theorem witness_leaves_body : let h := inLoop 1; h.loop = some (sixLevels 1)
    ∧ ¬ ((0x40 : Word) = (sixLevels 1).stop ∧ h.pc + BitVec.ofNat 64 4 = (sixLevels 1).stop) := by decide +kernel

/-- LOOPN at pc 0 with a body of one ADD and one level in memory. -/
def loopState (trips : Nat) : State := regs [(1, 0x1000)] (dwords 0x1000 [1, trips, 0, 0, 0] (dwords 4 [0x00489480] base))
-- LoopnBuffersItsBodyOrTraps
theorem witness_loopn (trips : Nat) (ht : trips = 0 ∨ trips = 2) : let s := loopState trips
    ∃ (hdr : Nat) (s1 : State) (ds : List Nat) (s2 : State) (body : List Parcel) (s3 : State),
      (s.getS 1).toNat % 8 = 0 ∧ readDwords (s.getS 1) 1 s = .ok [hdr] s1 ∧ readDwords (s.getS 1 + 8) (4 * (hdr % 8)) s1 = .ok ds s2
      ∧ fetchRun (s.hart.pc + 4) (0 + 1) s2 = .ok body s3
      ∧ (1 ≤ hdr % 8 ∧ hdr % 8 ≤ 6 ∧ hdr < 8 ∧ badParcel 64 body = none
        ∧ (let recs := (List.range (hdr % 8)).map fun j => (ds.drop (4 * j)).take 4
           (∀ r ∈ recs, levelLegal r = true) ∧ (0 ∈ recs.map (fun r => r.headD 0 % 2 ^ 32) ↔ trips = 0))) := by
  intro s
  obtain ⟨hs, s1, e1, h1⟩ := ok_of (show okAnd (readDwords (s.getS 1) 1) s (fun hs s1 =>
    okAnd (readDwords (s.getS 1 + 8) 4) s1 fun ds s2 => okAnd (fetchRun (s.hart.pc + 4) (0 + 1)) s2 fun body _ =>
      decide (hs = [1]) && decide (ds.map (· % 2 ^ 32) = [trips, 0, 0, 0]) && levelLegal (ds.take 4) && (badParcel 64 body).isNone
        && decide (ds.length = 4)) = true by rcases ht with rfl | rfl <;> decide +kernel)
  obtain ⟨ds, s2, e2, h2⟩ := ok_of h1
  obtain ⟨body, s3, e3, h3⟩ := ok_of h2
  simp only [Bool.and_eq_true, decide_eq_true_eq, Option.isNone_iff_eq_none] at h3
  obtain ⟨⟨⟨⟨rfl, hd⟩, hl⟩, hb⟩, hn⟩ := h3
  refine ⟨1, s1, ds, s2, body, s3, by rcases ht with rfl | rfl <;> decide +kernel, e1, e2, e3, by decide, by decide, by decide, hb, ?_⟩
  obtain ⟨d0, d1, d2, d3, rfl⟩ : ∃ a b c d, ds = [a, b, c, d] := by
    match ds, hn with
    | [a, b, c, d], _ => exact ⟨a, b, c, d, rfl⟩
  simp only [List.map_cons, List.cons.injEq] at hd
  refine ⟨by simpa using hl, ?_⟩
  have hd1 := hd.1
  simp; omega
theorem witness_loopn_traps : (base.getS 0 + 4).toNat % 8 ≠ 0 := by decide +kernel
theorem witness_loopn_header : let s := regs [(1, 0x1000)] (dwords 0x1000 [7] base)
    ∃ hdr s1, (s.getS 1).toNat % 8 = 0 ∧ readDwords (s.getS 1) 1 s = .ok [hdr] s1 ∧ (∃ ds s2, readDwords (s.getS 1 + 8) (4 * (hdr % 8)) s1 = .ok ds s2) ∧ 6 < hdr % 8 := by
  intro s
  obtain ⟨hs, s1, e1, h1⟩ := ok_of (show okAnd (readDwords (s.getS 1) 1) s (fun hs s1 =>
    okAnd (readDwords (s.getS 1 + 8) (4 * 7)) s1 fun _ _ => decide (hs = [7])) = true by decide +kernel)
  obtain ⟨ds, s2, e2, h2⟩ := ok_of h1
  obtain rfl := of_decide_eq_true h2
  exact ⟨7, s1, by decide +kernel, e1, ⟨ds, s2, e2⟩, by decide⟩
-- TakingATrapAndReturning: a handler that may return, and the modes in which it may not
def inHandler : State := takeTrap ⟨.systemCall, 5, .none⟩ 0x44 false false base
theorem witness_eret : inHandler.hart.mode = .supervisor ∧ inHandler.hart.estat.tip = true ∧ inHandler.hart.retq = [] := by decide +kernel
theorem witness_eret_illegal : (user base).hart.mode = .user ∧ base.hart.estat.tip = false := by decide +kernel
-- TrapInstructionsAndEvents
theorem witness_trap_entry : base.hart.status = .resident ∧ base.mayTrap base.hart = true ∧ Cause.illegal ≠ .systemCall := by decide +kernel
/-- A posted store of the hart to device 5, which no link reaches. -/
def lostStore : OutReq := ⟨0, 5, 0, 0, base.hart.born, 0x1000, 8, true, false, 0x1000, none, false⟩
def withLost : State := { base with fabric := { base.fabric with outstanding := [lostStore] } }
theorem witness_async_error : let s := withLost; s.hart.status = .resident ∧ s.hart.estat.tip = false
    ∧ (∀ x ∈ s.others, x.place ≠ s.hart.place ∧ x.born ≠ s.hart.born)
    ∧ State.mayTrap { s with fabric := { s.fabric with outstanding := s.fabric.outstanding.erase lostStore } } s.hart = true
    ∧ s.fabric.outstanding.find? (fun x => s.fabric.failedStore x && decide (x.born = s.hart.born) && decide (x.eval = 0x1000)) = some lostStore := by
  decide +kernel
theorem witness_async_pending : let s := onH (fun h => { h with status := .halted, estat := { h.estat with tip := true } }) withLost
    s.hart.estat.tip = true ∧ s.hart.status ≠ .absent := by decide +kernel
-- ReturnQueueInstructions
theorem witness_owed : (onH (fun h => { h with retq := [7] }) base).hart.retq = [7] ∧ base.hart.retq = [] ∧ base.storeQueued = false := by decide +kernel
theorem witness_part : let s := regs [(1, 0x500)] base; s.hart.mode = .supervisor ∧ (s.getS 1).toNat % 256 < s.coreMap.length
    ∧ (s.getS 1).toNat / 2 ^ 10 % 4 ≠ 3 ∧ (s.getS 1).toNat < 2 ^ 12 ∧ base.coreMap.length ≤ 192 := by decide +kernel
-- HartInstructions: a descriptor of one hart; the traps
def launchState (head : List Nat) : State := regs [(1, 0x1000)] (dwords 0x1000 head base)
theorem witness_launch : let s := launchState [0x40, 5, 0, 0, 0, 0, 0, 0, 0]
    ∃ d s1 s2 flat, s.storeQueued = false ∧ (s.getS 1).toNat % 8 = 0 ∧ readDwords (s.getS 1) 9 s = .ok d s1
      ∧ readDwords (s.getS 1 + 72) (4 * (dw d 3 % 8)) s1 = .ok flat s2
      ∧ s2.hasPosted = false ∧ descLegal d [] (s.hart.mode == .user) s.hart.pclass = true ∧ dw d 3 % 8 = 0 ∧ dw d 2 = 0
      ∧ (s2.launches.filter (fun x => x.cls.val = dw d 3 / 2 ^ 8 % 4 ∧ !x.admitted ∧ !x.root)).length < 64 := by
  intro s
  obtain ⟨d, s1, e1, h1⟩ := ok_of (show okAnd (readDwords (s.getS 1) 9) s (fun d s1 =>
    okAnd (readDwords (s.getS 1 + 72) (4 * (dw d 3 % 8))) s1 fun _ s2 =>
      !s2.hasPosted && descLegal d [] (s.hart.mode == .user) s.hart.pclass && decide (dw d 3 % 8 = 0) && decide (dw d 2 = 0) && s2.launches.isEmpty) = true
    by decide +kernel)
  obtain ⟨flat, s2, e2, h2⟩ := ok_of h1
  simp only [Bool.and_eq_true, Bool.not_eq_true', decide_eq_true_eq, List.isEmpty_iff] at h2
  exact ⟨d, s1, s2, flat, by decide +kernel, by decide +kernel, e1, e2, h2.1.1.1.1, h2.1.1.1.2, h2.1.1.2, h2.1.2, by rw [h2.2]; simp⟩
theorem witness_launch_traps : let s := launchState [0x42, 5, 0, 0, 0, 0, 0, 0, 0]
    ∃ d s1, s.storeQueued = false ∧ (s.getS 1).toNat % 8 = 0 ∧ readDwords (s.getS 1) 9 s = .ok d s1
      ∧ (∃ flat s2, readDwords (s.getS 1 + 72) (4 * (dw d 3 % 8)) s1 = .ok flat s2) ∧ dw d 0 % 4 ≠ 0 := by
  intro s
  obtain ⟨d, s1, e1, h1⟩ := ok_of (show okAnd (readDwords (s.getS 1) 9) s (fun d s1 =>
    okAnd (readDwords (s.getS 1 + 72) (4 * (dw d 3 % 8))) s1 fun _ _ => decide (dw d 0 % 4 ≠ 0)) = true by decide +kernel)
  obtain ⟨flat, s2, e2, h2⟩ := ok_of h1
  exact ⟨d, s1, by decide +kernel, by decide +kernel, e1, ⟨flat, s2, e2⟩, of_decide_eq_true h2⟩
/-- A hart of a compacting launch, at its HYIELD with no mask bit set. -/
def compacting : State :=
  len 4 (onH (fun h => { h with vcfg := { h.vcfg with cthr := 128 } }) { base with launches :=
    [⟨0, 0, 0, false, false, 0, 0x40, 0, 0, [], [], true, [], 0, false, 2, 1, 0, 0, 0, [], .replicate 16 (Barrier.start 2), [], 0⟩] })
theorem witness_hyield : base.compactionPoint = false ∧ compacting.compactionPoint = true ∧ compacting.poolOpen = true
    ∧ compacting.hart.maskOn.length * 256 < compacting.hart.vcfg.cthr.toNat * compacting.hart.vl.toNat ∧ compacting.hart.retq = []
    ∧ compacting.hasPosted = false := by decide +kernel
theorem witness_hwait : let s := regs [(1, 0x1000)] base; Unbegun s.hart ∧ Bare s (s.getS 1) ∧ (s.getS 1).toNat < localTop ∧ s.hart.watch = none
    ∧ (onH (fun h => { h with watch := some ⟨localKey 0x1000 / 32, false⟩ }) s).hart.watch = some ⟨localKey (s.getS 1).toNat / 32, false⟩ := by
  unfold Bare Unbegun; decide +kernel
theorem witness_hexit : base.hart.retq = [] ∧ base.hasPosted = false ∧ base.hart.status = .resident ∧ base.hart.merged = false := by decide +kernel
-- BarriersFencesAndPpt: a gang launch whose barrier is in its first phase, before and after an arrival
def gangLaunch (gang : Bool) : Launch :=
  ⟨0, 0, 0, gang, false, 0, 0x40, 0, 0, [], [], false, [], 0, false, 2, 0, 0, 0, 0, [], .replicate 16 (Barrier.start 2), [], 0⟩
def inLaunch (gang : Bool) (a : Option Arrival) : State :=
  onH (fun h => { h with arrivals := h.arrivals.set 3 a }) { base with launches := [gangLaunch gang] }
theorem witness_barrier : let s := inLaunch true none; s.launchOf s.hart.launch = some (gangLaunch true) ∧ (gangLaunch true).gang = true
    ∧ s.hart.arrivals.get 3 = none ∧ (inLaunch true (some ⟨0, true, [], []⟩)).hart.arrivals.get 3 = some ⟨0, true, [], []⟩
    ∧ ((gangLaunch true).barriers.get 3).phase ≤ 0 := by decide +kernel
theorem witness_no_gang : let s := inLaunch false none; s.launchOf s.hart.launch = some (gangLaunch false) ∧ (gangLaunch false).gang = false
    ∧ base.launchOf base.hart.launch = none := by decide +kernel
theorem witness_posted : base.hasPosted = false ∧ withLost.hasPosted = true := by decide +kernel
/-- A hart of class 2 with a request pending. -/
def asked : State := onH (fun h => { h with preempt := true, pclass := 2 }) base
/-- What PPT saves, for a hart that is asked. -/
def pptSaves (s : State) : Option State :=
  let u := retire 4 { s with hart := { s.hart with ltmask := 1 } }
  if s.escalationLimit (quadOfCore s.hart.place.core) s.hart.pclass ≤ s.hart.convoys then s.saveUnit s.hart false else u.saveUnit u.hart true
def atLimit (s : State) : Prop := s.escalationLimit (quadOfCore s.hart.place.core) s.hart.pclass ≤ s.hart.convoys
theorem witness_ppt : base.hart.preempt = false ∧ asked.hart.preempt = true ∧ 2 ≤ asked.hart.pclass.val ∧ (pptSaves asked).isSome = true
    ∧ pptSaves { asked with msgs := [⟨0, base.hart.born, 0, 0, 0, [], 0, false, false, 0, 0⟩] } = none
    ∧ ¬ atLimit asked ∧ atLimit (onH (fun h => { h with convoys := 2 ^ 20 }) asked) := by
  unfold atLimit; decide +kernel
-- CacheAndCounterInstructions
theorem witness_cache : let s := regs [(1, 0x1000)] base; Unbegun s.hart ∧ Bare s (s.getS 1) ∧ (s.getS 1).toNat < localTop ∧ s.storeQueued = false ∧ s.l2.wf = true
    ∧ s.hbm.wf = true ∧ s.mem.wf = true ∧ s.readStalls (localKey 0x1000 / 128 * 128) 128 = false := by unfold Bare Unbegun; decide +kernel
theorem witness_cache_window : let s := base.setCtx { base.ctx with swin := base.ctx.swin.set 0 1 }; (findWindow s.ctx.swin 0x40).isSome = true
    ∧ s.storeQueued = false := by decide +kernel
theorem witness_counter : let h := (onH (fun h => { h with counters := h.counters.set 3 7, cerr := h.cerr.set 3 true }) base).hart
    ((h.counters.get 3).toNat + 2 ^ 32 - 7) % 2 ^ 32 < 2 ^ 31 ∧ h.cerr.get 3 = true
    ∧ ¬ ((h.counters.get 3).toNat + 2 ^ 32 - 8) % 2 ^ 32 < 2 ^ 31 ∧ base.hart.cerr.get 3 = false := by decide +kernel

/-- Two elements of two registers, vl 2, all banks on. -/
def two (t1 t2 : Tag) : State := len 2 (vec 1 t1 [3, 4] (vec 2 t2 [5, 6] base))
/-- vl at its largest for a tag. -/
def full (t : Tag) : State := len (base.hart.vlmax t) (vec 1 t [] (vec 2 t [] (vec 3 t [] base)))
-- VectorConfiguration: a legal word and one tag for a run of registers; E8M0 for v1 alone
theorem witness_vector_configuration : let s := regs [(1, 0x51)] base; (s.getS 1).toNat / 2 ^ 2 % 4 ≠ 3 ∧ (s.getS 1).toNat / 2 ^ 4 % 8 < 6
    ∧ BanksOn s.hart ∧ (2 : VIdx) ≤ 5 ∧ (Tag.n8 = .e8m0 → (2 : VIdx) = 1 ∧ (5 : VIdx) = 1) ∧ (Tag.e8m0 = .e8m0 → (1 : VIdx) = 1) := by
  unfold BanksOn; decide +kernel
-- VectorArithmeticResults, FusedResults: vl at VLMAX, integer and float tags
theorem witness_arithmetic_int : let h := (full .i8).hart; BanksOn h ∧ pairTag (h.tag 1) (secondTag h (h.tag 1) (.vv 2 .none)) = some .i8
    ∧ Fits h [.i8, .i8, .i8] true ∧ isInt .i8 = true ∧ h.vln = 8192 := by unfold BanksOn Fits secondTag; decide +kernel
theorem witness_arithmetic_float : let h := (two .f32 .bf16).hart; BanksOn h ∧ pairTag (h.tag 1) (secondTag h (h.tag 1) (.vv 2 .none)) = some .f32
    ∧ Fits h [.f32, .bf16, .f32] false ∧ isFloat .f32 = true := by unfold BanksOn Fits secondTag; decide +kernel
theorem witness_fused : let h := (full .f16).hart; BanksOn h ∧ pairTag (h.tag 1) (h.tag 2) = some .f16 ∧ pairTag .f16 (h.tag 3) = some .f16
    ∧ Fits h [.f16, .f16, .f16, .f16] true ∧ isFloat .f16 = true := by unfold BanksOn Fits; decide +kernel
-- ShiftBitwiseAndOneSourceResults
theorem witness_shift : let h := (two .i16 .n8).hart; BanksOn h ∧ Fits h [.i16, .n8] false ∧ isInt (h.tag 1) = true ∧ isInt (h.tag 2) = true := by
  unfold BanksOn Fits; decide +kernel
theorem witness_bitwise : let h := (two .e8m0 .n8).hart; BanksOn h ∧ Fits h [.e8m0, .n8] false ∧ width (h.tag 1) = width (secondTag h (h.tag 1) (.vv 2 .none))
    ∧ (h.tag 1 = .e8m0 → (1 : VIdx) = 1) := by unfold BanksOn Fits secondTag; decide +kernel
theorem witness_one_source : let h := (two .f32 .i32).hart; BanksOn h ∧ h.tag 1 ≠ .e8m0 ∧ Fits h [h.tag 1] false ∧ isFloat (h.tag 1) = true
    ∧ Fits h [floatPair .f32 .f32] false ∧ h.tag 1 ∈ [Tag.f32, .f16, .bf16] ∧ isInt (h.tag 2) = true ∧ Fits h [h.tag 2] true
    ∧ secondTag h (h.tag 1) (.vi 3) = h.tag 1 := by unfold BanksOn Fits secondTag; decide +kernel
-- VectorOperandTraps: a gated bank; an illegal pair; vl above VLMAX
theorem witness_gated_bank : let h := (onH (fun h => { h with vgate := h.vgate.set 0 ⟨.gated, false⟩ }) base).hart
    (h.vgate.get ⟨(1 : VIdx).val / 8, by decide⟩).st = .gated ∧ (h.vgate.get ⟨(1 : VIdx).val / 8, by decide⟩).dead = false := by decide +kernel
theorem witness_bad_pair : let h := (two .i8 .n8).hart; BanksOn h ∧ pairTag (h.tag 1) (secondTag h (h.tag 1) (.vv 2 .none)) = none := by
  unfold BanksOn secondTag; decide +kernel
theorem witness_vl_above : let h := (len 1025 (two .n64 .n64)).hart; BanksOn h ∧ pairTag (h.tag 1) (h.tag 2) = some .n64 ∧ ¬ Fits h [.n64, .n64, .n64] false := by
  unfold BanksOn Fits; decide +kernel
-- CompareAndMaskResults, ConversionResults
theorem witness_compare : let h := (full .i8).hart; BanksOn h ∧ Fits h [h.tag 1, h.tag 2] true ∧ isInt (h.tag 1) = true ∧ isInt (h.tag 2) = true ∧ Fits h [] true := by
  unfold BanksOn Fits; decide +kernel
theorem witness_conversion : let h := (two .e8m0 .f32).hart; BanksOn h ∧ Tag.e4m3 ≠ .e8m0 ∧ Fits h [h.tag 2, .e4m3] false ∧ h.tag 1 = .e8m0
    ∧ (2 : VIdx) ≠ 1 ∧ (3 : VIdx) ≠ 1 ∧ h.tag 2 ≠ .e8m0 := by unfold BanksOn Fits; decide +kernel
-- PermuteResults: an even vl, an index register, a mask
theorem witness_permute : let h := (two .n16 .n16).hart; BanksOn h ∧ Fits h [h.tag 1] true ∧ (h.tag 1 = .e8m0 → (3 : VIdx) = 1) ∧ isInt (h.tag 2) = true
    ∧ Fits h [h.tag 2] false ∧ h.tag 2 = h.tag 1 ∧ h.vln % 2 = 0 ∧ h.vstart = 0 := by unfold BanksOn Fits; decide +kernel
-- ReductionAndScanResults, with vl 0 too
theorem witness_reduction : let h := (two .e5m2 .i8).hart; BanksOn h ∧ Fits h [h.tag 1] true ∧ h.tag 1 ≠ .e8m0 ∧ isFloat (h.tag 1) = true
    ∧ Fits h [floatPair .e5m2 .e5m2] false ∧ isInt (h.tag 2) = true ∧ Fits h [h.tag 2] true ∧ h.vstart = 0 := by unfold BanksOn Fits; decide +kernel
theorem witness_reduction_empty : let h := (len 0 (two .i8 .i8)).hart; BanksOn h ∧ Fits h [h.tag 1] true ∧ h.vln = 0 := by unfold BanksOn Fits; decide +kernel
-- ReturnProducers: room, and none
theorem witness_returns : let h := (two .i8 .i8).hart; BanksOn h ∧ h.retq.length < 16 ∧ Fits h [] true
    ∧ (onH (fun h => { h with retq := .replicate 16 0 }) base).hart.retq.length = 16 := by unfold BanksOn Fits; decide +kernel
-- SelectionResults
theorem witness_selection : let h := (two .f32 .n32).hart; BanksOn h ∧ h.tag 1 ≠ .e8m0 ∧ Fits h [h.tag 1] true ∧ h.vstart = 0 ∧ (2 : Nat) ≤ h.vln
    ∧ 2 ≤ h.vlmax .i32 ∧ (62 : VIdx).val < 63 ∧ h.tag 2 = .n32 ∧ h.retq.length < 16 ∧ h.vln ≤ h.vlmax .i32 ∧ 0xFFFFFE + h.vln ≤ 2 ^ 24 := by
  unfold BanksOn Fits; decide +kernel
-- CodeTableResults
theorem witness_code_tables : let h := (two .n32 .n8).hart; BanksOn h ∧ Fits h [h.tag 1, h.tag 2] false ∧ h.tag 1 = .n32 ∧ h.retq.length < 16 ∧ h.vstart = 0
    ∧ h.elem 1 .n32 0 ≤ 8 * h.vlmax .n8 ∧ h.cura.toNat ≤ h.elem 1 .n32 0 ∧ Fits h [h.tag 2] false
    ∧ (two .n32 .n8).bankRead 7 = false := by unfold BanksOn Fits; decide +kernel

/-- An active element lies below vl. -/
theorem takes_lt {h : Hart} {m : Bool} {e n : Nat} (he : Takes h m e) (hn : h.vln = n) : e < n := hn ▸ he.2.1
/-- One element of v3 under a tag, v2 its index, at 0x1000. -/
def elem1 (t : Tag) (i : Nat) : State := regs [(1, 0x1000)] (len 1 (vec 2 .n32 [i] (vec 3 t [5] base)))
theorem plainElements_of {s : State} {o : VMem} {addr : Nat → Word} {bytes : Nat → Nat}
    (h : (∀ b, (s.hart.vgate.get b).st = .on) ∧ Unbegun s.hart ∧ s.hart.preempt = false ∧ s.hart.vln = 1 ∧ s.hart.vln ≤ s.hart.vlmax (s.hart.tag o.vd) ∧ s.hart.prog = false ∧ s.mem.wf = true
      ∧ s.poison = [] ∧ s.ctx.vatp = 0 ∧ s.ctx.swin = .replicate 4 0 ∧ (addr 0).toNat + bytes 0 ≤ localTop ∧ (addr 0).toNat % 4096 + bytes 0 ≤ 4096
      ∧ (8 ≤ width (s.hart.tag o.vd) → (addr 0).toNat % (width (s.hart.tag o.vd) / 8) = 0)
      ∧ s.writeStalls (localKey (addr 0).toNat) (bytes 0) = false) : PlainElements s o addr bytes := by
  obtain ⟨h1, hu, hq, h2, h3, h4, h5, h6, h7, h8, h9, h10, h11, h12⟩ := h
  refine ⟨h1, h3, h4, hu, .inl hq, fun e he => ?_⟩
  obtain rfl : e = 0 := by have := takes_lt he h2; omega
  exact ⟨plain_of ⟨h5, h6, h7, h8⟩ h9 h10, h11, h12⟩

-- VectorLoadsReadTheirElements, VectorStoresWriteTheirElements: each form of address; a tag narrower than a byte
theorem witness_unit : let s := elem1 .n32 0; LegalForm s.hart .n32 .unit
    ∧ PlainElements s ⟨3, 1, 0, false⟩ (elemAddr s.hart .n32 (memoryBase s 1 0) .unit) (fun e => (elemBit s.hart .n32 .unit e + 32 + 7) / 8) :=
  ⟨trivial, plainElements_of (by unfold Unbegun; decide +kernel)⟩
theorem witness_unit_narrow : let s := elem1 .i2 0; LegalForm s.hart .i2 .unit
    ∧ PlainElements s ⟨3, 1, 0, false⟩ (elemAddr s.hart .i2 (memoryBase s 1 0) .unit) (fun e => (elemBit s.hart .i2 .unit e + 2 + 7) / 8) :=
  ⟨trivial, plainElements_of (by unfold Unbegun; decide +kernel)⟩
theorem witness_quarter : let s := elem1 .n32 0; LegalForm s.hart .n32 (.quarter 8)
    ∧ PlainElements s ⟨3, 1, 0, false⟩ (elemAddr s.hart .n32 (memoryBase s 1 0) (.quarter 8)) (fun e => (elemBit s.hart .n32 (.quarter 8) e + 32 + 7) / 8) :=
  ⟨trivial, plainElements_of (by unfold Unbegun; decide +kernel)⟩
theorem witness_strided : let s := elem1 .n64 0; LegalForm s.hart .n64 (.strided 8)
    ∧ PlainElements s ⟨3, 1, 0, false⟩ (elemAddr s.hart .n64 (memoryBase s 1 0) (.strided 8)) (fun e => (elemBit s.hart .n64 (.strided 8) e + 64 + 7) / 8) :=
  ⟨by unfold LegalForm; decide, plainElements_of (by unfold Unbegun; decide +kernel)⟩
theorem witness_indexed : let s := elem1 .n32 1; LegalForm s.hart .n32 (.indexed 2)
    ∧ PlainElements s ⟨3, 1, 0, false⟩ (elemAddr s.hart .n32 (memoryBase s 1 0) (.indexed 2)) (fun e => (elemBit s.hart .n32 (.indexed 2) e + 32 + 7) / 8) :=
  ⟨by unfold LegalForm; decide +kernel, plainElements_of (by unfold Unbegun; decide +kernel)⟩
-- VectorMemoryTrapsAndPoison: an illegal form; a misaligned element; an address above local memory; a poisoned sector
theorem witness_illegal_form : ¬ LegalForm (elem1 .i2 0).hart .i2 (.strided 8) ∧ BanksOn (elem1 .i2 0).hart ∧ Unbegun (elem1 .i2 0).hart := by
  unfold LegalForm BanksOn Unbegun; decide +kernel
theorem witness_misaligned : let s := regs [(1, 0x1002)] (elem1 .n32 0); LegalForm s.hart .n32 .unit ∧ s.hart.vln ≤ s.hart.vlmax .n32
    ∧ Takes s.hart false 0 ∧ 8 ≤ width .n32 ∧ (elemAddr s.hart .n32 (memoryBase s 1 0) .unit 0).toNat % 4 ≠ 0 :=
  ⟨trivial, by unfold Takes; decide +kernel⟩
theorem witness_vector_nothing : let s := regs [(1, 0x30000000000)] (elem1 .n32 0); let a := elemAddr s.hart .n32 (memoryBase s 1 0) .unit
    (∀ e, Takes s.hart false e → (a e).toNat % 4 = 0 ∧ Bare s (a e) ∧ s.home (a e).toNat 0 0 = none) ∧ Takes s.hart false 0 ∧ s.hart.prog = false := by
  refine ⟨fun e he => ?_, by unfold Takes; decide +kernel, by decide +kernel⟩
  obtain rfl : e = 0 := by have := takes_lt he (show _ = 1 by decide +kernel); omega
  unfold Bare; clear he; decide +kernel
theorem witness_vector_poison : let s : State := { elem1 .n32 0 with poison := [localKey 0x1000 / 32] }; let a := elemAddr s.hart .n32 (memoryBase s 1 0) .unit
    PlainElements { s with poison := [] } ⟨3, 1, 0, false⟩ a (fun e => (elemBit s.hart .n32 .unit e + 32 + 7) / 8) ∧ Takes s.hart false 0
    ∧ (∃ j < 4, s.poisoned (localKey (a 0).toNat + j) = true) ∧ (∀ e, Takes s.hart false e → e < 0 → ¬ ∃ j < 4, s.poisoned (localKey (a e).toNat + j) = true) :=
  ⟨plainElements_of (by unfold Unbegun; decide +kernel), by unfold Takes; decide +kernel, ⟨0, by decide, by decide +kernel⟩, fun e _ h => absurd h (by omega)⟩
/-- 64 words from the last bytes before a poisoned sector on: the eighth element is the first that it holds. -/
def sixteen : State := { len 16 (elem1 .n32 0) with poison := [localKey 0x1020 / 32] }
theorem witness_first_fault : let s := sixteen; let a := elemAddr s.hart .n32 (memoryBase s 1 0) .unit; Takes s.hart false 8 ∧ (∃ e < 8, Takes s.hart false e)
    ∧ (∃ j < 4, s.poisoned (localKey (a 8).toNat + j) = true)
    ∧ (∀ e, Takes s.hart false e → e < 8 → ¬ ∃ j < 4, s.poisoned (localKey (a e).toNat + j) = true) := by
  refine ⟨by unfold Takes; decide +kernel, ⟨0, by decide, by unfold Takes; decide +kernel⟩, ⟨0, by decide, by decide +kernel⟩, fun e _ he ⟨j, hj, h⟩ => ?_⟩
  have all : ∀ e < 8, ∀ j < 4, sixteen.poisoned (localKey (elemAddr sixteen.hart .n32 (memoryBase sixteen 1 0) .unit e).toNat + j) = false := by decide +kernel
  rw [all e he j hj] at h
  exact absurd h (by decide)
-- PrefetchAndMulticast: no device, an unassigned one, this one
theorem witness_prefetch : let h := (elem1 .n32 0).hart; BanksOn h ∧ (elem1 .n32 0).ctx.vatp.toNat / 2 ^ 60 = 0 ∧ isInt (h.tag 2) = true ∧ 8 ≤ width (h.tag 2)
    ∧ h.vln ≤ h.vlmax (h.tag 2) ∧ ∀ d < 1024, ¬ h.bit 2 d = true := by unfold BanksOn; decide +kernel
theorem witness_multicast_self : let s := elem1 .n32 1; (∀ d < 1024, s.hart.bit 2 d = true ↔ d = s.fabric.self) ∧ s.fabric.self / 32 < s.fabric.nrow
    ∧ s.fabric.self % 32 < s.fabric.ncol ∧ Takes s.hart false 0 := by unfold Takes; decide +kernel
theorem witness_multicast_unassigned : let s := elem1 .n32 2; (1 < 1024 ∧ s.hart.bit 2 1 = true) ∧ (s.fabric.nrow ≤ 1 / 32 ∨ s.fabric.ncol ≤ 1 % 32) := by
  decide +kernel
-- ScatterReduceResults, VectorAtomicsCombineOrApplyInOrder
theorem witness_scatter : let s := elem1 .f32 1; let a := elemAddr s.hart .f32 (memoryBase s 1 0) (.indexed 2)
    (Rop.add ≠ .or ∧ Tag.f32 ∈ [Tag.f64, .f32, .f16, .bf16]) ∧ LegalForm s.hart .f32 (.indexed 2) ∧ PlainElements s ⟨3, 1, 0, false⟩ a (fun _ => 32 / 8)
    ∧ s.hart.vstart = 0 ∧ NoneWaits s (fun l => ∃ e, Takes s.hart false e ∧ l = localKey (a e).toNat / 128) ∧ Takes s.hart false 0
    ∧ Holds s (localKey (a 0).toNat) 4 0 :=
  ⟨by decide, by unfold LegalForm; decide +kernel, plainElements_of (by unfold Unbegun; decide +kernel), by decide +kernel, none_waits (by decide +kernel),
    by unfold Takes; decide +kernel, by unfold Holds; decide +kernel⟩
theorem witness_vector_atomic : let s := elem1 .n64 1; let a := elemAddr s.hart .n64 (memoryBase s 1 0) (.indexed 2)
    AmoTag .n64 .add ∧ AmoTag .f32 .fadd ∧ AmoTag .f64 .swap ∧ LegalForm s.hart .n64 (.indexed 2) ∧ PlainElements s ⟨3, 1, 0, false⟩ a (fun _ => 64 / 8)
    ∧ s.hart.vstart = 0 ∧ NoneWaits s (fun l => ∃ e, Takes s.hart false e ∧ l = localKey (a e).toNat / 128) :=
  ⟨by unfold AmoTag; decide, by unfold AmoTag; decide, by unfold AmoTag; decide, by unfold LegalForm; decide +kernel, plainElements_of (by unfold Unbegun; decide +kernel),
    by decide +kernel, none_waits (by decide +kernel)⟩
/-- A fibre with its coordinates and values. -/
def fib (f : FIdx) (t : Tag) (l : List (Nat × Nat)) (s : State) : State :=
  onH (fun h => { h with flen := h.flen.set f (BitVec.ofNat 16 l.length) }) (vec (coordReg f) .n32 (l.map (·.1)) (vec (valueReg f) t (l.map (·.2)) s))
/-- Two fibres to combine, with a cursor in the first. -/
def fibres (ta tb : Tag) : State := onH (fun h => { h with cura := 1 }) (fib 0 ta [(1, 5), (4, 6), (7, 0)] (fib 1 tb [(4, 2), (9, 3)] (fib 2 .n64 [] base)))
-- FibreCombinations
theorem witness_fibre_int : let h := (fibres .i32 .i32).hart; FibresReady h [2, 0, 1] ∧ (2 : FIdx) ≠ 0 ∧ (2 : FIdx) ≠ 1
    ∧ Ascending (entriesOf h 0 (h.flen.get 0).toNat) ∧ Ascending (entriesOf h 1 (h.flen.get 1).toNat) ∧ h.cura.toNat ≤ 3 ∧ h.curb.toNat ≤ 2
    ∧ pairTag (h.tag (valueReg 0)) (h.tag (valueReg 1)) = some .i32 ∧ isInt .i32 = true := by unfold FibresReady BanksOn Ascending; decide +kernel
theorem witness_fibre_float : let h := (fibres .f32 .f16).hart; FibresReady h [2, 0, 1] ∧ Ascending (entriesOf h 0 (h.flen.get 0).toNat)
    ∧ Ascending (entriesOf h 1 (h.flen.get 1).toNat) ∧ pairTag (h.tag (valueReg 0)) (h.tag (valueReg 1)) = some .f32 ∧ isFloat .f32 = true := by
  unfold FibresReady BanksOn Ascending; decide +kernel
-- FibreLengthsAndOrder: in order; out of order at position 1; vstart above 0
theorem witness_fibre_lengths : let s := regs [(1, 2)] (fibres .f32 .f32); let h := s.hart; BanksOn h ∧ h.vstart = 0 ∧ FibresReady h [0] ∧ FibresReady h [2]
    ∧ (s.getS 1).toNat ≤ min (h.vlmax .n32) (h.vlmax (h.tag (valueReg 0))) ∧ Ascending (entriesOf h 0 2) ∧ Ascending (entriesOf h 0 3)
    ∧ h.vln ≤ h.vlmax (h.tag (valueReg 0)) := by unfold FibresReady BanksOn Ascending; decide +kernel
theorem witness_fibre_disorder : let h := (fib 0 .n32 [(5, 1), (5, 2)] base).hart; FibresReady h [0] ∧ 1 < (h.flen.get 0).toNat
    ∧ (entryOf h 0 1).1 ≤ (entryOf h 0 0).1 ∧ Ascending (entriesOf h 0 1) := by unfold FibresReady BanksOn Ascending; decide +kernel
theorem witness_fibre_vstart : let h := (onH (fun h => { h with vstart := 1 }) base).hart; BanksOn h ∧ h.vstart ≠ 0 := by unfold BanksOn; decide +kernel

/-- A fibre image of one entry, a level of one row, and room for an image, at 0x1000, 0x2000 and 0x3000. -/
def inMemory : State :=
  regs [(1, 0x1000), (2, 0x2000), (3, 0x3000)] (vec 5 .n32 [0] (fib 0 .n32 [(7, 8)] (dwords 0x1000 [1, 9, 5] (dwords 0x2000 [0x2020, 0x2030, 0x2038, 1, 0x100000000, 0, 4, 6] base))))
theorem plain_inMemory {a : Word} {n : Nat} (h1 : a.toNat + n ≤ localTop) (h2 : a.toNat % 4096 + n ≤ 4096) : Plain inMemory a n :=
  plain_of (by unfold Untranslated; decide +kernel) h1 h2
theorem free_inMemory (k n : Nat) : inMemory.writeStalls k n = false ∧ inMemory.readStalls k n = false := by
  have h : inMemory.cmds = [] ∧ inMemory.locks = [] := by decide +kernel
  simp [State.writeStalls, State.readStalls, State.locked, h]
/-- Plain memory that no command holds. -/
def Free (s : State) (a : Word) (n : Nat) : Prop :=
  Plain s a n ∧ s.writeStalls (localKey a.toNat) n = false ∧ s.readStalls (localKey a.toNat) n = false
theorem free_of {a : Word} {n : Nat} (h1 : a.toNat + n ≤ localTop) (h2 : a.toNat % 4096 + n ≤ 4096) : Free inMemory a n :=
  ⟨plain_inMemory h1 h2, free_inMemory _ _⟩
theorem unbegun_inMemory : Unbegun inMemory.hart := by unfold Unbegun; decide +kernel
-- FibreMemoryAndMessages: FLD
theorem witness_fld : let s := inMemory; let A := memoryBase s 1 0; FibresReady s.hart [0] ∧ Unbegun s.hart ∧ A.toNat % 8 = 0 ∧ Free s A 8 ∧ Holds s (localKey A.toNat) 8 1
    ∧ LoadableFibre s 0 (A + 8) (A + BitVec.ofNat 64 ((8 + 4 * 1 + 7) / 8 * 8)) 0 1 := by
  refine ⟨by unfold FibresReady BanksOn; decide +kernel, unbegun_inMemory, by decide +kernel, free_of (by decide +kernel) (by decide +kernel),
    by unfold Holds; decide +kernel, ?_, ?_, ?_⟩
  · decide +kernel
  · intro e he
    obtain rfl : e = 0 := by
      have h : min (1 - inMemory.hart.cura.toNat) (min (inMemory.hart.vlmax .n32) (inMemory.hart.vlmax (inMemory.hart.tag (valueReg 0)))) = 1 := by decide +kernel
      rw [h] at he; omega
    exact ⟨plain_inMemory (by decide +kernel) (by decide +kernel), plain_inMemory (by decide +kernel) (by decide +kernel), (free_inMemory _ _).2, (free_inMemory _ _).2⟩
  · intro e x y he
    have h : min (1 - inMemory.hart.cura.toNat) (min (inMemory.hart.vlmax .n32) (inMemory.hart.vlmax (inMemory.hart.tag (valueReg 0)))) = 1 := by decide +kernel
    rw [h] at he; omega
-- FLDLVL: row 0 of a level with pointers 0 and 1, one coordinate and one value
theorem witness_fldlvl : let s := inMemory; let A := memoryBase s 2 0; let d : Fin 4 → Nat := fun k => [0x2020, 0x2030, 0x2038, 1].getD k.val 0
    FibresReady s.hart [0] ∧ A.toNat % 8 = 0 ∧ s.hart.tag 5 = .n32 ∧ s.hart.vln ≤ s.hart.vlmax .n32 ∧ s.hart.elem 5 .n32 0 = 0
    ∧ (∀ k : Fin 4, Free s (A + BitVec.ofNat 64 (8 * k.val)) 8 ∧ Holds s (localKey (A + BitVec.ofNat 64 (8 * k.val)).toNat) 8 (d k))
    ∧ Free s 0x2020 4 ∧ Free s 0x2024 4 ∧ Holds s (localKey 0x2020) 4 0 ∧ Holds s (localKey 0x2024) 4 1
    ∧ LoadableFibre s 0 0x2030 0x2038 0 1 := by
  refine ⟨by unfold FibresReady BanksOn; decide +kernel, by decide +kernel, by decide +kernel, by decide +kernel, by decide +kernel,
    fun k => ⟨free_of ?_ ?_, ?_⟩, free_of (by decide) (by decide), free_of (by decide) (by decide), by unfold Holds; decide +kernel, by unfold Holds; decide +kernel, ?_, ?_, ?_⟩
  · revert k; decide +kernel
  · revert k; decide +kernel
  · unfold Holds; revert k; decide +kernel
  · decide +kernel
  · intro e he
    obtain rfl : e = 0 := by
      have h : min (1 - inMemory.hart.cura.toNat) (min (inMemory.hart.vlmax .n32) (inMemory.hart.vlmax (inMemory.hart.tag (valueReg 0)))) = 1 := by decide +kernel
      rw [h] at he; omega
    exact ⟨plain_inMemory (by decide +kernel) (by decide +kernel), plain_inMemory (by decide +kernel) (by decide +kernel), (free_inMemory _ _).2, (free_inMemory _ _).2⟩
  · intro e x y he
    have h : min (1 - inMemory.hart.cura.toNat) (min (inMemory.hart.vlmax .n32) (inMemory.hart.vlmax (inMemory.hart.tag (valueReg 0)))) = 1 := by decide +kernel
    rw [h] at he; omega
-- FST of one entry
theorem witness_fst : let s := inMemory; let A := memoryBase s 3 0; FibresReady s.hart [0] ∧ A.toNat % 8 = 0 ∧ Ascending (entriesOf s.hart 0 1)
    ∧ (s.hart.flen.get 0).toNat = 1 ∧ Free s A 8 ∧ Free s (A + 8) 4 ∧ Free s (A + 16) 4 :=
  ⟨by unfold FibresReady BanksOn; decide +kernel, by decide +kernel, by unfold Ascending; decide +kernel, by decide +kernel,
    free_of (by decide +kernel) (by decide +kernel), free_of (by decide +kernel) (by decide +kernel), free_of (by decide +kernel) (by decide +kernel)⟩
-- FSEND to core 0, slot 0 of this device; a reserved bit
theorem witness_fsend : let s := inMemory; let w := (s.getS 0).toNat; FibresReady s.hart [0] ∧ Ascending (entriesOf s.hart 0 (s.hart.flen.get 0).toNat)
    ∧ s.hart.tag (valueReg 0) ∉ [Tag.e8m0, .i2, .i4, .e2m1] ∧ ¬ (w.testBit 11 = true ∨ w / 2 ^ 14 % 4 ≠ 0 ∨ 2 ^ 27 ≤ w ∨ (w / 2 ^ 12 % 4 = 3 ∧ isFloat .n32 = true))
    ∧ (memoryBase s 3 0).toNat % 8 = 0 ∧ Plain s (memoryBase s 3 0) 8 ∧ w.testBit 26 = false ∧ (0x800 : Nat).testBit 11 = true :=
  ⟨by unfold FibresReady BanksOn; decide +kernel, by unfold Ascending; decide +kernel, by decide +kernel, by decide +kernel, by decide +kernel,
    plain_inMemory (by decide +kernel) (by decide +kernel), by decide +kernel, by decide⟩
-- PigeonholeInstructions
theorem witness_pigeonhole : let h := (onH (fun h => { h with pigeon := [(5, 1), (9, 2)] }) (two .n32 .f32)).hart; FibresReady h [] ∧ h.retq.length < 16
    ∧ h.pigeon.Pairwise (fun x y => x.1.toNat < y.1.toNat) ∧ h.tag 1 = .n32 ∧ h.vln ≤ h.vlmax (h.tag 1) ∧ h.vln ≤ h.vlmax (h.tag 2) ∧ h.cura.toNat ≤ h.vln
    ∧ h.tag 2 ∉ [Tag.e8m0, .i2, .i4, .e2m1] ∧ isFloat (h.tag 2) = true ∧ (2 : VIdx) ≠ 3 := by unfold FibresReady BanksOn; decide +kernel
theorem witness_ixdrain : let h := (fib 3 .i16 [] base).hart; FibresReady h [3] ∧ h.tag (valueReg 3) ∉ [Tag.e8m0, .i2, .i4, .e2m1] := by
  unfold FibresReady BanksOn; decide +kernel
-- TileMoves
theorem witness_tile_moves : let h := (len 256 (vec 5 .f32 [] base)).hart; h.vstart = 0 ∧ TileReady h 7 [] ∧ h.tag 5 ∈ [Tag.f32, .i32, .n32] ∧ h.vln ≤ h.vlmax .f32
    ∧ (base.getS 0).toNat < 256 ∧ h.vln ≤ h.vlmax (h.tag 5) := by unfold TileReady BanksOn; decide +kernel
/-- Rows of 1,024 bytes from address 0 on. -/
def rowsAt0 : State := regs [(2, 1024)] base
theorem witness_tile_memory : ∀ r : Nat, r < 256 → PlainRun rowsAt0 (BitVec.ofInt 64 ((rowsAt0.getS 1).toInt + r * (rowsAt0.getS 2).toInt)) 1024
    ∧ (BitVec.ofInt 64 ((rowsAt0.getS 1).toInt + r * (rowsAt0.getS 2).toInt)).toNat % 4 = 0 := by
  intro r hr
  refine ⟨plainRun_of (by unfold Untranslated; decide +kernel) (by decide +kernel) ?_, ?_⟩ <;> (revert hr; revert r; decide +kernel)
-- OuterProducts: an accepted pair with scales and an index register; a pair that the table does not list
theorem witness_outer : let h := (len 2 (vec 1 .e8m0 [] (vec 8 .e4m3 [] (vec 9 .e5m2 [] (vec 10 .n16 [] base))))).hart; TileReady h 0 [8, 9] ∧ h.vst ≤ 64
    ∧ PairOf (h.tag 8) (h.tag 9) ∧ isFloat (h.tag 8) = true ∧ h.tag 1 = .e8m0 ∧ h.vln ≤ h.vlmax (h.tag 1) ∧ h.vcfg.blk = 0
    ∧ 2 * (256 * (h.vlmax .e4m3 / 256) / 16) ≤ h.vlmax (h.tag 1) := by unfold TileReady BanksOn PairOf; decide +kernel
theorem witness_outer_gather : let h := (len 2 (vec 8 .i8 [] (vec 10 .i16 [] base))).hart; PairOf (h.tag 8) (h.tag 8) ∧ isInt (h.tag 8) = true
    ∧ width .n16 ≤ width .f16 ∧ h.vln ≤ h.vlmax (h.tag 10) ∧ ¬ PairOf .i8 .i4 ∧ Tag.i16 ∈ [Tag.n16, .n32, .i16, .i32] := by
  refine ⟨?_, ?_, ?_, ?_, ?_, ?_⟩ <;> (try unfold PairOf) <;> decide +kernel
/-- A TMMA descriptor at 0x1000: I8 with I8, 1 term, all rows at 0x2000. -/
def tmmaState (last : Nat) : State := regs [(1, 0x1000)] (dwords 0x1000 [0x2000, 0x2000, 0, 0, last] base)
theorem witness_tmma (last : Nat) (hl : last = 1 + 7 * 2 ^ 20 + 7 * 2 ^ 25 ∨ last = 0) : let s := tmmaState last; let D := s.getS 1
    TileReady s.hart 0 [] ∧ s.hart.vst ≤ 64 ∧ D.toNat % 8 = 0
    ∧ (∀ j : Fin 5, PlainRun s (D + BitVec.ofNat 64 (8 * j.val)) 8
      ∧ Holds s (localKey (D + BitVec.ofNat 64 (8 * j.val)).toNat) 8 ([0x2000, 0x2000, 0, 0, last].getD j.val 0))
    ∧ PlainRun s 0x2000 1 ∧ HoldsRow s 0x2000 8 1 (fun _ => 0) := by
  have hp (a : Word) (n : Nat) (h : a.toNat + n ≤ localTop) : PlainRun (tmmaState last) a n :=
    plainRun_of (by unfold Untranslated; rcases hl with rfl | rfl <;> decide +kernel) (by rcases hl with rfl | rfl <;> decide +kernel) h
  refine ⟨by unfold TileReady BanksOn; rcases hl with rfl | rfl <;> decide +kernel, by rcases hl with rfl | rfl <;> decide +kernel,
    by rcases hl with rfl | rfl <;> decide +kernel, fun j => ⟨hp _ _ ?_, ?_⟩, hp _ _ (by decide), ?_⟩
  · rcases hl with rfl | rfl <;> (revert j; decide +kernel)
  · unfold Holds; rcases hl with rfl | rfl <;> (revert j; decide +kernel)
  · unfold HoldsRow bitAt; rcases hl with rfl | rfl <;> decide +kernel
theorem witness_tmma_tag : tagCode .i8 = 7 ∧ PairOf .i8 .i8 ∧ 1 * width .i8 % 8 = 0 := by unfold PairOf; decide
-- ScoutAndKeepMasks
theorem witness_scout : let h := (len 2 (vec 6 .f32 [] (vec 8 .bf16 [] (vec 9 .f16 [] (vec 7 .f32 [] base))))).hart; BanksOn h ∧ h.vstart = 0 ∧ TileReady h 3 [6, 8, 9]
    ∧ h.tag 8 ∈ [Tag.f32, .bf16, .f16, .e5m2, .e4m3] ∧ h.tag 9 ∈ [Tag.f32, .bf16, .f16, .e5m2, .e4m3] ∧ width (h.tag 8) = width (h.tag 9)
    ∧ h.tag 6 = .f32 ∧ h.tag 7 = .f32 ∧ h.vln ≤ h.vlmax .f32 ∧ h.retq.length < 16 := by unfold TileReady BanksOn; decide +kernel
/-! Convoys, context images and the engines. -/

/-- A vector addition, the parcels that stand for it twice behind a header at 0, and the same with a scalar one in the second place. -/
def addition : Instr := .vadd false ⟨4, 2, .none, .vv 3 .none, false⟩
def pairOfAdds : List Nat := encode addition ++ encode addition
def headed (l : List Nat) : State := base.placeBytes 4 (l.flatMap fun v => bytesOf v 4)
-- ConvoyHeaders: two units; the same unit twice; no vector instruction in the second place
theorem witness_convoy : let s := headed pairOfAdds; let ps : List Parcel := pairOfAdds.map (BitVec.ofNat 32); let is := [addition, addition]
    s.hart.loop = none ∧ (∃ s1, fetchRun (s.hart.pc + 4) 4 s = .ok ps s1 ∧ s1.hart.pc = s.hart.pc ∧ s1.hart.retq = s.hart.retq)
    ∧ (∀ (k : Nat) (j : Instr), is[k]? = some j → (ps.getD (2 * k) 0).toNat % 4 = 3 ∧ decode (ps.getD (2 * k) 0) (ps.getD (2 * k + 1) 0) = .ok j)
    ∧ ps.length = 2 * is.length ∧ [UnitCode.ala, .alb].Nodup ∧ ¬ [UnitCode.ala, .ala].Nodup
    ∧ (∀ (k : Nat) (j : Instr) (u : UnitCode), is[k]? = some j → [UnitCode.ala, .alb][k]? = some u → ∃ c, j.vclass = some c ∧ c.accepts u = true)
    ∧ s.hart.retq.length + (is.filter Instr.producesReturn).length ≤ 16 := by
  obtain ⟨ps, s1, e, h⟩ := ok_of (show okAnd (fetchRun ((headed pairOfAdds).hart.pc + 4) 4) (headed pairOfAdds) (fun ps s1 =>
    decide (ps = pairOfAdds.map (BitVec.ofNat 32) ∧ s1.hart.pc = (headed pairOfAdds).hart.pc ∧ s1.hart.retq = (headed pairOfAdds).hart.retq)) = true by decide +kernel)
  have h' := of_decide_eq_true h
  obtain ⟨rfl, h'⟩ := h'
  refine ⟨by decide +kernel, ⟨s1, e, h'⟩, fun k j hk => ?_, by decide +kernel, by decide, by decide, fun k j u hk hu => ?_, by decide +kernel⟩
  · match k with
    | 0 | 1 => simp at hk; subst hk; exact ⟨by decide +kernel, by rfl⟩
    | k + 2 => simp at hk
  · match k with
    | 0 | 1 => simp at hk hu; subst hk; subst hu; exact ⟨.alu, by decide +kernel, by decide⟩
    | k + 2 => simp at hk
theorem witness_convoy_scalar : let s := headed (encode addition ++ [0x00489480, 0]); ∃ ps s1, s.hart.loop = none ∧ fetchRun (s.hart.pc + 4) 4 s = .ok ps s1
    ∧ s1.hart.pc = s.hart.pc ∧ s1.hart.retq = s.hart.retq ∧ (ps.getD 2 0).toNat % 4 ≠ 3 := by
  intro s
  obtain ⟨ps, s1, e, h⟩ := ok_of (show okAnd (fetchRun (s.hart.pc + 4) 4) s (fun ps s1 =>
    decide (s1.hart.pc = s.hart.pc ∧ s1.hart.retq = s.hart.retq ∧ (ps.getD 2 0).toNat % 4 ≠ 3)) = true by decide +kernel)
  exact ⟨ps, s1, by decide +kernel, e, of_decide_eq_true h⟩

/-- A byte number of local memory keeps its place in its page. -/
theorem localKey_page (p r : Nat) (h : r < 4096) : localKey (p * 4096 + r) = localKey (p * 4096) + r := by
  have hd (lo : Nat) (hl : 12 ≤ lo) : (p * 4096 + r) / 2 ^ lo = p * 4096 / 2 ^ lo := by
    obtain ⟨k, rfl⟩ := Nat.exists_eq_add_of_le hl
    have h12 : (p * 4096 + r) / 4096 = p * 4096 / 4096 := by omega
    rw [Nat.pow_add, show (2 : Nat) ^ 12 = 4096 from rfl, ← Nat.div_div_eq_div_mul, ← Nat.div_div_eq_div_mul, h12]
  have hf : ∀ n lo, 12 ≤ lo → foldBits (p * 4096 + r) lo n = foldBits (p * 4096) lo n := by
    intro n
    induction n with
    | zero => intro lo _; simp only [foldBits]
    | succ n ih => intro lo hl; simp only [foldBits, fld, hd lo hl, ih (lo + 2) (by omega)]
  have hm : (p * 4096 + r) % 4096 = r ∧ p * 4096 % 4096 = 0 := by omega
  unfold localKey packageHome dieKey fold fld
  rw [hf 17 12 (Nat.le_refl _), hd 14 (by decide), hm.1, hm.2]; simp only [Nat.add_zero, Nat.add_assoc]
/-- A hart just created on an eighth of the storage, with a gated bank or none. -/
def eighth (g : Bool) : State :=
  onH (fun h => { h with vcfg := { h.vcfg with plog := 3 }, vgate := if g then h.vgate.set 2 ⟨.gated, false⟩ else h.vgate }) base
/-- Its image from address 0 on, with a shelf section where a bank is gated: the header, and bytes 0x200 to 0x400. -/
def imageHeader (g : Bool) : Nat := packHeader (eighth g).hart ⟨false, g, 1, 0, false, false⟩
def imageCells (g : Bool) : Memory :=
  let byte (v off : Nat) (k : Nat) : Option Host.Cell := if v / 256 ^ k % 256 = 0 then none else some (off + k, BitVec.ofNat 8 (v / 256 ^ k))
  (List.range 8).filterMap (byte (imageHeader g) 0) ++ (List.range 512).filterMap (byte (packSmall (eighth g).hart) 0x200)
def imaged (g : Bool) : State := { eighth g with mem := imageCells g, l2 := imageCells g }
theorem imaged_facts (g : Bool) : let s := imaged g; let x := s.hart
    s.hart.mode = .supervisor ∧ (s.getS 0).toNat % 4096 = 0 ∧ s.storeQueued = false ∧ Unbegun x ∧ s.mem.wf = true ∧ x.epc.toNat % 4 = 0 ∧ x.retq.length ≤ 16
    ∧ x.asideRet.length ≤ 16 ∧ (∀ n, x.vtags.get n = .e8m0 → n = 1) ∧ x.pigeon.Pairwise (fun p q => p.1.toNat < q.1.toNat)
    ∧ x.pigeon.length ≤ 65536 / x.parts ∧ x.loop = none ∧ x.asideLoop = none ∧ x.ixlive = false := by unfold Unbegun; cases g <;> decide +kernel
-- ContextImages: what SAVEV writes and RESTV reads, of a hart with all banks on and of one with a gated bank and its shelves
set_option exponentiation.threshold 600 in
theorem witness_image (g : Bool) : let s := imaged g; let x := s.hart; let l := savevBlobs base x g; base.mem.wf = true ∧ PigeonReached s (s.getS 0) x.parts x.ixlive
    ∧ ((x.vgate.get 2).st = .gated ↔ g = true) ∧ (∀ b ∈ l, PlainRun s (s.getS 0 + BitVec.ofNat 64 b.off) b.len) ∧ HoldsImage s (s.getS 0) l := by
  intro s x l
  have hz : ∀ b ∈ l, b.off + b.len ≤ 2 ^ 20 ∧ (b = ⟨0, 8, imageHeader g⟩ ∨ b = ⟨0x200, 0xE00, packSmall (eighth g).hart⟩ ∨ (4096 ≤ b.off ∧ b.val = 0)) := by
    cases g <;> decide +kernel
  have h0 : s.getS 0 = 0#64 := by cases g <;> decide +kernel
  have hk : ∀ c ∈ s.mem, c.1 < 0x400 := by cases g <;> decide +kernel
  refine ⟨by decide +kernel, fun h => absurd h (by cases g <;> decide +kernel), by cases g <;> decide +kernel, fun b hb => ?_, fun b hb j hj => ?_⟩
  · have h := (hz b hb).1
    refine plainRun_of (by unfold Untranslated; cases g <;> decide +kernel) (by cases g <;> decide +kernel) ?_
    have ht : localTop = 3 * 2 ^ 40 := by decide
    rw [h0, BitVec.zero_add, BitVec.toNat_ofNat]; omega
  · have h := hz b hb
    have ha : (s.getS 0 + BitVec.ofNat 64 (b.off + j)).toNat = b.off + j := by
      rw [h0, BitVec.zero_add, BitVec.toNat_ofNat]; omega
    have hout (hn : 0x400 ≤ localKey (b.off + j)) : s.mem.get (localKey (b.off + j)) = 0#8 :=
      Memory.get_unlisted fun c hc => by have := hk c hc; omega
    have h6 := localKey_page ((b.off + j) / 4096) ((b.off + j) % 4096) (Nat.mod_lt _ (by decide))
    rw [Nat.div_add_mod'] at h6
    have h7 : localKey (0 * 4096) = 0 := by decide +kernel
    rw [ha]
    rcases h.2 with rfl | rfl | ⟨h2, h3⟩
    · revert hj; clear hout ha h6 hb h h0 hk hz; revert j; cases g <;> decide +kernel
    · by_cases hj2 : j < 0x200
      · clear hj hout ha h6 hb h h0 hk hz; revert hj2; revert j; cases g <;> decide +kernel
      · rw [hout (by simp only at h6 hj ⊢; rw [h6, show (0x200 + j) / 4096 = 0 by omega, h7]; omega), BitVec.toNat_zero]
        have hs : packSmall (eighth g).hart < 256 ^ 0x200 := by cases g <;> decide +kernel
        rw [Nat.div_eq_of_lt (lt_of_lt_of_le hs (Nat.pow_le_pow_right (by decide) (by omega)))]
    · have hp : ∀ p < 256, p ≠ 0 → 4096 ≤ localKey (p * 4096) := by decide +kernel
      have h5 := hp ((b.off + j) / 4096) (by omega) (by omega)
      rw [h3, Nat.zero_div, hout (by omega), BitVec.toNat_zero]
-- SAVEV with no shelf section, and with the shelf window open and no sector of the shelves poisoned
theorem witness_savev : (base.ctx.swin[0].toNat % 2 = 1 → base.shelfPoison base.hart = [])
    ∧ (let s := base.setCtx { base.ctx with swin := base.ctx.swin.set 0 1 }; s.ctx.swin[0].toNat % 2 = 1 ∧ s.shelfPoison s.hart = []) := by decide +kernel
theorem witness_image_misaligned : let s := regs [(1, 8)] base; s.hart.mode = .supervisor ∧ (s.getS 1).toNat % 4096 ≠ 0 := by decide +kernel
/-- Pages 1 to 4 of local memory, as a command translates them. -/
def fourPages : List CmdPage := [1, 2, 3, 4].map fun p => ⟨p, .cell (localKey (p * 4096)) 0, p * 4096⟩
/-- Two elements of I32 from 0x1000 to 0x2000, its record at 0x3000. -/
def twoWords : Job :=
  { op := 0, conv := false, stag := .i32, dtag := .i32, rm := .nearestEven, sat := false, fz := false, cnt := 1, kmode := 0, kfill := false
    kn := 0, kdim := 0, cten := false, ctn := 0, trips := [2], sstr := [4], dstr := [4], src := 0x1000, dst := 0x2000, key := 0, off := 0
    erec := 0x3000, extra := 0 }
def command (e : Engine) (j : Job) (k : Option Coll) (st : CmdStage) : Cmd :=
  { id := 5, engine := e, quad := 0, owner := base.hart.born, launch := 0, place := ⟨0, 0⟩, ctx := 0, mode := .supervisor, vatp := 0, swin := .replicate 4 0
    dwords := [], job := j, keepMask := 0, table := 0, bank := false, pages := fourPages, coll := k, owned := [], rsbSrc := none, rsbDst := none, sends := [], answers := []
    stage := st }
def holding (c : Cmd) (s : State) : State := { s with cmds := [c] }
theorem mayMove_of {c : Cmd} {s : State} (h : s.cmds = [c]) (hf : s.locks = [] ∧ s.fabric.outstanding = []) (ha : c.lost = false) (hs : c.sends = []) : MayMove s c := by
  refine ⟨by simp [NothingToSend, h, hs], hf.1, by simp [h], by simp [h], by simp [hf.2], ha⟩
def readsB (s : State) (c : Cmd) (a : Word × Nat) (w v : Nat) : Bool :=
  decide (v < 2 ^ w) && match keyOf c a.1 with
    | some k => decide ((∀ q < w, v.testBit q = bitAt s (8 * k + a.2 + q)) ∧ ∀ j < (a.2 + w + 7) / 8, s.poisoned (k + j) = false)
    | none => false
theorem reads_of {s : State} {c : Cmd} {a : Word × Nat} {w v : Nat} (h : readsB s c a w v = true) : ReadsBits s c a w v := by
  unfold readsB at h
  cases hk : keyOf c a.1 with
  | none => simp [hk] at h
  | some k =>
    rw [hk, Bool.and_eq_true] at h
    exact ⟨of_decide_eq_true h.1, k, hk, of_decide_eq_true h.2⟩
def apartB (c : Cmd) (j : Job) (i i' : Iter) : Bool := match keyOf c i.src.1, keyOf c i'.dst.1 with
  | some k, some k' => decide (k + (i.src.2 + width j.stag + 7) / 8 ≤ k' ∨ k' + (i'.dst.2 + width j.dtag + 7) / 8 ≤ k)
  | _, _ => true
-- CopyAndLevelWalkWriteTheirElements: COPY
theorem witness_copy : let c := command .cpe twoWords none .pending; let s := holding c (dwords 0x1000 [7 + 8 * 2 ^ 32] base); let its := twoWords.iters 0
    MayMove s c ∧ isWalk c.engine c.job = false ∧ s.mem.wf = true ∧ its.length = 2 ∧ (∀ i ∈ its, i.kept = true → ReadsBits s c i.src 32 (7 + i.n))
    ∧ (∀ i ∈ its, i.kept = true ∨ twoWords.kfill = true → ∃ k, keyOf c i.dst.1 = some k)
    ∧ (∀ i ∈ its, ∀ i' ∈ its, ∀ k k', keyOf c i.src.1 = some k → keyOf c i'.dst.1 = some k' →
        k + (i.src.2 + width twoWords.stag + 7) / 8 ≤ k' ∨ k' + (i'.dst.2 + width twoWords.dtag + 7) / 8 ≤ k) := by
  intro c s its
  refine ⟨mayMove_of rfl (by decide +kernel) (by decide +kernel) rfl, by decide +kernel, by decide +kernel, by decide +kernel, fun i hi _ => reads_of ?_,
    fun i hi _ => Option.isSome_iff_exists.mp ?_, fun i hi i' hi' k k' h h' => ?_⟩
  · revert i; decide +kernel
  · revert i; decide +kernel
  · have h0 : apartB c twoWords i i' = true := by clear h h'; revert i' i; decide +kernel
    simpa [apartB, h, h'] using h0
/-- One row of a level at 0x1000 with one coordinate and one value, to 0x4000 with room for 64 bytes. -/
def walkJob : Job := { twoWords with op := 1, trips := [1], sstr := [0], dstr := [0], dst := 0x4000, extra := 64 * 2 ^ 32 }
def walkState : State := dwords 0x1000 [0x1020, 0x1030, 0x1038, 1, 0x100000000, 0, 4, 6] base
theorem nowhere_of {c : Vector Word 4} (h : c = .replicate 4 0) (va : Word) : findWindow c va = none := by
  rw [h]
  have h : ∀ n : Fin 4, (Vector.replicate 4 0#64).get n = 0#64 := by decide
  simp [findWindow, h]
def placedB (c : Cmd) (k k' : Nat) : Bool := match keyOf c (c.job.dst + BitVec.ofNat 64 k), keyOf c (c.job.dst + BitVec.ofNat 64 k') with
  | some x, some x' => decide (k < k' → x ≠ x' ∧ (k / 8 = k' / 8 → x' = x + (k' - k)))
  | _, _ => true
theorem witness_level_walk : let c := command .ste walkJob none .pending; let s := holding c walkState; let j := walkJob
    let d : Fin 4 → Nat := fun k => [0x1020, 0x1030, 0x1038, 1].getD k.val 0; let p : Nat → Nat := fun n => n; let n := j.trips.headD 0
    let reads (a m v : Nat) : Prop := a + m ≤ localTop ∧ a % 4096 + m ≤ 4096 ∧ Holds s (localKey a) m v ∧ ∀ q < m, s.poisoned (localKey a + q) = false
    MayMove s c ∧ isWalk c.engine j = true ∧ j.legal c.engine = true ∧ s.mem.wf = true ∧ c.vatp.toNat / 2 ^ 60 = 0 ∧ (∀ va, findWindow c.swin va = none)
    ∧ (∀ k : Fin 4, reads (j.src.toNat + 8 * k.val) 8 (d k)) ∧ d 3 < 2 ^ 33 ∧ n ≤ d 3 % 2 ^ 32 ∧ d 0 % 8 = 0 ∧ d 1 % 4 = 0 ∧ d 2 % 4 = 0
    ∧ (∀ k ≤ n, reads (d 0 + 4 * k) 4 (p k)) ∧ (∀ k < n, p k ≤ p (k + 1)) ∧ reads (d 1) 4 4 ∧ reads (d 2) 4 6 ∧ j.extra.toNat / 2 ^ 32 = 64
    ∧ 32 + (4 * (n + 1) + 7) / 8 * 8 + 8 + 1 * 4 ≤ 64 ∧ (∀ k < 64, ∃ x, keyOf c (j.dst + BitVec.ofNat 64 k) = some x ∧ x < 2 ^ 64)
    ∧ (∀ k k' x x', k < k' → k' < 64 → keyOf c (j.dst + BitVec.ofNat 64 k) = some x → keyOf c (j.dst + BitVec.ofNat 64 k') = some x' →
        x ≠ x' ∧ (k / 8 = k' / 8 → x' = x + (k' - k))) := by
  intro c s j d p n reads
  have hp : ∀ k < 64, ∀ k' < 64, placedB c k k' = true := by decide +kernel
  have hq : ∀ k < 64, (match keyOf c (j.dst + BitVec.ofNat 64 k) with | some x => decide (x < 2 ^ 64) | none => false) = true := by decide +kernel
  refine ⟨mayMove_of rfl (by decide +kernel) (by decide +kernel) rfl, by decide +kernel, by decide +kernel, by decide +kernel, by decide, nowhere_of rfl, ?_, by decide, by decide,
    by decide, by decide, by decide, ?_, by decide, ?_, ?_, by decide, by decide, fun k hk => ?_, fun k k' x x' h1 h2 h3 h4 => ?_⟩
  · unfold reads Holds; decide +kernel
  · unfold reads Holds; decide +kernel
  · unfold reads Holds; decide +kernel
  · unfold reads Holds; decide +kernel
  · have h := hq k hk
    cases hx : keyOf c (j.dst + BitVec.ofNat 64 k) with
    | none => simp [hx] at h
    | some x => exact ⟨x, rfl, by simpa [hx] using h⟩
  · have h := hp k (by omega) k' h2
    unfold placedB at h
    rw [show c.job = j from rfl, h3, h4] at h
    exact of_decide_eq_true h h1

/-- A collective of this device alone. -/
def lone (op : Nat) (sent : Bool) (data : List CollPart) : Coll :=
  { key := ⟨0, op, 1, 0, 6, 6, [2], [0], false, 0, false, false⟩, self := 0, root := 0, sdim := 0, gstride := 0, maps := [[0x2000, 4, 0, 0, 0, 0, 0, 0]], core := 0
    announced := true, peers := [], sent := sent, place := (0, 0), data := data }
def collState (op : Nat) (sent : Bool) (data : List CollPart) (st : CmdStage) : State :=
  holding (command .coe { twoWords with op := op } (some (lone op sent data)) st) (dwords 0x1000 [7 + 8 * 2 ^ 32] base)
-- CollectivesWriteTheirResults: data given; a result complete; an exchange, and its arrival
theorem witness_collective_gives (op : Fin 4) : let k := lone op.val false []; let j := { twoWords with op := op.val }
    let c := command .coe j (some k) .pending; let s := collState op.val false [] .pending
    MayMove s c ∧ s.mem.wf = true ∧ k.key.np = k.key.plist.length ∧ 0 < k.key.np ∧ k.key.op = j.op ∧ k.self = 0 ∧ k.root = 0
    ∧ (∀ o ∈ s.fabric.outstanding, o.mc = false) ∧ (nestSources j).length = 2
    ∧ ∀ n, n < (nestSources j).length → ∀ a, (nestSources j)[n]? = some a → ReadsBits s c (a.1, a.2.1) a.2.2 (7 + n) := by
  intro k j c s
  have hb : ∀ op : Fin 4, ∀ n < 2, (match (nestSources { twoWords with op := op.val })[n]? with
      | some a => readsB (collState op.val false [] .pending) (command .coe { twoWords with op := op.val } (some (lone op.val false [])) .pending) (a.1, a.2.1) a.2.2 (7 + n)
      | none => false) = true := by decide +kernel
  have hl : ∀ op : Fin 4, (nestSources { twoWords with op := op.val }).length = 2 := by decide +kernel
  have hm : ∀ op : Fin 4, (collState op.val false [] .pending).mem.wf = true ∧ (collState op.val false [] .pending).fabric.outstanding = []
      ∧ Cmd.lost (command .coe { twoWords with op := op.val } (some (lone op.val false [])) .pending) = false := by decide +kernel
  refine ⟨mayMove_of rfl ⟨rfl, (hm op).2.1⟩ (hm op).2.2 rfl, (hm op).1, rfl, Nat.one_pos, rfl, rfl, rfl, by simp [s, (hm op).2.1], hl op, fun n hn a ha => reads_of ?_⟩
  have h := hb op n (by rw [hl op] at hn; exact hn)
  rw [ha] at h; exact h
theorem witness_collective_results (op : Fin 4) : let data : List CollPart := [⟨0, 0, [⟨7, false⟩, ⟨8, false⟩]⟩]; let k := lone op.val true data; let j := { twoWords with op := op.val }
    let c := command .coe j (some k) .pending; let s := collState op.val true data .pending
    MayMove s c ∧ k.announced = true ∧ k.key.trips = j.trips ∧ (k.gives = true → k.sent = true) ∧ (∀ d ∈ k.data, ∀ e ∈ d.elems, e.poisoned = false)
    ∧ (∀ p < k.key.np, (k.dataOf (entryDev (k.key.plist.getD p 0))).length = j.count) ∧ k.root < k.key.np ∧ j.count % k.key.np = 0 ∧ k.self < k.key.np
    ∧ (∀ a ∈ collDests k j, ∃ key, keyOf c a.1 = some key) ∧ (collDests k j).length = 2 := by
  intro data k j c s
  have hd : ∀ op : Fin 4, ∀ a ∈ collDests (lone op.val true data) { twoWords with op := op.val },
      (keyOf (command .coe { twoWords with op := op.val } (some (lone op.val true data)) .pending) a.1).isSome = true := by decide +kernel
  have hl : ∀ op : Fin 4, (collDests (lone op.val true data) { twoWords with op := op.val }).length = 2 := by decide +kernel
  have hm : ∀ op : Fin 4, (collState op.val true data .pending).fabric.outstanding = []
      ∧ Cmd.lost (command .coe { twoWords with op := op.val } (some (lone op.val true data)) .pending) = false := by decide +kernel
  have hc : ∀ op : Fin 4, Job.count { twoWords with op := op.val } = 2 := by decide +kernel
  have hg : ∀ op : Fin 4, ∀ p < (lone op.val true data).key.np, ((lone op.val true data).dataOf (entryDev ((lone op.val true data).key.plist.getD p 0))).length = 2 := by
    decide +kernel
  exact ⟨mayMove_of rfl ⟨rfl, (hm op).1⟩ (hm op).2 rfl, rfl, rfl, fun _ => rfl, by simp only [k, lone, data, List.mem_singleton, forall_eq]; decide,
    fun p hp => (hg op p hp).trans (hc op).symm, by simp only [k, lone]; decide, by simp only [k, lone, Nat.mod_one], by simp only [k, lone]; decide,
    fun a ha => Option.isSome_iff_exists.mp (hd op a ha), hl op⟩
theorem witness_exchange : let k := lone 4 false []; let j := { twoWords with op := 4 }; let c := command .coe j (some k) .pending; let s := collState 4 false [] .pending
    MayMove s c ∧ entryDev (k.key.plist.getD 0 0) = s.fabric.self ∧ 8 ≤ width j.dtag
    ∧ (∀ n, n < (nestSources j).length → ∀ a, (nestSources j)[n]? = some a → ReadsBits s c (a.1, a.2.1) a.2.2 (7 + n))
    ∧ ∀ it ∈ j.tuples, (exchange k j it).1 = 0 ∧ 0 ≤ (exchange k j it).2 ∧ (exchange k j it).2 + (width j.dtag / 8 : Nat) ≤ (localTop : Nat)
        ∧ (exchange k j it).2 % (width j.dtag / 8 : Nat) = 0 := by
  intro k j c s
  have hb : ∀ n < 2, (match (nestSources j)[n]? with | some a => readsB s c (a.1, a.2.1) a.2.2 (7 + n) | none => false) = true := by decide +kernel
  have hl : (nestSources j).length = 2 := by decide +kernel
  refine ⟨mayMove_of rfl (by decide +kernel) (by decide +kernel) rfl, by decide +kernel, by decide, fun n hn a ha => reads_of ?_, by decide +kernel⟩
  have h := hb n (by rw [hl] at hn; exact hn)
  rw [ha] at h; exact h
theorem witness_exchange_arrival : let k := lone 4 true []; let c := command .coe { twoWords with op := 4 } (some k) .flying; let s := collState 4 true [] .flying
    let e := (k.key.plist.getD 0 0).toNat; MayMove s c ∧ s.namedSlot (e / 2 ^ 10 % 2 ^ 8) (Fin.ofNat 8 (e / 2 ^ 18)) = some s.hart.place
    ∧ s.hart.status ≠ .absent ∧ s.hart.ctx = c.ctx ∧ s.others = [] ∧ s.saved = [] ∧ s.kept = [] := by
  intro k c s e
  exact ⟨mayMove_of rfl (by decide +kernel) (by decide +kernel) rfl, by decide +kernel⟩

/-- The dwords of `twoWords`. -/
def twoWordsDwords : List Word := [0x1000, 0x2000, BitVec.ofNat 64 (1 * 2 ^ 4 + tagCode .i32 * 2 ^ 8 + tagCode .i32 * 2 ^ 13 + 1 * 2 ^ 23), 0, 0, 2, 0, 0, 4 + 4 * 2 ^ 32,
  0, 0, 0, 0, 0, 0x3000, 0]
-- CommandsAreAcceptedCancelledAndEnded: an ECMD whose one command has zeros for its fields
theorem witness_ecmd : let h := (len 1 base).hart; BanksOn h ∧ (16 : VIdx).val ∈ [16, 32, 48] ∧ (∀ r : VIdx, 16 ≤ r.val → r.val < 32 → h.tag r = .n64)
    ∧ h.vln ≤ h.vlmax .n64 ∧ h.vstart = 0 ∧ h.offer = none ∧ ∀ c, Takes h false c → jobOf ((List.range 16).map (commandDword h 16 c)) = none := by
  refine ⟨by unfold BanksOn; decide +kernel, by decide, ?_, ?_, ?_, ?_, fun c hc => ?_⟩
  iterate 4 decide +kernel
  obtain rfl : c = 0 := by have := takes_lt hc (show _ = 1 by decide +kernel); omega
  decide +kernel
theorem witness_command_accept : let s := onH (fun h => { h with offer := some ⟨.cpe, 0, .replicate 4 0, [(0, twoWordsDwords)], []⟩ }) base
    jobOf twoWordsDwords = some twoWords ∧ twoWords.legal .cpe = true ∧ LocalPages 0 (.replicate 4 0) ((twoWords.erec, 0, 256) :: nestSources twoWords ++ nestDests twoWords)
    ∧ s.cmds = [] ∧ s.announces = [] ∧ jobOf [] = none ∧ quadOfCore s.hart.place.core ∉ s.haltedQuads := by
  exact ⟨by decide +kernel, by decide +kernel, ⟨by decide +kernel, nowhere_of rfl, by decide +kernel⟩, by decide +kernel⟩
-- its one command is acceptable; its batch is finished
def oneCommand : State := len 1 (twoWordsDwords.zipIdx.foldl (fun s p => vec (Fin.ofNat 64 (16 + p.2)) .n64 [p.1.toNat] s) base)
theorem witness_ecmd_accepts : let s := oneCommand; let h := s.hart; let d := (List.range 16).map (commandDword h 16 0)
    (∀ x, Takes h false x ↔ x = 0) ∧ h.offer = none ∧ s.others = [] ∧ Acceptable s .cpe s.ctx.vatp s.ctx.swin d twoWords := by
  intro s h d
  have hv : h.vln = 1 ∧ h.vst = 0 := by decide +kernel
  refine ⟨fun x => ?_, by decide +kernel, by decide +kernel, ?_⟩
  · unfold Takes; rw [hv.1, hv.2]; simp
  · refine ⟨by decide +kernel, by decide +kernel, by decide, by decide, ⟨by decide +kernel, nowhere_of (by decide +kernel), by decide +kernel⟩, ?_, ?_, ?_⟩
    · simp [show s.cmds = [] by decide +kernel]
    · simp [NothingToSend, show s.cmds = [] by decide +kernel]
    · decide +kernel
theorem witness_ecmd_finished : let h := (onH (fun h => { h with offer := some ⟨.cpe, 0, .replicate 4 0, [], [(0, true), (1, false)]⟩ }) oneCommand).hart
    (∀ r : VIdx, 16 ≤ r.val → r.val < 32 → h.tag r = .n64) ∧ ∃ o, h.offer = some o ∧ (o.decided.map (·.1)).Nodup :=
  ⟨by decide +kernel, _, rfl, by decide⟩
theorem witness_ecancel : let c := command .ste walkJob none .pending; let s := holding c base; let h := s.hart
    c.sends = [] ∧ c.owner = h.born ∧ c.job.cnt = 1 ∧ isWalk c.engine c.job = true ∧ c.lost = false ∧ s.fabric.outstanding = [] ∧ s.announces = [] ∧ s.locks = [] ∧ h.cancelling = none
    ∧ c.recordKeys = [localKey 0x3000] ∧ s.mem.wf = true ∧ h.status ≠ .absent ∧ s.others = [] ∧ (2 : WIdx) ≠ c.job.cnt := by decide +kernel
theorem witness_command_ends : let c := command .cpe twoWords none (.moved 6 0x1000); let s := holding c base; let h := s.hart
    s.cmds.find? (fun x => x.id = c.id) = some c ∧ c.stage = .moved 6 0x1000 ∧ (∀ o ∈ s.fabric.outstanding, o.cmd ≠ some c.id) ∧ (∀ x ∈ s.cmds, x.coll = none)
    ∧ s.announces = [] ∧ s.locks = [] ∧ h.cancelling = none ∧ c.owner = h.born ∧ h.status ≠ .absent ∧ s.others = [] ∧ s.saved = [] ∧ s.kept = [] ∧ c.recordKeys = [localKey 0x3000] ∧ s.mem.wf = true
    ∧ ∀ x ∈ s.cmds, x.owns (localKey 0x3000) 32 = false ∧ x.rsbDst = none ∧ x.rsbSrc = none := by decide +kernel
theorem witness_command_completes : let c := command .cpe twoWords none (.moved 0 0); let s := holding c base
    s.cmds.find? (fun x => x.id = c.id) = some c ∧ (∀ o ∈ s.fabric.outstanding, o.cmd ≠ some c.id) ∧ (∀ x ∈ s.cmds, x.coll = none) ∧ c.owner = s.hart.born := by decide +kernel
/-! The scheduler and the launch dispatcher. -/

/-- A launch of four harts in two quads, some created; it stands at the head. -/
def fourHarts (created total : Nat) : Launch :=
  ⟨7, 0, 1, false, false, 0, 0x40, 9, 0, [], [⟨2, true⟩, ⟨2, false⟩], false, [], 0, false, total, created, 0, 0, 0, [], .replicate 16 (Barrier.start 0), [], 0⟩
def queued (created total : Nat) : State := { base with launches := [fourHarts created total], head := some (.launch 7), nextId := 9 }
-- LaunchesCreateTheirHarts: no hart; the first; the second
theorem witness_launch_of_none : let s := queued 0 0; let l := fourHarts 0 0; s.head = some (.launch l.id) ∧ s.launchOf l.id = some l
    ∧ (∀ x ∈ s.launches, x.id = l.id → x = l) ∧ l.admitted = false ∧ s.mgmt.proposed = [] := by decide +kernel
theorem witness_create (n : Nat) (hn : n = 0 ∨ n = 1) : let s := queued n 4; let l := fourHarts n 4; s.head = some (.launch l.id) ∧ s.launchOf l.id = some l
    ∧ (∀ x ∈ s.launches, x.id = l.id → x = l) ∧ l.admitted = false ∧ s.mgmt.proposed = [] ∧ l.total ≠ 0 ∧ l.gang = false ∧ l.root = false
    ∧ (s.ctxs.get l.ctx).frozen = false ∧ (match l.binds.find? (fun b => b.index = 0) with | some b => some b.quad | none => s.chooseQuad l) = some 1
    ∧ s.placeOn l.ctx l.plog 1 = some ⟨32, 0⟩ ∧ s.hart.status ≠ .absent ∧ s.mem.wf = true := by rcases hn with rfl | rfl <;> decide +kernel

theorem alone_distinct {s : State} (h : s.others = []) (hs : s.hart.status ≠ .absent) : DistinctHarts s := by
  unfold DistinctHarts; rw [h]; exact ⟨by simp, by simpa using hs⟩
/-- A hart to be stopped, of a class. -/
def toStop (cls : Fin 4) : State := onH (fun h => { h with preempt := true, pclass := cls, convoys := 65536 }) base
-- HartsArePreemptedAndResumed
theorem witness_pre_emption (cls : Fin 4) : let s := toStop cls; let h := s.hart; let limit := s.mgmt.escalation.get (quadOfCore h.place.core)
    DistinctHarts s ∧ h.preempt = true ∧ (∀ l, s.launchOf h.launch = some l → l.gang = false) ∧ s.stoppable h = true ∧ quadOfCore h.place.core ∉ s.haltedQuads
    ∧ s.paOwned (saveSlot s.ctx.saveBase h.place) slotBytes = false ∧ saveSlot s.ctx.saveBase h.place + 6 * 2 ^ 20 ≤ localTop ∧ saveSlot s.ctx.saveBase h.place % 4096 = 0 ∧ s.mem.wf = true ∧ h.pigeon.length ≤ 65536 / h.parts
    ∧ h.pclass = cls ∧ limit.1.toNat ≤ h.convoys ∧ limit.2.toNat ≤ h.convoys := by
  intro s h limit
  have hc : ∀ cls : Fin 4, let s := toStop cls; let h := s.hart; let limit := s.mgmt.escalation.get (quadOfCore h.place.core)
      s.others = [] ∧ h.status ≠ .absent ∧ h.preempt = true ∧ s.launchOf h.launch = none ∧ s.stoppable h = true ∧ quadOfCore h.place.core ∉ s.haltedQuads
      ∧ s.paOwned (saveSlot s.ctx.saveBase h.place) slotBytes = false ∧ saveSlot s.ctx.saveBase h.place + 6 * 2 ^ 20 ≤ localTop ∧ saveSlot s.ctx.saveBase h.place % 4096 = 0 ∧ s.mem.wf = true
      ∧ h.pigeon.length ≤ 65536 / h.parts ∧ h.pclass = cls ∧ limit.1.toNat ≤ h.convoys ∧ limit.2.toNat ≤ h.convoys := by decide +kernel
  obtain ⟨h1, h2, h3, h4, h5⟩ := hc cls
  exact ⟨alone_distinct h1 h2, h3, (fun l hl => by rw [h4] at hl; cases hl), h5⟩
/-- A hart of another core, saved at 0x600000. -/
def wasStopped : Saved := ⟨{ base.hart with place := ⟨1, 0⟩, born := 1, pc := 0x40 }, 3, false, 0x600000, []⟩
theorem witness_resumption : let s : State := { base with saved := [wasStopped], head := some (.resume 3), nextId := 4 }; let x := wasStopped
    s.saved = [x] ∧ s.head = some (.resume x.order) ∧ s.mgmt.proposed = [] ∧ x.gang = false ∧ s.slotBack x = true ∧ s.imagePoisoned x = false
    ∧ s.hart.status ≠ .absent ∧ x.image % 4096 = 0 ∧ x.image + 4096 ≤ localTop ∧ Holds s (localKey (x.image + 8)) 8 0
    ∧ (1 : SReg) ≠ 0 ∧ Holds s (localKey (x.image + 0x100 + 8)) 8 0 := by unfold Holds; decide +kernel
-- OpportunitiesWaitsAndBarriers: an opportunity of the core with a hart ready, at its position and past the eight; a core with none
def atAdd : State := onH (fun h => { h with issue := false }) (base.placeBytes 0 ((encode addition).flatMap fun v => bytesOf v 4))
theorem witness_opportunity : let s := atAdd; DistinctHarts s ∧ (s.cores.get 0).retired = false ∧ s.convoysOn 0 < 4 ∧ s.startPending 0 = false ∧ s.eligible s.hart = true ∧ (s.cores.get 0).position = 0
    ∧ (s.cores.get 5).retired = false ∧ s.convoysOn 5 < 4 ∧ s.startPending 5 = false ∧ s.hart.place.core ≠ 5 :=
  ⟨alone_distinct (by decide +kernel) (by decide +kernel), by decide +kernel⟩
theorem witness_opportunity_by_credit : let s : State := { atAdd with cores := atAdd.cores.set 0 { atAdd.cores.get 0 with position := 9 } }
    DistinctHarts s ∧ (s.cores.get 0).retired = false ∧ s.convoysOn 0 < 4 ∧ s.startPending 0 = false ∧ s.eligible s.hart = true
    ∧ ¬ (s.cores.get 0).position.val < 8 := ⟨alone_distinct (by decide +kernel) (by decide +kernel), by decide +kernel⟩
/-- A core whose harts in slots 0 to 3 each have a convoy under way. -/
def fullCore : State := { base with others := [1, 2, 3].map fun i => { base.hart with place := ⟨0, i⟩, born := i.val } }
theorem witness_no_opportunity : let s : State := { base with cores := base.cores.set 7 { base.cores.get 7 with retired := true } }
    (s.cores.get 7).retired = true ∧ 4 ≤ fullCore.convoysOn 0 ∧ (onH (fun h => { h with issue := true }) atAdd).startPending 0 = true := by decide +kernel
theorem witness_hwait_wake : let s := onH (fun h => { h with waiting := true, watch := some ⟨4, true⟩ }) base
    DistinctHarts s ∧ s.hart.waiting = true ∧ s.hart.watch = some ⟨4, true⟩ :=
  ⟨alone_distinct (by decide +kernel) (by decide +kernel), by decide +kernel, by decide +kernel⟩
/-- A gang launch of two whose barrier 3 has had `n` arrivals, and a hart that has arrived. -/
def arrived (n : Nat) : State :=
  let l := gangLaunch true
  onH (fun h => { h with arrivals := h.arrivals.set 3 (some ⟨0, false, [], []⟩) }) { base with launches := [{ l with barriers := l.barriers.set 3 ⟨0, n, 2, 0⟩ }] }
theorem witness_arrival (n : Nat) (hn : n = 0 ∨ n = 1) : let s := arrived n; let h := s.hart; DistinctHarts s ∧ s.saved = [] ∧ h.arrivals.get 3 = some ⟨0, false, [], []⟩
    ∧ s.arrivalWaits ⟨0, false, [], []⟩ = false ∧ ∃ l, s.launches = [l] ∧ l.id = h.launch ∧ (l.barriers.get 3).arrivals = n
      ∧ (l.barriers.get 3).parts = 2 ∧ (l.barriers.get 3).phase = 0 := by
  refine ⟨alone_distinct ?_ ?_, ?_, ?_, ?_, { gangLaunch true with barriers := (gangLaunch true).barriers.set 3 ⟨0, n, 2, 0⟩ }, rfl, ?_⟩ <;>
    (rcases hn with rfl | rfl <;> decide +kernel)
/-- A launch all of whose harts have ended, with its completion word at 0x1000, and a pool of it. -/
def drained : Launch := { fourHarts 4 4 with admitted := true, ended := 4, cword := [localKey 0x1000] }
def aPool (l : List PoolElem) : Pool := ⟨1, 7, 0x80, [.f32], .reset, 0, 0, 0, l⟩
theorem witness_merged : let p := aPool [⟨[5], 0, 0⟩]; let s : State := { base with launches := [drained], pools := [p], nextId := 9 }
    (s.pools.filter (fun x => x.quad = p.quad))[0]? = some p ∧ p.elems ≠ [] ∧ s.launchOf p.launch = some drained ∧ drained.admitted = true
    ∧ drained.created = drained.total ∧ drained.ended = drained.total := by decide +kernel
theorem witness_completion_word : let s : State := { base with launches := [drained], pools := [aPool []], nextId := 9 }; let l := drained
    s.launchOf l.id = some l ∧ l.mergedOut = 0 ∧ (∀ x ∈ s.pools, x.launch = l.id → x.elems = []) ∧ s.mergedHarts = [] ∧ s.cmds = []
    ∧ l.cword = [localKey 0x1000] ∧ s.writeStalls (localKey 0x1000) 8 = false ∧ s.mem.wf = true ∧ l.nexit < 2 ^ 32 := by decide +kernel
/-! The fabric. -/

/-- A packet of device 1 for this one, of eight bytes at 0x1000. -/
def packet (off : Nat) : Packet :=
  ⟨1, 0, false, false, 0, 0, 0, 0, off, 3, [1, 2, 3, 4, 5, 6, 7, 8], List.replicate 8 0xFF, [], false, false, ⟨0, 0⟩, .add, .d, 8, 0, false, false, .n8, [], true⟩
-- FabricRequestsArePerformedInOrder: a request in order; a poisoned sector; an offset of 3 TiB; a duplicate
theorem witness_request : let s := base; let p := packet 0x1000; let k := localKey p.off; InOrder s p ∧ LocalRun s p.off p.len ∧ s.fabric.watches.length ≤ 4096 ∧ s.lineWaits = []
    ∧ LocalRun s p.off p.data.length ∧ p.mask.length = p.data.length ∧ Holds s k p.len 0 ∧ p.merges = false ∧ p.op ≠ .fadd ∧ p.len = 8 ∧ p.len ≤ 16 ∧ k % p.len = 0
    ∧ s.poisoned k = false := by unfold InOrder LocalRun Holds; decide +kernel
theorem witness_request_poisoned : let s : State := { base with poison := [localKey 0x1000 / 32] }; let p := packet 0x1000; InOrder s p ∧ LocalRun s p.off p.len
    ∧ Holds s (localKey p.off) p.len 0 ∧ s.poisoned (localKey p.off) = true := by unfold InOrder LocalRun Holds; decide +kernel
theorem witness_request_outside : let p := packet localTop; InOrder base p ∧ localTop ≤ p.off := by unfold InOrder; decide +kernel
-- an atomic: alone; the first of two packets of one instruction; where one of the places that it names is poisoned, and where that does not matter
/-- A device of a row of four. -/
def inRow : State := { base with fabric := { base.fabric with nrow := 1, ncol := 4 } }
/-- Packets of an instruction with two places here, of which the second is poisoned or not. -/
def twoPlaces (poison merges closing : Bool) : State × Packet :=
  ({ inRow with poison := if poison then [localKey 0x2000 / 32] else [] }, { packet 0x1000 with lockset := [0x2000], merges := merges, closing := closing })
theorem witness_atomic (poison merges closing : Bool) : let (s, p) := twoPlaces poison merges closing; let ks := [localKey 0x1000, localKey 0x2000]
    InOrder s p ∧ LocalRun s p.off p.len ∧ Holds s (localKey p.off) p.len 0 ∧ p.len = 8 ∧ localKey p.off % p.len = 0 ∧ (p.off :: p.lockset).mapM homeKey = some ks
    ∧ (∀ x ∈ ks, s.writeStalls x p.len = false) ∧ s.lineWaits = [] ∧ s.locks = [] ∧ s.fabric.reaches p.src = true
    ∧ ((p.merges = false ∧ ∃ x ∈ ks, s.poisoned x = true) ↔ merges = false ∧ poison = true) := by
  unfold twoPlaces InOrder LocalRun Holds; cases poison <;> cases merges <;> cases closing <;> decide +kernel
theorem witness_duplicate : let s := after (.read (packet 0x1000)) base; let p := packet 0x1000; p.src ≠ s.fabric.self ∧ p.dst = s.fabric.self ∧ p.mc = false
    ∧ 2 ^ 31 ≤ (p.seq + 2 ^ 32 - s.fabric.expects p.src p.ocls) % 2 ^ 32
    ∧ (s.fabric.cached.find? (fun y => y.src = p.src ∧ y.ocls = p.ocls ∧ y.seq = p.seq)).isSome = true := by decide +kernel
-- PacketsMessagesAndResponses: a collective of two devices whose other member announces or gives its data; one that no command expects; an arrival
/-- A collective with device 1, which has announced or not. -/
def withPeer (peers : List Nat) : Coll := { lone 0 true [] with key := ⟨0, 0, 2, 0, 6, 6, [2], [0, 1], false, 0, false, false⟩, peers := peers }
theorem witness_collective_data : let k := withPeer [1]; let c := command .coe twoWords (some k) .pending; let s := holding c base; let p := packet 0
    InOrder s p ∧ s.cmds = [c] ∧ c.coll = some k ∧ k.announced = true ∧ p.src ∈ k.peers ∧ (k.dataOf p.src).length < k.total := by unfold InOrder; decide +kernel
theorem witness_announce : let k := withPeer []; let c := command .coe twoWords (some k) .pending; let s := holding c base; let p := packet 0
    InOrder s p ∧ s.cmds = [c] ∧ c.coll = some k ∧ k.announced = true ∧ p.src ∈ k.peersOf ∧ p.src ∉ k.peers ∧ s.announces = [] ∧ s.unpaired = []
    ∧ base.cmds = [] ∧ InOrder base p := by unfold InOrder; decide +kernel
theorem witness_arrival_increment : InOrder base (packet 0) ∧ DistinctHarts base ∧ base.namedSlot 0 0 = some base.hart.place ∧ base.namedSlot 255 0 = none :=
  ⟨by unfold InOrder; decide +kernel, alone_distinct (by decide +kernel) (by decide +kernel), by decide +kernel, by decide +kernel⟩
/-- A message of one entry for core `core`, its receipt at 0x1000 of this device. -/
def message (core : Nat) : FMsg := ⟨0, 0, 0, core, 0, [(5, 7)], 0, false, false, 0, 0x1000⟩
theorem witness_message (core : Nat) (h : core = 0 ∨ core = 255) : let m := message core; let s : State := { base with msgs := [m] }
    s.msgs.find? (fun x => x.born = m.born ∧ x.core = m.core ∧ x.slot = m.slot) = some m ∧ m.rdev = s.fabric.self ∧ m.receipt % 8 = 0 ∧ m.receipt < localTop
    ∧ s.writeStalls (localKey m.receipt) 8 = false ∧ s.mem.wf = true ∧ DistinctHarts s ∧ Holds s (localKey m.receipt) 8 0 ∧ m.ascending.length < 2 ^ 32
    ∧ (core = 0 → s.namedSlot m.core m.slot = some s.hart.place ∧ m.ctx = s.hart.ctx) ∧ (core = 255 → s.namedSlot m.core m.slot = none)
    ∧ { packet 0 with src := 0 }.src = s.fabric.self := by
  refine ⟨?_, ?_, ?_, ?_, ?_, ?_, alone_distinct ?_ ?_, ?_, ?_, ?_, ?_, ?_⟩ <;> (rcases h with rfl | rfl <;> (try unfold Holds) <;> decide +kernel)
/-- A request of the hart that waits for device 1. -/
def request (posted : Bool) : OutReq := ⟨3, 1, 0, 0, base.hart.born, 0x1000, 8, posted, false, 0, none, false⟩
theorem witness_response (posted : Bool) : let o := request posted; let p := packet 0x1000
    let s : State := { base with fabric := { base.fabric with outstanding := [o] } }
    DistinctHarts s ∧ p.dst = s.fabric.self ∧ o ∈ s.fabric.outstanding ∧ (o.refused = false ∧ o.txn = p.txn ∧ o.ocls = p.ocls ∧ o.seq = p.seq) ∧ o.dst = p.src
    ∧ (∀ x ∈ s.fabric.outstanding, x.txn = p.txn → x = o) ∧ o.cmd = none ∧ o.born = s.hart.born ∧ p.data.length = o.len ∧ o.posted = posted := by
  cases posted <;> exact ⟨alone_distinct (by decide +kernel) (by decide +kernel), by decide +kernel⟩
theorem witness_no_request : base.fabric.outstanding = [] ∧ DistinctHarts base := ⟨by decide +kernel, alone_distinct (by decide +kernel) (by decide +kernel)⟩
-- transit, ports that are and are not in service, the first and the eighth failure of a link in succession
theorem witness_transit : let p : Packet := { packet 0 with dst := 2 }; p.dst ≠ inRow.fabric.self ∧ p.mc = false ∧ p.dt = false ∧ inRow.fabric.reaches p.dst = true := by
  decide +kernel
theorem witness_links : inRow.fabric.portUp 0 = false ∧ inRow.fabric.portUp 3 = true ∧ inRow.fabric.outstanding = []
    ∧ ((inRow.fabric.retrains.find? (fun x => x.1 = 3)).map (·.2)).getD 0 + 1 < 8
    ∧ (let f := { inRow.fabric with retrains := [(3, 7)] }; f.portUp 3 = true ∧ 8 ≤ ((f.retrains.find? (fun x => x.1 = 3)).map (·.2)).getD 0 + 1) := by decide +kernel
theorem witness_notices : (0, 3).1 = inRow.fabric.self ∧ (2, 3).1 ≠ inRow.fabric.self ∧ 2 ∉ inRow.fabric.lost ∧ 2 / 32 = inRow.fabric.row.val := by decide +kernel

/-! The mailbox, the host and the package. -/

/-- A device whose firmware serves the mailbox. -/
def served : State := { base with mgmt := { base.mgmt with bstage := 8 } }
-- MailboxCommands: before step 8; a number unused, used, above 63; no hart in it, one in it; a core out of range; addresses at their limits
theorem witness_mailbox_early : base.mgmt.mboxStatus ≠ 1 ∧ base.mgmt.bstage.val < 3 ∧ ({ base.mgmt with bstage := 3 } : Mgmt).bstage ≠ 8
    ∧ (let m := { base.mgmt with mboxStatus := 1 }; m.mboxStatus = 1 ∧ m.mboxTaken = []) := by decide +kernel
theorem witness_create_context : let s := served; let k : Word := 0x1000000; Served s ∧ (s.ctxs.get 5).live = false ∧ (0 : Word).toNat / 2 ^ 60 = 0
    ∧ k.toNat % 4096 = 0 ∧ k.toNat + 1536 * 6 * 2 ^ 20 ≤ localTop ∧ (s.ctxs.get 0).live = true ∧ 64 ≤ (64 : Word).toNat := by unfold Served; decide +kernel
theorem witness_live_context : let s : State := { served with ctxs := served.ctxs.set 5 { served.ctxs.get 5 with live := true } }
    Served s ∧ (s.ctxs.get 5).live = true ∧ (∀ y ∈ s.hart :: s.others, y.ctx ≠ 5) ∧ s.saved = [] ∧ s.launches = []
    ∧ (s.hart.status ≠ .absent ∧ s.hart.ctx = 0 ∧ (s.ctxs.get 0).live = true) ∧ s.hart.answers = [] ∧ s.hart.covered = none ∧ s.hart.underway = false ∧ s.quiet s.hart = true ∧ s.mergedHarts = [] ∧ s.pools = []
    ∧ (s.cores.get 3).retired = false ∧ s.slotsFree 5 (Fin.ofNat 4 0) 3 = [0] := by unfold Served; decide +kernel
theorem witness_end_hart : let s := served; Served s ∧ DistinctHarts s ∧ s.hart.place = ⟨0, 0⟩ ∧ s.hart.merged = false ∧ s.launchOf s.hart.launch = none
    ∧ s.hart.underway = false ∧ s.quiet s.hart = true ∧ 192 ≤ (192 : Word).toNat ∧ 6 ≤ (6 : Word).toNat :=
  ⟨by unfold Served; decide +kernel, alone_distinct (by decide +kernel) (by decide +kernel), by decide +kernel⟩
theorem witness_attestation : let s := served; let a : Word := 0x1000; let b : Word := 0x2000; a.toNat + 32 ≤ localTop ∧ b.toNat + 4096 ≤ localTop
    ∧ b.toNat % 4096 = 0 ∧ a.toNat % 32 = 0 ∧ s.mem.wf = true ∧ s.paOwned a.toNat 32 = false ∧ s.paOwned b.toNat 4096 = false
    ∧ Holds s (localKey a.toNat) 32 0 := by unfold Holds; decide +kernel
theorem witness_power_limit : 14000 ≤ (14000 : Word).toNat ∧ (22000 : Word).toNat ≤ 22000 ∧ (13999 : Word).toNat < 14000 ∧ 22000 < (22001 : Word).toNat := by decide
-- HostAndPackageEvents
theorem witness_host_access : let s := served; 3 ≤ s.mgmt.bstage.val ∧ base.mgmt.bstage.val < 3 ∧ 0x1000 + 8 ≤ localTop ∧ 0x1000 % 4096 + 8 ≤ 4096 ∧ s.mem.wf = true
    ∧ s.paOwned 0x1000 8 = false := by decide +kernel
theorem witness_retirement_proposed : base.mgmt.proposed = [] ∧ base.mgmt.attic = [] := by decide +kernel
theorem witness_retirement_applied : let s : State := { State.reset with mgmt := { State.reset.mgmt with proposed := [(.port 3, 9)] } }
    s.mgmt.proposed = [(.port 3, 9)] ∧ s.hart.status = .absent ∧ s.others = [] ∧ s.cmds = [] ∧ s.saved = [] ∧ s.launches = [] ∧ s.fabric.outstanding = []
    ∧ inRow.fabric.portUp 3 = true := by decide +kernel
theorem witness_bring_up : State.reset.mgmt.bfail = false ∧ State.reset.mgmt.bstage.val < 8 ∧ State.reset.mgmt.bstage ≠ 3 := by decide +kernel
theorem witness_bring_up_attic : let s : State := { State.reset with mgmt := { State.reset.mgmt with bstage := 3, attic := [⟨.core 7, 2, 1, 1⟩] } }
    s.mgmt.bfail = false ∧ s.mgmt.bstage = 3 ∧ s.fabric.outstanding = [] ∧ ∃ x ∈ s.mgmt.attic, x.unit = .core 7 := by decide +kernel
theorem witness_receipt : let p := packet 0x1000; p.dst = base.fabric.self ∧ base.fabric.held = [] ∧ base.mem.wf = true ∧ p.off % 8 = 0 ∧ p.off < localTop ∧ base.writeStalls (localKey p.off) 8 = false
    ∧ base.lineWaits = [] ∧ Holds base (localKey p.off) 8 0 := by unfold Holds; decide +kernel
/-- An image whose keys' hashes the fuse slots of `fused` hold; its signatures verify where Ed25519 and ML-DSA-65 say so of its header. -/
def anImage (magic : Nat) : FwImage := ⟨⟨magic, 2, 0, 0, Config.sha384 [], 0, 0⟩, [], ⟨[1], [2]⟩⟩
def fused : Mgmt := { served.mgmt with fuseEd := Config.sha384 [1], fuseMl := Config.sha384 [2] }
theorem witness_firmware (he : Config.ed25519Verifies [1] (Config.headerBytes 0x4E595A46 2 0 0 (Config.sha384 [])) 0 = true)
    (hm : Config.mldsa65Verifies [2] (Config.headerBytes 0x4E595A46 2 0 0 (Config.sha384 [])) 0 = true) :
    Served { served with mgmt := fused } ∧ Accepted fused (anImage 0x4E595A46) :=
  ⟨by unfold Served; decide +kernel, rfl, rfl, rfl, rfl, rfl, he, hm, by decide +kernel⟩
theorem witness_firmware_refused : Served { served with mgmt := fused } ∧ ¬ Accepted fused (anImage 0) :=
  ⟨by unfold Served; decide +kernel, fun h => absurd h.1 (by decide)⟩
-- steps 2 and 6 refuse such an image; step 7
theorem witness_bring_up_refused : let m := { fused with bstage := 5 }; m.bfail = false ∧ m.bstage.val < 8 ∧ ¬ Accepted m (anImage 0)
    ∧ ({ fused with bstage := 6 } : Mgmt).bstage ≠ 1 := ⟨by decide +kernel, by decide, fun h => absurd h.1 (by decide), by decide⟩
theorem witness_quad_reset : let c := command .ste walkJob none .pending; let s := holding c base; s.cmds = [c] ∧ c.coll = none ∧ c.stage = .pending
    ∧ isWalk c.engine c.job = true ∧ c.lost = false ∧ s.announces = [] ∧ s.locks = [] ∧ s.mem.wf = true ∧ c.recordKeys = [localKey 0x3000]
    ∧ (∀ x ∈ s.cmds, x.quad ≠ 1) ∧ s.fabric.outstanding = [] := by decide +kernel

/-! Steps, encodings and invariants. -/

/-- An ADD at 0, and a second parcel. -/
def atScalar : State := base.placeBytes 0 (bytesOf 0x00489480 4 ++ bytesOf 0 4)
-- StepRunsTheDecodedInstruction: a scalar instruction; one of two parcels; a move of the schedule
theorem witness_fetches : let s := atScalar; s.schedule = [] ∧ s.runnable s.hart = true ∧ s.hart.waiting = false ∧ s.ran < 15 ∧ s.hart.parcels = none ∧ s.hart.loop = none ∧ s.hart.covered = none
    ∧ s.hart.ahead = [] ∧ { s with ran := s.ran + 1 }.startsConvoy (.add 9 9 4) = false ∧ s.l2.wf = true ∧ Fetches s s.hart.pc 0x00489480 ∧ (0x00489480 : Parcel).toNat % 4 ≠ 3 ∧ decode 0x00489480 0 = .ok (.add 9 9 4) := by
  refine ⟨?_, ?_, ?_, ?_, ?_, ?_, ?_, ?_, ?_, ?_, ?_, by decide, by rfl⟩ <;> (try unfold Fetches Bare) <;> decide +kernel
theorem witness_fetches_pair : let s := atAdd; let l := encode addition; let p0 := BitVec.ofNat 32 (l.getD 0 0); let p1 := BitVec.ofNat 32 (l.getD 1 0)
    s.schedule = [] ∧ s.runnable s.hart = true ∧ s.hart.loop = none ∧ s.hart.covered = none ∧ s.hart.parcels = none ∧ s.hart.ahead = []
    ∧ s.startsConvoy addition = true ∧ s.hart.issue = false ∧ (onH (fun h => { h with issue := true }) s).hart.issue = true ∧ p0.toNat % 4 = 3 ∧ Fetches s s.hart.pc p0
    ∧ Fetches s (s.hart.pc + 4) p1 := by unfold Fetches Bare; decide +kernel
theorem witness_fetch : (∃ s', fetchInstr atScalar = .ok (0x00489480, 0) s') ∧ ∃ p0 p1 s', fetchInstr base = .ok (p0, p1) s' := by
  obtain ⟨a, t, e, h⟩ := ok_of (show okAnd fetchInstr atScalar (fun p _ => decide (p = (0x00489480, 0))) = true by decide +kernel)
  obtain ⟨a', t', e', _⟩ := ok_of (show okAnd fetchInstr base (fun _ _ => true) = true by decide +kernel)
  exact ⟨⟨t, by rw [e, of_decide_eq_true h]⟩, a'.1, a'.2, t', e'⟩
-- a load performed early, at the pc; one on the code tables while an earlier convoy has them
theorem witness_early_load : let s := passedStore; ∃ e rest, s.hart.early = e :: rest ∧ e.n = Size.bytes .w
    ∧ e.va = BitVec.ofInt 64 ((s.getS 1).toInt + (0 : BitVec 12).toInt) ∧ (1 : SReg) ∉ e.deps ∧ e.target.leaf = none ∧ e.v < 256 ^ e.n := by
  have h : (match passedStore.hart.early with
    | e :: _ => decide (e.n = Size.bytes .w ∧ e.va = BitVec.ofInt 64 ((passedStore.getS 1).toInt + (0 : BitVec 12).toInt) ∧ (1 : SReg) ∉ e.deps
        ∧ e.target.leaf = none ∧ e.v < 256 ^ e.n)
    | [] => false) = true := by decide +kernel
  split at h
  · exact ⟨_, _, ‹_›, of_decide_eq_true h⟩
  · cases h
theorem witness_tables_busy : let s : State := { onH (fun h => { h with born := 1, startedAt := 5, place := ⟨0, 1⟩ }) base with
      others := [{ base.hart with issue := true, startedAt := 3 }] }
    usesTables (.vlut 0 1 2 false) = true ∧ s.tablesBusy = true ∧ base.tablesBusy = false ∧ base.hart.early = [] := by decide +kernel
theorem witness_schedule : let s : State := { base with schedule := [.event .thermalReset] }; s.schedule = .event .thermalReset :: [] ∧ Instr.isEvent .thermalReset = true
    ∧ Instr.isEvent .eret = false ∧ ({ base with ran := 15 } : State).ran = 15 ∧ (onH (fun h => { h with parcels := some (0x00489480, 0) }) base).hart.parcels
      = some (0x00489480, 0) := by decide +kernel
-- DecodeAndEncodeAgree
theorem witness_encoding : (Instr.wf (.add 9 9 4) = true ∧ Instr.isEvent (.add 9 9 4) = false) ∧ decode 0x000001FB 0x00000A02 = .ok (.savev 10) := ⟨by decide +kernel, by rfl⟩
-- CanonicalMemoryIsKept, NoTwoHartsShareASlot
theorem witness_invariants : Canonical atScalar ∧ Apart atScalar ∧ ∃ t, step atScalar = .next t := by
  refine ⟨by unfold Canonical; decide +kernel, ?_, ?_⟩
  · have h : atScalar.others = [] ∧ atScalar.saved = [] ∧ atScalar.launches = [] ∧ atScalar.nextId = 1 ∧ atScalar.hart.born = 0 ∧ atScalar.hart.launch = 0
      ∧ atScalar.harts = [atScalar.hart] := by decide +kernel
    obtain ⟨h1, h2, h3, h4, h5, h6, h7⟩ := h
    unfold Apart; simp [h1, h2, h3, h4, h5, h6, h7]
  · have h : (match step atScalar with | .next _ => true | _ => false) = true := by decide +kernel
    split at h
    · exact ⟨_, ‹_›⟩
    · cases h
-- UserModeIsLeftByTrapsAlone: ERET in supervisor mode; a trap in user mode
theorem witness_modes : (∃ t, exec .eret inHandler = .next t) ∧ (∃ t, exec (.trap 5) (user base) = .next t) ∧ Instr.isEvent (.trap 5) = false
    ∧ (user base).hart.mode = .user := ⟨⟨_, rfl⟩, ⟨_, rfl⟩, by decide +kernel⟩
/-! Rounding and estimates, operand traps, translation, windows, and poison met by stores. -/

/-- A step goes on to a state of which `p` holds. -/
def nextAnd (o : Out) (p : State → Bool) : Bool := match o with | .next t => p t | _ => false
theorem next_of {o : Out} {p : State → Bool} (h : nextAnd o p = true) : ∃ t, o = .next t ∧ p t = true := by
  cases o with
  | next t => exact ⟨t, rfl, h⟩
  | fault f => cases h
  | refused r => cases h

-- RoundingOfResults: a number that fits, one rounded to zero, an overflow, a tie that goes to even, another that goes away
/-- The premises for a number under a mode. -/
def Rounds (t : Tag) (rm : RMode) (x : Rat) (lg : Int) (n k : Nat) (most : Rat) : Prop :=
  let m := (layout t).1; let b := (layout t).2.2; let f := size x / pow2 (max lg (1 - b) - m) - n; let r : Rnd := ⟨rm, false, 0⟩
  x ≠ 0 ∧ pow2 lg ≤ size x ∧ size x < pow2 (lg + 1) ∧ 0 ≤ f ∧ f < 1 ∧ (Up r (x < 0) n f → k = n + 1) ∧ (¬ Up r (x < 0) n f → k = n)
    ∧ (fmtOf t).value (largestAndNan t).1 = .fin most
theorem witness_round : Rounds .e2m1 .nearestEven 3 1 3 3 6 ∧ Rounds .e2m1 .nearestEven (1 / 4) (-2) 0 0 6 ∧ Rounds .e2m1 .nearestEven 8 3 2 2 6
    ∧ Rounds .e2m1 .nearestEven (-5) 2 2 2 6 ∧ Rounds .e2m1 .nearestAway (-5) 2 2 3 6 := by
  refine ⟨?_, ?_, ?_, ?_, ?_⟩ <;> dsimp only [Rounds, Up] <;> decide +kernel
theorem witness_round_int : let x : Rat := 5 / 2; let f := size x - (2 : Nat); isInt .i8 = true ∧ x ≠ 0 ∧ 0 ≤ f ∧ f < 1 ∧ ¬ (1 / 2 < f) ∧ f = 1 / 2 ∧ 2 % 2 = 0 := by
  decide +kernel
-- SpecialOperandsAndEstimates: the bounds of the exponent for the reciprocal; a power of two; a root
theorem witness_estimates : (∀ p ∈ ([(1, 0, 0), (pow2 127, 127, 0), (pow2 (-149), -149, 0), (255 / 128, 0, 127)] : List (Rat × Int × Nat)),
      let frac := size p.1 / pow2 p.2.1; p.1 ≠ 0 ∧ 1 + (p.2.2 : Rat) / 128 ≤ frac ∧ frac < 1 + ((p.2.2 : Rat) + 1) / 128 ∧ p.2.2 < 128)
    ∧ (127 < -(-149 : Int) - 1 ∧ 1 - 127 ≤ -(0 : Int) - 1 ∧ -(0 : Int) - 1 ≤ 127 ∧ -(127 : Int) - 1 < 1 - 127)
    ∧ ((0 : Rat) ≤ 1 / 2 ∧ (1 / 2 : Rat) < 0 + 1 ∧ (32768 : Rat) ≤ (1 / 2 - 0) * 65536 ∧ (1 / 2 - 0 : Rat) * 65536 < 32768 + 1)
    ∧ (fmtOf .f32).value 0x3F800000 = .fin 1 ∧ (0 : Rat) < 1 := by decide +kernel
theorem witness_special : FVal.isNan (.fin 1) = false ∧ FVal.isInf (.zero true) = false ∧ FVal.isZero (.inf true) = false ∧ (0 : Rat) < 2 ∧ (2 : Nat) < 2 ^ 60 := by
  decide +kernel

-- VectorOperandTraps: a bank that wakes with its contents, one that wakes as zero, for an instruction that then completes
def asleep (b : Bank) : State := onH (fun h => { h with vgate := h.vgate.set 0 b }) (two .i32 .i32)
theorem witness_wakes (b : Bank) (hb : b = ⟨.retention, false⟩ ∨ b = ⟨.gated, true⟩) : let s := asleep b; let h := s.hart; let i := Instr.vadd false ⟨3, 1, .none, .vv 2 .none, false⟩
    h.begun = none ∧ h.retq.length < 16 ∧ (∀ r, ¬ (r ∈ namedRegs i ∧ (gateOf h r).st = .gated ∧ (gateOf h r).dead = false)) ∧ h.status = .resident
    ∧ (gateOf h 1).st ≠ .on ∧ ∃ t, exec i { s with hart := awake h (namedRegs i) } = .next t
      ∧ decide (t.hart.waiting = false ∧ t.hart.status = .resident ∧ t.hart.estat.tip = h.estat.tip) = true := by
  rcases hb with rfl | rfl <;>
    exact ⟨by decide +kernel, by decide +kernel, by decide +kernel, by decide +kernel, by decide +kernel, next_of (by decide +kernel)⟩
theorem witness_operand_traps : let h := (len 3 (two .f32 .n16)).hart
    BanksOn h ∧ h.retq.length < 16 ∧ isInt (h.tag 1) = false ∧ width (h.tag 1) ≠ width (h.tag 2) ∧ h.tag 2 ≠ h.tag 1 ∧ h.vln % 2 = 1
    ∧ isFloat (h.tag 2) = false ∧ h.tag 2 ∉ [Tag.f32, .f16, .bf16] ∧ h.tag 1 ≠ .n32 ∧ h.vln < 4
    ∧ (onH (fun h => { h with vstart := 1 }) base).hart.vstart ≠ 0 := by unfold BanksOn; decide +kernel
/-- An eighth of the storage, where vl may be above what a mask holds. -/
theorem witness_mask_too_short : let h := (len 8193 (eighth false)).hart; BanksOn h ∧ ¬ Fits h [] true := by unfold BanksOn Fits; decide +kernel

-- FibreCombinations: what is not ready, a source out of order, tags that make no pair, a cursor past its fibre
theorem witness_fibre_traps : let h := (fibres .i32 .f32).hart; FibresReady h [2, 0, 1] ∧ Ascending (entriesOf h 0 3) ∧ Ascending (entriesOf h 1 2)
    ∧ pairTag (h.tag (valueReg 0)) (h.tag (valueReg 1)) = none ∧ h.tag (valueReg 0) ≠ h.tag (valueReg 1)
    ∧ ¬ (isInt (h.tag (valueReg 0)) = true ↔ isInt (h.tag (valueReg 1)) = true)
    ∧ ¬ FibresReady (onH (fun h => { h with vstart := 1 }) base).hart [2, 0, 1] := by unfold FibresReady BanksOn Ascending; decide +kernel
theorem witness_fibre_falls : let h := (fib 0 .n32 [(5, 1), (5, 2)] (fib 1 .n32 [] (fib 2 .n32 [] base))).hart; FibresReady h [2, 0, 1] ∧ (h.flen.get 0).toNat = 2
    ∧ (entryOf h 0 1).1 ≤ (entryOf h 0 0).1 ∧ Ascending (entriesOf h 0 1)
    ∧ (let g := (onH (fun h => { h with curb := 3 }) (fibres .i32 .i32)).hart; (g.flen.get 1).toNat < g.curb.toNat) := by
  unfold FibresReady BanksOn Ascending; decide +kernel

-- TranslatedAndWindowAccesses: tables at pages 1 to 5 that map page 0 in one entry `e` at level `L`, its sector poisoned or not
/-- The page of the table of a level. -/
def tableAt (l : Nat) : Nat := 5 - l
def mapped (L e : Nat) (bad : Bool) : State :=
  let entry (l : Nat) := if l = L then e else tableAt (l - 1) * 2 ^ 10 + 1
  let s := dwords 0x1000 [entry 4] (dwords 0x2000 [entry 3] (dwords 0x3000 [entry 2] (dwords 0x4000 [entry 1] (dwords 0x5000 [entry 0] base))))
  { s.setCtx { s.ctx with vatp := BitVec.ofNat 64 (10 * 2 ^ 60 + 1) } with poison := if bad then [entryKey (tableAt L) L 0 / 32] else [] }
def mappedEntry (L e l : Nat) : Nat := if l = L then e else tableAt (l - 1) * 2 ^ 10 + 1
theorem entryIs_of {s : State} {T L va k e : Nat} (h : T * 4096 < localTop ∧ Holds s (localKey (T * 4096) + 8 * (va / 2 ^ (12 + 9 * L) % 512)) 8 e
    ∧ s.readStalls (localKey (T * 4096) + 8 * (va / 2 ^ (12 + 9 * L) % 512)) 8 = false ∧ (SizeOk e L k ∨ k = 0 ∧ e.testBit 63 = false)
    ∧ (L ≤ 1 → ∀ j < 512, j / (if L = 0 then 256 else 32) = va / 2 ^ (12 + 9 * L) % 512 / (if L = 0 then 256 else 32) →
      if j / 2 ^ k = va / 2 ^ (12 + 9 * L) % 512 / 2 ^ k then Holds s (localKey (T * 4096) + 8 * j) 8 e else (s.mem.get (localKey (T * 4096) + 8 * j + 7)).toNat < 128)) :
    EntryIs s T L va k e := by
  obtain ⟨h1, h2, h3, h4, h5⟩ := h
  refine ⟨h1, h2, h3, ?_, h5⟩
  by_cases hs : SizeOk e L k
  · exact .inl hs
  · rcases h4 with h4 | ⟨rfl, h4⟩
    · exact absurd h4 hs
    · refine .inr ⟨rfl, fun k' hk => hs ?_⟩
      unfold SizeOk at hk ⊢
      rw [h4] at hk ⊢
      exact ⟨rfl, hk.2⟩
/-- Leaves: one that a supervisor may read and write, one to nowhere, one of a user, one with a reserved size; entries that are no leaf. -/
def leafEntry : Nat := 7 * 2 ^ 10 + 7
theorem reaches_of {L e : Nat} {bad : Bool} (hL : L ≤ 4)
    (h : let s := mapped L e bad; s.ctx.vatp.toNat / 2 ^ 60 = 10 ∧ s.ctx.swin = .replicate 4 0 ∧ s.mem.wf = true ∧ s.tlb = [] ∧ s.walks = [] ∧ s.oldEntries = [] ∧ Unbegun s.hart
      ∧ tableAt 4 = s.ctx.vatp.toNat % 2 ^ 44)
    (hp : ∀ l, L < l → l ≤ 4 → EntryIs (mapped L e bad) (tableAt l) l 0 0 (mappedEntry L e l) ∧ Pointer (mappedEntry L e l)
      ∧ (mapped L e bad).poisoned (entryKey (tableAt l) l 0) = false ∧ tableAt (l - 1) = mappedEntry L e l / 2 ^ 10 % 2 ^ 44) :
    Reaches (mapped L e bad) 0 tableAt (mappedEntry L e) L := by
  obtain ⟨h1, h2, h3, h4, h5, h6, h7, h8⟩ := h
  exact ⟨h1, nowhere_of h2 0, h3, h4, h5, h6, h7, hL, .inl (by decide), h8, hp⟩
/-- One table walk that comes to its leaf: its size and rights, where it leads, and a number that stands there. -/
theorem witness_leaf (bad : Bool) : let s := mapped 0 leafEntry bad; Reaches s 0 tableAt (mappedEntry 0 leafEntry) 0 ∧ EntryIs s (tableAt 0) 0 0 0 leafEntry
    ∧ s.poisoned (entryKey (tableAt 0) 0 0) = bad ∧ IsLeaf leafEntry ∧ Legal s leafEntry 0 0 ∧ Right s leafEntry false ∧ Right s leafEntry true
    ∧ reached s 0 leafEntry 0 0 = some (.cell (localKey 0x7000) 6) ∧ localKey 0x7000 ≥ entryKey (tableAt 0) 0 0 + 8 ∧ leafEntry / 2 ^ 61 % 4 ≠ 2
    ∧ s.readStalls (localKey 0x7000) 8 = false ∧ s.writeStalls (localKey 0x7000) 8 = false ∧ Holds s (localKey 0x7000) 8 0 := by
  intro s
  refine ⟨reaches_of (by decide) (by unfold Unbegun; cases bad <;> decide +kernel) fun l h1 h2 => ?_, entryIs_of ?_, ?_⟩
  · have hl : ∀ l ∈ [1, 2, 3, 4], (fun l => (tableAt l * 4096 < localTop ∧ Holds (mapped 0 leafEntry bad) (localKey (tableAt l * 4096) + 8 * (0 / 2 ^ (12 + 9 * l) % 512)) 8 (mappedEntry 0 leafEntry l)
        ∧ (mapped 0 leafEntry bad).readStalls (localKey (tableAt l * 4096) + 8 * (0 / 2 ^ (12 + 9 * l) % 512)) 8 = false
        ∧ (SizeOk (mappedEntry 0 leafEntry l) l 0 ∨ 0 = 0 ∧ (mappedEntry 0 leafEntry l).testBit 63 = false)
        ∧ (l ≤ 1 → ∀ j < 512, j / (if l = 0 then 256 else 32) = 0 / 2 ^ (12 + 9 * l) % 512 / (if l = 0 then 256 else 32) →
          if j / 2 ^ 0 = 0 / 2 ^ (12 + 9 * l) % 512 / 2 ^ 0 then Holds (mapped 0 leafEntry bad) (localKey (tableAt l * 4096) + 8 * j) 8 (mappedEntry 0 leafEntry l)
          else ((mapped 0 leafEntry bad).mem.get (localKey (tableAt l * 4096) + 8 * j + 7)).toNat < 128))
        ∧ Pointer (mappedEntry 0 leafEntry l) ∧ (mapped 0 leafEntry bad).poisoned (entryKey (tableAt l) l 0) = false
        ∧ tableAt (l - 1) = mappedEntry 0 leafEntry l / 2 ^ 10 % 2 ^ 44) l := by
      unfold Holds SizeOk Pointer; cases bad <;> decide +kernel
    have h := hl l (by simp only [List.mem_cons, List.not_mem_nil, or_false]; omega)
    exact ⟨entryIs_of h.1, h.2⟩
  · unfold Holds SizeOk; cases bad <;> decide +kernel
  · unfold IsLeaf Legal SizeOk Right Holds; cases bad <;> decide +kernel
-- entries that end the walk: not valid, write without read, a leaf at level 3, nothing below a pointer at level 0, reserved bits, rights, nowhere
theorem witness_entries : let s := mapped 0 leafEntry false
    (0 : Nat) % 2 = 0 ∧ ((5 : Nat).testBit 2 = true ∧ (5 : Nat).testBit 1 = false) ∧ IsLeaf leafEntry ∧ (1 : Nat) % 2 = 1 ∧ 1 / 2 % 8 = 0
    ∧ ¬ Pointer (2 ^ 54 + 1) ∧ ¬ Legal s (leafEntry + 2 ^ 54) 0 0 ∧ ¬ Legal s (leafEntry + 2 ^ 63) 0 0 ∧ ¬ Right s (leafEntry + 16) false ∧ ¬ Right s (7 * 2 ^ 10 + 3) true
    ∧ Legal s (7 * 2 ^ 10 + 3) 0 0 ∧ reached s 0 (3 * 2 ^ 28 * 2 ^ 10 + 7) 0 0 = none ∧ localTop ≤ 2 ^ 30 * 4096 := by
  intro s
  and_intros <;> (try unfold IsLeaf) <;> (try unfold Pointer) <;> (try unfold Legal SizeOk) <;> (try unfold Right) <;> decide +kernel
theorem witness_not_canonical : let s := mapped 0 leafEntry false; let va : Word := 2 ^ 56; s.ctx.vatp.toNat / 2 ^ 60 = 10 ∧ findWindow s.ctx.swin va = none ∧ s.tlb = []
    ∧ Unbegun s.hart ∧ va.toNat / 2 ^ 56 ≠ 0 ∧ va.toNat / 2 ^ 56 ≠ 255 := by unfold Unbegun; decide +kernel
/-- A window of each level at an address of its own. -/
def windowed : State := base.setCtx { base.ctx with swin := Vector.ofFn fun n : Fin 4 => 0x10000000 * BitVec.ofNat 64 (n.val + 1) + 1 }
def windowAt (n : Fin 4) : Word := 0x10000000 * BitVec.ofNat 64 (n.val + 1)
theorem witness_window (w : Fin 4) : let s := windowed; let va := windowAt w + 8; Unbegun s.hart ∧ inWindow s va w ∧ va.toNat % 8 = 0 ∧ offsetOf va w < inService s w
    ∧ s.mem.wf = true ∧ s.hasPosted = false ∧ s.readStalls (scratchKey s .n8 0 w (offsetOf va w)) 8 = false ∧ s.writeStalls (scratchKey s .n8 0 w (offsetOf va w)) 8 = false
    ∧ s.poisoned (scratchKey s .n8 0 w (offsetOf va w)) = false ∧ Holds s (scratchKey s .n8 0 w (offsetOf va w)) 8 0 := by
  unfold Unbegun inWindow Holds; revert w; decide +kernel
/-- A larder of seven cores, and its last eighth. -/
def sevenCores : State := { windowed with cores := windowed.cores.set 1 { windowed.cores.get 1 with retired := true } }
theorem witness_past_service : let s := sevenCores; let va := windowAt 2 + 7 * 2 ^ 21; Unbegun s.hart ∧ inWindow s va 2 ∧ inService s 2 ≤ offsetOf va 2 ∧ va.toNat % 8 = 0 := by
  unfold Unbegun inWindow; decide +kernel
theorem scratchElements_of {s : State} {o : VMem} {addr : Nat → Word} {win : Nat → Fin 4} {bytes : Nat → Nat}
    (h : (∀ b, (s.hart.vgate.get b).st = .on) ∧ s.hart.vln = 1 ∧ s.hart.vln ≤ s.hart.vlmax (s.hart.tag o.vd) ∧ s.hart.prog = false ∧ Unbegun s.hart ∧ s.hart.preempt = false
      ∧ s.mem.wf = true ∧ inWindow s (addr 0) (win 0) ∧ (8 ≤ width (s.hart.tag o.vd) → (addr 0).toNat % (width (s.hart.tag o.vd) / 8) = 0)
      ∧ s.cmds = [] ∧ s.locks = [] ∧ s.poison = []) : ScratchElements s o addr win bytes := by
  obtain ⟨h1, h2, h3, h4, h5, h6, h7, h8, h9, h10, h11, h12⟩ := h
  refine ⟨h1, h3, h4, h5, .inl h6, h7, fun e he => ?_⟩
  obtain rfl : e = 0 := by have := takes_lt he h2; omega
  exact ⟨h8, h9, fun _ => ⟨by simp [State.writeStalls, State.locked, h10, h11], fun j _ => by simp [State.poisoned, h12]⟩⟩
/-- One element of v3, in the window of a level; in the last eighth of a larder of seven cores. -/
def inScratch (s : State) (a : Word) : State := regs [(1, a)] (len 1 (vec 3 .n32 [5] s))
theorem witness_scratch_elements (w : Fin 4) : let s := inScratch windowed (windowAt w); LegalForm s.hart .n32 .unit
    ∧ ScratchElements s ⟨3, 1, 0, false⟩ (elemAddr s.hart .n32 (memoryBase s 1 0) .unit) (fun _ => w) (fun e => (elemBit s.hart .n32 .unit e + 32 + 7) / 8)
    ∧ offsetOf (elemAddr s.hart .n32 (memoryBase s 1 0) .unit 0) w < inService s w :=
  ⟨trivial, scratchElements_of (by unfold Unbegun inWindow; revert w; decide +kernel), by revert w; decide +kernel⟩
theorem witness_scratch_past : let s := inScratch sevenCores (windowAt 2 + 7 * 2 ^ 21); LegalForm s.hart .n32 .unit
    ∧ ScratchElements s ⟨3, 1, 0, false⟩ (elemAddr s.hart .n32 (memoryBase s 1 0) .unit) (fun _ => 2) (fun e => (elemBit s.hart .n32 .unit e + 32 + 7) / 8)
    ∧ Takes s.hart false 0 ∧ inService s 2 ≤ offsetOf (elemAddr s.hart .n32 (memoryBase s 1 0) .unit 0) 2 :=
  ⟨trivial, scratchElements_of (by unfold Unbegun inWindow; decide +kernel), by unfold Takes; decide +kernel⟩
/-- Offset 0x1000 of device `d`, from a device of a row of four; one whose only link has failed; one that has a store on its way. -/
def farWord (d : Nat) : Word := BitVec.ofNat 64 (2 ^ 55 + d * 2 ^ 45 + 0x1000)
theorem witness_fabric (d : Nat) (hd : d = 0 ∨ d = 2) : let s := inRow; let va := farWord d; let f := s.fabric; Unbegun s.hart ∧ Bare s va ∧ va.toNat % 8 = 0
    ∧ va.toNat = 2 ^ 55 + d * 2 ^ 45 + 0x1000 ∧ d / 32 < f.nrow ∧ d % 32 < f.ncol ∧ (d = 0 → d = f.self) ∧ (d = 2 → d ≠ f.self ∧ f.reaches d = true)
    ∧ s.farStalls d 0x1000 8 = false ∧ f.full d 0 = false ∧ s.storeQueued = false ∧ s.hasAsked s.hart = false ∧ (s.posted.filter fun o => o.ocls = 0).length < 32 := by
  unfold Unbegun Bare; rcases hd with rfl | rfl <;> decide +kernel
theorem witness_fabric_store_first : let s : State := { inRow with fabric := { inRow.fabric with outstanding := [{ request true with dst := 2 }] } }
    s.storeQueued = true ∧ s.farStalls 2 0x1000 8 = false ∧ s.fabric.full 2 0 = false ∧ s.fabric.reaches 2 = true := by decide +kernel
theorem witness_fabric_no_route : let s : State := { inRow with fabric := { inRow.fabric with lost := [2] } }; Unbegun s.hart ∧ Bare s (farWord 2) ∧ s.fabric.reaches 2 = false := by
  unfold Unbegun Bare; decide +kernel
theorem witness_fabric_answer (failed : Bool) (bad : List Nat) : let a : RemoteAnswer := ⟨2, 0x1000, 8, List.replicate 8 1, bad, failed⟩
    let s := onH (fun h => { h with underway := true, answers := [a] }) inRow; s.hart.begun = none ∧ s.hart.underway = true ∧ s.hart.answers = [a] ∧ a.data.length = 8
    ∧ s.hart.held = [] := by
  intro a s
  have h : inRow.hart.begun = none ∧ inRow.hart.held = [] := by decide +kernel
  exact ⟨h.1, rfl, rfl, rfl, h.2⟩

-- a poisoned sector under a vector store, a scatter reduction, an atomic
def onPoison (t : Tag) : State := { elem1 t 1 with poison := [localKey 0x1000 / 32] }
theorem witness_poison_store : let s := onPoison .n32; let a := elemAddr s.hart .n32 (memoryBase s 1 0) .unit; LegalForm s.hart .n32 .unit
    ∧ PlainElements { s with poison := [] } ⟨3, 1, 0, false⟩ a (fun e => (elemBit s.hart .n32 .unit e + 32 + 7) / 8) ∧ localKey 0x1000 / 32 ∈ s.poison :=
  ⟨trivial, plainElements_of (by unfold Unbegun; decide +kernel), by decide +kernel⟩
theorem witness_poison_atomic : let s := onPoison .n64; let a := elemAddr s.hart .n64 (memoryBase s 1 0) (.indexed 2); AmoTag .n64 .add
    ∧ LegalForm s.hart .n64 (.indexed 2) ∧ PlainElements { s with poison := [] } ⟨3, 1, 0, false⟩ a (fun _ => 64 / 8) ∧ s.hart.vstart = 0
    ∧ NoneWaits s (fun l => ∃ e, Takes s.hart false e ∧ l = localKey (a e).toNat / 128) ∧ Takes s.hart false 0 ∧ s.poisoned (localKey (a 0).toNat) = true :=
  ⟨by unfold AmoTag; decide, by unfold LegalForm; decide +kernel, plainElements_of (by unfold Unbegun; decide +kernel), by decide +kernel, none_waits (by decide +kernel),
    by unfold Takes; decide +kernel, by decide +kernel⟩
end Sys2Proof.Tests
end

section
/-! The scalar instructions of spec/04_scalar_isa.md: integer results (R79 to R82), branches and jumps (R86, R87), and what they leave
unchanged. -/
namespace Sys2Proof.Machine
open Sys2Proof Sys2Proof.Safety

/-! ### Words as numbers -/

/-- A word plus a multiple of a sign-extended field, by the integers they stand for. -/
theorem add_mul_sext {n : Nat} (x : Word) (k : Int) (c : BitVec n) :
    x + BitVec.ofInt 64 k * sext c = BitVec.ofInt 64 (x.toInt + k * c.toInt) := by
  rw [BitVec.ofInt_add, BitVec.ofInt_mul, BitVec.ofInt_toInt]; rfl

/-- The same with the field itself. -/
theorem add_sext {n : Nat} (x : Word) (c : BitVec n) : x + sext c = BitVec.ofInt 64 (x.toInt + c.toInt) := by
  rw [BitVec.ofInt_add, BitVec.ofInt_toInt]; rfl

theorem flag_decide (p : Prop) [Decidable p] : flag (decide p) = if p then 1 else 0 := by
  by_cases h : p <;> simp [flag, h]

theorem toNat_shl (x : Word) (n : Nat) : (x <<< n).toNat = x.toNat * 2 ^ n % 2 ^ 64 := by
  rw [BitVec.toNat_shiftLeft, Nat.shiftLeft_eq]

theorem toNat_shr (x : Word) (n : Nat) : (x >>> n).toNat = x.toNat / 2 ^ n := by
  rw [BitVec.toNat_ushiftRight, Nat.shiftRight_eq_div_pow]

theorem toInt_sar (x : Word) (n : Nat) : (x.sshiftRight n).toInt = x.toInt / 2 ^ n := by
  rw [BitVec.toInt_sshiftRight, Int.shiftRight_eq_div_pow]; norm_cast

theorem toNat_sub_add (x y : Word) : ((x - y).toNat + y.toNat) % 2 ^ 64 = x.toNat := by
  rw [← BitVec.toNat_add, BitVec.sub_add_cancel]

theorem toInt_smaller (x y : Word) : (if x.slt y then x else y).toInt = min x.toInt y.toInt := by
  by_cases h : x.toInt < y.toInt
  · rw [if_pos (BitVec.slt_iff_toInt_lt.2 h)]; omega
  · rw [if_neg (mt BitVec.slt_iff_toInt_lt.1 h)]; omega

theorem toInt_larger (x y : Word) : (if x.slt y then y else x).toInt = max x.toInt y.toInt := by
  by_cases h : x.toInt < y.toInt
  · rw [if_pos (BitVec.slt_iff_toInt_lt.2 h)]; omega
  · rw [if_neg (mt BitVec.slt_iff_toInt_lt.1 h)]; omega

/-- The upper half of a signed product is itself a signed 64-bit number: the product lies within ±2^126. -/
theorem toInt_mulHigh (x y : Word) : (BitVec.ofInt 64 (x.toInt * y.toInt / 2 ^ 64)).toInt = x.toInt * y.toInt / 2 ^ 64 := by
  have hle : x.toInt * y.toInt ≤ 2 ^ 126 := BitVec.toInt_mul_toInt_le
  have hge : -2 ^ 126 ≤ x.toInt * y.toInt := BitVec.le_toInt_mul_toInt
  apply BitVec.toInt_ofInt_eq_self (by decide) <;> omega

theorem toNat_mulHigh (x y : Word) : (BitVec.ofNat 64 (x.toNat * y.toNat / 2 ^ 64)).toNat = x.toNat * y.toNat / 2 ^ 64 := by
  apply Nat.mod_eq_of_lt
  rw [Nat.div_lt_iff_lt_mul (by decide)]
  exact Nat.mul_lt_mul'' x.isLt y.isLt

/-- LIH's number fits a word. -/
theorem toNat_lih (u : BitVec 20) : (BitVec.ofNat 64 (u.toNat * 2 ^ 12)).toNat = u.toNat * 2 ^ 12 := Nat.mod_eq_of_lt (by omega)

theorem addpc_eq (pc : Word) (u : BitVec 20) : pc + sext u * 4096 = BitVec.ofInt 64 (pc.toInt + u.toInt * 2 ^ 12) := by
  rw [Int.mul_comm, ← add_mul_sext, BitVec.mul_comm]; rfl

/-! ### Quotients and remainders (R80) -/

/-- The model's signed quotient is that of `BitVec.sdiv`, which the library knows where the quotient fits a word. -/
theorem divSigned_eq_sdiv {x y : Word} (hy : y ≠ 0) : divSigned x y = x.sdiv y := by
  rw [divSigned, if_neg hy]
  exact BitVec.eq_of_toInt_eq ((BitVec.toInt_ofInt _).trans (BitVec.toInt_sdiv x y).symm)

theorem remSigned_eq_srem {x y : Word} (hy : y ≠ 0) : remSigned x y = x.srem y := by
  rw [remSigned, if_neg hy, ← BitVec.toInt_srem, BitVec.ofInt_toInt]

/-- The one pair of operands whose quotient does not fit: -2^63 and -1. -/
theorem signedOverflow_iff (x y : Word) : x.toInt = -2 ^ 63 ∧ y.toInt = -1 ↔ x = BitVec.intMin 64 ∧ y = -1#64 := by
  rw [← BitVec.toInt_inj, ← BitVec.toInt_inj]; rfl

theorem divSigned_spec (x y : Word) : if y = 0 then divSigned x y = 0xFFFFFFFFFFFFFFFF
    else if x.toInt = -2 ^ 63 ∧ y.toInt = -1 then divSigned x y = 0x8000000000000000
    else (divSigned x y).toInt = x.toInt.tdiv y.toInt := by
  split
  case isTrue hy => rw [hy]; rfl
  case isFalse hy =>
    rw [divSigned_eq_sdiv hy]
    split
    case isTrue ho =>
      obtain ⟨rfl, rfl⟩ := (signedOverflow_iff x y).1 ho
      decide
    case isFalse ho =>
      exact BitVec.toInt_sdiv_of_ne_or_ne x y (Classical.not_and_iff_not_or_not.1 (mt (signedOverflow_iff x y).2 ho))

theorem remSigned_spec (x y : Word) : if y = 0 then remSigned x y = x
    else if x.toInt = -2 ^ 63 ∧ y.toInt = -1 then remSigned x y = 0
    else (remSigned x y).toInt = x.toInt - y.toInt * x.toInt.tdiv y.toInt := by
  split
  case isTrue hy => rw [hy]; rfl
  case isFalse hy =>
    rw [remSigned_eq_srem hy]
    split
    case isTrue ho =>
      obtain ⟨rfl, rfl⟩ := (signedOverflow_iff x y).1 ho
      decide
    case isFalse => rw [BitVec.toInt_srem, Int.tmod_def]

theorem divUnsigned_spec (x y : Word) : if y = 0 then divUnsigned x y = 0xFFFFFFFFFFFFFFFF
    else (divUnsigned x y).toNat = x.toNat / y.toNat := by
  split
  case isTrue hy => rw [hy]; rfl
  case isFalse hy =>
    rw [divUnsigned, if_neg hy]
    exact Nat.mod_eq_of_lt (Nat.lt_of_le_of_lt (Nat.div_le_self _ _) x.isLt)

theorem remUnsigned_spec (x y : Word) : if y = 0 then remUnsigned x y = x
    else (remUnsigned x y).toNat = x.toNat - y.toNat * (x.toNat / y.toNat) := by
  split
  case isTrue hy => rw [hy]; rfl
  case isFalse hy =>
    rw [remUnsigned, if_neg hy, ← Nat.mod_eq_sub_mul_div]
    exact Nat.mod_eq_of_lt (Nat.lt_of_le_of_lt (Nat.mod_le _ _) x.isLt)

/-! ### Counting bits (R79) -/

theorem bitOf_toNat (x : Word) (k : Nat) : bitOf x.toNat k = x.getLsbD k := by
  rw [← BitVec.testBit_toNat, Nat.testBit_eq_decide_div_mod_eq, bitOf]

theorem leadingZeros_le (v n : Nat) : leadingZeros v n ≤ n := by
  induction n with
  | zero => exact Nat.le_refl 0
  | succ n ih => rw [leadingZeros]; split <;> omega

theorem bitOf_above_leadingZeros {v n k : Nat} (hk : k < n) (h : n - leadingZeros v n ≤ k) : bitOf v k = false := by
  induction n with
  | zero => omega
  | succ n ih =>
    rw [leadingZeros] at h
    by_cases hb : bitOf v n = true
    · rw [if_pos hb] at h; omega
    · rw [if_neg hb] at h
      by_cases hkn : k = n
      · simpa [hkn] using hb
      · exact ih (by omega) (by omega)

theorem bitOf_at_leadingZeros {v n : Nat} (h : leadingZeros v n < n) : bitOf v (n - 1 - leadingZeros v n) = true := by
  induction n with
  | zero => omega
  | succ n ih =>
    rw [leadingZeros] at h ⊢
    by_cases hb : bitOf v n = true
    · simp [hb]
    · rw [if_neg hb] at h ⊢
      have hn : n + 1 - 1 - (1 + leadingZeros v n) = n - 1 - leadingZeros v n := by omega
      rw [hn]; exact ih (by omega)

theorem trailingZeros_le (v lo n : Nat) : trailingZeros v lo n ≤ n := by
  induction n generalizing lo with
  | zero => exact Nat.le_refl 0
  | succ n ih => rw [trailingZeros]; have := ih (lo + 1); split <;> omega

theorem bitOf_below_trailingZeros {v lo n k : Nat} (hlo : lo ≤ k) (h : k < lo + trailingZeros v lo n) : bitOf v k = false := by
  induction n generalizing lo with
  | zero => rw [trailingZeros] at h; omega
  | succ n ih =>
    rw [trailingZeros] at h
    by_cases hb : bitOf v lo = true
    · rw [if_pos hb] at h; omega
    · rw [if_neg hb] at h
      by_cases hk : k = lo
      · simpa [hk] using hb
      · exact ih (by omega : lo + 1 ≤ k) (by omega)

theorem bitOf_at_trailingZeros {v lo n : Nat} (h : trailingZeros v lo n < n) : bitOf v (lo + trailingZeros v lo n) = true := by
  induction n generalizing lo with
  | zero => omega
  | succ n ih =>
    rw [trailingZeros] at h ⊢
    by_cases hb : bitOf v lo = true
    · simp [hb]
    · rw [if_neg hb] at h ⊢
      rw [← Nat.add_assoc]; exact ih (by omega)

theorem popCount_eq_length (v n : Nat) : popCount v n = ((List.range n).filter (bitOf v)).length := by
  induction n with
  | zero => rfl
  | succ n ih =>
    rw [popCount, ih, List.range_succ, List.filter_append, List.length_append]
    by_cases hb : bitOf v n = true <;> simp [hb]

/-- A count of at most 64 is the number its word stands for. -/
theorem toNat_ofNat_count {n : Nat} (h : n ≤ 64) : (BitVec.ofNat 64 n).toNat = n := Nat.mod_eq_of_lt (by omega)

theorem clz_spec (x : Word) : let v := BitVec.ofNat 64 (leadingZeros x.toNat 64)
    v.toNat ≤ 64 ∧ (∀ k < 64, 64 - v.toNat ≤ k → x.getLsbD k = false) ∧ (v.toNat < 64 → x.getLsbD (63 - v.toNat) = true) := by
  intro v
  have hle := leadingZeros_le x.toNat 64
  have hv : v.toNat = leadingZeros x.toNat 64 := toNat_ofNat_count hle
  simp only [hv, ← bitOf_toNat]
  exact ⟨hle, fun _ => bitOf_above_leadingZeros, bitOf_at_leadingZeros⟩

theorem ctz_spec (x : Word) : let v := BitVec.ofNat 64 (trailingZeros x.toNat 0 64)
    v.toNat ≤ 64 ∧ (∀ k < v.toNat, x.getLsbD k = false) ∧ (v.toNat < 64 → x.getLsbD v.toNat = true) := by
  intro v
  have hle := trailingZeros_le x.toNat 0 64
  have hv : v.toNat = trailingZeros x.toNat 0 64 := toNat_ofNat_count hle
  simp only [hv, ← bitOf_toNat]
  refine ⟨hle, fun k hk => bitOf_below_trailingZeros (Nat.zero_le k) (by rwa [Nat.zero_add]), fun h => ?_⟩
  have := bitOf_at_trailingZeros h
  rwa [Nat.zero_add] at this

theorem popc_spec (x : Word) : (BitVec.ofNat 64 (popCount x.toNat 64)).toNat = ((List.range 64).filter x.getLsbD).length := by
  have hbits : bitOf x.toNat = x.getLsbD := funext (bitOf_toNat x)
  rw [popCount_eq_length, hbits]
  exact toNat_ofNat_count (List.length_filter_le x.getLsbD (List.range 64))

/-! ### Branches and jumps (R86, R87) -/

theorem branchTarget_eq {n : Nat} (pc : Word) (off : BitVec n) :
    branchTarget pc off = BitVec.ofInt 64 (pc.toInt + 4 * off.toInt) := add_mul_sext pc 4 off

theorem pc_add_four (pc : Word) : pc + 4 = BitVec.ofInt 64 (pc.toInt + 4) := by
  rw [BitVec.ofInt_add, BitVec.ofInt_toInt]; rfl

/-- A branch whose condition stands for `p` goes to pc + 4 × offset where `p` holds, else to pc + 4. -/
theorem branch_of_iff {c : Bool} {p : Prop} [Decidable p] (h : c = true ↔ p) (off : BitVec 12) (s : State) :
    branch c off s = .next (retireTo (BitVec.ofInt 64 (s.hart.pc.toInt + if p then 4 * off.toInt else 4)) s) := by
  rw [branch]
  by_cases hp : p
  · rw [if_pos (h.2 hp), if_pos hp, branchTarget_eq]
  · rw [if_neg (mt h.1 hp), if_neg hp, pc_add_four]

theorem not_slt_iff {x y : Word} : (!x.slt y) = true ↔ y.toInt ≤ x.toInt := by
  rw [Bool.not_eq_true', Bool.eq_false_iff, ne_eq, BitVec.slt_iff_toInt_lt, Int.not_lt]

theorem not_ult_iff {x y : Word} : (!x.ult y) = true ↔ y.toNat ≤ x.toNat := by
  rw [Bool.not_eq_true', Bool.eq_false_iff, ne_eq, BitVec.ult_iff_toNat_lt, Nat.not_lt]

/-- JALR to a multiple of 4 links and jumps; to any other address it traps before it writes. -/
theorem exec_jalr (d a : SReg) (imm : BitVec 15) (s : State) : exec (.jalr d a imm) s = .next (
    if (s.getS a + sext imm).toNat % 4 = 0 then retireTo (s.getS a + sext imm) (s.setS d (s.hart.pc + 4))
    else takeTrap ⟨.misaligned, s.getS a + sext imm, .fetch⟩ s.hart.pc false false s) := by
  show execJalr d a imm s = _
  simp only [execJalr, trapNow, ne_eq, ite_not]
  split <;> rfl

/-! ### What the integer instructions, branches and jumps leave as it was -/

/-- All that an integer instruction, a branch or a jump can do: write its register and go to its next pc, or, for JALR alone, trap. -/
theorem exec_of_scalarTarget {i : Instr} {d : SReg} (hi : scalarTarget i = some d) (s : State) :
    (∃ npc v, exec i s = .next (retireTo npc (s.setS d v)))
    ∨ ∃ a imm, i = .jalr d a imm
        ∧ exec i s = .next (takeTrap ⟨.misaligned, s.getS a + imm.signExtend 64, .fetch⟩ s.hart.pc false false s) := by
  unfold scalarTarget at hi
  split at hi <;> cases hi
  case h_34 a imm =>
    rw [exec_jalr]
    split
    · exact .inl ⟨_, _, rfl⟩
    · exact .inr ⟨a, imm, rfl, rfl⟩
  -- the conditional branches write no register: a write to s0
  case h_35 | h_36 | h_37 | h_38 | h_39 | h_40 => exact .inl ⟨_, 0, rfl⟩
  -- the register operations and JAL
  all_goals exact .inl ⟨_, _, rfl⟩

/-- Outside a loop, completing an instruction after a write of one scalar register leaves all of the hart but the scalar registers, the
pc and the account of the instruction under way. -/
theorem Hart.advance_setS {h : Hart} (hl : h.loop = none) (d : SReg) (v : Word) (n : Nat) (npc : Word) :
    (h.setS d v).advance n npc = { moved h ((h.setS d v).advance n npc) with sregs := (h.setS d v).sregs } := by
  simp [Hart.advance, Hart.settled, moved, hl]

/-- The same of the device: nothing outside the hart changes, and no register but the one written. -/
theorem retireTo_setS_frame {s : State} (hl : s.hart.loop = none) (npc : Word) (d : SReg) (v : Word) :
    let t := retireTo npc (s.setS d v)
    OnlyHart s t ∧ BytesKept s t ∧ VectorsKept [] s.hart t.hart
      ∧ t.hart = { moved s.hart t.hart with sregs := t.hart.sregs } ∧ ScalarsKept [d] s.hart t.hart := by
  intro t
  have hh : t.hart = { moved s.hart t.hart with sregs := (s.hart.setS d v).sregs } := Hart.advance_setS hl d v 4 npc
  have hr : t.hart.sregs = (s.hart.setS d v).sregs := by rw [hh]
  refine ⟨rfl, fun _ => rfl, fun r _ => by rw [hh]; exact ⟨rfl, rfl⟩, by rw [hr]; exact hh, fun r hne => ?_⟩
  calc t.hart.getS r = (s.hart.setS d v).getS r := by rw [Hart.getS, hr, Hart.getS]
    _ = s.hart.getS r := by rw [Hart.getS_setS, if_neg (by simpa using hne)]

/-- Taking a trap changes nothing outside the hart, and no vector register (R346, R347). -/
theorem takeTrap_frame (s : State) (t : TrapInfo) (epc : Word) (ldst async : Bool) :
    OnlyHart s (takeTrap t epc ldst async s) ∧ BytesKept s (takeTrap t epc ldst async s)
      ∧ VectorsKept [] s.hart (takeTrap t epc ldst async s).hart := by
  unfold takeTrap
  dsimp only
  split
  · exact ⟨rfl, fun _ => rfl, fun _ _ => ⟨rfl, rfl⟩⟩
  · exact ⟨rfl, fun _ => rfl, fun _ _ => ⟨rfl, rfl⟩⟩

/-! ### The statements of the family -/

/-- Settles O1: each result by the lemma about its word operation; the frame by `exec_of_scalarTarget`, which says all that such an
instruction can do. -/
theorem integerResults : Obligations.IntegerResults := by
  unfold Obligations.IntegerResults
  refine ⟨⟨fun s d a b => ?_, fun s d a imm sh u => ?_⟩, fun i d s t hi hl ht => ?_⟩
  · exact ⟨⟨_, BitVec.toNat_add _ _, rfl⟩,
      ⟨_, toNat_sub_add _ _, rfl⟩,
      ⟨_, fun _ => BitVec.getLsbD_and, rfl⟩,
      ⟨_, fun _ => BitVec.getLsbD_or, rfl⟩,
      ⟨_, fun _ => BitVec.getLsbD_xor, rfl⟩,
      ⟨_, toNat_shl _ _, rfl⟩,
      ⟨_, toNat_shr _ _, rfl⟩,
      ⟨_, toInt_sar _ _, rfl⟩,
      ⟨_, flag_decide _, rfl⟩,
      ⟨_, flag_decide _, rfl⟩,
      ⟨_, toInt_smaller _ _, rfl⟩,
      ⟨_, toInt_larger _ _, rfl⟩,
      ⟨_, BitVec.toNat_mul _ _, rfl⟩,
      ⟨_, toInt_mulHigh _ _, rfl⟩,
      ⟨_, toNat_mulHigh _ _, rfl⟩,
      ⟨_, divSigned_spec _ _, rfl⟩,
      ⟨_, divUnsigned_spec _ _, rfl⟩,
      ⟨_, remSigned_spec _ _, rfl⟩,
      ⟨_, remUnsigned_spec _ _, rfl⟩,
      ⟨_, clz_spec _, rfl⟩,
      ⟨_, ctz_spec _, rfl⟩,
      ⟨_, popc_spec _, rfl⟩⟩
  · have hslti : flag ((s.getS a).slt (sext imm)) = if (s.getS a).toInt < imm.toInt then 1 else 0 := by
      have himm : (sext imm).toInt = imm.toInt := BitVec.toInt_signExtend_of_le (by decide)
      rw [← himm]; exact flag_decide _
    exact ⟨⟨_, BitVec.toNat_add _ _, rfl⟩,
      ⟨_, fun _ => BitVec.getLsbD_and, rfl⟩,
      ⟨_, fun _ => BitVec.getLsbD_or, rfl⟩,
      ⟨_, fun _ => BitVec.getLsbD_xor, rfl⟩,
      ⟨_, hslti, rfl⟩,
      ⟨_, toNat_shl _ _, rfl⟩,
      ⟨_, toNat_shr _ _, rfl⟩,
      ⟨_, toInt_sar _ _, rfl⟩,
      ⟨_, toNat_lih u, rfl⟩,
      ⟨_, addpc_eq _ u, rfl⟩⟩
  · rcases exec_of_scalarTarget hi s with ⟨npc, v, he⟩ | ⟨a, imm, rfl, he⟩
    · obtain rfl := Host.Outcome.next.inj (he.symm.trans ht)
      obtain ⟨hs, hb, hv, hh, hr⟩ := retireTo_setS_frame hl npc d v
      exact ⟨hs, hb, hv, .inl ⟨hh, hr⟩⟩
    · obtain rfl := Host.Outcome.next.inj (he.symm.trans ht)
      obtain ⟨hs, hb, hv⟩ := takeTrap_frame s ⟨.misaligned, s.getS a + imm.signExtend 64, .fetch⟩ s.hart.pc false false
      exact ⟨hs, hb, hv, .inr ⟨a, imm, rfl, rfl⟩⟩

/-- Settles O2: the branches by `branch_of_iff`, JAL by `branchTarget_eq`, JALR by the two branches of `exec_jalr`. -/
theorem branchesAndJumps : Obligations.BranchesAndJumps := by
  unfold Obligations.BranchesAndJumps
  refine ⟨fun s a b off => ?_, fun s d a off imm => ?_⟩
  · exact ⟨branch_of_iff beq_iff_eq off s, branch_of_iff bne_iff_ne off s, branch_of_iff BitVec.slt_iff_toInt_lt off s,
      branch_of_iff not_slt_iff off s, branch_of_iff BitVec.ult_iff_toNat_lt off s, branch_of_iff not_ult_iff off s⟩
  · intro T
    have hT : s.getS a + sext imm = T := add_sext _ imm
    refine ⟨?_, fun h => ?_, fun h => ?_⟩
    · rw [← branchTarget_eq]; rfl
    · rw [exec_jalr, hT, if_pos h]
    · rw [exec_jalr, hT, if_neg h]

end Sys2Proof.Machine
end

section
/-! Fibres of spec/08_fibres.md: the order check (R158), what is written to a fibre (R19, R158), lengths, expansion, compaction and
sorting (R166 to R169). -/
namespace Sys2Proof.Machine
open Sys2Proof Sys2Proof.Safety

/-! ### The entries of a fibre (R19) -/

theorem rangeFrom_eq_range' (lo n : Nat) : rangeFrom lo n = List.range' lo n := by
  induction n generalizing lo with
  | zero => rfl
  | succ n ih => rw [rangeFrom, ih, List.range'_succ]

theorem entries_eq_entriesOf (h : Hart) (f : FIdx) (n : Nat) : h.entries f n = entriesOf h f n := by
  rw [Hart.entries, rangeFrom_eq_range', ← List.range_eq_range']; rfl

@[simp] theorem length_entriesOf (h : Hart) (f : FIdx) (n : Nat) : (entriesOf h f n).length = n := by
  rw [entriesOf, List.length_map, List.length_range]

theorem entriesOf_succ (h : Hart) (f : FIdx) (n : Nat) : entriesOf h f (n + 1) = entriesOf h f n ++ [entryOf h f n] := by
  rw [entriesOf, List.range_succ, List.map_append]; rfl

/-- The entries of a fibre from position `m` follow those below it. -/
theorem entriesOf_add (h : Hart) (f : FIdx) (m k : Nat) :
    entriesOf h f (m + k) = entriesOf h f m ++ (List.range k).map fun e => entryOf h f (m + e) := by
  rw [entriesOf, List.range_add, List.map_append, List.map_map]; rfl

theorem elem_mod (h : Hart) (r : VIdx) (t : Tag) (e : Nat) : h.elem r t e % 2 ^ valBits t = h.elem r t e := Nat.mod_mod _ _

/-- The values of a fibre fit its value tag. -/
theorem value_mod_of_mem {h : Hart} {f : FIdx} {n : Nat} {x : Nat × Nat} (hx : x ∈ entriesOf h f n) :
    x.2 % 2 ^ valBits (h.tag (valueReg f)) = x.2 := by
  obtain ⟨e, -, rfl⟩ := List.mem_map.1 hx
  exact elem_mod h (valueReg f) _ e

/-! ### The order check (R158) -/

theorem ascending_cons_cons {x y : Nat × Nat} {l : List (Nat × Nat)} :
    Ascending (x :: y :: l) ↔ x.1 < y.1 ∧ Ascending (y :: l) := by
  rw [Ascending, List.pairwise_cons, List.forall_mem_cons]
  constructor
  · rintro ⟨⟨hxy, -⟩, hl⟩; exact ⟨hxy, hl⟩
  · rintro ⟨hxy, hl⟩
    exact ⟨⟨hxy, fun z hz => hxy.trans ((List.pairwise_cons.1 hl).1 z hz)⟩, hl⟩

theorem unordered_eq_none_iff {l : List (Nat × Nat)} (p : Nat) : unordered p l = none ↔ Ascending l := by
  induction l generalizing p with
  | nil => exact iff_of_true rfl List.Pairwise.nil
  | cons x l ih =>
    cases l with
    | nil => exact iff_of_true rfl (List.pairwise_singleton _ x)
    | cons y l =>
      rw [unordered, ascending_cons_cons, ← ih (p + 1)]
      by_cases hxy : x.1 < y.1 <;> simp [hxy]

/-- The first position out of order: `y` does not lie above `x`, and everything up to `x` ascends. -/
theorem unordered_of_fall {l : List (Nat × Nat)} {x y : Nat × Nat} (r : List (Nat × Nat)) (p : Nat) (hl : Ascending (l ++ [x]))
    (hxy : y.1 ≤ x.1) : unordered p (l ++ x :: y :: r) = some (p + l.length + 1) := by
  induction l generalizing p with
  | nil => exact if_neg (Nat.not_lt.2 hxy)
  | cons a l ih =>
    cases l with
    | nil =>
      obtain ⟨hax, -⟩ := ascending_cons_cons.1 hl
      exact (if_pos hax).trans (if_neg (Nat.not_lt.2 hxy))
    | cons b l =>
      obtain ⟨hab, hl⟩ := ascending_cons_cons.1 hl
      rw [List.length_cons, ← Nat.add_right_comm p 1]
      exact (if_pos hab).trans (ih (p + 1) hl)

/-- A fibre whose entry `p` is the first that does not lie above the one before it. -/
theorem unordered_entriesOf {h : Hart} {f : FIdx} {p n : Nat} (h1 : 1 ≤ p) (hn : p < n)
    (hf : (entryOf h f p).1 ≤ (entryOf h f (p - 1)).1) (ha : Ascending (entriesOf h f p)) :
    unordered 0 (entriesOf h f n) = some p := by
  obtain ⟨q, rfl⟩ := Nat.exists_eq_add_of_le' h1
  obtain ⟨k, rfl⟩ := Nat.exists_eq_add_of_lt hn
  rw [entriesOf_succ] at ha
  rw [show q + 1 + k + 1 = q + (k + 2) by omega, entriesOf_add, List.range_succ_eq_map, List.range_succ_eq_map]
  refine (unordered_of_fall _ 0 ha hf).trans ?_
  rw [length_entriesOf, Nat.zero_add]

/-! ### The checks and what they answer -/

section
variable {s : State} (extra : List VIdx)

/-- An operand trap that leaves the state as it was is all that its instruction does. -/
theorem finish_of_operand {m : M Unit} {e : Word} (len : Nat) (h : m s = .error (.trap ⟨.operand, e, .none⟩) s) :
    finish len false m s = .next (takeTrap ⟨.operand, e, .none⟩ s.hart.pc false false s) := finish_error h

theorem run_orderedOrTrap_of_ascending {l : List (Nat × Nat)} (h : Ascending l) : orderedOrTrap l s = .ok () s := by
  rw [orderedOrTrap, (unordered_eq_none_iff 0).2 h]; rfl

theorem run_orderedOrTrap_of_unordered {l : List (Nat × Nat)} {p : Nat} (h : unordered 0 l = some p) :
    orderedOrTrap l s = .error (.trap ⟨.operand, BitVec.ofNat 64 p, .none⟩) s := by
  rw [orderedOrTrap, h]; rfl

theorem fibreOk_iff (h : Hart) (f : FIdx) : h.fibreOk f = true
    ↔ h.tag (coordReg f) = .n32 ∧ (h.flen.get f).toNat ≤ min (h.vlmax .n32) (h.vlmax (h.tag (valueReg f))) := by
  rw [Hart.fibreOk, Bool.and_eq_true, decide_eq_true_iff, decide_eq_true_iff]; rfl

theorem run_fibreStart_of_ready {fs : List FIdx} (h : FibresReady s.hart fs) : fibreStart fs extra s = .ok s.hart s := by
  obtain ⟨hb, hv, hf⟩ := h
  have hst : (s.hart.vst != 0) = false := by simp [Hart.vst, hv]
  have hok : (fs.any fun f => !s.hart.fibreOk f) = false := by
    rw [List.any_eq_false]
    intro f hm
    simp [(fibreOk_iff s.hart f).2 (hf f hm)]
  simp [fibreStart, wholeVector, touch_on hb, hst, hok]

/-- A vstart that is not 0 stops each of these instructions at its first check. -/
theorem run_fibreStart_of_vstart (hb : BanksOn s.hart) (hv : s.hart.vstart ≠ 0) (fs : List FIdx) :
    fibreStart fs extra s = .error (.trap ⟨.operand, 0, .none⟩) s := by
  have hst : (s.hart.vst != 0) = true := bne_iff_ne.2 fun h => hv (BitVec.eq_of_toNat_eq h)
  simp [fibreStart, wholeVector, touch_on hb, hst]

theorem finish_fibreStart_of_vstart (hb : BanksOn s.hart) (hv : s.hart.vstart ≠ 0) (fs : List FIdx) (m : Hart → M Unit) :
    finish 8 false (fibreStart fs extra >>= m) s = .next (takeTrap ⟨.operand, 0, .none⟩ s.hart.pc false false s) :=
  finish_of_operand 8 (by rw [run_bind, run_fibreStart_of_vstart extra hb hv fs])

theorem run_readFibre_of_ascending {f : FIdx} (h : Ascending (entriesOf s.hart f (s.hart.flen.get f).toNat)) :
    readFibre f s = .ok (entriesOf s.hart f (s.hart.flen.get f).toNat) s := by
  simp only [readFibre, run_bind, run_get, run_pure, Hart.flenOf, entries_eq_entriesOf, run_orderedOrTrap_of_ascending h]

theorem run_readFibre_of_unordered {f : FIdx} {p : Nat} (h : unordered 0 (entriesOf s.hart f (s.hart.flen.get f).toNat) = some p) :
    readFibre f s = .error (.trap ⟨.operand, BitVec.ofNat 64 p, .none⟩) s := by
  simp only [readFibre, run_bind, run_get, Hart.flenOf, entries_eq_entriesOf, run_orderedOrTrap_of_unordered h]

/-- A source out of order stops each of these instructions before it does anything else. -/
theorem finish_readFibre_of_unordered {fs : List FIdx} {f : FIdx} {p : Nat} (hr : FibresReady s.hart fs)
    (h : unordered 0 (entriesOf s.hart f (s.hart.flen.get f).toNat) = some p) (m : Hart → List (Nat × Nat) → M Unit) :
    finish 8 false (do let k ← fibreStart fs extra; let l ← readFibre f; m k l) s
      = .next (takeTrap ⟨.operand, BitVec.ofNat 64 p, .none⟩ s.hart.pc false false s) :=
  finish_of_operand 8 (by simp only [run_bind, run_fibreStart_of_ready extra hr, run_readFibre_of_unordered h])

end

theorem fibresReady_cons {h : Hart} {f : FIdx} {fs : List FIdx} (hf : FibresReady h [f]) (hfs : FibresReady h fs) :
    FibresReady h (f :: fs) := by
  obtain ⟨hb, hv, hf⟩ := hf
  obtain ⟨-, -, hfs⟩ := hfs
  exact ⟨hb, hv, List.forall_mem_cons.2 ⟨hf f (List.mem_singleton_self f), hfs⟩⟩

/-- A fibre that is ready: its coordinates are N32, and its length fits its registers. -/
theorem fits_of_fibresReady {h : Hart} {f : FIdx} (hr : FibresReady h [f]) : h.tag (coordReg f) = .n32
    ∧ (h.flen.get f).toNat ≤ min (h.vlmax .n32) (h.vlmax (h.tag (valueReg f))) := by
  obtain ⟨-, -, hf⟩ := hr
  exact hf f (List.mem_singleton_self f)

/-! ### What a fibre holds once written (R158) -/

theorem coordReg_ne_valueReg (f : FIdx) : coordReg f ≠ valueReg f := fun h => by
  have := congrArg Fin.val h
  simp only [coordReg, valueReg] at this; omega

/-- Elements written from position 0, one for each item of a list. -/
theorem lastWrite_zipIdx {α : Type} (old : Nat) (g : α → Nat) (i : Nat) (l : List α) :
    lastWrite old i (l.zipIdx.map fun p => (p.2, g p.1)) = ((l[i]?).map g).getD old := by
  have hl : (l.zipIdx.map fun p => (p.2, g p.1)) = (List.range l.length).map fun k => (k, ((l[k]?).map g).getD old) := by
    apply List.ext_getElem
    · simp
    · intro k hk _
      have hk : k < l.length := by simpa using hk
      simp [hk]
  rw [hl, lastWrite_map]
  by_cases hi : i < l.length <;> simp [hi]

/-- Entries in ascending order leave at each position the value of that coordinate. -/
theorem lastWrite_of_ascending (i : Nat) {l : List (Nat × Nat)} (hl : Ascending l) (old : Nat) :
    lastWrite old i l = (valueAt l i).getD old := by
  induction l generalizing old with
  | nil => rfl
  | cons x l ih =>
    obtain ⟨hx, hl⟩ := List.pairwise_cons.1 hl
    rw [lastWrite, ih hl]
    by_cases hxi : x.1 = i
    · have hnone : valueAt l i = none := by
        rw [valueAt, Option.map_eq_none_iff, List.find?_eq_none]
        intro y hy
        have := hx y hy
        simp only [decide_eq_true_eq]; omega
      rw [hnone]; simp [valueAt, hxi]
    · simp [valueAt, hxi]

theorem lastWrite_append (i : Nat) (l m : List (Nat × Nat)) (old : Nat) :
    lastWrite old i (l ++ m) = lastWrite (lastWrite old i l) i m := by
  induction l generalizing old with
  | nil => rfl
  | cons x l ih => exact ih _

section
variable (h : Hart) (f : FIdx) (t : Tag) (l : List (Nat × Nat)) (n : Nat)

/-- Writing a fibre and setting the cursors raises no flag. -/
theorem setFibre_setCursors_fflags (a b : Nat) : ((h.setFibre f t l n).setCursors a b).fflags = h.fflags := by
  simp [Hart.setFibre]

theorem tag_setFibre (r : VIdx) : (h.setFibre f t l n).tag r = if r = valueReg f then t else h.tag r := tag_setTag _ _ _ _

theorem coord_setFibre {e : Nat} (he : e < h.vlmax .n32) :
    (h.setFibre f t l n).elem (coordReg f) .n32 e = ((l[e]?).map Prod.fst).getD (h.elem (coordReg f) .n32 e) % 2 ^ 32 := by
  rw [← lastWrite_zipIdx]
  exact (elem_setElems_other _ _ _ _ _ _ _ (coordReg_ne_valueReg f)).trans (elem_setElems h (coordReg f) .n32 _ he)

theorem value_setFibre {e : Nat} (he : e < h.vlmax t) :
    (h.setFibre f t l n).elem (valueReg f) t e = ((l[e]?).map Prod.snd).getD (h.elem (valueReg f) t e) % 2 ^ valBits t := by
  rw [← lastWrite_zipIdx, ← elem_setElems_other h (coordReg f) (valueReg f) .n32 t (l.zipIdx.map fun p => (p.2, p.1.1)) e
    (coordReg_ne_valueReg f).symm]
  exact elem_setElems _ (valueReg f) t _ he

theorem vectorsKept_setFibre : VectorsKept [coordReg f, valueReg f] h (h.setFibre f t l n) := by
  intro r hr
  obtain ⟨hc, hv⟩ : r ≠ coordReg f ∧ r ≠ valueReg f := by simpa using hr
  simp [Hart.setFibre, regs_setElems, vget_set, hc, hv]

/-- Writing a fibre and setting the cursors moves no field but those of `FibreMoved`. -/
theorem fibreMoved_setFibre (a b : Nat) : FibreMoved h ((h.setFibre f t l n).setCursors a b) [coordReg f, valueReg f] := by
  refine ⟨?_, vectorsKept_setFibre h f t l n⟩
  simp only [Hart.setFibre, Hart.setTag, Hart.setElems, Hart.setCursors, keeping]

/-- A fibre written with entries that fit it, and the cursors set. -/
theorem fibreWritten_setFibre (a b : Nat) (hc : h.tag (coordReg f) = .n32) (hl : l.length ≤ min (h.vlmax .n32) (h.vlmax t)) :
    FibreWritten h ((h.setFibre f t l n).setCursors a b) f t l n := by
  obtain ⟨hl32, hlt⟩ := Nat.le_min.1 hl
  refine ⟨fibreMoved_setFibre h f t l n a b, ?_, ?_, fun g => vget_set _ _ _ _, fun e x hx => ?_, fun e he => ?_⟩
  · exact (tag_setFibre h f t l n _).trans ((if_neg (coordReg_ne_valueReg f)).trans hc)
  · exact (tag_setFibre h f t l n _).trans (if_pos rfl)
  · obtain ⟨hlt', -⟩ := List.getElem?_eq_some_iff.1 hx
    refine ⟨(coord_setFibre h f t l n (by omega)).trans ?_, (value_setFibre h f t l n (by omega)).trans ?_⟩ <;> rw [hx] <;> rfl
  · have hnone : l[e]? = none := List.getElem?_eq_none he
    refine ⟨fun hm => (coord_setFibre h f t l n hm).trans ?_, fun hm => (value_setFibre h f t l n hm).trans ?_⟩ <;> rw [hnone]
    · exact elem_mod h _ .n32 e
    · exact elem_mod h _ t e

end

theorem cursorsAt_zero (h : Hart) : CursorsAt (h.setCursors 0 0) 0 0 := ⟨rfl, rfl⟩

/-! ### Expansion and compaction (R167, R168) -/

/-- What FEXPAND writes: zero to each of the `vl` first elements, then the entries whose coordinate is one of them. -/
def expansion (vl : Nat) (l : List (Nat × Nat)) : List (Nat × Nat) :=
  (List.range vl).map (fun i => (i, 0)) ++ l.filter fun x => x.1 < vl

theorem valueAt_filter_lt (vl i : Nat) (l : List (Nat × Nat)) :
    valueAt (l.filter fun x => x.1 < vl) i = if i < vl then valueAt l i else none := by
  rw [valueAt, List.find?_filter]
  split
  case isTrue hi =>
    have hp : (fun x : Nat × Nat => decide (decide (x.1 < vl) = true ∧ decide (x.1 = i) = true)) = fun x => decide (x.1 = i) := by
      funext x
      simp only [decide_eq_true_eq, decide_eq_decide]; omega
    rw [hp, valueAt]
  case isFalse hi =>
    rw [Option.map_eq_none_iff, List.find?_eq_none]
    intro x _
    simp only [decide_eq_true_eq]; omega

theorem lastWrite_expansion {l : List (Nat × Nat)} (hl : Ascending l) (vl i old : Nat) :
    lastWrite old i (expansion vl l) = if i < vl then (valueAt l i).getD 0 else old := by
  rw [expansion, lastWrite_append, lastWrite_map, lastWrite_of_ascending i (hl.filter _), valueAt_filter_lt]
  by_cases hi : i < vl <;> simp [hi]

/-- The values found in a fibre fit its value tag. -/
theorem valueAt_entriesOf_mod (h : Hart) (f : FIdx) (n i : Nat) :
    ((valueAt (entriesOf h f n) i).getD 0) % 2 ^ valBits (h.tag (valueReg f)) = (valueAt (entriesOf h f n) i).getD 0 := by
  cases hx : (entriesOf h f n).find? (fun x => x.1 = i) with
  | none => simp [valueAt, hx]
  | some x => simpa [valueAt, hx] using value_mod_of_mem (List.mem_of_find?_eq_some hx)

theorem elem_setElems_expansion (h : Hart) (vd : VIdx) (f : FIdx) {n e : Nat} (ha : Ascending (entriesOf h f n))
    (he : e < h.vlmax (h.tag (valueReg f))) :
    (h.setElems vd (h.tag (valueReg f)) (expansion h.vln (entriesOf h f n))).elem vd (h.tag (valueReg f)) e
      = if e < h.vln then (valueAt (entriesOf h f n) e).getD 0 else h.elem vd (h.tag (valueReg f)) e := by
  rw [elem_setElems _ _ _ _ he, lastWrite_expansion ha]
  split
  · exact valueAt_entriesOf_mod h f n e
  · exact elem_mod h vd _ e

theorem vectorsKept_setElems_setTag (h : Hart) (vd : VIdx) (t : Tag) (l : List (Nat × Nat)) :
    VectorsKept [vd] h ((h.setElems vd t l).setTag vd t) := by
  intro r hr
  have hr : r ≠ vd := by simpa using hr
  simp [regs_setElems, vget_set, hr]

/-- FCOMPACT keeps an integer that is not 0 and a float that does not read as zero. -/
theorem not_isZeroValue_eq (c : VCfg) (t : Tag) (b : Nat) :
    (!isZeroValue c t b) = if isInt t then decide (b ≠ 0) else decide ((readFloat c t b).isZero = false) := by
  rw [isZeroValue]
  split <;> simp

/-! ### Sorting (R169) -/

theorem mem_insertEntry {e x : Nat × Nat} {l : List (Nat × Nat)} : x ∈ insertEntry e l ↔ x = e ∨ x ∈ l := by
  induction l with
  | nil => exact List.mem_cons
  | cons y l ih =>
    rw [insertEntry]
    split
    · exact List.mem_cons
    · rw [List.mem_cons, ih, List.mem_cons, or_left_comm]

theorem length_insertEntry (e : Nat × Nat) (l : List (Nat × Nat)) : (insertEntry e l).length = l.length + 1 := by
  induction l with
  | nil => rfl
  | cons y l ih => rw [insertEntry]; split <;> simp [ih]

/-- Coordinates in ascending order, equal ones allowed. -/
def Rising (l : List (Nat × Nat)) : Prop := l.Pairwise (fun x y => x.1 ≤ y.1)

theorem rising_insertEntry {e : Nat × Nat} {l : List (Nat × Nat)} (hl : Rising l) : Rising (insertEntry e l) := by
  induction l with
  | nil => exact List.pairwise_singleton _ e
  | cons y l ih =>
    obtain ⟨hy, hl'⟩ := List.pairwise_cons.1 hl
    rw [insertEntry]
    split
    case isTrue hlt =>
      refine List.pairwise_cons.2 ⟨List.forall_mem_cons.2 ⟨hlt.le, fun z hz => hlt.le.trans (hy z hz)⟩, hl⟩
    case isFalse hge =>
      refine List.pairwise_cons.2 ⟨fun z hz => ?_, ih hl'⟩
      rcases mem_insertEntry.1 hz with rfl | hz
      · exact Nat.not_lt.1 hge
      · exact hy z hz

/-- An entry inserted stands after every entry of its coordinate. -/
theorem filter_insertEntry {e : Nat × Nat} {l : List (Nat × Nat)} (hl : Rising l) (c : Nat) :
    (insertEntry e l).filter (fun x => x.1 = c) = l.filter (fun x => x.1 = c) ++ [e].filter (fun x => x.1 = c) := by
  induction l with
  | nil => rfl
  | cons y l ih =>
    obtain ⟨hy, hl'⟩ := List.pairwise_cons.1 hl
    rw [insertEntry]
    split
    case isTrue hlt =>
      by_cases hc : e.1 = c
      · have hnone : (y :: l).filter (fun x => x.1 = c) = [] := by
          refine List.filter_eq_nil_iff.2 (List.forall_mem_cons.2 ⟨?_, fun z hz => ?_⟩) <;> simp only [decide_eq_true_eq]
          · omega
          · have := hy z hz; omega
        rw [List.filter_cons, hnone]; simp [hc]
      · rw [List.filter_cons]; simp [hc]
    case isFalse => rw [List.filter_cons, List.filter_cons, ih hl']; split <;> rfl

theorem sortEntries_concat (l : List (Nat × Nat)) (e : Nat × Nat) : sortEntries (l ++ [e]) = insertEntry e (sortEntries l) :=
  List.foldl_concat ..

theorem rising_sortEntries (l : List (Nat × Nat)) : Rising (sortEntries l) := by
  induction l using List.reverseRecOn with
  | nil => exact List.Pairwise.nil
  | append_singleton l e ih => rw [sortEntries_concat]; exact rising_insertEntry ih

/-- The sort is stable: entries of one coordinate keep their order. -/
theorem filter_sortEntries (l : List (Nat × Nat)) (c : Nat) :
    (sortEntries l).filter (fun x => x.1 = c) = l.filter (fun x => x.1 = c) := by
  induction l using List.reverseRecOn with
  | nil => rfl
  | append_singleton l e ih => rw [sortEntries_concat, filter_insertEntry (rising_sortEntries l), ih, List.filter_append]

theorem length_sortEntries (l : List (Nat × Nat)) : (sortEntries l).length = l.length := by
  induction l using List.reverseRecOn with
  | nil => rfl
  | append_singleton l e ih => rw [sortEntries_concat, length_insertEntry, ih, List.length_append]; rfl

/-! ### What FLEN, FEXPAND, FCOMPACT and FSORT do where no check stops them -/

section
variable {s : State} {fd fa : FIdx}

theorem decide_capacity_lt_eq_false {h : Hart} {f : FIdx} {n : Nat} (hn : n ≤ min (h.vlmax .n32) (h.vlmax (h.tag (valueReg f)))) :
    decide (h.capacity (h.valueTag f) < n) = false := decide_eq_false (Nat.not_lt.2 hn)

theorem exec_flen (sn : SReg) (hr : FibresReady s.hart [fa])
    (hn : (s.getS sn).toNat ≤ min (s.hart.vlmax .n32) (s.hart.vlmax (s.hart.tag (valueReg fa))))
    (ha : Ascending (entriesOf s.hart fa (s.getS sn).toNat)) : exec (.flen fa sn) s = .next (retire 8 { s with
      hart := { s.hart with flen := s.hart.flen.set fa (BitVec.ofNat 16 (s.getS sn).toNat) }.setCursors 0 0 }) := by
  refine finish_ok ?_
  have ho := run_orderedOrTrap_of_ascending (s := s) ha
  rw [State.getS] at hn ho
  simp only [run_bind, run_fibreStart_of_ready [] hr, entries_eq_entriesOf, decide_capacity_lt_eq_false hn, run_operandIf_false, ho, run_onHart]
  rfl

theorem exec_fexpand (vd : VIdx) (hr : FibresReady s.hart [fa]) (ha : Ascending (entriesOf s.hart fa (s.hart.flen.get fa).toNat))
    (hv : s.hart.vln ≤ s.hart.vlmax (s.hart.tag (valueReg fa))) : exec (.fexpand vd fa) s = .next (retire 8 { s with
      hart := ((s.hart.setElems vd (s.hart.tag (valueReg fa)) (expansion s.hart.vln
        (entriesOf s.hart fa (s.hart.flen.get fa).toNat))).setTag vd (s.hart.tag (valueReg fa))).setCursors 0 0 }) := by
  have hfit : s.hart.vlFits [s.hart.tag (valueReg fa)] = true := by simpa [Hart.vlFits] using hv
  refine finish_ok ?_
  simp only [run_bind, run_fibreStart_of_ready _ hr, run_readFibre_of_ascending ha, Hart.valueTag, hfit, Bool.not_true,
    run_operandIf_false, run_onHart, expansion, rangeFrom_eq_range', ← List.range_eq_range']

theorem exec_fcompact (hd : FibresReady s.hart [fd]) (hr : FibresReady s.hart [fa])
    (ha : Ascending (entriesOf s.hart fa (s.hart.flen.get fa).toNat)) (l : List (Nat × Nat))
    (hl : l = (entriesOf s.hart fa (s.hart.flen.get fa).toNat).filter fun x =>
      if isInt (s.hart.tag (valueReg fa)) then x.2 ≠ 0 else (readFloat s.hart.vcfg (s.hart.tag (valueReg fa)) x.2).isZero = false) :
    exec (.fcompact fd fa) s = .next (retire 8 { s with
      hart := (s.hart.setFibre fd (s.hart.tag (valueReg fa)) l l.length).setCursors 0 0 }) := by
  simp only [← not_isZeroValue_eq] at hl
  subst hl
  refine finish_ok ?_
  simp only [run_bind, run_fibreStart_of_ready _ (fibresReady_cons hd hr), run_readFibre_of_ascending ha, run_onHart, Hart.valueTag]

theorem exec_fsort (hd : FibresReady s.hart [fd]) (hr : FibresReady s.hart [fa]) (l : List (Nat × Nat))
    (hl : l = sortEntries (entriesOf s.hart fa (s.hart.flen.get fa).toNat)) :
    exec (.fsort fd fa) s = .next (retire 8 { s with hart := (s.hart.setFibre fd (s.hart.tag (valueReg fa)) l
      (if (unordered 0 l).isSome then 0 else (s.hart.flen.get fa).toNat)).setCursors 0 0 }) := by
  subst hl
  obtain ⟨-, hn⟩ := fits_of_fibresReady hr
  refine finish_ok ?_
  have hc := decide_capacity_lt_eq_false (n := s.hart.flenOf fa) hn
  simp only [run_bind, run_fibreStart_of_ready _ (fibresReady_cons hd hr), hc, run_operandIf_false, run_onHart, entries_eq_entriesOf]
  rfl

end

/-! ### The statement of the family -/

/-- Settles O36: what each instruction writes by its `exec_` lemma and the lemmas about the hart that it gives; the traps by the first
check that fails, vstart before everything and the order of a source before the rest. -/
theorem fibreLengthsAndOrder : Obligations.FibreLengthsAndOrder := by
  unfold Obligations.FibreLengthsAndOrder
  intro s fd fa sn vd base off h t n a len ends hb
  refine ⟨fun hv hr => ⟨fun hlen ha => ?flen, fun ha hvl => ?fexpand, fun hd => ⟨fun ha => ?fcompact, ?fsort⟩, fun p h1 hn hf ha => ?order⟩,
    fun hv => ?vstart⟩
  case flen => exact ⟨_, exec_flen sn hr hlen ha, ⟨rfl, fun _ _ => ⟨rfl, rfl⟩⟩, rfl, cursorsAt_zero _, fun g => vget_set _ _ _ _⟩
  case fexpand =>
    exact ⟨_, exec_fexpand vd hr ha hvl, ⟨rfl, vectorsKept_setElems_setTag h vd t _⟩, ⟨rfl, cursorsAt_zero _⟩, rfl,
      (tag_setTag _ _ _ _).trans (if_pos rfl), fun e he => elem_setElems_expansion h vd fa ha he⟩
  case fcompact =>
    obtain ⟨hc, -⟩ := fits_of_fibresReady hd
    obtain ⟨-, hn⟩ := fits_of_fibresReady hr
    refine ⟨_, _, exec_fcompact hd hr ha _ rfl, fibreWritten_setFibre h fd t _ _ 0 0 hc ?_, setFibre_setCursors_fflags .., cursorsAt_zero _,
      rfl⟩
    exact (List.length_filter_le _ a).trans ((length_entriesOf h fa n).trans_le hn)
  case fsort =>
    obtain ⟨hc, -⟩ := fits_of_fibresReady hd
    obtain ⟨-, hn⟩ := fits_of_fibresReady hr
    have hl := ((length_sortEntries a).trans (length_entriesOf h fa n)).trans_le hn
    refine ⟨_, sortEntries a, exec_fsort hd hr _ rfl, setFibre_setCursors_fflags .., cursorsAt_zero _, rising_sortEntries a,
      filter_sortEntries a, fun hs => ?_, fun hs => ?_⟩
    · rw [(unordered_eq_none_iff 0).2 hs]
      exact fibreWritten_setFibre h fd t _ n 0 0 hc hl
    · obtain ⟨p, hp⟩ := Option.ne_none_iff_exists'.1 (mt (unordered_eq_none_iff 0).1 hs)
      rw [hp]
      exact fibreWritten_setFibre h fd t _ 0 0 0 hc hl
  case order =>
    have ho := unordered_entriesOf h1 hn hf ha
    simp only [List.forall_mem_cons]
    exact ⟨finish_readFibre_of_unordered [vd] hr ho _, finish_readFibre_of_unordered [] (fibresReady_cons hr hr) ho _,
      finish_readFibre_of_unordered [] hr ho _, List.forall_mem_nil _⟩
  case vstart =>
    have trap := @finish_fibreStart_of_vstart s
    simp only [List.forall_mem_cons]
    exact ⟨trap [] hb hv [fa] _, trap [vd] hb hv [fa] _, trap [] hb hv [fd, fa] _, trap [] hb hv [fd, fa] _, trap [] hb hv [fd, fa, fa] _,
      trap [] hb hv [fa] _, trap [] hb hv [fa] _, trap [] hb hv [] _, trap [] hb hv [fa] _, List.forall_mem_nil _⟩

end Sys2Proof.Machine
end

section
/-! Tiles of spec/09_matrix_scout.md: words of a tile as it is written (R20), the checks that the tile and scout instructions share
(R185), and TZERO, TFILL, TMV and TREDMAX (R186 to R189). -/
namespace Sys2Proof.Machine
open Sys2Proof Sys2Proof.Safety

/-! ### Fields of packed words -/

/-- A field of a field. -/
theorem getBits_getBits {p w q v : Nat} (r : Nat) (h : q + v ≤ w) : getBits (getBits r p w) q v = getBits r (p + q) v := by
  apply Nat.eq_of_testBit_eq
  intro i
  rw [testBit_getBits, testBit_getBits, testBit_getBits]
  by_cases hi : i < v
  · simp [hi, show q + i < w by omega, Nat.add_assoc]
  · simp [hi]

/-- Word `i` of packed words. -/
theorem getBits_packWords (w : Nat) (l : List Nat) (i : Nat) : getBits (packWords w l) (i * w) w = l[i]?.getD 0 % 2 ^ w := by
  induction l generalizing i with
  | nil => simp [packWords, getBits]
  | cons v l ih =>
    cases i with
    | zero => simp [packWords, getBits]
    | succ i =>
      rw [packWords, getBits, Nat.succ_mul, Nat.add_comm (i * w), pow_add, ← Nat.div_div_eq_div_mul,
        Nat.add_mul_div_left _ _ (Nat.two_pow_pos w), Nat.div_eq_of_lt (Nat.mod_lt _ (Nat.two_pow_pos w)), Nat.zero_add]
      exact ih i

/-- Word `i` of words packed from index 0. -/
theorem getBits_packWords_map {n i : Nat} (w : Nat) (f : Nat → Nat) (hi : i < n) :
    getBits (packWords w ((rangeFrom 0 n).map f)) (i * w) w = f i % 2 ^ w := by
  rw [getBits_packWords, rangeFrom_eq_range', ← List.range_eq_range']
  simp [hi]

/-! ### Words and rows of a tile (R20) -/

theorem word_eq_tileWord (h : Hart) (t : TIdx) (r c : Nat) : word h t r c = tileWord (h.tile t) r c := by
  rw [word, tileWord, getBits, Nat.mul_comm 32, Nat.mul_comm 256]; rfl

/-- Word `c` of a row is word `c` of the row's bits. -/
theorem tileWord_eq_getBits_tileRow (t r : Nat) {c : Nat} (hc : c < 256) : tileWord t r c = getBits (tileRow t r) (c * 32) 32 := by
  rw [tileRow, getBits_getBits t (by omega), tileWord]
  congr 1; omega

theorem tileRow_tileOf (row : Nat → Nat) {r : Nat} (hr : r < 256) : tileRow (tileOf row).toNat r = row r % 2 ^ 8192 := by
  rw [tileRow, tileOf, BitVec.toNat_ofNat, getBits_mod _ _ _ _ (by simp only [Config.tileBits]; omega)]
  exact getBits_packWords_map 8192 row hr

theorem tileWord_tileOf (row : Nat → Nat) {r c : Nat} (hr : r < 256) (hc : c < 256) :
    tileWord (tileOf row).toNat r c = getBits (row r) (c * 32) 32 := by
  rw [tileWord_eq_getBits_tileRow _ _ hc, tileRow_tileOf row hr, getBits_mod _ _ _ _ (by omega)]

/-- The block of a word is that of the first word of the row in it. -/
theorem keptAt_block (mask : Option Word) (r c : Nat) : keptAt mask r (32 * (c / 32)) = keptAt mask r c := by
  simp only [keptAt, Nat.mul_div_cancel_left _ (show 0 < 32 by decide)]

/-- A tile updated: the words that rows and mask take are given by `f`, the others are kept. -/
theorem tileWord_updateTile (t : Nat) (take : Nat → Bool) (mask : Option Word) (f : Nat → Nat → Nat) {r c : Nat} (hr : r < 256)
    (hc : c < 256) : tileWord (updateTile t take mask f).toNat r c
      = if take r && keptAt mask r c then f r c % 2 ^ 32 else tileWord t r c := by
  rw [updateTile, tileWord_tileOf _ hr hc]
  split
  case isTrue h =>
    obtain ⟨htake, -⟩ := Bool.and_eq_true_iff.1 h
    rw [getBits_packWords_map 32 _ hc, htake, Bool.true_and]
    split
    · rfl
    · exact Nat.mod_mod _ _
  case isFalse h =>
    have hnot : (take r && keptAt mask r c) = false := by
      rw [Bool.eq_false_iff]
      intro hk
      obtain ⟨htake, hkept⟩ := Bool.and_eq_true_iff.1 hk
      refine h (Bool.and_eq_true_iff.2 ⟨htake, List.any_eq_true.2 ⟨c / 32, (mem_rangeFrom _ _ _).2 (by omega), ?_⟩⟩)
      rw [keptAt_block, hkept]
    rw [hnot, if_neg Bool.false_ne_true, tileWord_eq_getBits_tileRow t r hc]

/-- A row written: its words are those of the bits written, the words of other rows are kept. -/
theorem tileWord_setRow (t v R : Nat) {r c : Nat} (hc : c < 256) :
    tileWord (setBits t (R * 8192) 8192 v) r c = if r = R then getBits v (c * 32) 32 else tileWord t r c := by
  rw [tileWord_eq_getBits_tileRow _ _ hc]
  split
  case isTrue h => rw [h, tileRow, getBits_setBits_same, getBits_mod _ _ _ _ (by omega)]
  case isFalse h =>
    rw [tileRow, getBits_setBits_apart _ _ _ _ _ _ (by omega), tileWord_eq_getBits_tileRow t r hc]; rfl

/-- Words of a tile read alike from a number and from the tile that holds it. -/
theorem tileWord_ofNat (v : Nat) {r c : Nat} (hr : r < 256) (hc : c < 256) :
    tileWord (BitVec.ofNat Config.tileBits v).toNat r c = tileWord v r c := by
  rw [BitVec.toNat_ofNat, tileWord, getBits_mod _ _ _ _ (by simp only [Config.tileBits]; omega)]; rfl

theorem tileWord_mod (t r c : Nat) : tileWord t r c % 2 ^ 32 = tileWord t r c := Nat.mod_mod _ _

/-- What it takes for a tile written to be one whose words `f` gives, in a hart that keeps all else. -/
theorem tileWritten_setTile (h : Hart) (t : TIdx) (v : BitVec Config.tileBits) {f : Nat → Nat → Nat}
    (hf : ∀ r < 256, ∀ c < 256, tileWord v.toNat r c = f r c % 2 ^ 32) : TileWritten h (h.setTile t v).vdone t f := by
  refine ⟨rfl, fun u hu => (vget_set _ _ _ _).trans (if_neg hu), fun r hr c hc => ?_⟩
  rw [word_eq_tileWord, ← hf r hr c hc]
  exact congrArg (fun b : BitVec Config.tileBits => tileWord b.toNat r c) ((vget_set _ _ _ _).trans (if_pos rfl))

/-! ### The checks of R185 -/

section
variable {s : State} {ts : List TIdx} {rs : List VIdx}

/-- The checks pass where every tile named is the hart's and vl fits every register named. -/
theorem run_mtxStart (hb : BanksOn s.hart) (hv : s.hart.vstart = 0) (ht : ∀ t ∈ ts, t.val < 8 / s.hart.parts)
    (hr : ∀ r ∈ rs, s.hart.vln ≤ s.hart.vlmax (s.hart.tag r)) : mtxStart ts rs s = .ok s.hart s := by
  have hst : (s.hart.vst != 0) = false := by simp [Hart.vst, hv]
  have hok : s.hart.mtxOk ts rs = true := by
    rw [Hart.mtxOk, Hart.vlFits, Bool.and_eq_true, List.all_eq_true, List.all_eq_true, List.forall_mem_map]
    exact ⟨fun t h => decide_eq_true (ht t h), fun r h => decide_eq_true (hr r h)⟩
  simp [mtxStart, touch_on hb, hst, hok]

theorem run_mtxStart_of_tileReady {t : TIdx} (h : TileReady s.hart t rs) (hv : s.hart.vstart = 0) :
    mtxStart [t] rs s = .ok s.hart s := by
  obtain ⟨hb, ht, hr⟩ := h
  exact run_mtxStart hb hv (List.forall_mem_singleton.2 ht) hr

end

/-- A tile that is ready stays so beside one register more whose VLMAX vl does not exceed. -/
theorem tileReady_singleton {h : Hart} {t : TIdx} {r : VIdx} (ht : TileReady h t []) (hr : h.vln ≤ h.vlmax (h.tag r)) :
    TileReady h t [r] := by
  obtain ⟨hb, ht, -⟩ := ht
  exact ⟨hb, ht, List.forall_mem_singleton.2 hr⟩

/-! ### Elements written from index 0, and the maximum of FP32 values -/

/-- The first `n` elements written, the others kept. -/
theorem elem_setElems_map (h : Hart) (r : VIdx) (t : Tag) (n : Nat) (f : Nat → Nat) {e : Nat} (he : e < h.vlmax t) :
    (h.setElems r t ((rangeFrom 0 n).map fun j => (j, f j))).elem r t e
      = if e < n then f e % 2 ^ valBits t else h.elem r t e := by
  rw [elem_setElems _ _ _ _ he, lastWrite_map]
  simp only [mem_rangeFrom, Nat.zero_le, Nat.zero_add, true_and]
  split
  · rfl
  · exact elem_mod h r t e

theorem vectorsKept_setElems (h : Hart) (r : VIdx) (t : Tag) (l : List (Nat × Nat)) : VectorsKept [r] h (h.setElems r t l) := by
  intro q hq
  have hq : q ≠ r := by simpa using hq
  simp [regs_setElems, hq]

/-- A register of any partition holds at least 256 elements of 32 bits. -/
theorem le_vlmax_f32 (h : Hart) : 256 ≤ h.vlmax .f32 := by
  rw [Hart.vlmax]
  rcases isParts_parts h with hp | hp | hp | hp <;> rw [hp] <;> decide

/-- Rounding a finite value overflows, or gives a magnitude up to the largest. -/
theorem round_eq_overflow_or (f : Fmt) (r : Rnd) (neg : Bool) (n d : Nat) :
    f.round r neg n d = f.overflow r neg ∨ ∃ mag ≤ f.maxMag, (f.round r neg n d).bits = f.signBit neg + mag :=
  (em _).elim (fun h => .inl (if_pos h)) fun h => .inr ⟨_, Nat.not_lt.1 h, congrArg Res.bits (if_neg h)⟩

theorem signBit_le (f : Fmt) (neg : Bool) : f.signBit neg ≤ 2 ^ (f.e + f.m) := by
  rw [Fmt.signBit]; split <;> simp

/-- In a format with infinities no result lies above the negative infinity's bits. -/
theorem rnd_bits_le {f : Fmt} (hf : f.sp = .ieee) (hmax : f.maxMag ≤ f.infMag) (hnan : f.nan ≤ 2 ^ (f.e + f.m) + f.infMag) (r : Rnd)
    (x : FVal) : (f.rnd r x).bits ≤ 2 ^ (f.e + f.m) + f.infMag := by
  cases x with
  | nan => exact hnan
  | inf neg =>
    have hs := signBit_le f neg
    rw [Fmt.rnd, Fmt.infinity, hf]
    dsimp only
    split <;> dsimp only <;> omega
  | zero neg => exact (signBit_le f neg).trans (Nat.le_add_right _ _)
  | fin q =>
    have hs := signBit_le f (q < 0)
    rw [Fmt.rnd]
    rcases round_eq_overflow_or f r (q < 0) q.num.natAbs q.den with h | ⟨mag, hm, h⟩
    · rw [h, Fmt.overflow, hf]
      dsimp only
      split <;> dsimp only <;> omega
    · rw [h]; omega

/-- The bits of a rounded FP32 result fit 32 bits. -/
theorem rnd_f32_bits_lt (r : Rnd) (x : FVal) : ((fmtOf .f32).rnd r x).bits < 2 ^ 32 :=
  (rnd_bits_le rfl (by simp [Fmt.maxMag, Fmt.infMag, fmtOf]) (by simp [Fmt.nan, Fmt.infMag, fmtOf]) r x).trans_lt
    (by simp [Fmt.infMag, fmtOf])

/-- The canonical NaN is what rounding a NaN gives. -/
theorem ite_isNan_eq_rnd (f : Fmt) (x : FVal) : (if x.isNan then f.nan else (f.rnd .even x).bits) = (f.rnd .even x).bits := by
  cases x with
  | nan => exact if_pos rfl
  | _ => exact if_neg Bool.false_ne_true

/-- The model's maximum of FP32 values is the one of the statements. -/
theorem maxWords_eq_maxBits (l : List FVal) : maxWords l = maxBits l := ite_isNan_eq_rnd (fmtOf .f32) (l.foldl fMax .nan)

theorem maxBits_mod (l : List FVal) : maxBits l % 2 ^ 32 = maxBits l := by rw [maxBits, Nat.mod_eq_of_lt (rnd_f32_bits_lt _ _)]

/-! ### TZERO, TFILL, TMV and TREDMAX (R186 to R189) -/

/-- Work whose first part answers `a` goes on from there. -/
theorem run_bind_ok {α β : Type} {m : M α} {f : α → M β} {a : α} {s s' : State} (h : m s = .ok a s') : (m >>= f) s = f a s' := by
  rw [run_bind, h]

section
variable {s : State} {t : TIdx}

theorem exec_tzero (ht : TileReady s.hart t []) (hv : s.hart.vstart = 0) :
    exec (.tzero t) s = .next (retire 8 { s with hart := (s.hart.setTile t (BitVec.ofNat _ 0)).vdone }) :=
  finish_ok (run_bind_ok (run_mtxStart_of_tileReady ht hv))

theorem tileWritten_tzero (h : Hart) (t : TIdx) : TileWritten h (h.setTile t (BitVec.ofNat _ 0)).vdone t fun _ _ => 0 := by
  refine tileWritten_setTile h t _ fun r hr c hc => ?_
  rw [tileWord_ofNat 0 hr hc, tileWord, getBits, Nat.zero_div]

/-- The tile that TFILL leaves (R188). -/
def filled (h : Hart) (t : TIdx) (m : KIdx) : BitVec Config.tileBits :=
  updateTile (h.tile t) (fun _ => true) (some (~~~(h.keep.get m))) fun _ _ => 0xFF800000

theorem exec_tfill (m : KIdx) (ht : TileReady s.hart t []) (hv : s.hart.vstart = 0) :
    exec (.tfill t m) s = .next (retire 8 { s with hart := (s.hart.setTile t (filled s.hart t m)).vdone }) :=
  finish_ok (run_bind_ok (run_mtxStart_of_tileReady ht hv))

/-- The complement of a keep mask takes the blocks that the mask does not keep. -/
theorem keptAt_not (k : Word) {r c : Nat} (hr : r < 256) (hc : c < 256) :
    keptAt (some (~~~k)) r c = !k.getLsbD (8 * (r / 32) + c / 32) := by
  rw [keptAt, bitOf_toNat, BitVec.getLsbD_not, decide_eq_true (by omega), Bool.true_and]

theorem tileWritten_tfill (h : Hart) (t : TIdx) (m : KIdx) : TileWritten h (h.setTile t (filled h t m)).vdone t fun r c =>
    if (h.keep.get m).getLsbD (8 * (r / 32) + c / 32) then word h t r c else 0xFF800000 := by
  refine tileWritten_setTile h t _ fun r hr c hc => ?_
  rw [filled, tileWord_updateTile _ _ _ _ hr hc, keptAt_not _ hr hc, Bool.true_and, word_eq_tileWord]
  cases (h.keep.get m).getLsbD (8 * (r / 32) + c / 32) with
  | false => rfl
  | true => exact (tileWord_mod _ _ _).symm

/-- The tags that TMV takes lay elements out as FP32 does (R187). -/
theorem elem_of_rowTag (h : Hart) (r : VIdx) (e : Nat) {t : Tag} (ht : t ∈ [Tag.f32, .i32, .n32]) :
    h.elem r t e = h.elem r .f32 e ∧ (∀ l, h.setElems r t l = h.setElems r .f32 l) ∧ h.vlmax t = h.vlmax .f32 ∧ rowTag t = true := by
  simp only [List.mem_cons, List.not_mem_nil, or_false] at ht
  rcases ht with rfl | rfl | rfl <;> exact ⟨rfl, fun _ => rfl, rfl, rfl⟩

section
variable {vd : VIdx} {row : SReg}

/-- The row number and tag that TMV asks for pass its check. -/
theorem rowOk_of_rowTag (htag : s.hart.tag vd ∈ [Tag.f32, .i32, .n32]) (hR : (s.getS row).toNat < 256) :
    (!rowTag (s.hart.tag vd) || decide (256 ≤ (s.hart.getS row).toNat)) = false := by
  obtain ⟨-, -, -, hrow⟩ := elem_of_rowTag s.hart vd 0 htag
  rw [hrow]; exact decide_eq_false (Nat.not_le.2 hR)

theorem exec_tmvTileToVector (ht : TileReady s.hart t [vd]) (hv : s.hart.vstart = 0) (htag : s.hart.tag vd ∈ [Tag.f32, .i32, .n32])
    (hR : (s.getS row).toNat < 256) : exec (.tmvTileToVector vd t row) s = .next (retire 8 { s with
      hart := (s.hart.setElems vd .f32 ((rangeFrom 0 256).map fun j => (j, tileWord (s.hart.tile t) (s.getS row).toNat j))).vdone }) := by
  obtain ⟨-, hset, -, -⟩ := elem_of_rowTag s.hart vd 0 htag
  refine finish_ok ((run_bind_ok (run_mtxStart_of_tileReady ht hv)).trans ?_)
  simp only [run_bind, rowOk_of_rowTag htag hR, run_operandIf_false, run_onHart, hset]
  rfl

theorem exec_tmvVectorToTile (ht : TileReady s.hart t [vd]) (hv : s.hart.vstart = 0) (htag : s.hart.tag vd ∈ [Tag.f32, .i32, .n32])
    (hR : (s.getS row).toNat < 256) : exec (.tmvVectorToTile t vd row) s = .next (retire 8 { s with
      hart := (s.hart.setTile t (BitVec.ofNat _ (setBits (s.hart.tile t) ((s.getS row).toNat * 8192) 8192
        (packWords 32 ((rangeFrom 0 256).map (s.hart.elem vd .f32)))))).vdone }) := by
  have helem : s.hart.elem vd (s.hart.tag vd) = s.hart.elem vd .f32 := funext fun e => (elem_of_rowTag s.hart vd e htag).1
  refine finish_ok ((run_bind_ok (run_mtxStart_of_tileReady ht hv)).trans ?_)
  simp only [run_bind, rowOk_of_rowTag htag hR, run_operandIf_false, run_onHart, helem]
  rfl

end

theorem tileWritten_setRow (h : Hart) (t : TIdx) (vd : VIdx) (R : Nat) : TileWritten h
    (h.setTile t (BitVec.ofNat _ (setBits (h.tile t) (R * 8192) 8192 (packWords 32 ((rangeFrom 0 256).map (h.elem vd .f32)))))).vdone t
    fun r c => if r = R then h.elem vd .f32 c else word h t r c := by
  refine tileWritten_setTile h t _ fun r hr c hc => ?_
  rw [tileWord_ofNat _ hr hc, tileWord_setRow _ _ _ hc, getBits_packWords_map 32 _ hc, word_eq_tileWord]
  split
  · rfl
  · exact (tileWord_mod _ _ _).symm

theorem exec_tredmax {vd : VIdx} (ht : TileReady s.hart t [vd]) (hv : s.hart.vstart = 0) :
    exec (.tredmax vd t) s = .next (retire 8 { s with hart := ((s.hart.setElems vd .f32 ((rangeFrom 0 256).map fun r =>
      (r, maxBits ((List.range 256).map fun c => readFloat s.hart.vcfg .f32 (word s.hart t r c))))).setTag vd .f32).vdone }) := by
  refine finish_ok ((run_bind_ok (run_mtxStart_of_tileReady ht hv)).trans ?_)
  simp only [run_onHart, maxWords_eq_maxBits, word_eq_tileWord, List.range_eq_range', ← rangeFrom_eq_range']

end

end Sys2Proof.Machine
end

section
/-! Runs of bytes of plain local memory: where they are stored (R366), how a tile access cuts its rows into pieces (R186), and what
reading and writing those pieces does. -/
namespace Sys2Proof.Machine
open Sys2Proof Sys2Proof.Safety

/-! ### The storage numbers of local memory (R366) -/

theorem fld_congr {x y k lo : Nat} (h : x / 2 ^ k = y / 2 ^ k) (hlo : k ≤ lo) (n : Nat) : fld x lo n = fld y lo n := by
  obtain ⟨d, rfl⟩ := Nat.exists_eq_add_of_le hlo
  rw [fld, fld, pow_add, ← Nat.div_div_eq_div_mul, ← Nat.div_div_eq_div_mul, h]

theorem foldBits_congr {x y k lo : Nat} (h : x / 2 ^ k = y / 2 ^ k) (hlo : k ≤ lo) (n : Nat) : foldBits x lo n = foldBits y lo n := by
  induction n generalizing lo with
  | zero => rfl
  | succ n ih => rw [foldBits, foldBits, fld_congr h hlo, ih (by omega)]

theorem foldBits_lt (x lo n : Nat) : foldBits x lo n < 2 ^ 2 := by
  induction n generalizing lo with
  | zero => exact Nat.two_pow_pos 2
  | succ n ih => exact Nat.xor_lt_two_pow (Nat.mod_lt _ (Nat.two_pow_pos 2)) (ih _)

theorem localKey_eq (a : Nat) :
    localKey a = dieKey (fld a 14 33 % 6 * 4 + fold a) (fld a 14 33 / 6 * 4096 + a % 4096) := rfl

/-- The bytes of a page are stored one after another. -/
theorem localKey_add {a j : Nat} (h : a % 4096 + j < 4096) : localKey (a + j) = localKey a + j := by
  have hpage : (a + j) / 2 ^ 12 = a / 2 ^ 12 := by omega
  have hoff : (a + j) % 4096 = a % 4096 + j := by omega
  rw [localKey_eq, localKey_eq, fold, fold, fld_congr hpage (by decide), foldBits_congr hpage (Nat.le_refl _), hoff, dieKey, dieKey]
  omega

/-- A lane die and a die offset are read back from a storage number. -/
theorem dieKey_inj {d d' o o' : Nat} (ho : o < Config.dieBytes) (ho' : o' < Config.dieBytes) (h : dieKey d o = dieKey d' o') :
    d = d' ∧ o = o' := by
  simp only [dieKey, Config.dieBytes] at *
  omega

/-- No two bytes of local memory are stored at one place. -/
theorem localKey_inj {a b : Nat} (ha : a < localTop) (hb : b < localTop) (h : localKey a = localKey b) : a = b := by
  simp only [localTop, Config.localBytes] at ha hb
  have hfld (x : Nat) (hx : x < 3298534883328) : fld x 14 33 = x / 2 ^ 14 := Nat.mod_eq_of_lt (by omega)
  have hfa : fold a < 2 ^ 2 := foldBits_lt a 12 17
  have hfb : fold b < 2 ^ 2 := foldBits_lt b 12 17
  rw [localKey_eq, localKey_eq, hfld a ha, hfld b hb] at h
  obtain ⟨hdie, hoff⟩ := dieKey_inj (by simp only [Config.dieBytes]; omega) (by simp only [Config.dieBytes]; omega) h
  have hblock : a / 2 ^ 14 = b / 2 ^ 14 := by omega
  have hfold : fold a = fold b := by omega
  simp only [fold, foldBits.eq_2 _ 12, foldBits_congr hblock (Nat.le_refl 14) 16, Nat.xor_left_inj, fld] at hfold
  omega

/-! ### Bytes of a number -/

theorem ofBytes_append (l m : List Byte) : ofBytes (l ++ m) = ofBytes l + 256 ^ l.length * ofBytes m := by
  induction l with
  | nil => simp [ofBytes]
  | cons b l ih => rw [List.cons_append, ofBytes, ofBytes, ih, List.length_cons, pow_succ']; ring

theorem ofBytes_lt (l : List Byte) : ofBytes l < 256 ^ l.length := by
  induction l with
  | nil => exact Nat.one_pos
  | cons b l ih =>
    have := b.isLt
    rw [ofBytes, List.length_cons, pow_succ']; omega

theorem testBit_ofBytes (l : List Byte) (i : Nat) : (ofBytes l).testBit i = (l[i / 8]?.getD 0).getLsbD (i % 8) := by
  induction l generalizing i with
  | nil => simp [ofBytes]
  | cons b l ih =>
    rw [ofBytes, Nat.add_comm, show (256 : Nat) = 2 ^ 8 from rfl, Nat.testBit_two_pow_mul_add _ b.isLt]
    split
    case isTrue h => rw [Nat.div_eq_of_lt h, Nat.mod_eq_of_lt h]; rfl
    case isFalse h =>
      obtain ⟨k, rfl⟩ := Nat.exists_eq_add_of_le' (Nat.not_lt.1 h)
      rw [Nat.add_sub_cancel, ih, Nat.add_mod_right, Nat.add_div_right _ (by decide)]; simp

theorem Memory.read_eq_ofBytes (m : Memory) (k n : Nat) : m.read k n = ofBytes ((List.range n).map fun i => m.get (k + i)) := by
  induction n generalizing k with
  | zero => rfl
  | succ n ih =>
    rw [Memory.read, ih, List.range_succ_eq_map, List.map_cons, ofBytes, List.map_map]
    simp only [Function.comp_def, Nat.add_zero, Nat.add_assoc, Nat.succ_eq_add_one, Nat.add_comm 1]

/-- A byte of a number is a field of it. -/
theorem getBits_byte (x i : Nat) : getBits x (8 * i) 8 = x / 256 ^ i % 256 := by
  rw [getBits, pow_mul]; rfl

/-! ### Lists of a product of ranges -/

theorem map_range_mul {α : Type} (m n : Nat) (g : Nat → α) :
    (List.range (m * n)).map g = (List.range m).flatMap fun r => (List.range n).map fun j => g (r * n + j) := by
  induction m with
  | zero => simp
  | succ m ih => rw [Nat.succ_mul, List.range_add, List.map_append, ih, List.range_succ, List.flatMap_append]; simp

theorem zipIdx_map_range {α : Type} (n pos : Nat) (f : Nat → α) :
    ((List.range n).map f).zipIdx pos = (List.range n).map fun r => (f r, pos + r) := by
  apply List.ext_getElem <;> simp

/-! ### The last of a list of writes -/

theorem lastWrite_of_forall_ne {a : Nat} {l : List (Nat × Nat)} (h : ∀ x ∈ l, x.1 ≠ a) (old : Nat) : lastWrite old a l = old := by
  induction l with
  | nil => rfl
  | cons x l ih =>
    obtain ⟨hx, hl⟩ := List.forall_mem_cons.1 h
    rw [lastWrite, if_neg hx, ih hl]

/-- The write that no later one of its place follows. -/
theorem lastWrite_map_range {key : Nat → Nat} (f : Nat → Nat) {N n : Nat} (hn : n < N)
    (hlast : ∀ i, n < i → i < N → key i ≠ key n) (old : Nat) :
    lastWrite old (key n) ((List.range N).map fun i => (key i, f i)) = f n := by
  obtain ⟨d, rfl⟩ := Nat.exists_eq_add_of_lt hn
  rw [show n + d + 1 = n + 1 + d by omega, List.range_add, List.map_append, lastWrite_append, lastWrite_of_forall_ne,
    List.range_succ, List.map_append, lastWrite_append]
  · exact if_pos rfl
  · simp only [List.map_map, List.forall_mem_map, List.mem_range, Function.comp_apply]
    exact fun i hi => hlast _ (by omega) (by omega)

/-- A run of places written: those in it take their values. -/
theorem lastWrite_run (k n : Nat) (f : Nat → Nat) (a old : Nat) :
    lastWrite old a ((List.range n).map fun i => (k + i, f i)) = if k ≤ a ∧ a < k + n then f (a - k) else old := by
  split
  case isTrue h =>
    obtain ⟨i, rfl⟩ := Nat.exists_eq_add_of_le h.1
    rw [Nat.add_sub_cancel_left]
    exact lastWrite_map_range (key := (k + ·)) f (by omega) (fun j _ _ => by omega) old
  case isFalse h =>
    refine lastWrite_of_forall_ne ?_ old
    simp only [List.forall_mem_map, List.mem_range]
    omega

/-! ### The pieces of a run (R186) -/

/-- The access of local memory that a request becomes. -/
def plainAcc (q : VReq) : VAcc := ⟨q.i, q.va, q.b, q.w, q.group, packageHome q.va.toNat, false, false⟩

/-- An access of whole bytes of local memory, stored one after another from the place of its address. -/
def IsRun (a : VAcc) : Prop := a.b = 0 ∧ a.w = 8 * a.bytes ∧ a.loc = packageHome a.va.toNat

/-- Where the bytes of a run are stored. -/
def runKeys (a : VAcc) : List Nat := (List.range a.bytes).map fun i => localKey a.va.toNat + i

theorem bytes_mk (i : Nat) (va : Word) (n g : Nat) : (plainAcc ⟨i, va, 0, 8 * n, g, 0⟩).bytes = n := by
  simp only [plainAcc, VAcc.bytes]; omega

/-- A run of bytes below the top of local memory, cut into `fuel` pages at most, keeps its bytes in their order. -/
theorem runKeys_cutRun {i g fuel : Nat} {va : Word} {n : Nat} (hva : va.toNat + n ≤ localTop)
    (hf : n ≤ 4096 * fuel - va.toNat % 4096) :
    ((cutRun i g va n fuel).map plainAcc).flatMap runKeys = (List.range n).map fun j => localKey (va.toNat + j) := by
  induction fuel generalizing va n with
  | zero => obtain rfl : n = 0 := by omega
            rfl
  | succ fuel ih =>
    rw [cutRun]
    split
    case isTrue h => rw [h]; rfl
    case isFalse h =>
      obtain ⟨m, hm⟩ : ∃ m, n = min n (4096 - va.toNat % 4096) + m := Nat.exists_eq_add_of_le (Nat.min_le_left _ _)
      generalize hk : min n (4096 - va.toNat % 4096) = k at hm
      have hlt : va.toNat + k < 2 ^ 64 := by simp only [localTop, Config.localBytes] at hva; omega
      have hnext : (va + BitVec.ofNat 64 k).toNat = va.toNat + k := by
        rw [BitVec.toNat_add, BitVec.toNat_ofNat, Nat.add_mod_mod, Nat.mod_eq_of_lt hlt]
      rw [List.map_cons, List.flatMap_cons, ih (by rw [hnext]; omega) (by rw [hnext]; omega), hnext, runKeys, bytes_mk, hm, Nat.add_sub_cancel_left,
        List.range_add, List.map_append, List.map_map]
      have hhere : ((List.range k).map fun i => localKey va.toNat + i) = (List.range k).map fun j => localKey (va.toNat + j) := by
        refine List.map_congr_left fun j hj => (localKey_add ?_).symm
        have := List.mem_range.1 hj
        omega
      simp only [plainAcc, hhere, Function.comp_def, Nat.add_assoc]

theorem mem_cutRun {i g fuel : Nat} {va : Word} {n : Nat} {q : VReq} (h : q ∈ cutRun i g va n fuel) :
    IsRun (plainAcc q) ∧ ∃ j < n, q.va = va + BitVec.ofNat 64 j := by
  induction fuel generalizing va n with
  | zero => cases h
  | succ fuel ih =>
    rw [cutRun] at h
    split at h
    case isTrue => cases h
    case isFalse hn =>
      rcases List.mem_cons.1 h with rfl | h
      · refine ⟨⟨rfl, ?_, rfl⟩, 0, Nat.pos_of_ne_zero hn, (BitVec.add_zero va).symm⟩
        rw [bytes_mk]; rfl
      · obtain ⟨hrun, j, hj, hva⟩ := ih h
        refine ⟨hrun, min n (4096 - va.toNat % 4096) + j, by omega, ?_⟩
        rw [hva, BitVec.add_assoc, ← BitVec.ofNat_add]

/-- The addresses of plain bytes rise without wrapping. -/
theorem toNat_add_of_plainRun {s : State} {a : Word} {n j : Nat} (h : PlainRun s a n) (hn : n ≤ 4096) (hj : j < n) :
    (a + BitVec.ofNat 64 j).toNat = a.toNat + j := by
  obtain ⟨-, -, htop, -⟩ := h.2 0 (by omega)
  rw [BitVec.add_zero] at htop
  simp only [localTop, Config.localBytes] at htop
  rw [BitVec.toNat_add, BitVec.toNat_ofNat]; omega

theorem toNat_add_le_of_plainRun {s : State} {a : Word} {n : Nat} (h : PlainRun s a n) (hn : n ≤ 4096) (h0 : 0 < n) :
    a.toNat + n ≤ localTop := by
  obtain ⟨-, -, htop, -⟩ := h.2 (n - 1) (by omega)
  rw [toNat_add_of_plainRun h hn (by omega)] at htop
  omega

/-! ### The accesses of a tile (R186) -/

/-- The accesses of a tile's rows, in the order of the rows. -/
def tileRuns (base stride : Word) : List VAcc :=
  (List.range 256).flatMap fun r => (cutRun r (r / 64) (rowAddr base stride r) 1024 2).map plainAcc

theorem tileReqs_map (base stride : Word) :
    (((rangeFrom 0 256).map (rowAddr base stride)).zipIdx.flatMap fun p => cutRun p.2 (p.2 / 64) p.1 1024 2).map plainAcc
      = tileRuns base stride := by
  rw [rangeFrom_eq_range', ← List.range_eq_range', zipIdx_map_range, List.flatMap_map, List.map_flatMap]
  simp only [Nat.zero_add]; rfl

theorem rowAddr_eq (base stride : Word) (r : Nat) : rowAddr base stride r = BitVec.ofInt 64 (base.toInt + r * stride.toInt) := by
  rw [rowAddr, BitVec.ofInt_add, BitVec.ofInt_mul, BitVec.ofInt_toInt, BitVec.ofInt_toInt, BitVec.ofInt_natCast]

/-- The rows of a tile access are plain memory, each at a multiple of 4. -/
def RowsPlain (s : State) (base stride : Word) : Prop :=
  ∀ r < 256, PlainRun s (rowAddr base stride r) 1024 ∧ (rowAddr base stride r).toNat % 4 = 0

/-- Where byte `n` of a tile is stored, the rows one after another. -/
def tileKey (base stride : Word) (n : Nat) : Nat := localKey (rowAddr base stride (n / 1024) + BitVec.ofNat 64 (n % 1024)).toNat

section
variable {s : State} {base stride : Word}

theorem runKeys_tileRuns (h : RowsPlain s base stride) :
    (tileRuns base stride).flatMap runKeys = (List.range (256 * 1024)).map (tileKey base stride) := by
  rw [tileRuns, List.flatMap_assoc, map_range_mul]
  refine List.flatMap_congr fun r hr => ?_
  obtain ⟨hplain, -⟩ := h r (List.mem_range.1 hr)
  rw [runKeys_cutRun (toNat_add_le_of_plainRun hplain (by decide) (by decide)) (by omega)]
  refine List.map_congr_left fun j hj => ?_
  have hj := List.mem_range.1 hj
  rw [tileKey, show (r * 1024 + j) / 1024 = r by omega, show (r * 1024 + j) % 1024 = j by omega,
    toNat_add_of_plainRun hplain (by decide) hj]

theorem isRun_of_mem_tileRuns {a : VAcc} (ha : a ∈ tileRuns base stride) : IsRun a := by
  simp only [tileRuns, List.mem_flatMap, List.mem_map] at ha
  obtain ⟨r, -, q, hq, rfl⟩ := ha
  exact (mem_cutRun hq).1

theorem not_poisoned_of_mem_runKeys (h : RowsPlain s base stride) {k : Nat} (hk : k ∈ (tileRuns base stride).flatMap runKeys) :
    s.poisoned k = false := by
  rw [runKeys_tileRuns h, List.mem_map] at hk
  obtain ⟨n, hn, rfl⟩ := hk
  have hn := List.mem_range.1 hn
  obtain ⟨⟨-, hp⟩, -⟩ := h (n / 1024) (by omega)
  obtain ⟨-, -, -, -, hp⟩ := hp (n % 1024) (by omega)
  have hp := hp 0 Nat.one_pos
  rwa [Nat.add_zero] at hp

end

/-! ### Translation and counting of the accesses -/

section
variable {s : State} {α β : Type}

theorem run_mapM_of_forall {l : List α} {f : α → M β} {g : α → β} (h : ∀ a ∈ l, f a s = .ok (g a) s) :
    l.mapM f s = .ok (l.map g) s := by
  induction l with
  | nil => rw [List.mapM_nil]; rfl
  | cons a l ih =>
    obtain ⟨ha, hl⟩ := List.forall_mem_cons.1 h
    rw [List.mapM_cons, run_bind_ok ha, run_bind_ok (ih hl)]; rfl

/-- An access of plain memory is taken as it stands; the instruction holds its translation. -/
theorem run_probe_bare {q : VReq} (acc : Access) (w : Nat) (hu : s.hart.underway = false) (hb : s.hart.begun = none)
    (hbare : Bare s q.va) (hlt : q.va.toNat < localTop) :
    ∃ held, probe .noShelf acc w q s = .ok (plainAcc q) { s with hart := { s.hart with held := held } } :=
  ⟨_, run_bind_ok (resolve_bare acc (heldFor_none q.va acc hu hb) hbare hlt)⟩

theorem run_mapM_probe {l : List VReq} (acc : Access) (w : Nat) (hu : s.hart.underway = false) (hb : s.hart.begun = none)
    (hl : ∀ q ∈ l, Bare s q.va ∧ q.va.toNat < localTop) :
    ∃ held, l.mapM (probe .noShelf acc w) s = .ok (l.map plainAcc) { s with hart := { s.hart with held := held } } := by
  induction l generalizing s with
  | nil => exact ⟨s.hart.held, by rw [List.mapM_nil]; rfl⟩
  | cons q l ih =>
    obtain ⟨⟨hbare, hlt⟩, hl⟩ := List.forall_mem_cons.1 hl
    obtain ⟨held, hq⟩ := run_probe_bare acc w hu hb hbare hlt
    obtain ⟨held', hl⟩ := ih (s := { s with hart := { s.hart with held := held } }) hu hb hl
    exact ⟨held', by rw [List.mapM_cons, run_bind_ok hq, run_bind_ok hl]; rfl⟩

/-- Addresses that no window holds pass the check for the shelf. -/
theorem run_refuseShelf {l : List VReq} (kind : AccessKind) (hl : ∀ q ∈ l, Bare s q.va) : refuseShelf kind l s = .ok () s := by
  have hnone : (l.map (·.va)).filter (fun a => findWindow s.ctx.swin a = some 0) = [] := by
    rw [List.filter_eq_nil_iff, List.forall_mem_map]
    intro q hq
    rw [(hl q hq).2]
    decide
  simp only [refuseShelf, refuseShelfAt, run_bind, run_get, hnone, List.map_nil]; rfl

theorem run_alignRows {n : Nat} {as : List Word} (kind : AccessKind) (h : ∀ a ∈ as, a.toNat % n = 0) : alignRows kind n as s = .ok () s := by
  have hnone : as.find? (fun a => a.toNat % n != 0) = none := by
    rw [List.find?_eq_none]
    intro a ha
    simp [h a ha]
  rw [alignRows, hnone]; rfl

/-- The rows of a tile in plain memory: their accesses as they stand, their translations held. -/
theorem run_tileAccs {base stride : Word} (acc : Access) (h : RowsPlain s base stride) (hu : s.hart.underway = false)
    (hb : s.hart.begun = none) :
    ∃ held, tileAccs acc base stride s = .ok (tileRuns base stride) { s with hart := { s.hart with held := held } } := by
  have hrows : ∀ a ∈ (rangeFrom 0 256).map (rowAddr base stride), a.toNat % 4 = 0 := by
    rw [List.forall_mem_map]
    exact fun r hr => (h r (by have := (mem_rangeFrom _ _ _).1 hr; omega)).2
  have hreqs : ∀ q ∈ ((rangeFrom 0 256).map (rowAddr base stride)).zipIdx.flatMap fun p => cutRun p.2 (p.2 / 64) p.1 1024 2,
      Bare s q.va ∧ q.va.toNat < localTop := by
    rw [rangeFrom_eq_range', ← List.range_eq_range', zipIdx_map_range]
    intro q hq
    simp only [List.mem_flatMap, List.mem_map, List.mem_range] at hq
    obtain ⟨_, ⟨r, hr, rfl⟩, hq⟩ := hq
    obtain ⟨-, j, hj, hva⟩ := mem_cutRun hq
    obtain ⟨-, hbare, htop, -⟩ := (h r hr).1.2 j hj
    have hva : q.va = rowAddr base stride r + BitVec.ofNat 64 j := hva
    rw [hva]
    exact ⟨hbare, by omega⟩
  obtain ⟨held, hprobe⟩ := run_mapM_probe acc 32 hu hb hreqs
  refine ⟨held, ?_⟩
  rw [tileReqs_map] at hprobe
  exact (run_bind_ok (run_alignRows acc.kind hrows)).trans
    ((run_bind_ok (run_refuseShelf acc.kind fun q hq => (hreqs q hq).1)).trans hprobe)

/-- A state whose instruction under way holds translations, and has counted requests to its core. -/
def State.issued (s : State) (held : List HeldPage) (counted : List (Nat × Nat)) (near far : BitVec 64) : State :=
  { s.setCore { s.core with ctrloc := near, ctrrem := far } with hart := { s.hart with held := held, counted := counted } }

theorem run_countRequests (w : Bool) (accs : List VAcc) (held : List HeldPage) : ∃ counted near far,
    countRequests w accs { s with hart := { s.hart with held := held } } = .ok () (s.issued held counted near far) :=
  ⟨_, _, _, rfl⟩

end

/-! ### Reading runs -/

theorem readKey_of_isRun {a : VAcc} (h : IsRun a) : a.readKey = some (localKey a.va.toNat) := by
  obtain ⟨-, -, hloc⟩ := h
  rw [VAcc.readKey, hloc]; rfl

theorem writeKeys_of_isRun {a : VAcc} (h : IsRun a) : a.writeKeys = [localKey a.va.toNat] := by
  obtain ⟨-, -, hloc⟩ := h
  rw [VAcc.writeKeys, hloc]; rfl

/-- A sector that bytes touch is the sector of one of them. -/
theorem exists_of_mem_sectorsOf {k n q : Nat} (h : q ∈ sectorsOf k n) : ∃ i < n, (k + i) / 32 = q := by
  rw [sectorsOf] at h
  split at h
  case isTrue => cases h
  case isFalse hn =>
    have hq := (mem_rangeFrom _ _ _).1 h
    by_cases hk : q ≤ k / 32
    · exact ⟨0, Nat.pos_of_ne_zero hn, by omega⟩
    · exact ⟨q * 32 - k, by omega, by omega⟩

theorem run_waitIf_of_eq_false {b : Bool} (h : b = false) (s : State) : waitIf b s = .ok () s := by rw [h]; rfl

/-- A state whose L2 copy is the one given. -/
def State.recalled (s : State) (l2 : Memory) : State := { s with l2 := l2 }

/-- Recalling lines changes the L2 alone. -/
theorem foldl_drawBack (l : List Nat) (s : State) : ∃ l2, l.foldl (fun s q => s.drawBack (q * 128)) s = s.recalled l2 := by
  induction l generalizing s with
  | nil => exact ⟨s.l2, rfl⟩
  | cons q l ih =>
    obtain ⟨l2, hq⟩ : ∃ l2, s.drawBack (q * 128) = s.recalled l2 := by
      rw [State.drawBack]; split <;> exact ⟨_, rfl⟩
    obtain ⟨l2', hl⟩ := ih (s.recalled l2)
    exact ⟨l2', by rw [List.foldl_cons, hq, hl]; rfl⟩

theorem run_forM_modify {α : Type} (l : List α) (f : State → α → State) (s : State) :
    l.forM (fun q => (modify fun s => f s q : M PUnit)) s = .ok () (l.foldl f s) := by
  induction l generalizing s with
  | nil => rfl
  | cons q l ih => exact ih (f s q)

/-- No packets are read where nothing lies on another device. -/
theorem remoteRuns_of_isRun {l : List VAcc} (h : ∀ a ∈ l, IsRun a) : remoteRuns l = [] := by
  unfold remoteRuns
  extract_lets codes
  have hcodes : codes = [] := by
    refine List.flatMap_eq_nil_iff.2 fun a ha => ?_
    obtain ⟨-, -, hloc⟩ := h a ha
    rw [hloc]; rfl
  rw [hcodes]; rfl

theorem readRange_lt {m : Memory} (hm : m.wf = true) (k n : Nat) : m.readRange k n < 256 ^ n := by
  rw [Memory.readRange_eq _ _ hm, Memory.read_eq_ofBytes]
  exact (ofBytes_lt _).trans_eq (by rw [List.length_map, List.length_range])

section
variable {s : State} {l : List VAcc}

/-- A run none of whose bytes is poisoned reads its bytes. -/
theorem run_readAcc_of_isRun {a : VAcc} (ans : List RemoteAnswer) (hm : s.mem.wf = true) (ha : IsRun a)
    (hp : ∀ k ∈ runKeys a, s.poisoned k = false) :
    readAcc ans a s = .ok (some (s.mem.readRange (localKey a.va.toNat) a.bytes)) s := by
  have hkey := readKey_of_isRun ha
  obtain ⟨hb, hw, hloc⟩ := ha
  have hclean : (sectorsOf (localKey a.va.toNat) a.bytes).any s.poison.contains = false := by
    rw [List.any_eq_false]
    intro q hq
    obtain ⟨i, hi, rfl⟩ := exists_of_mem_sectorsOf hq
    have := hp _ (List.mem_map.2 ⟨i, List.mem_range.2 hi, rfl⟩)
    rw [State.poisoned] at this
    rw [this]; exact Bool.false_ne_true
  have hv : s.mem.readRange (localKey a.va.toNat) a.bytes / 2 ^ a.b % 2 ^ a.w = s.mem.readRange (localKey a.va.toNat) a.bytes := by
    rw [hb, pow_zero, Nat.div_one, hw, pow_mul]
    exact Nat.mod_eq_of_lt (readRange_lt hm _ _)
  unfold readAcc
  rw [run_bind_ok (run_get s)]
  dsimp only
  rw [hloc]
  simp only [packageHome, hkey, hclean, hv, Bool.false_eq_true, if_false]
  rfl

/-- Runs that nothing keeps from being read, none of whose bytes is poisoned, read their bytes; only the L2 changes. -/
theorem run_readPieces_of_isRun (hm : s.mem.wf = true) (hl : ∀ a ∈ l, IsRun a) (hst : ∀ k n, s.readStalls k n = false)
    (hp : ∀ k ∈ l.flatMap runKeys, s.poisoned k = false) :
    ∃ l2, readPieces l s = .ok (l.map fun a => (a, s.mem.readRange (localKey a.va.toNat) a.bytes)) (s.recalled l2) := by
  obtain ⟨l2, hdraw⟩ := foldl_drawBack ((l.filterMap fun a => a.readKey.map (· / 128)).eraseDups) s
  have hread : ∀ a ∈ l, (do return (a, ← readAcc [] a) : M (VAcc × Option Nat)) (s.recalled l2)
      = .ok (a, some (s.mem.readRange (localKey a.va.toNat) a.bytes)) (s.recalled l2) := fun a ha =>
    run_bind_ok (run_readAcc_of_isRun (s := (s.recalled l2)) [] hm (hl a ha) fun k hk => hp k (List.mem_flatMap.2 ⟨a, ha, hk⟩))
  have haccs : readAccs 1 l s = .ok (l.map fun a => (a, some (s.mem.readRange (localKey a.va.toNat) a.bytes))) (s.recalled l2) := by
    unfold readAccs
    rw [run_bind_ok (run_get s)]
    refine (run_bind_ok (run_waitIf_of_eq_false ?wait s)).trans ?_
    case wait =>
      rw [List.any_eq_false]
      intro a ha
      simp [readKey_of_isRun (hl a ha), hst]
    rw [remoteRuns_of_isRun hl]
    exact (run_bind_ok (s' := s) rfl).trans ((run_bind_ok ((run_forM_modify _ _ s).trans (congrArg _ hdraw))).trans (run_mapM_of_forall hread))
  have hfind : (l.map fun a => (a, some (s.mem.readRange (localKey a.va.toNat) a.bytes))).find? (fun p => p.2.isNone) = none := by
    rw [List.find?_eq_none, List.forall_mem_map]
    exact fun _ _ => Bool.false_ne_true
  refine ⟨l2, ?_⟩
  unfold readPieces
  rw [run_bind_ok (run_get s), run_bind_ok haccs, hfind]
  simp only [List.map_map, Function.comp_def, Option.getD_some, run_pure]

end

/-- The bytes of runs joined. -/
theorem joinPieces_eq_ofBytes {m : Memory} (hm : m.wf = true) (l : List VAcc) :
    joinPieces (l.map fun a => (a, m.readRange (localKey a.va.toNat) a.bytes)) = ofBytes ((l.flatMap runKeys).map m.get) := by
  induction l with
  | nil => rfl
  | cons a l ih =>
    rw [List.map_cons, joinPieces, ih, List.flatMap_cons, List.map_append, ofBytes_append, Memory.readRange_eq _ _ hm,
      Memory.read_eq_ofBytes, runKeys, List.map_map, List.length_map, List.length_range, Nat.mul_comm]
    rfl

/-! ### Writing runs -/

/-- The field of storage that a piece writes: storage number, bit, width and value. -/
def runCell (p : VAcc × Nat) : Nat × Nat × Nat × Nat := (localKey p.1.va.toNat, p.1.b, p.1.w, p.2)

/-- The bytes that a piece writes, each with its place. -/
def runBytes (p : VAcc × Nat) : List (Nat × Nat) :=
  (List.range p.1.bytes).map fun i => (localKey p.1.va.toNat + i, p.2 / 256 ^ i % 256)

/-- A list of whole bytes written: each byte takes the last value written to it, the others are kept. -/
theorem get_foldl_writeBits {l : List (VAcc × Nat)} {m : Memory} (hm : m.wf = true) (hl : ∀ p ∈ l, IsRun p.1) (a : Nat) :
    (((l.map runCell).foldl (fun m x => m.writeBits x.1 x.2.1 x.2.2.1 x.2.2.2) m).get a).toNat
      = lastWrite (m.get a).toNat a (l.flatMap runBytes) := by
  induction l generalizing m with
  | nil => rfl
  | cons p l ih =>
    obtain ⟨⟨hb, hw, -⟩, hl⟩ := List.forall_mem_cons.1 hl
    rw [List.map_cons, List.foldl_cons, ih (Memory.wf_writeBits _ _ _ _ hm) hl, List.flatMap_cons, lastWrite_append, runBytes,
      lastWrite_run _ _ fun i => p.2 / 256 ^ i % 256]
    congr 1
    have hbytes : (0 + 8 * p.1.bytes + 7) / 8 = p.1.bytes := by omega
    simp only [runCell, hb, hw, Memory.writeBits, hbytes, Memory.get_writeRange _ _ _ _ hm]
    split
    case isTrue h =>
      rw [BitVec.toNat_ofNat, ← getBits_byte, ← getBits_byte]
      have hin := getBits_getBits (w := 8 * p.1.bytes) (q := 8 * (a - localKey p.1.va.toNat)) (v := 8)
        (setBits (m.readRange (localKey p.1.va.toNat) p.1.bytes) 0 (8 * p.1.bytes) p.2) (p := 0) (by omega)
      rw [Nat.zero_add] at hin
      rw [← hin, getBits_setBits_same, getBits_mod _ _ _ _ (by omega)]
    case isFalse => rfl

/-- The bytes of a number written to runs, from byte `pos` on. -/
theorem runBytes_tilePieces (t : Nat) {l : List VAcc} (hl : ∀ a ∈ l, IsRun a) (pos : Nat) :
    (tilePieces t l pos).flatMap runBytes = ((l.flatMap runKeys).zipIdx pos).map fun x => (x.1, t / 256 ^ x.2 % 256) := by
  induction l generalizing pos with
  | nil => rfl
  | cons a l ih =>
    obtain ⟨⟨-, hw, -⟩, hl⟩ := List.forall_mem_cons.1 hl
    rw [tilePieces, List.flatMap_cons, ih hl, List.flatMap_cons, List.zipIdx_append, List.map_append]
    congr 1
    · rw [runKeys, zipIdx_map_range, List.map_map, runBytes]
      refine List.map_congr_left fun i hi => Prod.ext rfl ?_
      have hi : i < a.bytes := List.mem_range.1 hi
      show getBits t (8 * pos) a.w / 256 ^ i % 256 = t / 256 ^ (pos + i) % 256
      rw [← getBits_byte, hw, getBits_getBits t (by omega), ← Nat.mul_add, getBits_byte]
    · rw [runKeys, List.length_map, List.length_range]

theorem isRun_of_mem_tilePieces {t : Nat} {l : List VAcc} (hl : ∀ a ∈ l, IsRun a) (pos : Nat) :
    ∀ p ∈ tilePieces t l pos, IsRun p.1 := by
  induction l generalizing pos with
  | nil => exact List.forall_mem_nil _
  | cons a l ih =>
    obtain ⟨ha, hl⟩ := List.forall_mem_cons.1 hl
    exact List.forall_mem_cons.2 ⟨ha, ih hl _⟩

/-- A state whose memory, its L2 copy, the record of what walks may still read, and the poison are those given. -/
def State.stored (s : State) (mem l2 : Memory) (old : List OldEntry) (poison : List Nat) : State :=
  { s with mem := mem, l2 := l2, oldEntries := old, poison := poison }

/-- Writes of storage change memory, its L2 copy, the poison they lift, the record of what walks may still read, and the watches that
see them. -/
theorem putCells_eq (s : State) (cells : List (Nat × Nat × Nat × Nat)) (earlier : List (Nat × Nat × Nat)) : ∃ qs l2 old poison,
    s.putCells cells earlier
      = (s.stored (cells.foldl (fun m x => m.writeBits x.1 x.2.1 x.2.2.1 x.2.2.2) s.mem) l2 old poison).noteWrites qs
    ∧ ∀ q ∈ poison, q ∈ s.poison := by
  unfold State.putCells
  extract_lets spans m lines u v hit
  obtain ⟨l2, old, hu⟩ : ∃ l2 old, u = s.stored m l2 old s.poison := by
    obtain ⟨l2, h⟩ := foldl_drawBack lines (s.setMem (spans.map fun x => (x.1, (x.2.1 + x.2.2 + 7) / 8)) m)
    exact ⟨l2, _, h⟩
  refine ⟨hit, l2, old, v.poison, ?_, fun q hq => ?_⟩
  · show (u.clearPoison (u.poison.filter (covers (earlier ++ spans)))).noteWrites hit = _
    simp only [v]
    rw [hu]; rfl
  · have hq : q ∈ u.poison := (List.mem_filter.1 hq).1
    rw [hu] at hq
    exact hq

/-- Pieces of local memory that nothing keeps from being written are written, by an instruction that keeps no account of its writes. -/
theorem run_writeAccs_of_isRun {s : State} {l : List (VAcc × Nat)} (hl : ∀ p ∈ l, IsRun p.1) (hst : ∀ k n, s.writeStalls k n = false)
    (hb : s.hart.begun = none) : writeAccs 1 l s = .ok () (s.putCells (l.map runCell) []) := by
  have hremote : remotePieces l = [] := by
    rw [remotePieces, List.flatMap_eq_nil_iff]
    intro p hp
    obtain ⟨-, -, hloc⟩ := hl p hp
    rw [hloc]; rfl
  have hcells : (l.flatMap fun p => p.1.writeKeys.map fun k => (k, p.1.b, p.1.w, p.2)) = l.map runCell := by
    rw [List.map_eq_flatMap]
    refine List.flatMap_congr fun p hp => ?_
    rw [writeKeys_of_isRun (hl p hp)]; rfl
  have hkeep : ∀ t : State, t.hart.begun = none → ∀ f, { t with hart := { t.hart with begun := t.hart.begun.map f } } = t := by
    intro t ht f
    rw [ht, Option.map_none, ← ht]
  unfold writeAccs
  rw [run_bind_ok (run_get s)]
  refine (run_bind_ok (run_waitIf_of_eq_false (by simp [hst]) s)).trans ?_
  rw [hremote]
  refine (run_bind_ok (s' := s) (a := ()) rfl).trans ?_
  rw [hcells, run_bind_ok (run_modify _ _), run_onHart, hb]
  obtain ⟨qs, l2, old, poison, hput, -⟩ := putCells_eq s (l.map runCell) []
  refine congrArg (EStateM.Result.ok ()) (hkeep (s.putCells (l.map runCell) []) ?_ _)
  rw [hput]
  exact hb

end Sys2Proof.Machine
end

section
/-! Tile loads and stores of spec/09_matrix_scout.md in plain memory (R186), and the statement of the tile moves. -/
namespace Sys2Proof.Machine
open Sys2Proof Sys2Proof.Safety

/-! ### TLD and TST in plain memory (R186) -/

theorem noteWrite_nil (h : Hart) : h.noteWrite [] = h := by simp [Hart.noteWrite]

section
variable {s : State} {t : TIdx} {base stride : SReg}

/-- The bytes of memory that the rows of a tile access name, as one number. -/
def tileBytes (s : State) (base stride : Word) : Nat :=
  ofBytes ((List.range (256 * 1024)).map fun n => s.mem.get (tileKey base stride n))

theorem exec_tld (ht : TileReady s.hart t []) (hv : s.hart.vstart = 0) (hu : s.hart.underway = false) (hb : s.hart.begun = none)
    (h : RowsPlain s (s.getS base) (s.getS stride)) : ∃ held counted near far l2,
    exec (.tld t base stride) s = .next (retire 8 { (s.issued held counted near far).recalled l2 with
      hart := (({ s.hart with held := held, counted := counted } : Hart).setTile t
        (BitVec.ofNat _ (tileBytes s (s.getS base) (s.getS stride)))).vdone }) := by
  obtain ⟨held, haccs⟩ := run_tileAccs .load h hu hb
  obtain ⟨counted, near, far, hcount⟩ := run_countRequests (s := s) false (tileRuns (s.getS base) (s.getS stride)) held
  have hm : s.mem.wf = true := ((h 0 (by decide)).1.2 0 (by decide)).1
  obtain ⟨l2, hread⟩ := run_readPieces_of_isRun (s := s.issued held counted near far) hm (fun a => isRun_of_mem_tileRuns)
    (fun k n => ((h 0 (by decide)).1.1 k n).2) (fun k => not_poisoned_of_mem_runKeys h)
  refine ⟨held, counted, near, far, l2, finish_ok ((run_bind_ok (run_mtxStart_of_tileReady ht hv)).trans ((run_bind_ok haccs).trans
    ((run_bind_ok hcount).trans ((run_bind_ok hread).trans ?_))))⟩
  have hjoin : (s.issued held counted near far).mem = s.mem := rfl
  rw [hjoin, joinPieces_eq_ofBytes hm, runKeys_tileRuns h, List.map_map]
  rfl

/-- Each word of a tile loaded is the one that its row of memory holds. -/
theorem holdsRow_tileBytes (h : Hart) (base stride : Word) {r : Nat} (hr : r < 256) : HoldsRow s (rowAddr base stride r) 32 256
    (word (h.setTile t (BitVec.ofNat _ (tileBytes s base stride))).vdone t r) := by
  intro j hj
  refine ⟨Nat.mod_lt _ (Nat.two_pow_pos 32), fun q hq => ?_⟩
  have htile : (h.setTile t (BitVec.ofNat _ (tileBytes s base stride))).vdone.tile t
      = (BitVec.ofNat Config.tileBits (tileBytes s base stride)).toNat := congrArg BitVec.toNat ((vget_set _ _ _ _).trans (if_pos rfl))
  have hbyte : ((r * 256 + j) * 32 + q) / 8 = r * 1024 + (j * 32 + q) / 8 := by omega
  have hbit : ((r * 256 + j) * 32 + q) % 8 = (j * 32 + q) % 8 := by omega
  have hkey : tileKey base stride (r * 1024 + (j * 32 + q) / 8)
      = localKey (rowAddr base stride r + BitVec.ofNat 64 ((j * 32 + q) / 8)).toNat := by
    rw [tileKey, show (r * 1024 + (j * 32 + q) / 8) / 1024 = r by omega,
      show (r * 1024 + (j * 32 + q) / 8) % 1024 = (j * 32 + q) / 8 by omega]
  rw [word_eq_tileWord, htile, tileWord_ofNat _ hr hj, tileWord, testBit_getBits, decide_eq_true hq, Bool.true_and, tileBytes,
    testBit_ofBytes, hbyte, hbit, List.getElem?_map, List.getElem?_range (by omega), Option.map_some, Option.getD_some, hkey, bitAt,
    Nat.mul_add_div (by decide), Nat.mul_add_mod, Nat.div_eq_of_lt (Nat.mod_lt _ (by decide)), Nat.mod_mod, Nat.add_zero]

/-- What reads of an instruction that holds translations and has counted its requests change. -/
theorem memoryEffects_recalled (s : State) (held : List HeldPage) (counted : List (Nat × Nat)) (near far : BitVec 64) (l2 : Memory)
    {k : Hart} (hw : k.watch = s.hart.watch) (he : k.early = s.hart.early) :
    MemoryEffects s { (s.issued held counted near far).recalled l2 with hart := k } := by
  unfold State.recalled State.issued State.setCore
  refine ⟨rfl, ⟨[], ?_, ?_⟩, rfl, ⟨near, far, rfl⟩, fun _ hq => hq⟩
  · rw [funext noteWrite_nil, List.map_id']
  · rw [noteWrite_nil]; exact ⟨hw, he⟩

theorem exec_tld_effects (ht : TileReady s.hart t []) (hv : s.hart.vstart = 0) (hu : s.hart.underway = false) (hb : s.hart.begun = none)
    (h : RowsPlain s (s.getS base) (s.getS stride)) :
    ∃ u, exec (.tld t base stride) s = .next (retire 8 u) ∧ MemoryEffects s u ∧ BytesKept s u ∧ u.poison = s.poison
      ∧ u.hart.fflags = s.hart.fflags ∧ (∀ x : TIdx, x ≠ t → u.hart.tiles.get x = s.hart.tiles.get x)
      ∧ u.hart = keeping { s.hart with tiles := u.hart.tiles, vstart := 0 } u.hart
      ∧ ∀ r < 256, HoldsRow s (rowAddr (s.getS base) (s.getS stride) r) 32 256 (word u.hart t r) := by
  obtain ⟨held, counted, near, far, l2, hexec⟩ := exec_tld ht hv hu hb h
  exact ⟨_, hexec, memoryEffects_recalled s held counted near far l2 rfl rfl, fun _ => rfl, rfl, rfl,
    fun x hx => (vget_set _ _ _ _).trans (if_neg hx), rfl, fun r hr => holdsRow_tileBytes _ _ _ hr⟩

/-- Memory after a tile store: each byte that a row names has the value of the last byte of the tile written to it, and every other byte
is kept. -/
theorem get_foldl_tilePieces (v : Nat) {base stride : Word} (h : RowsPlain s base stride) (a : Nat) :
    ((((tilePieces v (tileRuns base stride) 0).map runCell).foldl (fun m x => m.writeBits x.1 x.2.1 x.2.2.1 x.2.2.2) s.mem).get a).toNat
      = lastWrite (s.mem.get a).toNat a ((List.range (256 * 1024)).map fun n => (tileKey base stride n, v / 256 ^ n % 256)) := by
  have hm : s.mem.wf = true := ((h 0 (by decide)).1.2 0 (by decide)).1
  rw [get_foldl_writeBits hm (isRun_of_mem_tilePieces (fun a => isRun_of_mem_tileRuns) 0),
    runBytes_tilePieces _ (fun a => isRun_of_mem_tileRuns), runKeys_tileRuns h, zipIdx_map_range, List.map_map]
  simp only [Function.comp_def, Nat.zero_add]

/-- TST writes the rows to memory, and nothing else of the state but what every write to memory may change. -/
theorem exec_tst (ht : TileReady s.hart t []) (hv : s.hart.vstart = 0) (hu : s.hart.underway = false) (hb : s.hart.begun = none)
    (h : RowsPlain s (s.getS base) (s.getS stride)) : ∃ held counted near far mem l2 old poison qs,
    (let u := ((s.issued held counted near far).stored mem l2 old poison).noteWrites qs
     exec (.tst t base stride) s = .next (retire 8 { u with hart := u.hart.vdone }))
    ∧ (∀ q ∈ poison, q ∈ s.poison)
    ∧ ∀ a, (mem.get a).toNat = lastWrite (s.mem.get a).toNat a
        ((List.range (256 * 1024)).map fun n => (tileKey (s.getS base) (s.getS stride) n, s.hart.tile t / 256 ^ n % 256)) := by
  obtain ⟨held, haccs⟩ := run_tileAccs .store h hu hb
  obtain ⟨counted, near, far, hcount⟩ := run_countRequests (s := s) true (tileRuns (s.getS base) (s.getS stride)) held
  have hwrite := run_writeAccs_of_isRun (s := s.issued held counted near far)
    (isRun_of_mem_tilePieces (t := s.hart.tile t) (l := tileRuns (s.getS base) (s.getS stride)) (fun a => isRun_of_mem_tileRuns) 0)
    (fun k n => ((h 0 (by decide)).1.1 k n).1) hb
  obtain ⟨qs, l2, old, poison, hput, hpoison⟩ := putCells_eq (s.issued held counted near far)
    ((tilePieces (s.hart.tile t) (tileRuns (s.getS base) (s.getS stride)) 0).map runCell) []
  rw [hput] at hwrite
  exact ⟨held, counted, near, far, _, l2, old, poison, qs,
    finish_ok ((run_bind_ok (run_mtxStart_of_tileReady ht hv)).trans ((run_bind_ok haccs).trans ((run_bind_ok hcount).trans
      (run_bind_ok hwrite)))), hpoison, get_foldl_tilePieces (s := s) (s.hart.tile t) h⟩

/-- What writes of an instruction that holds translations and has counted its requests change. -/
theorem memoryEffects_stored (s : State) (held : List HeldPage) (counted : List (Nat × Nat)) (near far : BitVec 64) (mem l2 : Memory)
    (old : List OldEntry) {poison : List Nat} (qs : List Nat) (hp : ∀ q ∈ poison, q ∈ s.poison) :
    let u := ((s.issued held counted near far).stored mem l2 old poison).noteWrites qs
    MemoryEffects s { u with hart := u.hart.vdone } := by
  unfold State.noteWrites State.stored State.issued State.setCore Hart.vdone Hart.noteWrite
  exact ⟨rfl, ⟨qs, rfl, rfl, rfl⟩, rfl, ⟨near, far, rfl⟩, hp⟩

/-- A byte of a word of a tile. -/
theorem word_byte (h : Hart) (t : TIdx) (r j : Nat) :
    h.tile t / 256 ^ (r * 1024 + j) % 256 = word h t r (j / 4) / 256 ^ (j % 4) % 256 := by
  rw [word_eq_tileWord, tileWord, ← getBits_byte, ← getBits_byte, getBits_getBits _ (by omega)]
  congr 1; omega

/-- Two bytes of one row are stored apart. -/
theorem tileKey_ne_of_row {base stride : Word} (h : RowsPlain s base stride) {r j j' : Nat} (hr : r < 256) (hj : j < 1024)
    (hj' : j' < 1024) (hne : j ≠ j') : tileKey base stride (r * 1024 + j') ≠ tileKey base stride (r * 1024 + j) := by
  obtain ⟨hplain, -⟩ := h r hr
  have htop := toNat_add_le_of_plainRun hplain (by decide) (by decide)
  have hkey (i : Nat) (hi : i < 1024) : tileKey base stride (r * 1024 + i) = localKey ((rowAddr base stride r).toNat + i) := by
    rw [tileKey, show (r * 1024 + i) / 1024 = r by omega, show (r * 1024 + i) % 1024 = i by omega,
      toNat_add_of_plainRun hplain (by decide) hi]
  rw [hkey j hj, hkey j' hj']
  intro heq
  have := localKey_inj (by omega) (by omega) heq
  omega

theorem exec_tst_effects (ht : TileReady s.hart t []) (hv : s.hart.vstart = 0) (hu : s.hart.underway = false) (hb : s.hart.begun = none)
    (h : RowsPlain s (s.getS base) (s.getS stride)) : let rowAt := rowAddr (s.getS base) (s.getS stride)
    ∃ u, exec (.tst t base stride) s = .next (retire 8 u) ∧ MemoryEffects s u
      ∧ u.hart = keeping { s.hart with vstart := 0, watch := u.hart.watch, early := u.hart.early } u.hart
      ∧ (∀ r < 256, ∀ j < 1024, (∀ r' j', r < r' → r' < 256 → j' < 1024 → localKey (rowAt r' + BitVec.ofNat 64 j').toNat
            ≠ localKey (rowAt r + BitVec.ofNat 64 j).toNat) →
          (u.mem.get (localKey (rowAt r + BitVec.ofNat 64 j).toNat)).toNat = word s.hart t r (j / 4) / 256 ^ (j % 4) % 256)
      ∧ ∀ a, (∀ r < 256, ∀ j < 1024, localKey (rowAt r + BitVec.ofNat 64 j).toNat ≠ a) → u.mem.get a = s.mem.get a := by
  intro rowAt
  obtain ⟨held, counted, near, far, mem, l2, old, poison, qs, hexec, hpoison, hget⟩ := exec_tst ht hv hu hb h
  have hkey (r : Nat) {j : Nat} (hj : j < 1024) :
      tileKey (s.getS base) (s.getS stride) (r * 1024 + j) = localKey (rowAt r + BitVec.ofNat 64 j).toNat := by
    rw [tileKey, show (r * 1024 + j) / 1024 = r by omega, show (r * 1024 + j) % 1024 = j by omega]
  refine ⟨_, hexec, memoryEffects_stored s held counted near far mem l2 old qs hpoison, rfl, fun r hr j hj hlast => ?_, fun a ha => ?_⟩
  · rw [← hkey r hj, ← word_byte s.hart t r j]
    refine (hget _).trans (lastWrite_map_range (fun n => s.hart.tile t / 256 ^ n % 256) (by omega) (fun i hi hi' => ?_) _)
    obtain ⟨r', j', hj', rfl⟩ : ∃ r' j', j' < 1024 ∧ i = r' * 1024 + j' := ⟨i / 1024, i % 1024, by omega, by omega⟩
    by_cases hrow : r' = r
    · subst hrow
      exact tileKey_ne_of_row h hr hj hj' (by omega)
    · rw [hkey r' hj', hkey r hj]
      exact hlast r' j' (by omega) (by omega) hj'
  · refine BitVec.eq_of_toNat_eq ((hget a).trans (lastWrite_of_forall_ne ?_ _))
    simp only [List.forall_mem_map, List.mem_range]
    exact fun n hn => ha (n / 1024) (by omega) (n % 1024) (by omega)

end

theorem elem_vdone (h : Hart) (r : VIdx) (t : Tag) (e : Nat) : h.vdone.elem r t e = h.elem r t e := rfl
theorem elem_setTag (h : Hart) (q : VIdx) (u : Tag) (r : VIdx) (t : Tag) (e : Nat) : (h.setTag q u).elem r t e = h.elem r t e := rfl

/-! ### The statement of the tile moves -/

/-- Settles O39: the register moves by their `exec_` lemmas and what a tile or a vector register written reads; TLD and TST by
`exec_tld_effects` and `exec_tst_effects`. -/
theorem tileMoves : Obligations.TileMoves := by
  unfold Obligations.TileMoves
  intro s t vd base stride row m h rowAt R hv ht hunbegun
  refine ⟨?tzero, ?tfill, fun htag hvl hR => ⟨?toVector, ?toTile⟩, fun hvl => ?tredmax, fun hrows => ?memory⟩
  case tzero => exact ⟨_, exec_tzero ht hv, rfl, tileWritten_tzero h t⟩
  case tfill => exact ⟨_, exec_tfill m ht hv, rfl, tileWritten_tfill h t m⟩
  case toVector =>
    obtain ⟨-, -, hmax, -⟩ := elem_of_rowTag h vd 0 htag
    refine ⟨_, exec_tmvTileToVector (tileReady_singleton ht (hmax ▸ hvl)) hv htag hR, rfl, vectorsKept_setElems h vd .f32 _, fun e he => ?_⟩
    rw [elem_vdone, elem_setElems_map h vd .f32 256 _ he, word_eq_tileWord, show valBits Tag.f32 = 32 from rfl, tileWord_mod]
  case toTile =>
    obtain ⟨-, -, hmax, -⟩ := elem_of_rowTag h vd 0 htag
    exact ⟨_, exec_tmvVectorToTile (tileReady_singleton ht (hmax ▸ hvl)) hv htag hR, rfl, tileWritten_setRow h t vd R⟩
  case tredmax =>
    refine ⟨_, exec_tredmax (tileReady_singleton ht hvl) hv, rfl, vectorsKept_setElems_setTag h vd .f32 _,
      (tag_setTag _ _ _ _).trans (if_pos rfl), fun e he => ?_⟩
    rw [elem_vdone, elem_setTag, elem_setElems_map h vd .f32 256 _ he, show valBits Tag.f32 = 32 from rfl, maxBits_mod]; rfl
  case memory =>
    obtain ⟨-, hbegun, hunder, -⟩ := hunbegun
    have hrow : rowAt = rowAddr (s.getS base) (s.getS stride) := funext fun r => (rowAddr_eq _ _ r).symm
    rw [hrow] at hrows ⊢
    exact ⟨exec_tld_effects ht hv hunder hbegun hrows, exec_tst_effects ht hv hunder hbegun hrows⟩

end Sys2Proof.Machine
end

section
/-! The scout pass of spec/09_matrix_scout.md: block exponents and quantised values (R200), SCOUT.A and SCOUT.T (R201, R202), and the
operations on keep masks (R203). -/
namespace Sys2Proof.Machine
open Sys2Proof Sys2Proof.Safety

/-! ### Powers of two and their logarithm -/

theorem pow2_eq_zpow (k : Int) : pow2 k = (2 : Rat) ^ k := by
  rw [pow2]
  split
  case isTrue h =>
    obtain ⟨n, rfl⟩ := Int.eq_ofNat_of_zero_le h
    rw [Int.toNat_natCast, zpow_natCast, Rat.mkRat_eq_div]; push_cast; rw [div_one]
  case isFalse h =>
    obtain ⟨n, hn⟩ := Int.eq_ofNat_of_zero_le (show 0 ≤ -k by omega)
    obtain rfl : k = -n := by omega
    rw [neg_neg, Int.toNat_natCast, zpow_neg, zpow_natCast, Rat.mkRat_eq_div]; push_cast; rw [one_div]

theorem pow2_pos (k : Int) : 0 < pow2 k := by rw [pow2_eq_zpow]; positivity

theorem pow2_succ (k : Int) : pow2 (k + 1) = pow2 k * 2 := by rw [pow2_eq_zpow, pow2_eq_zpow, zpow_add_one₀ (by decide)]

theorem pow2_natCast (n : Nat) : pow2 n = ((2 ^ n : Nat) : Rat) := by rw [pow2_eq_zpow, zpow_natCast]; push_cast; rfl

theorem pow2_sub (a b : Int) : pow2 (a - b) = pow2 a / pow2 b := by simp only [pow2_eq_zpow, zpow_sub₀ (show (2 : Rat) ≠ 0 by decide)]

/-- A number lies between the power of two of its logarithm and the next. -/
theorem pow2_log2_le {n : Nat} (hn : n ≠ 0) : pow2 (Nat.log2 n) ≤ n ∧ (n : Rat) < pow2 (Nat.log2 n) * 2 := by
  rw [← pow2_succ, ← Nat.cast_succ, pow2_natCast, pow2_natCast, Nat.cast_le, Nat.cast_lt]
  exact ⟨Nat.log2_self_le hn, Nat.lt_log2_self⟩

/-- The comparison that `ratLog2` makes is that of the quotient with the power of two. -/
theorem le_mul_pow2_iff (n d : Nat) (hd : 0 < d) (l : Int) :
    (if 0 ≤ l then d * 2 ^ l.toNat ≤ n else d ≤ n * 2 ^ (-l).toNat) ↔ pow2 l ≤ (n : Rat) / d := by
  have hd : (0 : Rat) < d := Nat.cast_pos.2 hd
  rw [le_div_iff₀ hd]
  split
  case isTrue h =>
    obtain ⟨k, rfl⟩ := Int.eq_ofNat_of_zero_le h
    rw [Int.toNat_natCast, pow2_natCast, mul_comm, ← Nat.cast_mul, Nat.cast_le]
  case isFalse h =>
    obtain ⟨k, hk⟩ := Int.eq_ofNat_of_zero_le (show 0 ≤ -l by omega)
    have hpow := pow2_pos k
    obtain rfl : l = 0 - k := by omega
    rw [show -(0 - (k : Int)) = k by omega, Int.toNat_natCast, pow2_sub, show pow2 0 = 1 from rfl, one_div_mul_eq_div,
      div_le_iff₀ hpow, pow2_natCast, ← Nat.cast_mul, Nat.cast_le]

/-- `ratLog2` is the logarithm of a quotient, rounded down. -/
theorem ratLog2_spec {n d : Nat} (hn : n ≠ 0) (hd : d ≠ 0) :
    pow2 (ratLog2 n d) ≤ (n : Rat) / d ∧ (n : Rat) / d < pow2 (ratLog2 n d + 1) := by
  obtain ⟨hn1, hn2⟩ := pow2_log2_le hn
  obtain ⟨hd1, hd2⟩ := pow2_log2_le hd
  have hpos : (0 : Rat) < d := Nat.cast_pos.2 (Nat.pos_of_ne_zero hd)
  have hpa := pow2_pos (Nat.log2 n)
  have hpb := pow2_pos (Nat.log2 d)
  have hiff := le_mul_pow2_iff n d (Nat.pos_of_ne_zero hd) ((Nat.log2 n : Int) - Nat.log2 d)
  have hdiv := pow2_sub (Nat.log2 n) (Nat.log2 d)
  unfold ratLog2
  extract_lets l ge
  split
  case isTrue h =>
    refine ⟨hiff.1 h, ?_⟩
    rw [pow2_succ, hdiv, div_lt_iff₀ hpos, div_mul_eq_mul_div, div_mul_eq_mul_div, lt_div_iff₀ hpb]
    nlinarith
  case isFalse h =>
    have hlt := not_le.1 (mt hiff.2 h)
    rw [sub_add_cancel]
    refine ⟨?_, hlt⟩
    have hhalf : pow2 (l - 1) * 2 = pow2 l := by rw [← pow2_succ, sub_add_cancel]
    rw [le_div_iff₀ hpos]
    have hmul : pow2 l * pow2 (Nat.log2 d) = pow2 (Nat.log2 n) := by rw [hdiv, div_mul_cancel₀ _ hpb.ne']
    have hl := pow2_pos l
    nlinarith

/-! ### Block exponents (R200) -/

theorem mag_eq_abs (q : Rat) : mag q = |q| := by
  rw [mag]
  split
  case isTrue h => rw [abs_of_neg h]
  case isFalse h => rw [abs_of_nonneg (not_lt.1 h)]

/-- The larger of numbers met one after another: at least each, and the first or one of the others. -/
theorem foldl_larger_spec (l : List Rat) (a : Rat) : let m := l.foldl (fun (a b : Rat) => if a < b then b else a) a
    (a ≤ m ∧ ∀ x ∈ l, x ≤ m) ∧ (m = a ∨ m ∈ l) := by
  induction l generalizing a with
  | nil => exact ⟨⟨le_rfl, List.forall_mem_nil _⟩, .inl rfl⟩
  | cons x l ih =>
    obtain ⟨⟨hle, hall⟩, hmem⟩ := ih (if a < x then x else a)
    rw [List.foldl_cons]
    refine ⟨⟨le_trans ?_ hle, List.forall_mem_cons.2 ⟨le_trans ?_ hle, hall⟩⟩, ?_⟩
    · split
      · exact le_of_lt ‹_›
      · exact le_rfl
    · split
      · exact le_rfl
      · exact not_lt.1 ‹_›
    · rcases hmem with h | h
      · rw [h]; split <;> simp
      · exact .inr (List.mem_cons_of_mem _ h)

/-- The logarithm that the model takes of a positive rational. -/
theorem ratLog2_num_den {q : Rat} (hq : 0 < q) : pow2 (ratLog2 q.num.natAbs q.den) ≤ q ∧ q < pow2 (ratLog2 q.num.natAbs q.den + 1) := by
  have hnum : 0 < q.num := Rat.num_pos.2 hq
  have hval : (q.num.natAbs : Rat) / q.den = q := by
    rw [← Int.cast_natCast, Int.natAbs_of_nonneg hnum.le, Rat.num_div_den]
  have := ratLog2_spec (n := q.num.natAbs) (d := q.den) (by omega) q.den_nz
  rwa [hval] at this

/-- The block exponent of values of which no finite one is zero is the one that R200 states. -/
theorem blockExponent_spec {l : List FVal} (hl : ∀ q, .fin q ∈ l → q ≠ 0) : BlockExponent l (blockExponent l) := by
  unfold blockExponent
  extract_lets mags amax
  have hmem (x : Rat) : x ∈ mags ↔ ∃ q, .fin q ∈ l ∧ mag q = x := by
    refine List.mem_filterMap.trans ⟨?_, ?_⟩
    · rintro ⟨v, hv, hx⟩
      cases v with
      | fin q => exact ⟨q, hv, Option.some.inj hx⟩
      | _ => cases hx
    · rintro ⟨q, hq, rfl⟩
      exact ⟨.fin q, hq, rfl⟩
  obtain ⟨⟨hzero, hmax⟩, hfrom⟩ := foldl_larger_spec mags 0
  have hmax : ∀ x ∈ mags, x ≤ amax := hmax
  split
  case isTrue h0 =>
    refine .inl ⟨fun q hq => hl q hq ?_, rfl⟩
    have hle := hmax _ ((hmem _).2 ⟨q, hq, rfl⟩)
    rw [h0, mag_eq_abs] at hle
    exact abs_eq_zero.1 (le_antisymm hle (abs_nonneg q))
  case isFalse h0 =>
    obtain ⟨q, hq, hqa⟩ := (hmem _).1 (hfrom.resolve_left h0)
    have hqa : mag q = amax := hqa
    have hpos : 0 < amax := lt_of_le_of_ne hzero (Ne.symm h0)
    obtain ⟨hlo, hhi⟩ := ratLog2_num_den hpos
    refine .inr ⟨q, hq, fun p hp => hqa ▸ hmax _ ((hmem _).2 ⟨p, hp, rfl⟩), _, hqa ▸ hlo, hqa ▸ hhi, rfl⟩

/-- A finite value read from an element is not zero: zeros have a value of their own. -/
theorem ne_zero_of_readFloat {c : VCfg} {t : Tag} {b : Nat} {q : Rat} (h : readFloat c t b = .fin q) : q ≠ 0 := by
  have hvalue (f : Fmt) (h : f.value b = .fin q) : q ≠ 0 := by
    unfold Fmt.value at h
    extract_lets M E neg s at h
    have hs : s ≠ 0 := by simp only [s]; split <;> decide
    split at h
    · split at h <;> cases h
    · split at h
      · cases h
      · split at h
        · cases h
        · next hzero =>
          split at h
          · next hE =>
            obtain rfl := FVal.fin.inj h
            have hM : M ≠ 0 := fun hM => hzero ⟨hE, hM⟩
            exact mul_ne_zero (Int.cast_ne_zero.2 (mul_ne_zero hs (Int.natCast_ne_zero.2 hM))) (pow2_pos _).ne'
          · obtain rfl := FVal.fin.inj h
            have hpow := Nat.two_pow_pos f.m
            exact mul_ne_zero (Int.cast_ne_zero.2 (mul_ne_zero hs (Int.natCast_ne_zero.2 (by omega)))) (pow2_pos _).ne'
  rw [readFloat] at h
  split at h
  · rw [e8m0Value] at h
    split at h
    · cases h
    · exact FVal.fin.inj h ▸ (pow2_pos _).ne'
  · dsimp only at h
    split at h
    · cases h
    · exact hvalue _ h

/-! ### Quantised operands (R200) -/

theorem quantise_spec (e : Int) (v : FVal) : Quantised e v (quantise e v) := by
  cases v with
  | nan => rfl
  | inf s => cases s <;> rfl
  | zero s => rfl
  | fin q =>
    unfold Quantised quantise
    dsimp only
    generalize Fmt.value _ _ = z
    cases z <;> rfl

/-- Value `i` of a register under its own tag. -/
def Hart.floatAt (h : Hart) (r : VIdx) (i : Nat) : FVal := readFloat h.vcfg (h.tag r) (h.elem r (h.tag r) i)

/-- The 32 values of block `j` of a register. -/
def Hart.blockAt (h : Hart) (r : VIdx) (j : Nat) : List FVal := (List.range 32).map fun i => h.floatAt r (32 * j + i)

/-- Quantised value `i` of a register: by the exponent of its block. -/
def Hart.quantisedAt (h : Hart) (r : VIdx) (i : Nat) : FVal := quantise (blockExponent (h.blockAt r (i / 32))) (h.floatAt r i)

theorem quantised_eq_map (h : Hart) (r : VIdx) (n : Nat) : h.quantised r n = (List.range (n / 32 * 32)).map (h.quantisedAt r) := by
  rw [Hart.quantised, map_range_mul, rangeFrom_eq_range', ← List.range_eq_range']
  refine List.flatMap_congr fun j _ => ?_
  have hvals : ((rangeFrom (32 * j) 32).map fun i => readFloat h.vcfg (h.tag r) (h.elem r (h.tag r) i)) = h.blockAt r j := by
    rw [rangeFrom_eq_range', List.range'_eq_map_range, List.map_map]; rfl
  dsimp only
  rw [hvals, Hart.blockAt, List.map_map]
  refine List.map_congr_left fun i hi => ?_
  have hi := List.mem_range.1 hi
  rw [Hart.quantisedAt, show (j * 32 + i) / 32 = j by omega, Nat.mul_comm j]; rfl

theorem getElem?_quantised (h : Hart) (r : VIdx) {K i : Nat} (hi : i < 256 * K) :
    (h.quantised r (256 * K))[i]?.getD (.zero false) = h.quantisedAt r i := by
  rw [quantised_eq_map, List.getElem?_map, List.getElem?_range (by omega)]; rfl

/-- What R200 states of the quantised values of a block. -/
theorem quantisedAt_spec (h : Hart) (r : VIdx) (j : Nat) : ∃ e, BlockExponent (h.blockAt r j) e
    ∧ ∀ i < 32, Quantised e (h.floatAt r (32 * j + i)) (h.quantisedAt r (32 * j + i)) := by
  refine ⟨_, blockExponent_spec fun q hq => ?_, fun i hi => ?_⟩
  · obtain ⟨i, -, hi⟩ := List.mem_map.1 hq
    exact ne_zero_of_readFloat hi
  · rw [Hart.quantisedAt, show (32 * j + i) / 32 = j by omega]
    exact quantise_spec _ _

/-! ### SCOUT.A (R201) -/

/-- The words that SCOUT.A leaves in its tile: each accumulates the products of its quantised row and column. -/
def scoutWord (h : Hart) (t : TIdx) (va vb : VIdx) (r c : Nat) : Nat :=
  (accFloat h.vcfg (word h t r c) ((List.range (h.vlmax (h.tag va) / 256)).map fun x =>
    [h.quantisedAt va (r * (h.vlmax (h.tag va) / 256) + x), h.quantisedAt vb (c * (h.vlmax (h.tag va) / 256) + x)])).bits

/-- The tile that SCOUT.A leaves. -/
def scouted (h : Hart) (t : TIdx) (va vb : VIdx) : BitVec Config.tileBits :=
  updateTile (h.tile t) (fun _ => true) none (scoutWord h t va vb)

/-- The maximum of block `b` of a tile (R201). -/
def blockMax (v : Nat) (b : Nat) : Nat :=
  maxBits ((List.range 1024).map fun x => (fmtOf .f32).value (tileWord v (b / 8 * 32 + x / 32) (b % 8 * 32 + x % 32)))

theorem tileWord_scouted (h : Hart) (t : TIdx) (va vb : VIdx) {r c : Nat} (hr : r < 256) (hc : c < 256) :
    tileWord (scouted h t va vb).toNat r c = scoutWord h t va vb r c % 2 ^ 32 := by
  rw [scouted, tileWord_updateTile _ _ _ _ hr hc]; rfl

/-- A tile is updated alike by functions that agree on its words. -/
theorem updateTile_congr (t : Nat) (take : Nat → Bool) (mask : Option Word) {f g : Nat → Nat → Nat}
    (h : ∀ r < 256, ∀ c < 256, f r c = g r c) : updateTile t take mask f = updateTile t take mask g := by
  unfold updateTile tileOf
  refine congrArg (fun l => BitVec.ofNat _ (packWords 8192 l)) (List.map_congr_left fun r hr => ?_)
  have hr : r < 256 := by have := (mem_rangeFrom _ _ _).1 hr; omega
  split
  · refine congrArg (packWords 32) (List.map_congr_left fun c hc => ?_)
    rw [h r hr c (by have := (mem_rangeFrom _ _ _).1 hc; omega)]
  · rfl

/-- An element of a row of a register is one of the register. -/
theorem rowElem_lt {r K x : Nat} (hr : r < 256) (hx : x < K) : r * K + x < 256 * K :=
  calc r * K + x < r * K + K := by omega
    _ = (r + 1) * K := (Nat.succ_mul r K).symm
    _ ≤ 256 * K := Nat.mul_le_mul_right K hr

/-- The terms that SCOUT.A takes from its lists of quantised values. -/
theorem quantised_terms (h : Hart) (va vb : VIdx) {K r c : Nat} (hr : r < 256) (hc : c < 256) :
    ((rangeFrom 0 K).map fun k => [(h.quantised va (256 * K))[r * K + k]?.getD (.zero false),
        (h.quantised vb (256 * K))[c * K + k]?.getD (.zero false)])
      = (List.range K).map fun x => [h.quantisedAt va (r * K + x), h.quantisedAt vb (c * K + x)] := by
  rw [rangeFrom_eq_range', ← List.range_eq_range']
  refine List.map_congr_left fun x hx => ?_
  have hx := List.mem_range.1 hx
  rw [getElem?_quantised _ _ (rowElem_lt hr hx), getElem?_quantised _ _ (rowElem_lt hc hx)]

theorem maxWords_block (v b : Nat) : maxWords ((rangeFrom 0 32).flatMap fun r => (rangeFrom 0 32).map fun c =>
    (fmtOf .f32).value (tileWord v (b / 8 * 32 + r) (b % 8 * 32 + c))) = blockMax v b := by
  rw [maxWords_eq_maxBits, blockMax, show 1024 = 32 * 32 from rfl, map_range_mul, rangeFrom_eq_range', ← List.range_eq_range']
  refine congrArg maxBits (List.flatMap_congr fun r _ => List.map_congr_left fun c hc => ?_)
  have hc := List.mem_range.1 hc
  rw [show (r * 32 + c) / 32 = r by omega, show (r * 32 + c) % 32 = c by omega]

/-- The hart that SCOUT.A leaves: its tile and its destination written, vstart 0. -/
def afterScoutA (h : Hart) (vd : VIdx) (t : TIdx) (va vb : VIdx) : Hart :=
  (((h.setTile t (scouted h t va vb)).setElems vd .f32
    ((rangeFrom 0 64).map fun b => (b, blockMax (scouted h t va vb).toNat b))).setTag vd .f32).vdone

theorem exec_scoutA {s : State} {vd va vb : VIdx} {t : TIdx} (ht : TileReady s.hart t [vd, va, vb]) (hv : s.hart.vstart = 0)
    (ha : scoutTag (s.hart.tag va) = true) (hb : scoutTag (s.hart.tag vb) = true)
    (hw : width (s.hart.tag va) = width (s.hart.tag vb)) :
    exec (.scoutA vd t va vb) s = .next (retire 8 { s with hart := afterScoutA s.hart vd t va vb }) := by
  refine finish_ok ((run_bind_ok (run_mtxStart_of_tileReady ht hv)).trans ?_)
  rw [ha, hb, hw, bne_self_eq_false]
  refine (run_bind_ok (run_operandIf_false s)).trans ?_
  rw [updateTile_congr (g := scoutWord s.hart t va vb) _ _ _ fun r hr c hc => ?_]
  · simp only [maxWords_block, run_onHart]
    rfl
  · rw [scoutWord, word_eq_tileWord, quantised_terms s.hart va vb hr hc]

section
variable (h : Hart) (vd : VIdx) (t : TIdx) (va vb : VIdx)

/-- What SCOUT.A leaves of its tile; the destination apart, only the tile differs. -/
theorem tileWritten_afterScoutA :
    TileWritten h { afterScoutA h vd t va vb with vregs := h.vregs, vtags := h.vtags } t (scoutWord h t va vb) := by
  have hrest : { afterScoutA h vd t va vb with vregs := h.vregs, vtags := h.vtags } = (h.setTile t (scouted h t va vb)).vdone := by
    unfold afterScoutA Hart.vdone Hart.setTag Hart.setElems Hart.setTile
    rfl
  rw [hrest]
  exact tileWritten_setTile h t _ fun _ hr _ hc => tileWord_scouted h t va vb hr hc

theorem fflags_afterScoutA : (afterScoutA h vd t va vb).fflags = h.fflags := by simp [afterScoutA]

theorem tag_afterScoutA : (afterScoutA h vd t va vb).tag vd = .f32 := by simp [afterScoutA, Hart.tag, vget_set]

theorem tile_afterScoutA : (afterScoutA h vd t va vb).tile t = (scouted h t va vb).toNat :=
  congrArg BitVec.toNat ((vget_set h.tiles t t _).trans (if_pos rfl))

theorem vectorsKept_afterScoutA : VectorsKept [vd] h (afterScoutA h vd t va vb) :=
  fun r hr => vectorsKept_setElems_setTag (h.setTile t (scouted h t va vb)) vd .f32 _ r hr

/-- The elements of SCOUT.A's destination are the block maxima of the tile that it leaves. -/
theorem elem_afterScoutA {e : Nat} (he : e < h.vlmax .f32) : (afterScoutA h vd t va vb).elem vd .f32 e = if e < 64 then
      maxBits ((List.range 1024).map fun x =>
        (fmtOf .f32).value (word (afterScoutA h vd t va vb) t (e / 8 * 32 + x / 32) (e % 8 * 32 + x % 32)))
    else h.elem vd .f32 e := by
  have helem := elem_setElems_map (h.setTile t (scouted h t va vb)) vd .f32 64 (blockMax (scouted h t va vb).toNat) he
  simp only [word_eq_tileWord, tile_afterScoutA]
  rw [← blockMax]
  refine helem.trans ?_
  rw [show valBits Tag.f32 = 32 from rfl, blockMax, maxBits_mod]
  rfl

end

/-! ### SCOUT.T (R202) -/

/-- What SCOUT.T leaves at element `g`: the maximum of the element and its row of block maxima. -/
def scoutTop (h : Hart) (vd va : VIdx) (g : Nat) : Nat :=
  maxBits (readFloat h.vcfg .f32 (h.elem vd .f32 g) :: (List.range 8).map fun c => readFloat h.vcfg .f32 (h.elem va .f32 (8 * g + c)))

/-- The decisions of SCOUT.T on a row of block maxima. -/
def scoutGroup (h : Hart) (vd va : VIdx) (g : Nat) : List Bool :=
  keepGroup h.kthr ((fmtOf .f32).value (scoutTop h vd va g)) ((List.range 8).map fun c => readFloat h.vcfg .f32 (h.elem va .f32 (8 * g + c)))

/-- The keep mask that SCOUT.T leaves. -/
def scoutMask (h : Hart) (vd va : VIdx) : Word := BitVec.ofNat 64 (packBits ((List.range 8).flatMap (scoutGroup h vd va)))

/-- The hart that SCOUT.T leaves: its keep mask and its destination written, vstart 0. -/
def afterScoutT (h : Hart) (k : KIdx) (vd va : VIdx) : Hart :=
  (({ h with keep := h.keep.set k (scoutMask h vd va) } : Hart).setElems vd .f32 ((rangeFrom 0 8).map fun g => (g, scoutTop h vd va g))).vdone

theorem exec_scoutT {s : State} {k : KIdx} {vd va : VIdx} (hb : BanksOn s.hart) (hv : s.hart.vstart = 0) (hd : s.hart.tag vd = .f32)
    (ha : s.hart.tag va = .f32) (hvl : s.hart.vln ≤ s.hart.vlmax .f32) :
    exec (.scoutT k vd va) s = .next (retire 8 { s with hart := afterScoutT s.hart k vd va }) := by
  have hstart : mtxStart [] [vd, va] s = .ok s.hart s := run_mtxStart hb hv (List.forall_mem_nil _) (by simp [hd, ha, hvl])
  refine finish_ok ((run_bind_ok hstart).trans ?_)
  rw [hd, ha]
  refine (run_bind_ok (run_operandIf_false s)).trans ?_
  simp only [maxWords_eq_maxBits, run_onHart, List.map_map, List.flatMap_map, Function.comp_def]
  simp only [afterScoutT, scoutMask, scoutTop, rangeFrom_eq_range', List.range_eq_range']
  rfl

theorem vectorsKept_afterScoutT (h : Hart) (k : KIdx) (vd va : VIdx) : VectorsKept [vd] h (afterScoutT h k vd va) :=
  fun r hr => vectorsKept_setElems { h with keep := h.keep.set k (scoutMask h vd va) } vd .f32 _ r hr

/-- The elements of SCOUT.T's destination are the running maxima. -/
theorem elem_afterScoutT (h : Hart) (k : KIdx) (vd va : VIdx) {e : Nat} (he : e < h.vlmax .f32) :
    (afterScoutT h k vd va).elem vd .f32 e = if e < 8 then scoutTop h vd va e else h.elem vd .f32 e := by
  refine (elem_setElems_map { h with keep := h.keep.set k (scoutMask h vd va) } vd .f32 8 (scoutTop h vd va) he).trans ?_
  rw [show valBits Tag.f32 = 32 from rfl, scoutTop, maxBits_mod]
  rfl

/-- Bit `i` of packed bits. -/
theorem testBit_packBits (l : List Bool) (i : Nat) : (packBits l).testBit i = l[i]?.getD false := by
  induction l generalizing i with
  | nil => simp [packBits]
  | cons b l ih =>
    rw [packBits, Nat.add_comm, ← pow_one 2, Nat.testBit_two_pow_mul_add _ (by cases b <;> decide)]
    cases i with
    | zero => cases b <;> rfl
    | succ i => rw [if_neg (by omega), Nat.add_sub_cancel, ih]; rfl

/-- Bit `i` of packed rows of `n` bits each. -/
theorem getElem?_flatMap_range {n m : Nat} (f : Nat → List Bool) (hf : ∀ g, (f g).length = n) {g c : Nat} (hg : g < m) (hc : c < n) :
    ((List.range m).flatMap f)[n * g + c]? = (f g)[c]? := by
  induction m with
  | zero => omega
  | succ m ih =>
    have hlen : ((List.range m).flatMap f).length = n * m := by
      simp [List.length_flatMap, hf, Nat.mul_comm]
    rw [List.range_succ, List.flatMap_append, List.flatMap_singleton]
    by_cases hgm : g = m
    · rw [List.getElem?_append_right (by rw [hlen, hgm]; omega), hlen, hgm, Nat.add_sub_cancel_left]
    · have hlt : n * g + c < n * m :=
        calc n * g + c < n * g + n := by omega
          _ = n * (g + 1) := (Nat.mul_succ n g).symm
          _ ≤ n * m := Nat.mul_le_mul_left n (by omega)
      rw [List.getElem?_append_left (by rw [hlen]; exact hlt), ih (by omega)]

/-- Whether block maximum `i` of a row stands before maximum `j` in the order of R202: larger, or equal and of lower index; a NaN stands
before nothing. -/
def standsBefore (M : Nat → FVal) (i j : Nat) : Bool :=
  (M j).ltNum (M i) || (!(M i).ltNum (M j) && !(M i).isNan && decide (i < j))

/-- The floor that the maxima of a row must reach where the row keeps all that do (R202). -/
def scoutFloor (k : Kthr) (top : FVal) : FVal :=
  let tau := (fmtOf .f32).value k.tau.toNat
  if k.mode = .relative then (fmtOf .f32).value ((fmtOf .f32).rnd .even (fAdd .nearestEven top tau.negate).1).bits else tau

theorem length_keepGroup (k : Kthr) (top : FVal) (m : List FVal) : (keepGroup k top m).length = m.length := by
  unfold keepGroup
  split <;> simp

/-- Reaching a floor: no NaN, and a NaN floor is reached by every number. -/
theorem reaches_iff (x th : FVal) : (if th.isNan then !x.isNan else x.atLeast th) = true ↔ x.isNan = false ∧ (th.isNan = true ∨ x.ltNum th = false) := by
  rw [FVal.atLeast]
  cases th.isNan <;> simp

/-- The decision on maximum `c` of a row (R202). -/
theorem keepGroup_iff (k : Kthr) (top : FVal) (M : Nat → FVal) {c : Nat} (hc : c < 8) :
    (keepGroup k top ((List.range 8).map M))[c]?.getD false = true ↔ (M c).isNan = false
      ∧ if k.mode = .topm then ((List.range 8).filter fun i => standsBefore M i c).length ≤ k.topm.val
        else (scoutFloor k top).isNan = true ∨ (M c).ltNum (scoutFloor k top) = false := by
  unfold keepGroup scoutFloor
  split
  case h_1 hmode | h_2 hmode =>
    simp only [hmode, List.map_map, List.getElem?_map, List.getElem?_range hc, Option.map_some, Option.getD_some, Function.comp_apply,
      reduceCtorEq, if_false, if_true]
    exact reaches_iff _ _
  case h_3 hmode =>
    simp only [zipIdx_map_range, List.map_map, List.getElem?_map, List.getElem?_range hc, hmode, List.filter_map, List.length_map]
    simp [Function.comp_def, standsBefore]

/-- Bit `c` of row `g` of the keep mask that SCOUT.T leaves is the decision on that maximum. -/
theorem getLsbD_scoutMask (h : Hart) (vd va : VIdx) {g c : Nat} (hg : g < 8) (hc : c < 8) :
    (scoutMask h vd va).getLsbD (8 * g + c) = (scoutGroup h vd va g)[c]?.getD false := by
  have hlen (g : Nat) : (scoutGroup h vd va g).length = 8 := by rw [scoutGroup, length_keepGroup, List.length_map, List.length_range]
  rw [scoutMask, BitVec.getLsbD_ofNat, decide_eq_true (by omega), Bool.true_and, testBit_packBits, getElem?_flatMap_range _ hlen hg hc]

/-! ### Keep masks (R203) -/

section
variable {s : State} (hb : BanksOn s.hart) (hv : s.hart.vstart = 0) (k a b : KIdx)
include hb hv

theorem run_mtxStart_nil : mtxStart [] [] s = .ok s.hart s := run_mtxStart hb hv (List.forall_mem_nil _) (List.forall_mem_nil _)

theorem keepOp_eq (f : Word → Word → Word) : keepOp f k a b s = .next (retire 8 { s with
    hart := { s.hart with vstart := 0, keep := s.hart.keep.set k (f (s.hart.keep.get a) (s.hart.keep.get b)) } }) :=
  finish_ok (run_bind_ok (run_mtxStart_nil hb hv))

theorem returns_kpop (hq : s.hart.retq.length < 16) : Returns (.kpop k) s ((List.range 64).filter (s.hart.keep.get k).getLsbD).length := by
  have hroom : (s.hart.retq.length == 16) = false := by simpa using (Nat.ne_of_lt hq)
  have hneed : needReturn (.kpop k) s = .ok () s := by
    rw [needReturn, run_bind_ok (run_get s), hroom]; rfl
  have hbits : bitOf (s.hart.keep.get k).toNat = (s.hart.keep.get k).getLsbD := funext (bitOf_toNat _)
  refine finish_ok ((run_bind_ok hneed).trans ((run_bind_ok (run_mtxStart_nil hb hv)).trans ?_))
  rw [popCount_eq_length, hbits]
  rfl

end

/-! ### The statement of the scout pass -/

theorem scoutTag_of_mem {t : Tag} (h : t ∈ [Tag.f32, .bf16, .f16, .e5m2, .e4m3]) : scoutTag t = true := by
  simp only [List.mem_cons, List.not_mem_nil, or_false] at h
  rcases h with rfl | rfl | rfl | rfl | rfl <;> rfl

/-- Settles O41: SCOUT.A and SCOUT.T by what they leave in the tile, the keep mask and the destination; the quantised values by
`quantisedAt_spec` and the decisions by `keepGroup_iff`. -/
theorem scoutAndKeepMasks : Obligations.ScoutAndKeepMasks := by
  unfold Obligations.ScoutAndKeepMasks
  intro s vd va vb t k a b h hb hv
  refine ⟨fun ht ha hb' hw => ?scoutA, fun hd ha hvl => ?scoutT, keepOp_eq hb hv k a b _, keepOp_eq hb hv k a b _,
    fun hq => returns_kpop hb hv k hq⟩
  case scoutA =>
    refine ⟨_, h.quantisedAt va, h.quantisedAt vb, exec_scoutA ht hv (scoutTag_of_mem ha) (scoutTag_of_mem hb') hw, ?quantised,
      tileWritten_afterScoutA h vd t va vb, fflags_afterScoutA h vd t va vb, vectorsKept_afterScoutA h vd t va vb,
      tag_afterScoutA h vd t va vb, fun e he => elem_afterScoutA h vd t va vb he⟩
    intro r q hq j _
    simp only [List.mem_cons, List.not_mem_nil, or_false, Prod.mk.injEq] at hq
    rcases hq with ⟨rfl, rfl⟩ | ⟨rfl, rfl⟩
    · exact quantisedAt_spec h _ j
    · exact quantisedAt_spec h _ j
  case scoutT =>
    refine ⟨_, exec_scoutT hb hv hd ha hvl, rfl, vectorsKept_afterScoutT h k vd va, fun x hx => (vget_set _ _ _ _).trans (if_neg hx),
      fun g c hg hc => ?_, fun e he => elem_afterScoutT h k vd va he⟩
    refine Iff.trans ?_ (keepGroup_iff h.kthr ((fmtOf .f32).value (scoutTop h vd va g))
      (fun c => readFloat h.vcfg .f32 (h.elem va .f32 (8 * g + c))) hc)
    rw [← scoutGroup, ← getLsbD_scoutMask h vd va hg hc]
    exact iff_of_eq (congrArg (fun w : Word => w.getLsbD (8 * g + c) = true) ((vget_set _ _ _ _).trans (if_pos rfl)))

end Sys2Proof.Machine
end
